-- ==== Sys2Proof/Word.lean ====
section
/-! DEFINITION. The byte, fixed tables and their two plainest operations. -/

namespace Sys2Proof

/-- One byte of a link or of a stored record (0.6.10: bit 7 is the most significant). -/
abbrev Byte := BitVec 8

/-- A stored record or a message's payload: 20 bytes (1.1, R161). -/
abbrev Payload := Vector Byte 20

/-- The table whose entry `i` is `f i`. -/
def tab {α : Type} {n : Nat} (f : Fin n → α) : Vector α n :=
  ⟨(List.ofFn f).toArray, by simp⟩

/-- The table `v` with entry `i` replaced by `x`. -/
def upd {α : Type} {n : Nat} (v : Vector α n) (i : Fin n) (x : α) : Vector α n :=
  v.set i.val x i.isLt

/-- The numbers below `n`, in increasing order. -/
def allFin (n : Nat) : List (Fin n) := List.ofFn fun i => i

/-- The payload whose twenty bytes are zero. -/
def Payload.zero : Payload := tab fun _ => 0

end Sys2Proof
end

