-- ==== Sys2Proof/Syntax.lean ====
section
/-! DEFINITION. The commands: one constructor for each row of spec/opcode_table.json. -/

namespace Sys2Proof

/-- What a control slot carries beside its message code (R161): tag, two indices, payload. -/
structure Msg where
  tag : Byte
  indexA : Byte
  indexB : Byte
  payload : Payload
deriving DecidableEq, Repr

/-- One byte of the downstream stream, and the instant at which its first bit reaches the part, in ns (R150). -/
structure LinkByte where
  instant : Nat
  byte : Byte
deriving DecidableEq, Repr

/-- The steps of the part (95_what_each_step_holds.md), in the order of the table. -/
inductive Instr where
  /-- R17: power is applied. -/
  | powerUpReset
  /-- R150: the next byte of the downstream stream, and those that come with it; they may begin, go on with or end a frame
  (log 5). -/
  | sampleFrameArrival (first : LinkByte) (rest : List LinkByte)
  /-- R150: in CHECK no good frame has arrived in time. -/
  | checkTimeout
  /-- R151: the arrival window closes. -/
  | arrivalWindowClose
  /-- R157: a period of the answer-frame clock begins. -/
  | answerFrameClockPeriod
  /-- R69: a whole readback frame has been received. -/
  | readbackFrameReceived (frame : Vector Byte 40)
  /-- R78: the leak of a physical channel falls due. -/
  | leakStep (p : Fin 14)
  /-- R85: the head request is served at a boundary. -/
  | failoverService
  /-- R86: the zero was found, so SWITCHING begins at the boundary. -/
  | zeroFound
  /-- R87: the M-th SWITCHING frame is over. -/
  | failoverComplete
  /-- R95: the scanner reads another level on input line `i` (`high`: the raw level). -/
  | inputLineChange (i : Fin 8) (high : Bool)
  /-- R96: the candidate of input `i` is accepted. -/
  | acceptedEdge (i : Fin 8)
  /-- R102: the window of input `i` in CHATTER ends. -/
  | chatterEnd (i : Fin 8)
  /-- R100: the window of input `i` in NORMAL ends. -/
  | chatterWindowClose (i : Fin 8)
  /-- R109: the breaker's deadline is reached. -/
  | breakerOperationComplete
  /-- R116: the pulse deadline of line `k` is reached. -/
  | pulsePeriodEnd (k : Fin 4)
  /-- R122: the timeout of slot `k` falls due. -/
  | timeoutDue (k : Fin 8)
  /-- R122: slot `k` expires. -/
  | timerExpired (k : Fin 8)
  /-- R14: the last step of a verification decides its outcome. -/
  | verificationOutcome
  /-- R31: a pending CANCEL takes effect. -/
  | armCancel
  /-- R22: a pending START takes effect. -/
  | testStart
  /-- R25: the frames in state have reached the dwell. -/
  | dwellDone
  /-- R26: the lowest latched exit is taken. -/
  | stateExit
  /-- R30: the duration limit is reached. -/
  | durationLimit
  /-- R33: a pending END takes effect. -/
  | endRequest
  /-- R35: the ending countdown runs out. -/
  | testComplete
  /-- R3. -/
  | writeGlobals (m : Msg)
  /-- R4, R5. -/
  | writeState (m : Msg)
  /-- R6. -/
  | writeChannel (m : Msg)
  /-- R7. -/
  | writeTimer (m : Msg)
  /-- R8, R103. -/
  | writeInput (m : Msg)
  /-- R8. -/
  | writeBreaker (m : Msg)
  /-- R7. -/
  | writeCapture (m : Msg)
  /-- R62. -/
  | writeLimit (m : Msg)
  /-- R73. -/
  | writeSupervision (m : Msg)
  /-- R74. -/
  | writeSupervisionGlobal (m : Msg)
  /-- R156. -/
  | setCadence (m : Msg)
  /-- R155. -/
  | resync (m : Msg)
  /-- R165. -/
  | read (m : Msg)
  /-- R12. -/
  | arm (m : Msg)
  /-- R19. -/
  | start (m : Msg)
  /-- R31. -/
  | abort (m : Msg)
  /-- R140. -/
  | release (m : Msg)
  /-- R146. -/
  | ackAttention (m : Msg)
  /-- R146. -/
  | clearAttention (m : Msg)
  /-- R143. -/
  | pauseReports (m : Msg)
  /-- R143. -/
  | resumeReports (m : Msg)
  /-- R90. -/
  | clearChannel (m : Msg)
  /-- R91. -/
  | restoreMap (m : Msg)
  /-- R166. -/
  | queryStatus (m : Msg)
  /-- R167. -/
  | resetPart (m : Msg)
  /-- R163: a message whose code is 00h or above 19h. -/
  | unknownMessage (code : Byte) (m : Msg)
deriving DecidableEq, Repr

end Sys2Proof
end

