-- ==== Sys2Proof/Decode.lean ====
section
/-! DEFINITION. What the words of the opcode table spell. -/

namespace Sys2Proof

/-- The table's rows give no bits to any command ("fields": [] in every row, no fixed bits), so no word spells one.
A message's code stands in a control slot, which has 24 bytes (R161), and is read by `Machine.handlerOf`. -/
def decodeTableWord (_nbits _w : Nat) : Option Instr := none

end Sys2Proof
end

