-- ==== Sys2Proof/Config.lean ====
section
/-! DEFINITION. What the spec leaves free. -/

namespace Sys2Proof

/-- FREE VALUE (log 6). Where the spec says that either of several orders may arise (R111, R128, R168), the model takes
one by this function applied to the number of choices taken before. It has no body: nothing can be proved of it. -/
opaque Config.choice : Nat → Nat

/-- FREE VALUE (log 28). The wait frames (at even places) and switch frames (at odd places) that QUERY_STATUS shows while the
failover engine is QUIET, whose context then has no meaning (5.1, 11.6). It has no body. -/
opaque Config.quietFrames : Nat → Nat

end Sys2Proof
end

