-- ==== Sys2Proof/Machine/Types.lean ====
section
/-! DEFINITION. The kinds of state and of record that the blocks hold. -/

namespace Sys2Proof.Machine

/-- 0.5: the life-cycle position of the Sequencer. -/
inductive Phase where | idle | verifying | armed | running | ending
deriving DecidableEq, Repr

/-- 10.1. -/
inductive RecvState where | hunt | check | locked
deriving DecidableEq, Repr

/-- R36. -/
inductive EndReason where | finalState | duration | aborted | channelFailed | streamLost
deriving DecidableEq, Repr

/-- R23. -/
inductive StartCause where | message | input
deriving DecidableEq, Repr

/-- 2.1: start cause, start input and trigger offset. -/
structure StartRecord where
  cause : StartCause
  input : Nat
  offset : Nat
deriving DecidableEq, Repr

/-- 2.1: the pending request. -/
inductive Request where
  | none
  | start (r : StartRecord)
  | cancel
  | stop (r : EndReason)
deriving DecidableEq, Repr

/-- What the Sequencer settles at a frame boundary (R18, R22, R31, R33, R35). -/
inductive Decision where
  | stay
  | change (p : Phase)
  | cancel
  | start (r : StartRecord)
  | stop (r : EndReason)
  | duration
  | exit (k : Fin 4)
  | complete
deriving DecidableEq, Repr

/-- R9: the kinds of condition. -/
inductive Kind where
  | none | dwellDone | inputActive | inputInactive | breakerOpen | breakerClosed | timerDone | rampEnd | stateEntry
  | testStart
deriving DecidableEq, Repr

/-- 1.3: a kind with an argument; in edge sense, the event that occurs. -/
structure Cond where
  kind : Kind
  arg : Nat
deriving DecidableEq, Repr

/-- 1.5: cause of a verification failure (R15). -/
inductive PlanCause where | nextState | remaining | crc
deriving DecidableEq, Repr

/-- 1.5: the next item to check. -/
inductive Position where | state (s : Nat) | remaining
deriving DecidableEq, Repr

/-- 1.5: the verification state of the Plan Store. -/
structure Verification where
  expected : Nat
  position : Position
  crc : BitVec 16
  failure : Option (Nat × PlanCause)
deriving DecidableEq, Repr

/-- 3.3: the effective modes. -/
inductive Mode where | zero | pass | scale
deriving DecidableEq, Repr

/-- 3.1: one logical channel of the Injection Engine. -/
structure Channel where
  ring : List Int
  mode : Mode
  gacc : Nat
  step : Int
  d16 : Nat
  acc : Int
  decay : Nat
  rampEnd : Bool
  clip : Nat
  gain : Nat
  y : Int
deriving DecidableEq, Repr

/-- 4.1: what has been received for the last drive frame. -/
inductive Judgment where | openNone | openBad | settled
deriving DecidableEq, Repr

/-- 5.3. -/
inductive ChanState where | spare | mapped | failed
deriving DecidableEq, Repr

/-- 5.1: what the supervisor holds for one physical channel. -/
structure ChanSup where
  state : ChanState
  tolerance : Nat
  threshold : Nat
  leakPeriod : Nat
  bucket : Nat
  countdown : Nat
deriving DecidableEq, Repr

/-- R81: cause of the readback fault. -/
inductive FaultCause where | reference | link
deriving DecidableEq, Repr

/-- 5.1: the failover in flight; `prevY` is the output of its channel in the frame before (R86). -/
structure FailoverCtx where
  logical : Fin 12
  src : Fin 14
  dst : Fin 14
  wait : Nat
  switch : Nat
  prevY : Int
deriving DecidableEq, Repr

/-- 5.7: the failover engine. -/
inductive FailoverEngine where
  | quiet
  | awaitZero (c : FailoverCtx)
  | switching (c : FailoverCtx)
deriving DecidableEq, Repr

/-- R80. -/
inductive Disposition where | joined | disabled | ending
deriving DecidableEq, Repr

/-- R89. -/
inductive FailoverOutcome where | done | noSpareInhibit | noSpareAbort | abandoned
deriving DecidableEq, Repr

/-- 6.1: a change of level that waits out its debounce; `start` is a scan position. -/
structure Candidate where
  active : Bool
  start : Nat
deriving DecidableEq, Repr

/-- Whether an input is to be read afresh: at the next scanned sub-tick (R93, R104), or from sub-tick 1 on (R103). -/
inductive Reload where | no | now | afterZero
deriving DecidableEq, Repr

/-- 6.1: one input of the scanner; `raw` is the level of its line (`true`: electrically high). -/
structure InputScan where
  raw : Bool
  cfg : Payload
  reload : Reload
  acted : Bool
  settled : Bool
  cand : Option Candidate
  bounce : Nat
  chatter : Bool
  window : Option Nat
  edges : Nat
  suppressed : Nat
deriving DecidableEq, Repr

/-- 7.1. -/
inductive BreakerState where | closed | opening | opened | closing
deriving DecidableEq, Repr

/-- 7.1: the accepted edge that began the operation in flight. -/
structure Operation where
  start : Int
  input : Nat
  stamp : Nat
  beforeOrigin : Bool
deriving DecidableEq, Repr

/-- 7.5. -/
inductive LineMode where | low | high | breakerA | breakerB | pulse
deriving DecidableEq, Repr

/-- 7.5: one output line; `high` is the pulse phase HIGH_PERIOD. Its level is computed (`lineLevel`). -/
structure Line where
  mode : LineMode
  high : Bool
  deadline : Option Int
deriving DecidableEq, Repr

/-- 8.1. -/
inductive SlotState where | disabled | waiting | running | stopped | expired
deriving DecidableEq, Repr

/-- R128. -/
inductive TimerOutcome where | stopped | timeout | notStarted | cutShort
deriving DecidableEq, Repr

/-- 8.1: one timer slot. Expiry held stays set once the slot has left RUNNING (DESIGN CHOICE, log 40). -/
structure Slot where
  state : SlotState
  start : Option Nat
  expiry : Option Nat
  held : Bool
  early : Bool
  disturbed : Bool
  startBo : Bool
  outcome : Option TimerOutcome
deriving DecidableEq, Repr

/-- 9.4. -/
inductive BufState where | free | recording | triggered | full | sending | sent
deriving DecidableEq, Repr

/-- R134: one frame's outputs and levels (`true`: ACTIVE, HIGH). -/
structure Row where
  gap : Bool
  outputs : Vector Int 12
  inputs : Vector Bool 8
  lines : Vector Bool 4
deriving DecidableEq, Repr

/-- 9.1: one capture buffer, oldest row first; `sentRows` counts the rows already sent. -/
structure Buffer where
  state : BufState
  testNumber : Nat
  rows : List Row
  trigRow : Nat
  trigFrame : Nat
  trigTime : Nat
  truncated : Bool
  sentRows : Nat
deriving DecidableEq, Repr

/-- 9.1. -/
inductive Activity where | off | waiting | on
deriving DecidableEq, Repr

/-- 9.1: the kind of the most recent record or row placed in a return slot. -/
inductive DataItem where | event | row
deriving DecidableEq, Repr

/-- R145: the attention conditions. -/
inductive Attn where
  | streamLost | channelFailed | readbackFault | testAbnormalEnd | reportDiscard | captureWaiting
deriving DecidableEq, Repr

/-- R161: the statuses of a reply. -/
inductive Status where
  | done | badValue | wrongPhase | wrongState | locked | noEntry | unknown | reportsPending
deriving DecidableEq, Repr

/-- The record types with their payload fields (each as its producing chapter gives it). -/
inductive Body where
  /-- R23. -/
  | testStart (r : StartRecord) (stateCount checksum : Nat)
  /-- R28; 255 stands for no previous state and no exit. -/
  | stateEntered (state prev exit : Nat) (self final : Bool) (entryCount : Nat)
  /-- R28. -/
  | stateSummary (state leftBy frames : Nat) (clips : Vector Nat 12)
  /-- R36. -/
  | testEnd (reason : EndReason) (finalState framesRun entryCount : Nat)
  /-- R99. -/
  | inputEdge (input : Fin 8) (active : Bool) (bounce : Nat) (beforeOrigin : Bool) (acceptedIn : Nat)
  /-- R101. -/
  | chatterStart (input : Fin 8) (active : Bool) (edges windowFrames : Nat) (beforeOrigin : Bool)
  /-- R102. -/
  | chatterEnd (input : Fin 8) (suppressed : Nat) (active : Bool) (window : Nat)
  /-- R112. -/
  | breaker (opened tripFree : Bool) (input edgeStamp operating count : Nat) (beforeOrigin edgeBeforeOrigin : Bool)
  /-- R128. -/
  | timerResult (slot : Fin 8) (outcome : TimerOutcome) (start elapsed micros : Nat)
      (early disturbed startBo stopBo : Bool) (probe : Fin 12) (gain lag : Nat)
  /-- R80. -/
  | channelFailed (phys : Fin 14) (logical : Option (Fin 12)) (mismatch overload thermal : Bool) (bucket : Nat)
      (measured commanded : Int) (disposition : Disposition)
  /-- R89. -/
  | failover (logical : Fin 12) (outcome : FailoverOutcome) (src dst : Option (Fin 14)) (wait switch : Nat)
  /-- R83. -/
  | readback (cleared : Bool) (cause : FaultCause) (reference run : Nat)
  /-- R153. -/
  | streamGap (run first : Nat) (loss : Bool)
  /-- R153. -/
  | streamSkip (expected received difference : Nat)
  /-- R15. -/
  | planVerified (checksum stateCount : Nat)
  /-- R15. -/
  | planRejected (computed expected item : Nat) (cause : PlanCause)
  /-- R57. -/
  | rampEnd (channel : Fin 12) (state gain : Nat)
  /-- R141. -/
  | captureReady (buffer : Fin 4) (rows trigRow trigFrame trigTime : Nat) (truncated : Bool)
  /-- R141: `after` is the buffer that became FULL, none for AT_START. -/
  | captureUnavailable (after : Option (Fin 4)) (sent listed : Nat)
deriving DecidableEq, Repr

/-- A record made by a block and not yet offered to the event queue. `apart`: made at a boundary by a block whose state is
apart from the Sequencer's, so that it may join before or after the Sequencer's records (R168). -/
structure Made where
  testNo : Nat
  time : Nat
  body : Body
  apart : Bool
deriving DecidableEq, Repr

/-- 9.2: an event record in the queue. -/
structure Record where
  lost : Nat
  testNo : Nat
  time : Nat
  body : Body
deriving DecidableEq, Repr

/-- R161: the 24 bytes of a control slot. -/
structure ControlSlot where
  code : Byte
  msg : Msg
deriving DecidableEq, Repr

/-- R164: the reply that is being built for the present frame. -/
structure Reply where
  tag : Byte
  status : Status
  code : Byte
  payload : List Byte
deriving DecidableEq, Repr

/-- R151: the good frame received in the open window. -/
structure HeldFrame where
  arrival : Nat
  sequence : Nat
  samples : Vector Int 12
  slot : ControlSlot
deriving DecidableEq, Repr

/-- How far the frame-taken event in progress has come (R162): the frame is taken; the Sequencer has settled the boundary;
the other blocks have and the exit latches are set; the message is handled; the verification step is done; no event is in
progress. -/
inductive Stage where | closed | taken | settled | ready | handled | stepped
deriving DecidableEq, Repr

end Sys2Proof.Machine
end

