-- ==== Sys2Proof/Machine/State.lean ====
section
/-! DEFINITION. The state of the part, block by block, and its value after a power-up reset. -/

namespace Sys2Proof.Machine

/-- The spec gives the part no stop: every command ends in a next state, so no fault is raised (log 16). -/
inductive Fault
deriving DecidableEq, Repr

/-- Why a command has no meaning. -/
inductive Refusal where
  /-- Raised by `exec` alone, for a row that has no meaning yet (safe: the run stops). No row of the table is left so. -/
  | notModelled (mnemonic : String)
deriving DecidableEq, Repr

/-- 10.1: the Stream Receiver. `stream` holds the bytes of the downstream stream that may yet be a frame (R150), `resync`: a
RESYNC has been answered and the receiver leaves LOCKED once the answer frame is sent (R155). -/
structure Receiver where
  state : RecvState
  cadenceNow : Nat
  cadenceNext : Nat
  cycle : Nat
  gapLimit : Nat
  checkCount : Nat
  reference : Nat
  expected : Nat
  held : Option HeldFrame
  stream : List LinkByte
  lastSeq : Nat
  gapRun : Nat
  firstGap : Nat
  frameCounter : Nat
  framesTaken : Nat
  crcDiscards : Nat
  windowDiscards : Nat
  gapFrames : Nat
  losses : Nat
  resync : Bool
deriving DecidableEq, Repr

/-- R94, R157: the slot or answer-frame period in progress: its start and length in ns, the sub-tick last scanned, whether
its sixteen sub-ticks are over, and the frames of the scan counted so far (R100). -/
structure Clock where
  slotStart : Nat
  slotLen : Nat
  subtick : Nat
  slotDone : Bool
  scanFrame : Nat
deriving DecidableEq, Repr

/-- 1.1: the Plan Store. -/
structure Plan where
  globals : Payload
  part0 : Vector Payload 32
  part1 : Vector Payload 32
  channels : Vector (Vector Payload 12) 32
  timers : Vector Payload 8
  inputs : Vector Payload 8
  breaker : Payload
  capture : Payload
  verification : Option Verification
deriving DecidableEq, Repr

/-- 2.1: the Sequencer. `next` is a change of phase that the Plan Store has asked for at the next boundary. -/
structure Sequencer where
  phase : Phase
  next : Option Phase
  request : Request
  testNumber : Nat
  testFrame : Nat
  stateInForce : Fin 32
  framesInState : Nat
  entryCount : Nat
  latches : Vector Bool 4
  countdown : Nat
  endReason : Option EndReason
  startRecord : Option StartRecord
deriving DecidableEq, Repr

/-- 4.1: the Output Stage. `limitPrev` is the limit table as it stood at the end of the frame before (R53), `lastSamples` the
samples of the drive frame last sent, `delivered` the outputs delivered for the present frame (R63). -/
structure OutputStage where
  limit : Vector Nat 14
  written : Vector Bool 14
  limitPrev : Vector Nat 14
  map : Vector (Option (Fin 14)) 12
  nextSeq : Nat
  lastSeq : Option Nat
  lastSamples : Vector Int 14
  history : List (Nat × Vector Int 14)
  judgment : Judgment
  valid : Nat
  crcBad : Nat
  echoBad : Nat
  duplicate : Nat
  missing : Nat
  delivered : Vector Int 12
deriving DecidableEq, Repr

/-- 5.1: the Output Supervisor. `abortPolicy`: the no-spare policy is ABORT. -/
structure Supervisor where
  chan : Vector ChanSup 14
  latency : Nat
  refTol : Nat
  confirm : Nat
  operate : Nat
  enable : Bool
  abortPolicy : Bool
  fault : Option FaultCause
  refRun : Nat
  linkRun : Nat
  recRun : Nat
  lastRef : Nat
  requests : List (Fin 12)
  engine : FailoverEngine
deriving DecidableEq, Repr

/-- 6.1: the Input Scanner; `pos` is the scan position last scanned, `origin` that of sub-tick 0 of test frame 0. -/
structure Scanner where
  inputs : Vector InputScan 8
  pos : Nat
  origin : Nat
deriving DecidableEq, Repr

/-- 7.1: the Breaker Model. -/
structure Breaker where
  state : BreakerState
  deadline : Option Int
  operation : Option Operation
  count : Nat
deriving DecidableEq, Repr

/-- 8.1: the Trip Timer Array (`gate`: OPEN). -/
structure TimerArray where
  gate : Bool
  slots : Vector Slot 8
deriving DecidableEq, Repr

/-- 9.1: the Report Unit. `made` holds the records made in the event in progress, until they are offered to the queue. -/
structure Report where
  queue : List Record
  discard : Nat
  buffers : Vector Buffer 4
  activity : Activity
  sendList : List (Fin 4)
  gateOpen : Bool
  lastItem : DataItem
  pause : Bool
  attention : Vector Bool 6
  made : List Made
deriving DecidableEq, Repr

/-- The frame-taken event in progress, and what later sub-ticks of the present frame read of it (log 3). -/
structure FrameEvent where
  stage : Stage
  gap : Bool
  slot : Option ControlSlot
  decision : Decision
  disturbed : Bool
  computed : Bool
  served : Bool
deriving DecidableEq, Repr

/-- The part. `answerOut` and `driveOut` are the bytes of the answer and drive frame last sent (empty: none yet), `choices`
counts the free choices taken (log 6), `pending` holds the commands that wait, first in first out (log 1). -/
structure State where
  recv : Receiver
  clock : Clock
  plan : Plan
  seq : Sequencer
  eng : Vector Channel 12
  out : OutputStage
  sup : Supervisor
  scan : Scanner
  brk : Breaker
  lines : Vector Line 4
  timers : TimerArray
  rep : Report
  reply : Option Reply
  frame : FrameEvent
  answerOut : List Byte
  driveOut : List Byte
  choices : Nat
  pending : List Instr
deriving DecidableEq, Repr

/-- R149. -/
def Receiver.reset : Receiver where
  state := .hunt
  cadenceNow := 250000
  cadenceNext := 250000
  cycle := 80
  gapLimit := 4
  checkCount := 0
  reference := 0
  expected := 0
  held := none
  stream := []
  lastSeq := 0
  gapRun := 0
  firstGap := 0
  frameCounter := 0
  framesTaken := 0
  crcDiscards := 0
  windowDiscards := 0
  gapFrames := 0
  losses := 0
  resync := false

/-- R93, R157: the first period of the answer-frame clock begins next. -/
def Clock.reset : Clock where
  slotStart := 0
  slotLen := 0
  subtick := 15
  slotDone := true
  scanFrame := 0

/-- R1. -/
def Plan.reset : Plan where
  globals := Payload.zero
  part0 := Vector.replicate 32 Payload.zero
  part1 := Vector.replicate 32 Payload.zero
  channels := Vector.replicate 32 (Vector.replicate 12 Payload.zero)
  timers := Vector.replicate 8 Payload.zero
  inputs := Vector.replicate 8 Payload.zero
  breaker := Payload.zero
  capture := Payload.zero
  verification := none

/-- R17. -/
def Sequencer.reset : Sequencer where
  phase := .idle
  next := none
  request := .none
  testNumber := 0
  testFrame := 0
  stateInForce := 0
  framesInState := 0
  entryCount := 0
  latches := Vector.replicate 4 false
  countdown := 0
  endReason := none
  startRecord := none

/-- R41. -/
def Channel.reset : Channel where
  ring := List.replicate 256 0
  mode := .zero
  gacc := 0
  step := 0
  d16 := 0
  acc := 0
  decay := 0
  rampEnd := false
  clip := 0
  gain := 0
  y := 0

/-- R61. -/
def OutputStage.reset : OutputStage where
  limit := Vector.replicate 14 0
  written := Vector.replicate 14 false
  limitPrev := Vector.replicate 14 0
  map := tab fun c => some (c.castLE (by decide))
  nextSeq := 0
  lastSeq := none
  lastSamples := Vector.replicate 14 0
  history := []
  judgment := .settled
  valid := 0
  crcBad := 0
  echoBad := 0
  duplicate := 0
  missing := 0
  delivered := Vector.replicate 12 0

/-- R72. -/
def Supervisor.reset : Supervisor where
  chan := tab fun p => ⟨if p.val < 12 then .mapped else .spare, 0, 0, 0, 0, 0⟩
  latency := 0
  refTol := 0
  confirm := 0
  operate := 0
  enable := false
  abortPolicy := false
  fault := none
  refRun := 0
  linkRun := 0
  recRun := 0
  lastRef := 0
  requests := []
  engine := .quiet

/-- R93; the raw level of a line is the relay's (log 7). -/
def InputScan.reset (raw : Bool) : InputScan where
  raw := raw
  cfg := Payload.zero
  reload := .now
  acted := false
  settled := false
  cand := none
  bounce := 0
  chatter := false
  window := none
  edges := 0
  suppressed := 0

/-- R93. -/
def Scanner.reset (raw : Vector Bool 8) : Scanner where
  inputs := tab fun i => InputScan.reset raw[i]
  pos := 0
  origin := 0

/-- R106. -/
def Breaker.reset : Breaker := ⟨.closed, none, none, 0⟩

/-- R114. -/
def Line.reset : Line := ⟨.low, true, none⟩

/-- R118. -/
def Slot.reset : Slot := ⟨.disabled, none, none, false, false, false, false, none⟩

/-- R118. -/
def TimerArray.reset : TimerArray := ⟨false, Vector.replicate 8 Slot.reset⟩

/-- R129. -/
def Buffer.reset : Buffer := ⟨.free, 0, [], 0, 0, 0, false, 0⟩

/-- R129; RESET_PART gives the unit the same values. -/
def Report.reset : Report where
  queue := []
  discard := 0
  buffers := Vector.replicate 4 Buffer.reset
  activity := .off
  sendList := []
  gateOpen := true
  lastItem := .row
  pause := false
  attention := Vector.replicate 6 false
  made := []

/-- No frame-taken event is in progress. -/
def FrameEvent.reset : FrameEvent := ⟨.closed, false, none, .stay, false, false, false⟩

/-- The part after a power-up reset with these raw levels on its input lines (R1, R17, R41, R61, R72, R93, R106, R114, R118,
R129, R149, R164). -/
def State.resetWith (raw : Vector Bool 8) : State where
  recv := Receiver.reset
  clock := Clock.reset
  plan := Plan.reset
  seq := Sequencer.reset
  eng := Vector.replicate 12 Channel.reset
  out := OutputStage.reset
  sup := Supervisor.reset
  scan := Scanner.reset raw
  brk := Breaker.reset
  lines := Vector.replicate 4 Line.reset
  timers := TimerArray.reset
  rep := Report.reset
  reply := none
  frame := FrameEvent.reset
  answerOut := []
  driveOut := []
  choices := 0
  pending := []

/-- The machine right after reset; DESIGN CHOICE (log 7, unsafe): every input line is electrically low. -/
def State.reset : State := State.resetWith (Vector.replicate 8 false)

/-! ### Replacing one block -/

/-- `s` with `recv` replaced. -/
def State.withRecv (s : State) (x : Receiver) : State := { s with recv := x }
/-- `s` with `clock` replaced. -/
def State.withClock (s : State) (x : Clock) : State := { s with clock := x }
/-- `s` with `plan` replaced. -/
def State.withPlan (s : State) (x : Plan) : State := { s with plan := x }
/-- `s` with `seq` replaced. -/
def State.withSeq (s : State) (x : Sequencer) : State := { s with seq := x }
/-- `s` with `eng` replaced. -/
def State.withEng (s : State) (x : Vector Channel 12) : State := { s with eng := x }
/-- `s` with `out` replaced. -/
def State.withOut (s : State) (x : OutputStage) : State := { s with out := x }
/-- `s` with `sup` replaced. -/
def State.withSup (s : State) (x : Supervisor) : State := { s with sup := x }
/-- `s` with `scan` replaced. -/
def State.withScan (s : State) (x : Scanner) : State := { s with scan := x }
/-- `s` with `brk` replaced. -/
def State.withBrk (s : State) (x : Breaker) : State := { s with brk := x }
/-- `s` with `lines` replaced. -/
def State.withLines (s : State) (x : Vector Line 4) : State := { s with lines := x }
/-- `s` with `timers` replaced. -/
def State.withTimers (s : State) (x : TimerArray) : State := { s with timers := x }
/-- `s` with `rep` replaced. -/
def State.withRep (s : State) (x : Report) : State := { s with rep := x }
/-- `s` with `reply` replaced. -/
def State.withReply (s : State) (x : Option Reply) : State := { s with reply := x }
/-- `s` with `frame` replaced. -/
def State.withFrame (s : State) (x : FrameEvent) : State := { s with frame := x }
/-- `s` with `answerOut` replaced. -/
def State.withAnswerOut (s : State) (x : List Byte) : State := { s with answerOut := x }
/-- `s` with `driveOut` replaced. -/
def State.withDriveOut (s : State) (x : List Byte) : State := { s with driveOut := x }
/-- `s` with `choices` replaced. -/
def State.withChoices (s : State) (x : Nat) : State := { s with choices := x }
/-- `s` with `pending` replaced. -/
def State.withPending (s : State) (x : List Instr) : State := { s with pending := x }

end Sys2Proof.Machine
end

