-- ==== Sys2Proof/Machine/Arith.lean ====
section
/-! DEFINITION. The arithmetic of 0.6: rounding, clamping, saturation, delay codes. -/

namespace Sys2Proof.Machine

/-- 0.6.9: the integer nearest to `num / den`; a value half-way goes to the one of greater magnitude. -/
def roundHalfAway (num : Int) (den : Nat) : Int :=
  if 0 ≤ num then (2 * num + den) / (2 * den) else -((2 * (-num) + den) / (2 * den))

/-- 0.6.9: one half added to `num / den`, then the floor. -/
def roundHalfUp (num : Int) (den : Nat) : Int := (2 * num + den) / (2 * den)

/-- 0.6.9. -/
def clamp (x a b : Int) : Int := if x < a then a else if b < x then b else x

/-- 0.6.9: `x` plus 1, saturating at `m`. -/
def satInc (m x : Nat) : Nat := min m (x + 1)

/-- 2^32 − 1, where the 32-bit counts saturate. -/
def max32 : Nat := 4294967295

/-- 0.6.2: a sample read from the sample link; −32768 is read as −32767. -/
def readSample (x : Int) : Int := if x = -32768 then -32767 else x

/-- 0.6.8: the sub-ticks that a delay code denotes. -/
def delayCode (preset scale : Nat) : Nat := (preset + 1) * 2 ^ scale

/-- A test time cannot be below 0: a stamp and whether it was clamped (R97). -/
def stampOf (unclamped : Int) : Nat × Bool := (unclamped.toNat, decide (unclamped < 0))

end Sys2Proof.Machine
end

