-- ==== Sys2Proof/Machine/Wire.lean ====
section
/-! DEFINITION. The wire: byte order, CRC, and the packing of records, rows, replies and frames (0.6.10, 0.6.11, R160, R161). -/

namespace Sys2Proof.Machine

/-! ### Fields -/

/-- A number in one byte. -/
def byte1 (n : Nat) : List Byte := [BitVec.ofNat 8 n]

/-- A number in two bytes, most significant first (0.6.10). -/
def byte2 (n : Nat) : List Byte := [BitVec.ofNat 8 (n / 256), BitVec.ofNat 8 n]

/-- A number in four bytes, most significant first. -/
def byte4 (n : Nat) : List Byte :=
  [BitVec.ofNat 8 (n / 16777216), BitVec.ofNat 8 (n / 65536), BitVec.ofNat 8 (n / 256), BitVec.ofNat 8 n]

/-- A sample: two's complement in two bytes. -/
def sample2 (x : Int) : List Byte := byte2 (x % 65536).toNat

/-- A flag as a number. -/
def bit (b : Bool) : Nat := if b then 1 else 0

/-- R160: a set of flags, bit 0 for the first listed. -/
def flagSet (bs : List Bool) : Nat := bs.foldr (fun b n => bit b + 2 * n) 0

/-- `bs` with zero bytes after it, `n` bytes in all. -/
def padTo (n : Nat) (bs : List Byte) : List Byte := (bs ++ List.replicate n 0).take n

/-- The number in byte `i`. -/
def at1 (bs : List Byte) (i : Nat) : Nat := (bs.getD i 0).toNat

/-- The number in bytes `i` and `i + 1`. -/
def at2 (bs : List Byte) (i : Nat) : Nat := at1 bs i * 256 + at1 bs (i + 1)

/-- The number in the four bytes from `i`. -/
def at4 (bs : List Byte) (i : Nat) : Nat := at2 bs i * 65536 + at2 bs (i + 2)

/-- The two's complement number of `width` values whose unsigned reading is `n`. -/
def signedOf (width n : Nat) : Int := if width ≤ 2 * n then (n : Int) - width else n

/-- The sample in bytes `i` and `i + 1`. -/
def sampleAt (bs : List Byte) (i : Nat) : Int := signedOf 65536 (at2 bs i)

/-! ### CRC -/

/-- 0.6.11: one bit shifted out of the CRC; the generator is x^16 + x^12 + x^5 + 1. -/
def crcShift (c : BitVec 16) : BitVec 16 :=
  if c.msb then (c <<< 1) ^^^ 0x1021#16 else c <<< 1

/-- 0.6.11: the CRC extended by one byte, most significant bit first. -/
def crcByte (c : BitVec 16) (b : Byte) : BitVec 16 :=
  Nat.iterate crcShift 8 (c ^^^ (b.zeroExtend 16 <<< 8))

/-- 0.6.11: the CRC `c` extended over `bs`. -/
def crcFrom (c : BitVec 16) (bs : List Byte) : BitVec 16 := bs.foldl crcByte c

/-- 0.6.11: the CRC of `bs`, from the initial value FFFFh. -/
def crc (bs : List Byte) : BitVec 16 := crcFrom 0xFFFF#16 bs

/-- The bytes between offsets `a` and `b`, both ends included. -/
def span (bs : List Byte) (a b : Nat) : List Byte := (bs.drop a).take (b + 1 - a)

/-- A frame of sync word and body, closed by the CRC over the body. -/
def sealFrame (sync : Nat) (body : List Byte) : List Byte := byte2 sync ++ body ++ byte2 (crc body).toNat

/-! ### Codes of enumerated values (R160: from 0 in the order the owning table lists, unless a table gives codes) -/

/-- R161. -/
def Phase.code : Phase → Nat
  | .idle => 0 | .verifying => 1 | .armed => 2 | .running => 3 | .ending => 4

/-- R161. -/
def RecvState.code : RecvState → Nat
  | .hunt => 0 | .check => 1 | .locked => 2

/-- R161. -/
def Status.code : Status → Nat
  | .done => 0 | .badValue => 1 | .wrongPhase => 2 | .wrongState => 3 | .locked => 4 | .noEntry => 5 | .unknown => 6
  | .reportsPending => 7

/-- R36. -/
def EndReason.code : EndReason → Nat
  | .finalState => 0 | .duration => 1 | .aborted => 2 | .channelFailed => 3 | .streamLost => 4

/-- R23. -/
def StartCause.code : StartCause → Nat
  | .message => 0 | .input => 1

/-- 11.6, page 0. -/
def Request.code : Request → Nat
  | .none => 0 | .start _ => 1 | .cancel => 2 | .stop _ => 3

/-- R15. -/
def PlanCause.code : PlanCause → Nat
  | .nextState => 0 | .remaining => 1 | .crc => 2

/-- 11.6, page 0. -/
def BreakerState.code : BreakerState → Nat
  | .closed => 0 | .opening => 1 | .opened => 2 | .closing => 3

/-- 11.6, page 2. -/
def SlotState.code : SlotState → Nat
  | .disabled => 0 | .waiting => 1 | .running => 2 | .stopped => 3 | .expired => 4

/-- R128. -/
def TimerOutcome.code : TimerOutcome → Nat
  | .stopped => 0 | .timeout => 1 | .notStarted => 2 | .cutShort => 3

/-- 11.6, page 1. -/
def BufState.code : BufState → Nat
  | .free => 0 | .recording => 1 | .triggered => 2 | .full => 3 | .sending => 4 | .sent => 5

/-- 11.6, page 1. -/
def Activity.code : Activity → Nat
  | .off => 0 | .waiting => 1 | .on => 2

/-- 11.6, page 3. -/
def ChanState.code : ChanState → Nat
  | .spare => 0 | .mapped => 1 | .failed => 2

/-- R83. -/
def FaultCause.code : FaultCause → Nat
  | .reference => 0 | .link => 1

/-- R80. -/
def Disposition.code : Disposition → Nat
  | .joined => 0 | .disabled => 1 | .ending => 2

/-- R89. -/
def FailoverOutcome.code : FailoverOutcome → Nat
  | .done => 0 | .noSpareInhibit => 1 | .noSpareAbort => 2 | .abandoned => 3

/-- The tables list "ACTIVE or INACTIVE" (R99, R101, R102). -/
def levelCode (active : Bool) : Nat := if active then 0 else 1

/-- R160: a channel, FFh for NONE. -/
def chanCode {n : Nat} : Option (Fin n) → Nat
  | some p => p.val
  | none => 255

/-! ### Event records -/

/-- R161: the record type's code. -/
def Body.code : Body → Nat
  | .testStart .. => 0x01 | .stateEntered .. => 0x02 | .stateSummary .. => 0x03 | .testEnd .. => 0x04
  | .inputEdge .. => 0x05 | .chatterStart .. => 0x06 | .chatterEnd .. => 0x07 | .breaker .. => 0x08
  | .timerResult .. => 0x09 | .channelFailed .. => 0x0A | .failover .. => 0x0B | .readback .. => 0x0C
  | .streamGap .. => 0x0D | .streamSkip .. => 0x0E | .planVerified .. => 0x0F | .planRejected .. => 0x10
  | .rampEnd .. => 0x11 | .captureReady .. => 0x12 | .captureUnavailable .. => 0x13

/-- R160: the payload fields of a record, packed in the order of the table that gives them. -/
def Body.fields : Body → List Byte
  | .testStart r n ck => byte1 r.cause.code ++ byte1 r.input ++ byte2 r.offset ++ byte1 n ++ byte2 ck
  | .stateEntered st prev ex self final n =>
    byte1 st ++ byte1 prev ++ byte1 ex ++ byte1 (bit self) ++ byte1 (bit final) ++ byte2 n
  | .stateSummary st left frames clips => byte1 st ++ byte1 left ++ byte4 frames ++ clips.toList.flatMap byte1
  | .testEnd r st run n => byte1 r.code ++ byte1 st ++ byte4 run ++ byte2 n
  | .inputEdge i act b bo n => byte1 i ++ byte1 (levelCode act) ++ byte1 b ++ byte1 (flagSet [bo]) ++ byte4 n
  | .chatterStart i act e w bo => byte1 i ++ byte1 (levelCode act) ++ byte2 e ++ byte2 w ++ byte1 (flagSet [bo])
  | .chatterEnd i s act w => byte1 i ++ byte2 s ++ byte1 (levelCode act) ++ byte2 w
  | .breaker o tf i st op n bo ebo =>
    byte1 (bit (!o)) ++ byte1 (bit tf) ++ byte1 i ++ byte4 st ++ byte2 op ++ byte2 n ++ byte1 (flagSet [bo, ebo])
  | .timerResult k o st el us e d sb pb pr g lag =>
    byte1 k ++ byte1 o.code ++ byte4 st ++ byte4 el ++ byte4 us ++ byte1 (flagSet [e, d, sb, pb]) ++ byte1 pr ++ byte2 g
      ++ byte1 lag
  | .channelFailed p c m o t b me co d =>
    byte1 p ++ byte1 (chanCode c) ++ byte1 (flagSet [m, o, t]) ++ byte1 b ++ sample2 me ++ sample2 co ++ byte1 d.code
  | .failover c o src dst w sw =>
    byte1 c ++ byte1 o.code ++ byte1 (chanCode src) ++ byte1 (chanCode dst) ++ byte2 w ++ byte1 sw ++ byte2 (w + sw)
  | .readback cl ca r run => byte1 (bit cl) ++ byte1 ca.code ++ byte2 r ++ byte1 run
  | .streamGap run first loss => byte1 run ++ byte4 first ++ byte1 (bit loss)
  | .streamSkip e r d => byte2 e ++ byte2 r ++ byte2 d
  | .planVerified ck n => byte2 ck ++ byte1 n
  | .planRejected ck e i c => byte2 ck ++ byte2 e ++ byte1 i ++ byte1 c.code
  | .rampEnd c st g => byte1 c ++ byte1 st ++ byte2 g
  | .captureReady b r tr tf tt t => byte1 b ++ byte2 r ++ byte2 tr ++ byte4 tf ++ byte4 tt ++ byte1 (flagSet [t])
  | .captureUnavailable b s l => byte1 (if b.isSome then 1 else 0) ++ byte1 (chanCode b) ++ byte1 s ++ byte1 l

/-! ### Return-slot items (R161): 32 bytes each -/

/-- NONE. -/
def emptyItem : List Byte := List.replicate 32 0

/-- REPLY. -/
def Reply.item (r : Reply) : List Byte :=
  padTo 32 (byte1 0x01 ++ [r.tag] ++ byte1 r.status.code ++ [r.code] ++ r.payload)

/-- EVENT. -/
def Record.item (r : Record) : List Byte :=
  padTo 32 (byte1 0x02 ++ byte1 r.body.code ++ byte1 r.lost ++ byte1 r.testNo ++ byte4 r.time ++ r.body.fields)

/-- ROW: row `idx` of buffer `b`; `last` marks the buffer's last row (R139). -/
def Row.item (r : Row) (b : Fin 4) (testNo idx : Nat) (last : Bool) : List Byte :=
  padTo 32 (byte1 0x03 ++ byte1 b ++ byte1 testNo ++ byte2 idx ++ byte1 (flagSet [last, r.gap])
    ++ r.outputs.toList.flatMap sample2 ++ byte1 (flagSet r.inputs.toList) ++ byte1 (flagSet r.lines.toList))

/-! ### Frames -/

/-- R161: the 40 bytes of an answer frame. -/
def answerBytes (echo attention status : Nat) (item : List Byte) : List Byte :=
  sealFrame 0x5A7E (byte2 echo ++ byte1 attention ++ byte1 status ++ item)

/-- R161: the 46 bytes of a drive frame. -/
def driveBytes (seq : Nat) (samples : Vector Int 14) (route : Vector (Option (Fin 14)) 12) : List Byte :=
  sealFrame 0xD2C4 (byte2 seq ++ samples.toList.flatMap sample2 ++ route.toList.flatMap fun r => byte1 (chanCode r))

/-- R161: the payload that stands in the twenty bytes from offset `i`. -/
def payloadAt (bs : List Byte) (i : Nat) : Payload := tab fun k => bs.getD (i + k.val) 0

/-- R161: the control slot of a sample frame. -/
def slotOf (bs : List Byte) : ControlSlot where
  code := bs.getD 31 0
  msg := ⟨bs.getD 30 0, bs.getD 32 0, bs.getD 33 0, payloadAt bs 34⟩

/-- R150: the frame has the sync word, kind 01h, flags 00h and a matching CRC. -/
def goodSampleFrame (bs : List Byte) : Bool :=
  at1 bs 4 == 1 && at1 bs 5 == 0 && at2 bs 54 == (crc (span bs 2 53)).toNat

/-- R161: a sample frame that arrived at `arrival`. -/
def heldOf (arrival : Nat) (bs : List Byte) : HeldFrame where
  arrival := arrival
  sequence := at2 bs 2
  samples := tab fun c => sampleAt bs (6 + 2 * c.val)
  slot := slotOf bs

/-- R69: the CRC matches and bits 15 and 14 of both flag words are 0. -/
def goodReadback (bs : List Byte) : Bool :=
  at2 bs 38 == (crc (span bs 2 37)).toNat && decide (at2 bs 32 < 16384) && decide (at2 bs 34 < 16384)

/-- Bit `p` of the flag word at offset `i` (R161: bit p for channel p). -/
def flagAt (bs : List Byte) (i p : Nat) : Bool := at2 bs i / 2 ^ p % 2 == 1

end Sys2Proof.Machine
end

