-- ==== Sys2Proof/Machine/Operands.lean ====
section
/-! DEFINITION. The fields of every payload (R160, chapter 1) and the ranges a write must meet (R2 to R10, R73, R74, R156). -/

namespace Sys2Proof.Machine

/-- The number in byte `i` of a payload. -/
def Payload.u8 (p : Payload) (i : Nat) : Nat := at1 p.toList i
/-- The number in the two bytes from `i`. -/
def Payload.u16 (p : Payload) (i : Nat) : Nat := at2 p.toList i
/-- The number in the four bytes from `i`. -/
def Payload.u32 (p : Payload) (i : Nat) : Nat := at4 p.toList i
/-- The signed number in the two bytes from `i`. -/
def Payload.i16 (p : Payload) (i : Nat) : Int := signedOf 65536 (Payload.u16 p i)
/-- The signed number in the four bytes from `i`. -/
def Payload.i32 (p : Payload) (i : Nat) : Int := signedOf 4294967296 (Payload.u32 p i)

/-- R2, R163 step 4: every byte from offset `n` on is zero. -/
def Payload.clearFrom (p : Payload) (n : Nat) : Bool := (p.toList.drop n).all (· == 0)

/-- The value lies in the range. -/
def within (a b x : Nat) : Bool := decide (a ≤ x) && decide (x ≤ b)

/-! ### Conditions (R9, R10) -/

/-- R9: the kind of a code; none above 9. -/
def Kind.ofCode : Nat → Option Kind
  | 0 => some .none
  | 1 => some .dwellDone
  | 2 => some .inputActive
  | 3 => some .inputInactive
  | 4 => some .breakerOpen
  | 5 => some .breakerClosed
  | 6 => some .timerDone
  | 7 => some .rampEnd
  | 8 => some .stateEntry
  | 9 => some .testStart
  | _ => Option.none

/-- R9: the largest argument of a kind (every range begins at 0). -/
def Kind.maxArg : Kind → Nat
  | .inputActive | .inputInactive | .timerDone => 7
  | .rampEnd => 11
  | .stateEntry => 31
  | .none | .dwellDone | .breakerOpen | .breakerClosed | .testStart => 0

/-- R10: the kinds that a state exit may use. -/
def Kind.exitLegal : Kind → Bool
  | .stateEntry | .testStart => false
  | _ => true

/-- R10: the kinds that a timer start, a timer stop or the capture trigger may use. -/
def Kind.eventLegal : Kind → Bool
  | .dwellDone | .timerDone => false
  | _ => true

/-- The condition in the two bytes from `i`: kind code, then argument (R160). -/
def condAt (p : Payload) (i : Nat) : Cond := ⟨(Kind.ofCode (Payload.u8 p i)).getD .none, Payload.u8 p (i + 1)⟩

/-- R9, R10: the condition's kind is in the vocabulary and legal for its user, its argument in the kind's range. -/
def condOk (legal : Kind → Bool) (p : Payload) (i : Nat) : Bool :=
  match Kind.ofCode (Payload.u8 p i) with
  | some k => legal k && decide (Payload.u8 p (i + 1) ≤ k.maxArg)
  | none => false

/-! ### Test globals (1.2.1) -/

/-- State count N. -/
def Globals.stateCount (p : Payload) : Nat := Payload.u8 p 0
/-- The start mode is INPUT. -/
def Globals.startInputMode (p : Payload) : Bool := Payload.u8 p 1 == 1
/-- Start input. -/
def Globals.startInput (p : Payload) : Nat := Payload.u8 p 2
/-- Duration limit, frames. -/
def Globals.duration (p : Payload) : Nat := Payload.u32 p 3
/-- Fade length F, frames. -/
def Globals.fade (p : Payload) : Nat := Payload.u8 p 7
/-- Output latency Lat, sub-ticks. -/
def Globals.lat (p : Payload) : Nat := Payload.u8 p 8

/-- R3. -/
def Globals.ok (p : Payload) : Bool :=
  within 1 32 (Globals.stateCount p) && decide (Payload.u8 p 1 ≤ 1) && decide (Globals.startInput p ≤ 7)
    && within 1 16777215 (Globals.duration p) && decide (Globals.fade p ≤ 64) && Payload.clearFrom p 9

/-! ### State records (1.2.2) -/

/-- Dwell, frames. -/
def Part0.dwell (p : Payload) : Nat := Payload.u32 p 0
/-- The condition of exit `k`. -/
def Part0.exitCond (p : Payload) (k : Fin 4) : Cond := condAt p (4 + 3 * k.val)
/-- The next state of exit `k`, as stored. -/
def Part0.exitNext (p : Payload) (k : Fin 4) : Nat := Payload.u8 p (6 + 3 * k.val)
/-- FINAL. -/
def Part0.final (p : Payload) : Bool := Payload.u8 p 16 == 1

/-- R4. -/
def Part0.ok (p : Payload) : Bool :=
  decide (Part0.dwell p ≤ 16777215)
    && (allFin 4).all (fun k => condOk Kind.exitLegal p (4 + 3 * k.val) && decide (Part0.exitNext p k ≤ 31))
    && decide (Payload.u8 p 16 ≤ 1) && Payload.clearFrom p 17

/-- The mode of line `k`. -/
def Part1.mode (p : Payload) (k : Fin 4) : LineMode :=
  match Payload.u8 p (5 * k.val) with
  | 1 => .high
  | 2 => .breakerA
  | 3 => .breakerB
  | 4 => .pulse
  | _ => .low
/-- The high period of line `k`, sub-ticks. -/
def Part1.high (p : Payload) (k : Fin 4) : Nat := delayCode (Payload.u8 p (5 * k.val + 1)) (Payload.u8 p (5 * k.val + 2))
/-- The low period of line `k`, sub-ticks. -/
def Part1.low (p : Payload) (k : Fin 4) : Nat := delayCode (Payload.u8 p (5 * k.val + 3)) (Payload.u8 p (5 * k.val + 4))

/-- R5. -/
def Part1.ok (p : Payload) : Bool :=
  (allFin 4).all fun k => decide (Payload.u8 p (5 * k.val) ≤ 4) && decide (Payload.u8 p (5 * k.val + 2) ≤ 7)
    && decide (Payload.u8 p (5 * k.val + 4) ≤ 7)

/-! ### Channel parameter records (1.2.3) -/

/-- The stored mode code: ZERO 0, PASS 1, SCALE 2, CONTINUE 3. -/
def Chan.mode (p : Payload) : Nat := Payload.u8 p 0
/-- Start gain G0. -/
def Chan.gain0 (p : Payload) : Nat := Payload.u16 p 1
/-- Ramp step S. -/
def Chan.step (p : Payload) : Int := Payload.i32 p 3
/-- Delay D16. -/
def Chan.d16 (p : Payload) : Nat := Payload.u16 p 7
/-- DC start D0. -/
def Chan.dc0 (p : Payload) : Int := Payload.i16 p 9
/-- Decay K. -/
def Chan.decay (p : Payload) : Nat := Payload.u16 p 11

/-- R6. -/
def Chan.ok (p : Payload) : Bool :=
  decide (Chan.mode p ≤ 3) && decide (-8388608 ≤ Chan.step p) && decide (Chan.step p ≤ 8388607)
    && decide (Chan.d16 p ≤ 4080) && decide (Chan.dc0 p ≠ -32768) && Payload.clearFrom p 13

/-! ### Timer slot records (1.2.4) -/

/-- Enable. -/
def Timer.enable (p : Payload) : Bool := Payload.u8 p 0 == 1
/-- Start condition. -/
def Timer.start (p : Payload) : Cond := condAt p 1
/-- Stop condition. -/
def Timer.stop (p : Payload) : Cond := condAt p 3
/-- Timeout, frames. -/
def Timer.timeout (p : Payload) : Nat := Payload.u16 p 5
/-- Probe channel. -/
def Timer.probe (p : Payload) : Fin 12 := Fin.ofNat 12 (Payload.u8 p 7)

/-- R7. -/
def Timer.ok (p : Payload) : Bool :=
  decide (Payload.u8 p 0 ≤ 1) && condOk Kind.eventLegal p 1 && condOk Kind.eventLegal p 3
    && (!Timer.enable p || decide (1 ≤ Timer.timeout p)) && decide (Payload.u8 p 7 ≤ 11) && Payload.clearFrom p 8

/-! ### Input records (1.2.4) -/

/-- Invert. -/
def Input.invert (p : Payload) : Bool := Payload.u8 p 0 == 1
/-- Debounce, sub-ticks. -/
def Input.debounce (p : Payload) : Nat := Payload.u8 p 1
/-- Chatter limit, 0: off. -/
def Input.limit (p : Payload) : Nat := Payload.u8 p 2
/-- Chatter window W, frames. -/
def Input.window (p : Payload) : Nat := Payload.u16 p 3

/-- R8. -/
def Input.ok (p : Payload) : Bool :=
  decide (Payload.u8 p 0 ≤ 1) && (Input.limit p == 0 || decide (1 ≤ Input.window p)) && Payload.clearFrom p 5

/-! ### Breaker record (1.2.4) -/

/-- The mode is ON. -/
def Brk.on (p : Payload) : Bool := Payload.u8 p 0 == 1
/-- Trip input. -/
def Brk.trip (p : Payload) : Nat := Payload.u8 p 1
/-- Close input. -/
def Brk.close (p : Payload) : Nat := Payload.u8 p 2
/-- Open delay, sub-ticks. -/
def Brk.openDelay (p : Payload) : Nat := delayCode (Payload.u8 p 3) (Payload.u8 p 4)
/-- Close delay, sub-ticks. -/
def Brk.closeDelay (p : Payload) : Nat := delayCode (Payload.u8 p 5) (Payload.u8 p 6)
/-- Initial state. -/
def Brk.initial (p : Payload) : BreakerState := if Payload.u8 p 7 == 1 then .opened else .closed

/-- R8. -/
def Brk.ok (p : Payload) : Bool :=
  decide (Payload.u8 p 0 ≤ 1) && decide (Brk.trip p ≤ 7) && decide (Brk.close p ≤ 7) && decide (Payload.u8 p 4 ≤ 7)
    && decide (Payload.u8 p 6 ≤ 7) && decide (Payload.u8 p 7 ≤ 1) && Payload.clearFrom p 8

/-! ### Capture record (1.2.4) -/

/-- Enable. -/
def Capture.enable (p : Payload) : Bool := Payload.u8 p 0 == 1
/-- Trigger condition. -/
def Capture.trigger (p : Payload) : Cond := condAt p 1
/-- Pre-trigger rows. -/
def Capture.pre (p : Payload) : Nat := Payload.u16 p 3

/-- R7. -/
def Capture.ok (p : Payload) : Bool :=
  decide (Payload.u8 p 0 ≤ 1) && condOk Kind.eventLegal p 1 && decide (Capture.pre p ≤ 1023) && Payload.clearFrom p 5

/-! ### Supervision settings (5.2) and cadence (R156) -/

/-- R73: all three values 0, or each in its range; nothing beyond them. -/
def SupWrite.ok (p : Payload) : Bool :=
  ((Payload.u16 p 0 == 0 && Payload.u8 p 2 == 0 && Payload.u16 p 3 == 0)
    || (within 1 32767 (Payload.u16 p 0) && within 1 255 (Payload.u8 p 2) && within 1 65535 (Payload.u16 p 3)))
    && Payload.clearFrom p 5

/-- R74: latency, reference tolerance, confirm count, M, failover enable, no-spare policy. -/
def SupGlobal.ok (p : Payload) : Bool :=
  within 1 4 (Payload.u8 p 0) && within 1 4096 (Payload.u16 p 1) && within 1 15 (Payload.u8 p 3)
    && within 1 255 (Payload.u8 p 4) && decide (Payload.u8 p 5 ≤ 1) && decide (Payload.u8 p 6 ≤ 1)
    && Payload.clearFrom p 7

/-- R156: cadence, cycle length, gap limit. -/
def Cadence.ok (p : Payload) : Bool :=
  within 50000 1000000 (Payload.u32 p 0) && Payload.u32 p 0 % 16 == 0 && within 8 256 (Payload.u16 p 4)
    && within 1 16 (Payload.u8 p 6) && Payload.clearFrom p 7

end Sys2Proof.Machine
end

