-- ==== Sys2Proof/Machine/Flags.lean ====
section
/-! DEFINITION. The attention set, the capture gate, the CAPTURE_WAITING level and the status byte. -/

namespace Sys2Proof.Machine

/-- The place of a condition in the attention set; its code is one more (R145). -/
def Attn.idx : Attn → Fin 6
  | .streamLost => 0
  | .channelFailed => 1
  | .readbackFault => 2
  | .testAbnormalEnd => 3
  | .reportDiscard => 4
  | .captureWaiting => 5

/-- R145: the condition becomes pending. -/
def Report.raise (r : Report) (a : Attn) : Report := { r with attention := upd r.attention a.idx true }

/-- R146, R148: the condition stops being pending. -/
def Report.lower (r : Report) (a : Attn) : Report := { r with attention := upd r.attention a.idx false }

/-- R145: the lowest code pending, 0 when none is. -/
def Report.attentionCode (r : Report) : Nat :=
  match (allFin 6).find? fun a => r.attention[a] with
  | some a => a.val + 1
  | none => 0

/-- R148: at least one buffer is SENT and none is FREE. -/
def waitingLevel (b : Vector Buffer 4) : Bool :=
  (allFin 4).any (fun i => b[i].state == .sent) && (allFin 4).all fun i => b[i].state != .free

/-- R148: the buffers change; CAPTURE_WAITING follows the level when it becomes true or false (log 15). -/
def Report.setBuffers (r : Report) (b : Vector Buffer 4) : Report :=
  let r' : Report := { r with buffers := b }
  if waitingLevel b && !waitingLevel r.buffers then r'.raise .captureWaiting
  else if !waitingLevel b && waitingLevel r.buffers then r'.lower .captureWaiting
  else r'

/-- R144: an admission brought the depth to `depth`. -/
def gateAfterAdmission (gate : Bool) (depth : Nat) : Bool := if 64 ≤ depth then false else gate

/-- R144: a removal brought the depth to `depth`. -/
def gateAfterRemoval (gate : Bool) (depth : Nat) : Bool := if depth ≤ 16 then true else gate

/-- R158, R161: the status byte of an answer frame. -/
def statusByte (phase : Phase) (recv : RecvState) (pause gap : Bool) : Nat :=
  phase.code + 8 * recv.code + 32 * (if pause then 1 else 0) + 64 * (if gap then 1 else 0)

end Sys2Proof.Machine
end

