-- ==== Sys2Proof/Machine/Ops.lean ====
section
/-! DEFINITION. The shared operations: making and admitting records, time stamps, free choices. -/

namespace Sys2Proof.Machine

/-! ### Phases and stamps -/

/-- The phase is RUNNING or ENDING. -/
def Phase.inTest : Phase → Bool
  | .running | .ending => true
  | _ => false

/-- R130: the out-of-test time. -/
def State.outTime (s : State) : Nat := 16 * s.recv.frameCounter % 4294967296

/-- R130: test number and test time of a record made at the present frame by a block that does not stamp it otherwise. -/
def State.stamp (s : State) : Nat × Nat :=
  if s.seq.phase.inTest then (s.seq.testNumber, 16 * s.seq.testFrame) else (0, s.outTime)

/-- 0.6.4: the line time of the scan position last scanned. -/
def State.lineTime (s : State) : Int := (s.scan.pos : Int) - s.scan.origin

/-- Lat of the stored test globals. -/
def State.lat (s : State) : Nat := Globals.lat s.plan.globals

/-- The fade length F. -/
def State.fade (s : State) : Nat := Globals.fade s.plan.globals

/-- The stored part 0 of the state in force. -/
def State.part0 (s : State) : Payload := s.plan.part0[s.seq.stateInForce]

/-! ### Records -/

/-- 9.2: the reserved record types. -/
def Body.reserved : Body → Bool
  | .timerResult .. | .channelFailed .. | .testEnd .. => true
  | _ => false

/-- A record is made; it is offered to the queue by `flush` in the same event. -/
def State.make (s : State) (testNo time : Nat) (b : Body) : State :=
  s.withRep { s.rep with made := s.rep.made ++ [⟨testNo, time, b, false⟩] }

/-- A record is made that may join the queue before or after the Sequencer's records of the boundary (R168). -/
def State.makeApart (s : State) (testNo time : Nat) (b : Body) : State :=
  s.withRep { s.rep with made := s.rep.made ++ [⟨testNo, time, b, true⟩] }

/-- R131: a record is offered to the queue. -/
def Report.admitOne (r : Report) (m : Made) : Report :=
  if r.queue.length < (if m.body.reserved then 128 else 104) then
    { r with
      queue := r.queue ++ [⟨r.discard, m.testNo, m.time, m.body⟩]
      discard := 0
      gateOpen := gateAfterAdmission r.gateOpen (r.queue.length + 1) }
  else { r with discard := satInc 255 r.discard }.raise .reportDiscard

/-- R131: records are offered in order. -/
def Report.admitAll (r : Report) (ms : List Made) : Report := ms.foldl Report.admitOne r

/-- The records made are offered to the queue in the order in which they were made. -/
def State.flush (s : State) : State :=
  s.withRep (({ s.rep with made := [] } : Report).admitAll s.rep.made)

/-- R19, R20: the queue holds a TEST_END. -/
def State.testEndQueued (s : State) : Bool :=
  s.rep.queue.any fun r => match r.body with | .testEnd .. => true | _ => false

/-- R145: a condition is raised. -/
def State.raise (s : State) (a : Attn) : State := s.withRep (s.rep.raise a)

/-! ### Free choices (log 6) -/

/-- One of `n` is chosen freely. -/
def State.chosen (s : State) (n : Nat) : Nat := Config.choice s.choices % n

/-- A free choice has been taken. -/
def State.chose (s : State) : State := s.withChoices (s.choices + 1)

/-- A FAILOVER record: those of one boundary keep their order. -/
def Body.isFailover : Body → Bool
  | .failover .. => true
  | _ => false

/-- R168: FAILOVER records made apart join before or after the Sequencer's (the two lists of the answer), keeping their order;
`k` counts the choices taken. DESIGN CHOICE (log 41): after the Sequencer's is after item 3's too. -/
def splitFailovers (k : Nat) : List Made → List Made × List Made
  | [] => ([], [])
  | m :: ms =>
    if Config.choice k % 2 = 1 then ([], m :: ms)
    else
      let (before, after) := splitFailovers (k + 1) ms
      (m :: before, after)

/-- The list `ms` with `m` put in before its place `i`. -/
def putIn (i : Nat) (m : Made) (ms : List Made) : List Made := ms.take i ++ m :: ms.drop i

/-- R168, 9.3: other records made apart join at any place before or after the Sequencer's. DESIGN CHOICE (log 41): after the
Sequencer's is after item 3's too. -/
def placeFreely (k : Nat) (before after : List Made) : List Made → List Made × List Made
  | [] => (before, after)
  | m :: ms =>
    let place := Config.choice k % (before.length + after.length + 2)
    if place ≤ before.length then placeFreely (k + 1) (putIn place m before) after ms
    else placeFreely (k + 1) before (putIn (place - before.length - 1) m after) ms

/-- R168: the records made apart, those that come before the Sequencer's and those that come after. DESIGN CHOICE (log 41):
those that come after stand after the records of item 3. -/
def splitApart (k : Nat) (ms : List Made) : List Made × List Made :=
  let failovers := ms.filter fun m => m.body.isFailover
  let others := ms.filter fun m => !m.body.isFailover
  let (before, after) := splitFailovers k failovers
  placeFreely (k + failovers.length) before after others

/-- The records made at a boundary by blocks whose state is apart from the Sequencer's. -/
def madeApart (ms : List Made) : List Made := ms.filter fun m => m.apart

/-- The other records made at a boundary: the Sequencer's and those of R168's item 3. -/
def madeOwn (ms : List Made) : List Made := ms.filter fun m => !m.apart

/-- R168: the records made at a boundary are offered. The Sequencer's, and those of item 3 after them, keep their order; each
record made apart joins before or after the Sequencer's, by a free choice (log 6). DESIGN CHOICE (log 41): R168 leaves open
where it stands against the records of item 3; it joins before or after the Sequencer's records and item 3's together, and
never stands among them. -/
def State.flushBoundary (s : State) : State :=
  let own := madeOwn s.rep.made
  let apart := madeApart s.rep.made
  if apart.isEmpty then s.flush
  else
    let (before, after) := splitApart s.choices apart
    (s.withChoices (s.choices + apart.length)).withRep
      (({ s.rep with made := [] } : Report).admitAll (before ++ own ++ after))

/-! ### Output lines -/

/-- R114 to R117: the level of an output line (`true`: HIGH). -/
def lineLevel (phase : Phase) (brk : BreakerState) (l : Line) : Bool :=
  phase.inTest && match l.mode with
    | .low => false
    | .high => true
    | .breakerA => brk == .closed
    | .breakerB => brk == .opened
    | .pulse => l.high

/-- The levels of the four lines. -/
def State.lineLevels (s : State) : Vector Bool 4 := tab fun k => lineLevel s.seq.phase s.brk.state s.lines[k]

/-! ### Requests -/

/-- R32, R31: an END with this reason is asked for; a pending request stands, and only RUNNING takes it. -/
def State.requestEnd (s : State) (r : EndReason) : State :=
  if s.seq.phase = .running ∧ s.seq.request = .none then s.withSeq { s.seq with request := .stop r } else s

/-! ### Exit latches (R24) -/

/-- R24: the condition is true now, in level sense. -/
def State.holds (s : State) (c : Cond) : Bool :=
  match c.kind with
  | .none | .stateEntry | .testStart => false
  | .dwellDone => decide (1 ≤ Part0.dwell s.part0) && decide (Part0.dwell s.part0 ≤ s.seq.framesInState)
  | .inputActive => s.scan.inputs[Fin.ofNat 8 c.arg].settled
  | .inputInactive => !s.scan.inputs[Fin.ofNat 8 c.arg].settled
  | .breakerOpen => s.brk.state == .opened
  | .breakerClosed => s.brk.state == .closed
  | .timerDone =>
    let st := s.timers.slots[Fin.ofNat 8 c.arg].state
    st == .stopped || st == .expired
  | .rampEnd => s.eng[Fin.ofNat 12 c.arg].rampEnd

/-- R24: in RUNNING the latches of the exits that `now` tells are set, beside those that are; in every other phase the latches
are clear. -/
def State.latchBy (s : State) (now : Cond → Bool) : State :=
  s.withSeq { s.seq with
    latches := tab fun k => s.seq.phase == .running && (s.seq.latches[k] || now (Part0.exitCond s.part0 k)) }

/-- R24: each condition that has become true since `before` sets its latches. One that was true at `before` has set them at
its boundary or when it became true, or the present sub-tick ends it. -/
def State.latchRisen (s before : State) : State := s.latchBy fun c => s.holds c && !before.holds c

end Sys2Proof.Machine
end

