-- ==== Sys2Proof/Machine/Reports.lean ====
section
/-! DEFINITION. The capture store and the return slot (chapter 9). -/

namespace Sys2Proof.Machine

/-! ### Capture store (9.4) -/

/-- The lowest-numbered FREE buffer. -/
def freeBuffer (b : Vector Buffer 4) : Option (Fin 4) := (allFin 4).find? fun i => b[i].state == .free

/-- The buffer that is RECORDING or TRIGGERED, if there is one. -/
def liveBuffer (b : Vector Buffer 4) : Option (Fin 4) :=
  (allFin 4).find? fun i => b[i].state == .recording || b[i].state == .triggered

/-- The number of buffers in SENT. -/
def sentBuffers (b : Vector Buffer 4) : Nat := ((allFin 4).filter fun i => b[i].state == .sent).length

/-- R135: a buffer that begins to record. -/
def Buffer.recording (testNumber : Nat) : Buffer := { Buffer.reset with state := .recording, testNumber := testNumber }

/-- The buffers are replaced (R148). -/
def State.setBuffers (s : State) (b : Vector Buffer 4) : State := s.withRep (s.rep.setBuffers b)

/-- The capture activity is replaced. -/
def State.setActivity (s : State) (a : Activity) : State := s.withRep { s.rep with activity := a }

/-- Buffer `i` joins the newest end of the send list. -/
def State.listBuffer (s : State) (i : Fin 4) : State := s.withRep { s.rep with sendList := s.rep.sendList ++ [i] }

/-- R135: a test starts. -/
def State.captureStart (s : State) : State :=
  if Capture.enable s.plan.capture then
    match freeBuffer s.rep.buffers with
    | some i => (s.setBuffers (upd s.rep.buffers i (Buffer.recording s.seq.testNumber))).setActivity .on
    | none =>
      (s.setActivity .waiting).make s.seq.testNumber (16 * s.seq.testFrame)
        (.captureUnavailable none (sentBuffers s.rep.buffers) s.rep.sendList.length)
  else s.setActivity .off

/-- R136: an event is offered to the capture trigger. -/
def State.offerCapture (s : State) (ev : Cond) (stamp : Nat) : State :=
  if s.rep.activity = .on && Capture.trigger s.plan.capture = ev then
    match liveBuffer s.rep.buffers with
    | some i =>
      let b : Buffer := s.rep.buffers[i]
      if b.state = BufState.recording then
        s.setBuffers (upd s.rep.buffers i
          { b with state := .triggered, trigRow := b.rows.length, trigFrame := s.seq.testFrame, trigTime := stamp })
      else s
    | none => s
  else s

/-- R141: CAPTURE_READY for buffer `i`. -/
def readyBody (i : Fin 4) (b : Buffer) : Body :=
  .captureReady i b.rows.length b.trigRow b.trigFrame b.trigTime b.truncated

/-- R137: buffer `i` has its last row: it is FULL, and the next FREE buffer records. -/
def State.bufferFull (s : State) (i : Fin 4) (b : Buffer) : State :=
  let full : Buffer := { b with state := .full }
  let bufs := upd s.rep.buffers i full
  let time := 16 * s.seq.testFrame
  match freeBuffer bufs with
  | some j =>
    ((s.setBuffers (upd bufs j (Buffer.recording s.seq.testNumber))).listBuffer i).make s.seq.testNumber time
      (readyBody i full)
  | none =>
    ((((s.setBuffers bufs).listBuffer i).make s.seq.testNumber time (readyBody i full)).setActivity .waiting).make
      s.seq.testNumber time (.captureUnavailable (some i) (sentBuffers bufs) (s.rep.sendList.length + 1))

/-- R134, R137: a row is offered to the store. -/
def State.addRow (s : State) (r : Row) : State :=
  match liveBuffer s.rep.buffers with
  | some i =>
    let b : Buffer := s.rep.buffers[i]
    let pre := Capture.pre s.plan.capture
    if b.state = BufState.recording then
      let rows := b.rows ++ [r]
      s.setBuffers (upd s.rep.buffers i { b with rows := rows.drop (rows.length - pre) })
    else
      let b' : Buffer := { b with rows := b.rows ++ [r] }
      if b'.rows.length = b.trigRow + 1024 - pre then s.bufferFull i b'
      else s.setBuffers (upd s.rep.buffers i b')
  | none => s

/-- R134: the row of the present frame is formed, in RUNNING and ENDING. -/
def State.formRow (s : State) : State :=
  if s.seq.phase.inTest then
    s.addRow ⟨s.frame.gap, s.out.delivered, tab fun i => s.scan.inputs[i].settled, s.lineLevels⟩
  else s

/-- R138: the capture of the test is closed, `e` being the first ENDING frame. -/
def State.captureClose (s : State) (e : Nat) : State :=
  (match liveBuffer s.rep.buffers with
  | some i =>
    let b : Buffer := s.rep.buffers[i]
    if b.state = BufState.recording then s.setBuffers (upd s.rep.buffers i Buffer.reset)
    else
      let b' : Buffer := { b with state := .full, truncated := true }
      let s' := if b.rows.isEmpty then s.setBuffers (upd s.rep.buffers i Buffer.reset)
        else (s.setBuffers (upd s.rep.buffers i b')).listBuffer i
      s'.make s.seq.testNumber (16 * e) (readyBody i b')
  | none => s).setActivity .off

/-! ### The return slot (9.5) -/

/-- R139: the next row of the buffer at the head of the send list is placed in the return slot. -/
def Report.sendRow (r : Report) (i : Fin 4) : Report × List Byte :=
  let b := r.buffers[i]
  let last := decide (b.rows.length ≤ b.sentRows + 1)
  let row := b.rows.getD b.sentRows ⟨false, Vector.replicate 12 0, Vector.replicate 8 false, Vector.replicate 4 false⟩
  let b' : Buffer := { b with state := if last then .sent else .sending, sentRows := b.sentRows + 1 }
  let r' : Report := { r with
    sendList := if last then r.sendList.drop 1 else r.sendList
    lastItem := .row }
  (r'.setBuffers (upd r.buffers i b'), row.item i b.testNumber b.sentRows last)

/-- R133: the oldest record leaves the queue for the return slot. -/
def Report.sendRecord (r : Report) : Report × List Byte :=
  match r.queue with
  | [] => (r, emptyItem)
  | rec' :: rest =>
    ({ r with queue := rest, lastItem := .event, gateOpen := gateAfterRemoval r.gateOpen rest.length }, rec'.item)

/-- R142: the arbiter fills the return slot. -/
def Report.arbiter (r : Report) (reply : Option Reply) : Report × List Byte :=
  match reply with
  | some rp => (r, rp.item)
  | none =>
    if r.pause then (r, emptyItem)
    else
      match r.sendList with
      | i :: _ => if r.gateOpen && (r.queue.isEmpty || r.lastItem == .event) then r.sendRow i else r.sendRecord
      | [] => r.sendRecord

/-- R158: the answer frame of the present slot or period is composed and sent; the reply goes with it (R164). -/
def State.answer (s : State) (gap : Bool) : State :=
  let (rep, item) := s.rep.arbiter s.reply
  ((s.withRep rep).withReply none).withAnswerOut
    (answerBytes s.recv.lastSeq s.rep.attentionCode (statusByte s.seq.phase s.recv.state s.rep.pause gap) item)

end Sys2Proof.Machine
end

