-- ==== Sys2Proof/Machine/Timers.lean ====
section
/-! DEFINITION. The Trip Timer Array (chapter 8). -/

namespace Sys2Proof.Machine

/-- R127: sub-ticks in microseconds at cadence `cadence`, saturating. -/
def micros (elapsed cadence : Nat) : Nat := min max32 (roundHalfUp ((elapsed * cadence : Nat) : Int) 16000).toNat

/-- R125: the gain of channel `c` for the present frame: before the frame's outputs are computed, the gain that its
accumulator gives; after, the gain used. DESIGN CHOICE (log 37): with F = 0 there is no ENDING frame, and a slot finalised
at the boundary that ends the test carries the gain that the accumulator gives there. -/
def State.probeGain (s : State) (c : Fin 12) : Nat :=
  if s.frame.stage ≠ .closed && !s.frame.computed then
    if s.eng[c].mode = .zero then 0 else s.eng[c].gacc / 65536
  else s.eng[c].gain

/-- R128: the payload of slot `k`'s result. -/
def State.timerBody (s : State) (k : Fin 8) (outcome : TimerOutcome) (elapsed : Nat) (stopBo : Bool) (lag : Nat) : Body :=
  let sl := s.timers.slots[k]
  let probe := Timer.probe s.plan.timers[k]
  .timerResult k outcome (if outcome = .notStarted then 0 else sl.start.getD 0) elapsed (micros elapsed s.recv.cadenceNow)
    sl.early sl.disturbed sl.startBo stopBo probe (s.probeGain probe) lag

/-- Slot `k` is replaced. -/
def State.setSlot (s : State) (k : Fin 8) (x : Slot) : State :=
  s.withTimers { s.timers with slots := upd s.timers.slots k x }

/-- R120: slot `x` is started by an event with this stamp; R124: a start in a disturbed frame sets DISTURBED. -/
def Slot.started (x : Slot) (rec : Payload) (stamp : Nat) (bo disturbed : Bool) : Slot :=
  { x with
    state := .running
    start := some stamp
    expiry := some (stamp + 16 * Timer.timeout rec)
    startBo := bo
    disturbed := x.disturbed || disturbed }

/-- R121: a stop stamped `t` arrives at the RUNNING slot `k`. DESIGN CHOICE (log 40): a slot STOPPED while it waits out its
acceptance window keeps expiry held set. -/
def State.stopSlot (s : State) (k : Fin 8) (t : Nat) (bo : Bool) : State :=
  let x := s.timers.slots[k]
  let st := x.start.getD 0
  if t < st then s.setSlot k { x with early := true }
  else if t < x.expiry.getD 0 then
    ((s.setSlot k { x with state := .stopped, outcome := some .stopped }).make s.seq.testNumber t
      (s.timerBody k .stopped (t - st) bo (s.seq.testFrame - t / 16)))
  else s

/-- R120: an event is offered to slot `k`. -/
def State.offerSlot (ev : Cond) (stamp : Nat) (bo : Bool) (s : State) (k : Fin 8) : State :=
  let x := s.timers.slots[k]
  let rec' := s.plan.timers[k]
  match x.state with
  | .waiting =>
    if Timer.start rec' = ev then s.setSlot k (x.started rec' stamp bo s.frame.disturbed)
    else if Timer.stop rec' = ev then s.setSlot k { x with early := true }
    else s
  | .running => if Timer.stop rec' = ev then s.stopSlot k stamp bo else s
  | .disabled | .stopped | .expired => s

/-- R120: an event is offered to the array; a CLOSED gate ignores it. -/
def State.offerTimers (s : State) (ev : Cond) (stamp : Nat) (bo : Bool) : State :=
  if s.timers.gate then (allFin 8).foldl (State.offerSlot ev stamp bo) s else s

/-- R119: a test starts. -/
def State.timersStart (s : State) : State :=
  s.withTimers ⟨true, tab fun k =>
    { Slot.reset with state := if Timer.enable s.plan.timers[k] then .waiting else .disabled }⟩

/-- R122: the hold H of slot `k`. -/
def State.hold (s : State) (k : Fin 8) : Nat :=
  let stop := Timer.stop s.plan.timers[k]
  match stop.kind with
  | .inputActive | .inputInactive => s.lat + Input.debounce s.plan.inputs[Fin.ofNat 8 stop.arg]
  | .breakerOpen | .breakerClosed => s.lat
  | _ => 0

/-- R122: at the boundary into the present frame the timeout of slot `k` has fallen due and is not yet held. -/
def State.timeoutIsDue (s : State) (k : Fin 8) : Bool :=
  let x := s.timers.slots[k]
  s.timers.gate && x.state == .running && !x.held && decide (x.expiry.getD 0 ≤ 16 * s.seq.testFrame)

/-- R122: expiry held is set. -/
def State.holdExpiry (s : State) (k : Fin 8) : State := s.setSlot k { s.timers.slots[k] with held := true }

/-- R122: at the boundary into the present frame slot `k` expires. A slot that this boundary has finalised does not (log 33). -/
def State.expires (s : State) (k : Fin 8) : Bool :=
  let x := s.timers.slots[k]
  s.timers.gate && x.state == .running && decide (x.expiry.getD 0 + s.hold k ≤ 16 * s.seq.testFrame)

/-- R122: slot `k` becomes EXPIRED and makes its result. DESIGN CHOICE (log 40): expiry held, which the same check has set,
stays set. -/
def State.expire (s : State) (k : Fin 8) : State :=
  let x := s.timers.slots[k]
  ((s.setSlot k { x with state := .expired, held := true, outcome := some .timeout }).makeApart s.seq.testNumber
    (x.expiry.getD 0) (s.timerBody k .timeout (16 * Timer.timeout s.plan.timers[k]) false 0))

/-- R122: the check of slot `k` at a boundary. -/
def State.checkSlot (s : State) (k : Fin 8) : State :=
  let s' := if s.timeoutIsDue k then s.holdExpiry k else s
  if s'.expires k then s'.expire k else s'

/-- R122: the check of every slot at a boundary. -/
def State.checkSlots (s : State) : State := (allFin 8).foldl State.checkSlot s

/-- R126: slot `k` is finalised, measuring to frame `e`. DESIGN CHOICE (log 36): a TIMEOUT made here carries the gain of the frame
that NOT_STARTED and CUT_SHORT carry. DESIGN CHOICE (log 40): expiry held stays as it stood. -/
def State.finaliseSlot (e : Nat) (s : State) (k : Fin 8) : State :=
  let x := s.timers.slots[k]
  match x.state with
  | .waiting =>
    (s.setSlot k { x with outcome := some .notStarted }).make s.seq.testNumber (16 * e) (s.timerBody k .notStarted 0 false 0)
  | .running =>
    if x.expiry.getD 0 ≤ 16 * e then
      (s.setSlot k { x with outcome := some .timeout }).make s.seq.testNumber (x.expiry.getD 0)
        (s.timerBody k .timeout (16 * Timer.timeout s.plan.timers[k]) false 0)
    else
      (s.setSlot k { x with outcome := some .cutShort }).make s.seq.testNumber (16 * e)
        (s.timerBody k .cutShort (16 * e - x.start.getD 0) false 0)
  | .disabled | .stopped | .expired => s

/-- R126: the array is finalised, measuring to frame `e`. -/
def State.finaliseTimers (s : State) (e : Nat) : State :=
  let s' := (allFin 8).foldl (State.finaliseSlot e) s
  s'.withTimers { s'.timers with gate := false }

/-- R124: every RUNNING slot sets DISTURBED; outside a test the slots keep their flags (R118, log 13). -/
def State.disturb (s : State) : State :=
  if s.seq.phase.inTest then
    s.withTimers { s.timers with
      slots := tab fun k =>
        let x := s.timers.slots[k]
        if x.state = .running then { x with disturbed := true } else x }
  else s

end Sys2Proof.Machine
end

