-- ==== Sys2Proof/Machine/Engine.lean ====
section
/-! DEFINITION. The Injection Engine (chapter 3). -/

namespace Sys2Proof.Machine

/-! ### Delay rings (3.2) -/

/-- R42: the base sample `x` is written; every entry moves one place older. -/
def pushRing (ring : List Int) (x : Int) : List Int := (x :: ring).take 256

/-- R42: the base samples of a received frame are written into the rings. -/
def State.writeRings (s : State) (samples : Vector Int 12) : State :=
  s.withEng (tab fun c => { s.eng[c] with ring := pushRing s.eng[c].ring (readSample samples[c]) })

/-- R44: a gap frame writes the sample of one cycle before. -/
def State.fillRings (s : State) : State :=
  s.withEng (tab fun c => { s.eng[c] with ring := pushRing s.eng[c].ring (s.eng[c].ring.getD (s.recv.cycle - 1) 0) })

/-- R43: every entry of every ring becomes 0. -/
def State.zeroRings (s : State) : State :=
  s.withEng (tab fun c => { s.eng[c] with ring := List.replicate 256 0 })

/-! ### State entry (3.3) -/

/-- R46: the accumulators and parameters are loaded from the record. -/
def Channel.load (x : Channel) (m : Mode) (rec' : Payload) : Channel :=
  { x with
    mode := m
    gacc := Chan.gain0 rec' * 65536
    acc := Chan.dc0 rec' * 65536
    step := Chan.step rec'
    d16 := Chan.d16 rec'
    decay := Chan.decay rec' }

/-- R47. -/
def Channel.loadZero (x : Channel) : Channel :=
  { x with mode := .zero, gacc := 0, acc := 0, step := 0, d16 := 0, decay := 0 }

/-- R46, R47, R48: what the record's mode makes of the channel; `first`: the entry at test start. -/
def Channel.loadRecord (x : Channel) (rec' : Payload) (first : Bool) : Channel :=
  match Chan.mode rec' with
  | 0 => x.loadZero
  | 1 => x.load .pass rec'
  | 2 => x.load .scale rec'
  | _ => if first then x.load .pass rec' else x

/-- R45: a state is entered with this record. -/
def Channel.enter (x : Channel) (rec' : Payload) (first : Bool) : Channel :=
  { x.loadRecord rec' first with clip := 0, rampEnd := false }

/-- R45: state `st` is entered. -/
def State.engineEnter (s : State) (st : Fin 32) (first : Bool) : State :=
  s.withEng (tab fun c => s.eng[c].enter s.plan.channels[st][c] first)

/-! ### The per-frame computation (3.4) -/

/-- R50: the delayed base. -/
def delayedBase (ring : List Int) (d16 : Nat) : Int :=
  let i := d16 / 16
  let f := d16 % 16
  if f = 0 then ring.getD i 0
  else ring.getD i 0 + roundHalfAway ((ring.getD (i + 1) 0 - ring.getD i 0) * f) 16

/-- R51: the gain term. -/
def gainTerm (xd : Int) (g : Nat) : Int := roundHalfAway (xd * g) 1024

/-- R52: the DC term. -/
def dcTerm (a : Int) : Int := roundHalfUp a 65536

/-- What bounds a channel's output (R53): nothing to go to, an unwritten limit, or a written one. -/
inductive Bound where | unrouted | unwritten | limit (lim : Nat)
deriving DecidableEq, Repr

/-- R53: the output. -/
def Bound.apply (b : Bound) (sum : Int) : Int :=
  match b with
  | .unrouted => 0
  | .unwritten => 0
  | .limit lim => clamp sum (-lim) lim

/-- R53: whether the clip count rises. -/
def Bound.clips (b : Bound) (sum : Int) : Bool :=
  match b with
  | .unrouted => false
  | .unwritten => sum != 0
  | .limit lim => clamp sum (-lim) lim != sum

/-- R53, R54: what the clamp is applied to. -/
def Channel.sum (x : Channel) : Int :=
  match x.mode with
  | .zero => 0
  | .pass => x.ring.getD 0 0
  | .scale => gainTerm (delayedBase x.ring x.d16) (x.gacc / 65536) + dcTerm x.acc

/-- R51, R53, R54: stages 1 to 4. -/
def Channel.output (x : Channel) (b : Bound) : Channel :=
  match x.mode with
  | .zero => { x with y := 0, gain := 0 }
  | .pass | .scale =>
    { x with
      y := b.apply x.sum
      gain := x.gacc / 65536
      clip := if b.clips x.sum then satInc 255 x.clip else x.clip }

/-- R55: the DC accumulator of the frame after. -/
def nextAcc (a : Int) (k : Nat) : Int := (a * k + 32768) / 65536

/-- R56: the ramp clamps. -/
def rampClamps (gacc : Nat) (step : Int) : Bool :=
  decide ((gacc : Int) + step < 0) || decide (4294967295 < (gacc : Int) + step)

/-- R56: the ramp accumulator of the frame after. -/
def nextGacc (gacc : Nat) (step : Int) : Nat := (clamp ((gacc : Int) + step) 0 4294967295).toNat

/-- R56: the frame's advance is the first of the stay to clamp. -/
def Channel.rampEnds (x : Channel) : Bool := x.mode != .zero && !x.rampEnd && rampClamps x.gacc x.step

/-- R55, R56: stage 5. -/
def Channel.advance (x : Channel) : Channel :=
  match x.mode with
  | .zero => x
  | .pass | .scale =>
    { x with
      acc := nextAcc x.acc x.decay
      gacc := nextGacc x.gacc x.step
      rampEnd := x.rampEnd || rampClamps x.gacc x.step }

/-- R53, R63: the route entry of `c` for the present frame. -/
def State.route (s : State) (c : Fin 12) : Option (Fin 14) :=
  match s.sup.engine with
  | .switching x => if x.logical = c then some x.dst else s.out.map[c]
  | .quiet | .awaitZero _ => s.out.map[c]

/-- R53: the bound of `c` for the present frame. -/
def State.bound (s : State) (c : Fin 12) : Bound :=
  match s.route c with
  | none => .unrouted
  | some p => if s.out.limitPrev[p] = 0 then .unwritten else .limit s.out.limitPrev[p]

/-- R56, R57: the ramp of channel `c` has clamped: its event is offered and its record made. -/
def State.rampEvent (s : State) (c : Fin 12) : State :=
  let t := 16 * s.seq.testFrame
  let ev : Cond := ⟨.rampEnd, c.val⟩
  ((s.offerTimers ev t false).offerCapture ev t).make s.seq.testNumber t
    (.rampEnd c s.seq.stateInForce (s.eng[c].gacc / 65536))

/-- R49: the outputs of the present frame are computed, and the accumulators advanced. The ramp ends of one frame come in the
order of the channels, which R49 computes side by side (log 26). -/
def State.computeOutputs (s : State) : State :=
  let ended := (allFin 12).filter fun c => s.eng[c].rampEnds
  let s' := (s.withEng (tab fun c => (s.eng[c].output (s.bound c)).advance)).withFrame { s.frame with computed := true }
  ended.foldl State.rampEvent s'

/-- R41: RESET_PART leaves the rings alone. -/
def State.engineReset (s : State) : State :=
  s.withEng (tab fun c => { Channel.reset with ring := s.eng[c].ring })

end Sys2Proof.Machine
end

