-- ==== Sys2Proof/Machine/Supervisor.lean ====
section
/-! DEFINITION. The Output Supervisor: readback fault, comparison, failover (chapter 5). -/

namespace Sys2Proof.Machine

/-- What a valid readback hands on (R71), with the commanded samples paired by the readback latency. -/
structure Readback where
  measured : Vector Int 14
  commanded : Vector (Option Int) 14
  overload : Vector Bool 14
  thermal : Vector Bool 14
  reference : Nat
deriving DecidableEq, Repr

/-! ### The readback fault (5.6) -/

/-- R72: dormant exactly while the stored readback latency is 0. -/
def Supervisor.dormant (p : Supervisor) : Bool := p.latency == 0

/-- R81: the reference word lies in the band. -/
def Supervisor.inBand (p : Supervisor) (ref : Nat) : Bool :=
  decide (16384 ≤ ref + p.refTol) && decide (ref ≤ 16384 + p.refTol)

/-- R81: the runs after an outcome, `some ref` for a valid readback, none for a bad or missing one. -/
def Supervisor.count (p : Supervisor) : Option Nat → Supervisor
  | some ref =>
    if p.inBand ref then
      { p with refRun := 0, linkRun := 0, recRun := if p.fault.isSome then satInc 15 p.recRun else 0, lastRef := ref }
    else { p with refRun := satInc 15 p.refRun, linkRun := 0, recRun := 0, lastRef := ref }
  | none => { p with linkRun := satInc 16 p.linkRun, recRun := 0 }

/-- R81: the cause for which the runs set the fault; the run that the outcome advanced decides when both have come to their
mark. -/
def Supervisor.faultCause (p : Supervisor) (valid : Bool) : Option FaultCause :=
  if valid then (if p.confirm ≤ p.refRun then some .reference else none)
  else if 16 ≤ p.linkRun then some .link
  else if p.confirm ≤ p.refRun then some .reference
  else none

/-- R83: the run that completed at a setting. -/
def Supervisor.faultRun (p : Supervisor) : FaultCause → Nat
  | .reference => p.refRun
  | .link => p.linkRun

/-- R82, R124: the fault is set: record, attention, and the frame is disturbed. -/
def State.setFault (s : State) (c : FaultCause) : State :=
  let s' := (s.withSup { s.sup with fault := some c }).withFrame { s.frame with disturbed := true }
  ((s'.disturb).make s.stamp.1 s.stamp.2 (.readback false c s.sup.lastRef (s.sup.faultRun c))).raise .readbackFault

/-- R82: the fault clears. -/
def State.clearFault (s : State) (c : FaultCause) : State :=
  (s.withSup { s.sup with fault := none }).make s.stamp.1 s.stamp.2 (.readback true c s.sup.lastRef s.sup.recRun)

/-- R81, R82: an outcome is counted. -/
def State.countOutcome (s : State) (outcome : Option Nat) : State :=
  if s.sup.dormant then s
  else
    let s' := s.withSup (s.sup.count outcome)
    match s'.sup.fault with
    | none =>
      match s'.sup.faultCause outcome.isSome with
      | some c => s'.setFault c
      | none => s'
    | some c => if s'.sup.confirm ≤ s'.sup.recRun then s'.clearFault c else s'

/-! ### Comparison (5.4, 5.5) -/

/-- The logical channel whose map entry names `p`. -/
def OutputStage.logicalOf (o : OutputStage) (p : Fin 14) : Option (Fin 12) := (allFin 12).find? fun c => o.map[c] == some p

/-- 5.3: some map entry names `p`. -/
def OutputStage.isTarget (o : OutputStage) (p : Fin 14) : Bool := (o.logicalOf p).isSome

/-- Channel `p` is replaced. -/
def State.setChan (s : State) (p : Fin 14) (x : ChanSup) : State := s.withSup { s.sup with chan := upd s.sup.chan p x }

/-- R76: `p` is compared on a readback that compares channels. -/
def State.compared (s : State) (p : Fin 14) : Bool :=
  let x := s.sup.chan[p]
  (x.state == .mapped || (x.state == .failed && s.out.isTarget p)) && x.threshold != 0

/-- R84: `c` joins the request list, unless it is there or being served. -/
def Supervisor.join (p : Supervisor) (c : Fin 12) : Supervisor :=
  let served := match p.engine with
    | .quiet => false
    | .awaitZero x | .switching x => x.logical == c
  if p.requests.contains c || served then p else { p with requests := p.requests ++ [c] }

/-- R80: what becomes of the request. -/
def State.disposition (s : State) : Disposition :=
  if s.seq.phase = .ending then .ending else if s.sup.enable then .joined else .disabled

/-- R80: `p` has become FAILED. -/
def State.failChannel (s : State) (p : Fin 14) (mm ov th : Bool) (bucket : Nat) (me co : Int) : State :=
  let s' := (s.make s.seq.testNumber (16 * s.seq.testFrame)
    (.channelFailed p (s.out.logicalOf p) mm ov th bucket me co s.disposition)).raise .channelFailed
  match s.disposition, s.out.logicalOf p with
  | .joined, some c => s'.withSup (s'.sup.join c)
  | _, _ => s'

/-- R77: the evidence weight. -/
def weight (mm ov th : Bool) : Nat := bit mm + 2 * bit ov + 4 * bit th

/-- R77, R78: `p` is compared. The countdown falls by 1; the leak itself is the step `leak` (log 24). -/
def State.compare (s : State) (p : Fin 14) (me co : Int) (ov th : Bool) : State :=
  let x := s.sup.chan[p]
  let mm := decide ((x.tolerance : Int) < me - co) || decide ((x.tolerance : Int) < co - me)
  let b := min 255 (x.bucket + weight mm ov th)
  let fails := x.state == .mapped && decide (x.threshold ≤ b)
  let s' := s.setChan p { x with bucket := b, countdown := x.countdown - 1, state := if fails then .failed else x.state }
  if fails then s'.failChannel p mm ov th b me co else s'

/-- R78: a leak has fallen due: the countdown has reached 0 and not been loaded again. -/
def State.leakDue (s : State) (p : Fin 14) : Bool :=
  s.sup.chan[p].countdown == 0 && s.sup.chan[p].leakPeriod != 0

/-- R78: the bucket loses 1 and the countdown is loaded again. -/
def State.leak (s : State) (p : Fin 14) : State :=
  let x := s.sup.chan[p]
  s.setChan p { x with bucket := x.bucket - 1, countdown := x.leakPeriod }

/-- R78: a leak that has fallen due comes about. -/
def State.leakIfDue (s : State) (p : Fin 14) : State := if s.leakDue p then s.leak p else s

/-- R78: every leak that has fallen due comes about. -/
def State.leaks (s : State) : State := (allFin 14).foldl State.leakIfDue s

/-- R76: one channel of a valid readback. -/
def State.compareOne (rb : Readback) (s : State) (p : Fin 14) : State :=
  match s.compared p, rb.commanded[p] with
  | true, some co => s.compare p rb.measured[p] co rb.overload[p] rb.thermal[p]
  | _, _ => s

/-- R76: a valid readback compares channels now. -/
def State.comparing (s : State) : Bool := !s.sup.dormant && s.seq.phase.inTest && s.sup.fault.isNone

/-- R76: a valid readback is counted, then compared. DESIGN CHOICE (log 44): the channels are compared, and the CHANNEL_FAILED
records of one readback made, in increasing order of physical channel number; R84 orders so only the joins to the list. -/
def State.takeReadback (s : State) (rb : Readback) : State :=
  let s' := s.countOutcome (some rb.reference)
  if s'.comparing then (allFin 14).foldl (State.compareOne rb) s' else s'

/-- R79: a test starts. -/
def State.supervisorStart (s : State) : State :=
  s.withSup { s.sup with chan := tab fun p => { s.sup.chan[p] with bucket := 0, countdown := s.sup.chan[p].leakPeriod } }

/-! ### Failover (5.7) -/

/-- Map entry `c` is replaced. -/
def State.setMap (s : State) (c : Fin 12) (p : Option (Fin 14)) : State := s.withOut { s.out with map := upd s.out.map c p }

/-- The failover engine is replaced. -/
def State.setEngine (s : State) (e : FailoverEngine) : State := s.withSup { s.sup with engine := e }

/-- R85: the lowest-numbered SPARE whose limit has been written. -/
def State.spare (s : State) : Option (Fin 14) :=
  (allFin 14).find? fun p => s.sup.chan[p].state == .spare && s.out.written[p]

/-- R89: FAILOVER with outcome `o` for the request of `c`, made by the engine at the present boundary. -/
def State.makeFailover (s : State) (c : Fin 12) (o : FailoverOutcome) (src dst : Option (Fin 14)) (w sw : Nat) : State :=
  s.makeApart s.seq.testNumber (16 * s.seq.testFrame) (.failover c o src dst w sw)

/-- R85: a request can be served at this boundary. -/
def State.canServe (s : State) : Bool :=
  s.seq.phase == .running && s.sup.engine == .quiet && !s.sup.requests.isEmpty && !s.frame.served

/-- R85: the request of `c`, which has left the list, is served. -/
def State.serveChannel (s : State) (c : Fin 12) : State :=
  match s.spare, s.out.map[c] with
  | some q, some p => s.setEngine (.awaitZero ⟨c, p, q, 0, 0, 0⟩)
  | _, m =>
    if s.sup.abortPolicy then (s.makeFailover c .noSpareAbort m none 0 0).requestEnd .channelFailed
    else (s.setMap c none).makeFailover c .noSpareInhibit m none 0 0

/-- R85: the head of the list is served, if one can be served now. -/
def State.serve (s : State) : State :=
  match s.canServe, s.sup.requests with
  | true, c :: rest =>
    ((s.withSup { s.sup with requests := rest }).withFrame { s.frame with served := true }).serveChannel c
  | _, _ => s

/-- R86: the zero was found in the frame before. -/
def State.zeroFound (s : State) (x : FailoverCtx) : Bool :=
  let y := s.eng[x.logical].y
  decide (1 ≤ x.wait) && (decide (y = 0) || decide (y * x.prevY < 0) || decide (2 * s.recv.cycle ≤ x.wait))

/-- R86: the engine enters SWITCHING, if the zero was found. -/
def State.switchOver (s : State) : State :=
  match s.sup.engine with
  | .awaitZero x => if s.zeroFound x then s.setEngine (.switching { x with switch := 0 }) else s
  | .quiet | .switching _ => s

/-- R86: the engine is in AWAIT_ZERO and the zero was found. -/
def State.zeroIsFound (s : State) : Bool :=
  match s.sup.engine with
  | .awaitZero x => s.zeroFound x
  | .quiet | .switching _ => false

/-- R87 step 1: the map moves to the spare, which becomes MAPPED. -/
def State.moveMap (s : State) (x : FailoverCtx) : State :=
  (s.setMap x.logical (some x.dst)).setChan x.dst { s.sup.chan[x.dst] with state := .mapped }

/-- R87: the M-th SWITCHING frame is over (M is at least 1, R74). -/
def State.switchIsOver (s : State) : Bool :=
  match s.sup.engine with
  | .switching x => decide (1 ≤ x.switch) && decide (s.sup.operate ≤ x.switch) && s.seq.phase == .running
  | .quiet | .awaitZero _ => false

/-- R87: the failover completes, and the head of the list is served. -/
def State.completeFailover (s : State) : State :=
  match s.sup.engine with
  | .switching x =>
    if s.switchIsOver then
      (((s.moveMap x).makeFailover x.logical .done (some x.src) (some x.dst) x.wait x.switch).setEngine .quiet).serve
    else s
  | .quiet | .awaitZero _ => s

/-- R86, R87: the frame's outputs are about to be computed: the frame counts, and the output of the frame before is kept. -/
def State.countFailoverFrame (s : State) : State :=
  match s.sup.engine with
  | .awaitZero x => s.setEngine (.awaitZero { x with wait := x.wait + 1, prevY := s.eng[x.logical].y })
  | .switching x => s.setEngine (.switching { x with switch := x.switch + 1 })
  | .quiet => s

/-- R63: `c` is held silent in the present frame. -/
def State.silent (s : State) (c : Fin 12) : Bool :=
  match s.sup.engine with
  | .switching x => x.logical == c
  | .quiet | .awaitZero _ => false

/-- R87, R124: the frame whose boundary this is will be a SWITCHING frame, if it is RUNNING (M is at least 1, R74). -/
def State.switchesNext (s : State) : Bool :=
  match s.sup.engine with
  | .quiet => false
  | .awaitZero x => s.zeroFound x
  | .switching x => decide (x.switch < max 1 s.sup.operate)

/-- R88: FAILOVER with outcome ABANDONED for a request still in the list. -/
def State.abandonRequest (e : Nat) (s : State) (c : Fin 12) : State :=
  s.make s.seq.testNumber (16 * e) (.failover c .abandoned s.out.map[c] none 0 0)

/-- R88 steps 1 and 2: the failover in flight is closed. -/
def State.closeEngine (s : State) (e : Nat) : State :=
  match s.sup.engine with
  | .quiet => s
  | .awaitZero x =>
    (s.make s.seq.testNumber (16 * e) (.failover x.logical .abandoned (some x.src) (some x.dst) x.wait 0)).setEngine .quiet
  | .switching x =>
    ((s.moveMap x).make s.seq.testNumber (16 * e)
      (.failover x.logical .done (some x.src) (some x.dst) x.wait x.switch)).setEngine .quiet

/-- R88: the failover in flight and the list are closed, `e` being the first ENDING frame. -/
def State.closeFailover (s : State) (e : Nat) : State :=
  let s' := s.closeEngine e
  let s'' := s'.sup.requests.foldl (State.abandonRequest e) s'
  s''.withSup { s''.sup with requests := [] }

/-- R92: RESET_PART. -/
def State.supervisorReset (s : State) : State :=
  s.withSup { s.sup with
    chan := tab fun p => { s.sup.chan[p] with bucket := 0, countdown := s.sup.chan[p].leakPeriod }
    fault := none
    refRun := 0
    linkRun := 0
    recRun := 0
    requests := []
    engine := .quiet }

end Sys2Proof.Machine
end

