-- ==== Sys2Proof/Machine/OutputStage.lean ====
section
/-! DEFINITION. The Output Stage: fade, route, drive frames, readback reception (chapter 4). -/

namespace Sys2Proof.Machine

/-! ### Physical samples (4.3) -/

/-- R64: the faded output of the `k`-th ENDING frame. -/
def faded (y : Int) (fadeLen k : Nat) : Int := roundHalfAway (y * ((fadeLen : Int) - k)) fadeLen

/-- R63: the output of `c` after the fade. -/
def State.fadedOutput (s : State) (c : Fin 12) : Int :=
  if s.seq.phase = .ending then faded s.eng[c].y s.fade s.seq.countdown else s.eng[c].y

/-- R63, R65: the outputs delivered for the present frame. -/
def State.deliveredOutputs (s : State) : Vector Int 12 :=
  tab fun c => if s.seq.phase.inTest && !s.silent c then s.fadedOutput c else 0

/-- R66: the route entries that the drive frame carries. -/
def State.routes (s : State) : Vector (Option (Fin 14)) 12 :=
  tab fun c => if s.seq.phase.inTest then s.route c else s.out.map[c]

/-- The logical channel that a route places on `p`. -/
def routedTo (route : Vector (Option (Fin 14)) 12) (p : Fin 14) : Option (Fin 12) :=
  (allFin 12).find? fun c => route[c] == some p

/-- R63: each logical sample on its physical channel; 0 where no route entry names one. -/
def placeSamples (route : Vector (Option (Fin 14)) 12) (delivered : Vector Int 12) : Vector Int 14 :=
  tab fun p => match routedTo route p with
    | some c => delivered[c]
    | none => 0

/-! ### Drive frames (4.4) -/

/-- R70: the judgment of the drive frame last sent is closed. -/
def State.closeJudgment (s : State) : State :=
  match s.out.judgment with
  | .openBad => s.countOutcome none
  | .openNone => (s.withOut { s.out with missing := satInc max32 s.out.missing }).countOutcome none
  | .settled => s

/-- R68: the drive frame last sent moves into the commanded history. -/
def OutputStage.pushHistory (o : OutputStage) : OutputStage :=
  match o.lastSeq with
  | some q => { o with history := ((q, o.lastSamples) :: o.history).take 4 }
  | none => o

/-- R66, R68: a drive frame with these samples has been sent. -/
def OutputStage.sent (o : OutputStage) (samples : Vector Int 14) : OutputStage :=
  { o.pushHistory with
    lastSeq := some o.nextSeq
    lastSamples := samples
    nextSeq := (o.nextSeq + 1) % 65536
    judgment := .openNone }

/-- R66, R70: a drive frame is sent. -/
def State.sendDrive (s : State) (samples : Vector Int 14) (route : Vector (Option (Fin 14)) 12) : State :=
  let s' := s.closeJudgment
  (s'.withOut (s'.out.sent samples)).withDriveOut (driveBytes s'.out.nextSeq samples route)

/-- R63, R65, R66: the samples of the present frame are formed and sent. -/
def State.driveFrame (s : State) : State :=
  let d := s.deliveredOutputs
  (s.withOut { s.out with delivered := d }).sendDrive (placeSamples s.routes d) s.routes

/-- R67: the loss drive frame. -/
def State.lossDrive (s : State) : State := s.sendDrive (Vector.replicate 14 0) s.out.map

/-! ### Readback (4.5) -/

/-- R71: the commanded sample of `p` paired with a readback of drive frame `q`. -/
def OutputStage.commanded (o : OutputStage) (q latency : Nat) (p : Fin 14) : Option Int :=
  (o.history.find? fun e => e.1 == (q + 65536 - latency) % 65536).map fun e => e.2[p]

/-- R71: what a valid readback of drive frame `q` hands on. -/
def State.readbackOf (s : State) (q : Nat) (bs : List Byte) : Readback where
  measured := tab fun p => sampleAt bs (4 + 2 * p.val)
  commanded := tab fun p => s.out.commanded q s.sup.latency p
  overload := tab fun p => flagAt bs 32 p
  thermal := tab fun p => flagAt bs 34 p
  reference := at2 bs 36

/-- R69: a readback frame is judged. -/
def State.judgeReadback (s : State) (bs : List Byte) : State :=
  let o := s.out
  let bad : Judgment := if o.judgment = .settled then .settled else .openBad
  if !goodReadback bs then s.withOut { o with crcBad := satInc max32 o.crcBad, judgment := bad }
  else if o.lastSeq = some (at2 bs 2) then
    if o.judgment = .settled then s.withOut { o with duplicate := satInc max32 o.duplicate }
    else
      (s.withOut { o with valid := satInc max32 o.valid, judgment := .settled }).takeReadback
        (s.readbackOf (at2 bs 2) bs)
  else s.withOut { o with echoBad := satInc max32 o.echoBad, judgment := bad }

end Sys2Proof.Machine
end

