-- ==== Sys2Proof/Machine/PlanStore.lean ====
section
/-! DEFINITION. The Plan Store: the plan checksum and verification (1.4, 1.5). -/

namespace Sys2Proof.Machine

/-- The stored bytes of some records, in order. -/
def recordBytes (ps : List Payload) : List Byte := ps.flatMap fun p => p.toList

/-- R11: the records that the canonical order holds for state `i`. -/
def Plan.stateRecords (p : Plan) (i : Fin 32) : List Payload := p.part0[i] :: p.part1[i] :: p.channels[i].toList

/-- R11: the records after those of the states. -/
def Plan.remainingRecords (p : Plan) : List Payload :=
  p.timers.toList ++ p.inputs.toList ++ [p.breaker, p.capture]

/-- State count N. -/
def Plan.stateCount (p : Plan) : Nat := Globals.stateCount p.globals

/-- R13: an exit in use of state `i` names a state that is not in the plan. -/
def Plan.badExit (p : Plan) (i : Fin 32) : Bool :=
  (allFin 4).any fun k => (Part0.exitCond p.part0[i] k).kind != .none && decide (p.stateCount ≤ Part0.exitNext p.part0[i] k)

/-- R14: a condition in use names the entry to a state that is not in the plan. -/
def Plan.badEntry (p : Plan) (c : Cond) : Bool := c.kind == .stateEntry && decide (p.stateCount ≤ c.arg)

/-- R14: a timer slot or the capture names a state that is not in the plan. -/
def Plan.badRemaining (p : Plan) : Bool :=
  p.timers.toList.any (fun t => Timer.enable t && (p.badEntry (Timer.start t) || p.badEntry (Timer.stop t)))
    || (Capture.enable p.capture && p.badEntry (Capture.trigger p.capture))

/-- R12: verification begins. -/
def Verification.begin (expected : Nat) : Verification := ⟨expected, .state 0, 0xFFFF#16, none⟩

/-- R13: the running CRC after the step for state `i` (log 18: the test globals come with state 0). -/
def Plan.extendState (p : Plan) (c : BitVec 16) (i : Fin 32) : BitVec 16 :=
  crcFrom c (recordBytes ((if i = 0 then [p.globals] else []) ++ p.stateRecords i))

/-- R13: the step for state `i`. -/
def Verification.stepState (v : Verification) (p : Plan) (i : Fin 32) : Verification :=
  { v with
    crc := p.extendState v.crc i
    position := if i.val + 1 < p.stateCount then .state (i.val + 1) else .remaining
    failure := if v.failure.isNone && p.badExit i then some (i.val, .nextState) else v.failure }

/-- R14: the running CRC over the whole sequence. -/
def Verification.complete (v : Verification) (p : Plan) : Verification :=
  { v with crc := crcFrom v.crc (recordBytes p.remainingRecords) }

/-- R14: the failure to name, if verification fails; `v` has its CRC complete. -/
def Verification.verdict (v : Verification) (p : Plan) : Option (Nat × PlanCause) :=
  match v.failure with
  | some f => some f
  | none =>
    if p.badRemaining then some (255, .remaining)
    else if v.crc.toNat ≠ v.expected then some (255, .crc)
    else none

/-- R14, R15: the outcome is decided. -/
def State.verifyOutcome (s : State) (v : Verification) : State :=
  let v' := v.complete s.plan
  match v'.verdict s.plan with
  | none =>
    ((s.withPlan { s.plan with verification := some v' }).withSeq { s.seq with next := some .armed }).make 0 s.outTime
      (.planVerified v'.crc.toNat s.plan.stateCount)
  | some (item, cause) =>
    ((s.withPlan { s.plan with verification := none }).withSeq { s.seq with next := some .idle }).make 0 s.outTime
      (.planRejected v'.crc.toNat v.expected item cause)

/-- R16, 1.5: the verification state is emptied. -/
def State.dropVerification (s : State) : State := s.withPlan { s.plan with verification := none }

end Sys2Proof.Machine
end

