-- ==== Sys2Proof/Machine/Breaker.lean ====
section
/-! DEFINITION. The Breaker Model and the output lines (chapter 7). -/

namespace Sys2Proof.Machine

/-- A test time from a line time: minus Lat, clamped at 0; whether it was clamped (R109, R97). -/
def State.lineStamp (s : State) (t : Int) : Nat × Bool := stampOf (t - s.lat)

/-- An edge-sense event is offered to the timers, then to the capture trigger. -/
def State.offer (s : State) (ev : Cond) (stamp : Nat) (bo : Bool) : State :=
  (s.offerTimers ev stamp bo).offerCapture ev stamp

/-- R109, R110, R112: the breaker has come to OPEN (`opened`) or CLOSED at line time `t`: record, then event. -/
def State.breakerReached (s : State) (opened tripFree : Bool) (input edgeStamp : Nat) (edgeBo : Bool) (operating : Nat)
    (t : Int) : State :=
  let n := satInc 65535 s.brk.count
  let (st, bo) := s.lineStamp t
  let s' := s.withBrk ⟨if opened then .opened else .closed, none, none, n⟩
  (s'.make s.seq.testNumber st (.breaker opened tripFree input edgeStamp operating n bo edgeBo)).offer
    ⟨if opened then .breakerOpen else .breakerClosed, 0⟩ st bo

/-- R109: the deadline has been reached. -/
def State.deadlineDue (s : State) : Bool :=
  s.seq.phase.inTest && match s.brk.deadline with
    | some d => decide (d ≤ s.lineTime)
    | none => false

/-- R109: the operation in flight completes at its deadline. -/
def State.completeOperation (s : State) : State :=
  match s.brk.deadline, s.brk.operation with
  | some d, some op =>
    s.breakerReached (s.brk.state == .opening) false op.input op.stamp op.beforeOrigin (d - op.start).toNat d
  | _, _ => s

/-- R108: an operation begins at the acceptance of an edge. -/
def State.beginOperation (s : State) (st : BreakerState) (delay input stamp : Nat) (bo : Bool) : State :=
  s.withBrk { s.brk with
    state := st
    deadline := some (s.lineTime + delay)
    operation := some ⟨s.lineTime, input, stamp, bo⟩ }

/-- R110: a trip edge finds the breaker CLOSING. -/
def State.tripFree (s : State) (input stamp : Nat) (bo : Bool) : State :=
  match s.brk.operation with
  | some op => s.breakerReached true true input stamp bo (s.lineTime - op.start).toNat s.lineTime
  | none => s

/-- R108, R111: an accepted edge to active of input `i` reaches the breaker. -/
def State.breakerEdge (s : State) (i : Fin 8) (stamp : Nat) (bo : Bool) : State :=
  let r := s.plan.breaker
  if Brk.on r then
    match s.brk.state with
    | .closed => if Brk.trip r = i.val then s.beginOperation .opening (Brk.openDelay r) i stamp bo else s
    | .opening => s
    | .opened => if Brk.close r = i.val then s.beginOperation .closing (Brk.closeDelay r) i stamp bo else s
    | .closing => if Brk.trip r = i.val then s.tripFree i stamp bo else s
  else s

/-- R107: a test starts. -/
def State.breakerStart (s : State) : State := s.withBrk ⟨Brk.initial s.plan.breaker, none, none, 0⟩

/-- R106, R113: the breaker stands at the initial state of the stored record, with no operation. -/
def State.breakerHome (s : State) : State :=
  s.withBrk { s.brk with state := Brk.initial s.plan.breaker, deadline := none, operation := none }

/-- R115, R116: state `st` is entered for the present frame: the lines take its modes. A line that leaves PULSE keeps its
pulse phase, of which R116 says nothing there (log 38). -/
def State.linesEnter (s : State) (st : Fin 32) : State :=
  s.withLines (tab fun k =>
    let m := Part1.mode s.plan.part1[st] k
    { mode := m
      high := if m = .pulse then true else s.lines[k].high
      deadline := if m = .pulse then some ((16 * s.seq.testFrame : Nat) + (Part1.high s.plan.part1[st] k : Int))
        else none })

/-- R114, R117: every line is LOW, without a pulse deadline; the pulse phase stays, since both rules give mode and deadline
only (log 38). -/
def State.linesHome (s : State) : State :=
  s.withLines (tab fun k => { s.lines[k] with mode := .low, deadline := none })

/-- R116: the pulse deadline of line `k` has been reached. -/
def State.pulseDue (s : State) (k : Fin 4) : Bool :=
  s.seq.phase.inTest && s.lines[k].mode == .pulse && match s.lines[k].deadline with
    | some d => decide (d ≤ s.lineTime)
    | none => false

/-- R116: the period in progress on line `k` ends. -/
def State.endPulse (s : State) (k : Fin 4) : State :=
  let l := s.lines[k]
  let rec' := s.plan.part1[s.seq.stateInForce]
  match l.deadline with
  | some d =>
    s.withLines (upd s.lines k { l with
      high := !l.high
      deadline := some (d + ((if l.high then Part1.low rec' k else Part1.high rec' k : Nat) : Int)) })
  | none => s

end Sys2Proof.Machine
end

