-- ==== Sys2Proof/Machine/Scanner.lean ====
section
/-! DEFINITION. The Input Scanner (chapter 6). -/

namespace Sys2Proof.Machine

/-- Input `i` is replaced. -/
def State.setInput (s : State) (i : Fin 8) (x : InputScan) : State :=
  s.withScan { s.scan with inputs := upd s.scan.inputs i x }

/-! ### Scanning (6.2) -/

/-- R94: the active level of a line. -/
def InputScan.level (x : InputScan) : Bool := x.raw != Input.invert x.cfg

/-- R103, R104: everything but the settled level is cleared. -/
def InputScan.cleared (x : InputScan) : InputScan :=
  { x with cand := none, bounce := 0, chatter := false, window := none, edges := 0, suppressed := 0 }

/-- R93, R103, R104: the record `rec'` is taken up, and the settled level read again, which is not an edge. -/
def InputScan.reread (x : InputScan) (rec' : Payload) : InputScan :=
  { x.cleared with cfg := rec', settled := x.raw != Input.invert rec', reload := .no, acted := true }

/-- R95: at position `pos` the candidate has persisted for the debounce. -/
def InputScan.due (x : InputScan) (pos : Nat) : Bool :=
  match x.cand with
  | some c => decide (Input.debounce x.cfg + c.start ≤ pos)
  | none => false

/-- R96: the settled level once the candidate is accepted, where position `pos` accepts it. -/
def InputScan.levelAt (x : InputScan) (pos : Nat) : Bool :=
  match x.cand with
  | some c => if x.due pos then c.active else x.settled
  | none => x.settled

/-- R95: the input is scanned at position `pos`. -/
def InputScan.scan (x : InputScan) (pos : Nat) : InputScan :=
  match x.cand with
  | none => if x.level = x.settled then x else { x with cand := some ⟨x.level, pos⟩, acted := true }
  | some _ =>
    if x.level = x.settled then { x with cand := none, bounce := satInc 255 x.bounce, acted := true }
    else { x with acted := x.acted || x.due pos }

/-- R93, R103, R104: the input is to be read afresh at this sub-tick. -/
def State.rereads (s : State) (i : Fin 8) : Bool :=
  match s.scan.inputs[i].reload with
  | .no => false
  | .now => true
  | .afterZero => s.clock.subtick != 0

/-- R94, R95: what the scan of input `i` at the present sub-tick leaves. -/
def State.scanned (s : State) (i : Fin 8) : InputScan :=
  let x := s.scan.inputs[i]
  if s.rereads i then x.reread s.plan.inputs[i] else x.scan s.scan.pos

/-- R94: every input is scanned at the present sub-tick. -/
def State.scanAll (s : State) : State :=
  s.withScan { s.scan with inputs := tab fun i => { s.scan.inputs[i] with acted := false } } |> fun s' =>
    s'.withScan { s'.scan with inputs := tab fun i => s'.scanned i }

/-- Sub-ticks are being scanned: the slot has not ended, and no frame-taken event is in progress, or one whose message comes
after sub-tick 0 (R162, log 3). -/
def State.scanning (s : State) : Bool :=
  (s.frame.stage == .closed || s.frame.stage == .ready) && !s.clock.slotDone

/-- The reading of input `i` at the present sub-tick stands: the scanner has acted on it there, or the sub-tick is sub-tick 0
of a frame taken, from which the exit latches of the frame have been set (R24; log 9). -/
def State.hasRead (s : State) (i : Fin 8) : Bool :=
  s.scan.inputs[i].acted || (s.recv.state == .locked && s.clock.subtick == 0)

/-- R94, R95: the raw level of line `i` becomes `high`. The scanner reads it at the present sub-tick, if its reading there does
not stand yet; else at the next (log 9). -/
def State.lineChange (s : State) (i : Fin 8) (high : Bool) : State :=
  let s' := s.setInput i { s.scan.inputs[i] with raw := high }
  if s.scanning && !s.hasRead i then s'.setInput i (s'.scanned i) else s'

/-! ### Accepted edges (6.3 to 6.5) -/

/-- R95: the candidate of input `i` is to be accepted at the present sub-tick. -/
def State.edgeDue (s : State) (i : Fin 8) : Bool :=
  s.scanning && s.scan.inputs[i].due s.scan.pos

/-- R97: the unclamped test time of a candidate that began at `start`. -/
def State.edgeTime (s : State) (start : Nat) : Int := (start : Int) - s.scan.origin - s.lat

/-- What the counting of an accepted edge leads to (R100, R101). -/
inductive EdgeKind where | plain | chatterStart (edges frames : Nat) | suppressed
deriving DecidableEq, Repr

/-- R100, R101: an accepted edge is counted, `frame` being the frame of acceptance. -/
def InputScan.countEdge (x : InputScan) (frame : Nat) : InputScan × EdgeKind :=
  if Input.limit x.cfg = 0 then (x, .plain)
  else if x.chatter then ({ x with suppressed := satInc 65535 x.suppressed, window := some frame }, .suppressed)
  else
    let first := x.window.getD frame
    let n := if x.window.isSome then x.edges + 1 else 1
    if Input.limit x.cfg < n then
      ({ x with chatter := true, suppressed := 1, window := some frame, edges := n }, .chatterStart n (frame + 1 - first))
    else ({ x with window := some first, edges := n }, .plain)

/-- R99, R101: the record of an accepted edge, if it makes one. -/
def State.edgeRecord (s : State) (i : Fin 8) (active : Bool) (bounce stamp : Nat) (bo : Bool) : EdgeKind → Option Made
  | .plain =>
    if s.seq.phase.inTest then
      some ⟨s.seq.testNumber, stamp, .inputEdge i active bounce bo s.seq.testFrame, false⟩
    else none
  | .chatterStart e w =>
    if s.seq.phase.inTest then some ⟨s.seq.testNumber, stamp, .chatterStart i active e w bo, false⟩
    else some ⟨0, s.outTime, .chatterStart i active e w false, false⟩
  | .suppressed => none

/-- R20: an accepted active edge of input `i`, whose candidate began at `start`, reaches the start trigger. -/
def State.startTrigger (s : State) (i : Fin 8) (start : Nat) : State :=
  let g := s.plan.globals
  if s.seq.request = .none ∧ !s.testEndQueued ∧ Globals.startInputMode g ∧ Globals.startInput g = i.val then
    s.withSeq { s.seq with
      request := .start ⟨.input, i, s.lat + (s.scan.pos + 16 - s.clock.subtick - start)⟩ }
  else s

/-- R98: an accepted edge is handed to the consumers that the phase admits. -/
def State.deliver (s : State) (i : Fin 8) (active : Bool) (start stamp : Nat) (bo : Bool) : State :=
  match s.seq.phase with
  | .running | .ending =>
    let s' := s.offer ⟨if active then .inputActive else .inputInactive, i⟩ stamp bo
    if active then s'.breakerEdge i stamp bo else s'
  | .armed => if active then s.startTrigger i start else s
  | .idle | .verifying => s

/-- The scanner's record of an edge joins those that the consumers made, before or after them by a free choice (R128,
log 21). -/
def State.joinEdgeRecord (s : State) (before : List Made) (m : Option Made) : State :=
  match m with
  | none => s
  | some m =>
    if s.rep.made.length = before.length then s.withRep { s.rep with made := s.rep.made ++ [m] }
    else if s.chosen 2 = 0 then
      s.chose.withRep { s.rep with made := before ++ [m] ++ s.rep.made.drop before.length }
    else s.chose.withRep { s.rep with made := s.rep.made ++ [m] }

/-- R96: the candidate of input `i` is accepted. -/
def State.acceptEdge (s : State) (i : Fin 8) : State :=
  let x := s.scan.inputs[i]
  match x.cand with
  | none => s
  | some c =>
    let (stamp, bo) := stampOf (s.edgeTime c.start)
    let (x', kind) := ({ x with settled := c.active, cand := none, acted := true } : InputScan).countEdge s.clock.scanFrame
    let s' := s.setInput i { x' with bounce := 0 }
    ((s'.deliver i c.active c.start stamp bo).joinEdgeRecord s.rep.made
      (s.edgeRecord i c.active x.bounce stamp bo kind)).latchRisen s

/-! ### Chatter windows (6.5) -/

/-- R100: the window of input `i` ends at the boundary into frame `n` of the scan, or ended before it. -/
def State.windowEnds (s : State) (n : Nat) (i : Fin 8) : Bool :=
  match s.scan.inputs[i].window with
  | some w => decide (w + Input.window s.scan.inputs[i].cfg ≤ n)
  | none => false

/-- R100: the window of input `i` in NORMAL closes. -/
def State.closeWindowOf (s : State) (i : Fin 8) : State :=
  s.setInput i { s.scan.inputs[i] with window := none, edges := 0 }

/-- R102: input `i` returns to NORMAL. -/
def State.endChatter (s : State) (i : Fin 8) : State :=
  let x := s.scan.inputs[i]
  (s.setInput i { x with chatter := false, window := none, edges := 0, suppressed := 0 }).makeApart s.stamp.1 s.stamp.2
    (.chatterEnd i x.suppressed x.settled (Input.window x.cfg))

/-- R100: the window of input `i` in NORMAL ends at this boundary. -/
def State.normalWindowEnds (s : State) (n : Nat) (i : Fin 8) : Bool := s.windowEnds n i && !s.scan.inputs[i].chatter

/-- R102: the window of input `i` in CHATTER ends at this boundary. -/
def State.chatterEnds (s : State) (n : Nat) (i : Fin 8) : Bool := s.windowEnds n i && s.scan.inputs[i].chatter

/-- R100, R102: the window of input `i`, if it ends at this boundary. -/
def State.windowStep (n : Nat) (s : State) (i : Fin 8) : State :=
  if s.chatterEnds n i then s.endChatter i else if s.normalWindowEnds n i then s.closeWindowOf i else s

/-- R100, R102: every window that ends at the boundary into frame `n` of the scan. -/
def State.windowSteps (s : State) (n : Nat) : State := (allFin 8).foldl (State.windowStep n) s

/-- R104: RESET_PART. -/
def State.scannerReset (s : State) : State :=
  s.withScan { s.scan with inputs := tab fun i => { s.scan.inputs[i].cleared with reload := .now } }

end Sys2Proof.Machine
end

