-- ==== Sys2Proof/Machine/Sequencer.lean ====
section
/-! DEFINITION. The Sequencer (chapter 2). -/

namespace Sys2Proof.Machine

/-! ### What the boundary decides (R18, R22, R31, R33, R35) -/

/-- R26: the lowest latched exit. -/
def Sequencer.latched (q : Sequencer) : Option (Fin 4) := (allFin 4).find? fun k => q.latches[k]

/-- R26, R30, R33: what ends or moves a RUNNING frame. -/
def State.decideRunning (s : State) : Decision :=
  match s.seq.request with
  | .stop r => .stop r
  | .none | .start _ | .cancel =>
    if s.seq.testFrame + 1 = Globals.duration s.plan.globals then .duration
    else match s.seq.latched with
      | some k => .exit k
      | none => .stay

/-- What the boundary that closes the present frame decides. -/
def State.decision (s : State) : Decision :=
  match s.seq.phase with
  | .idle | .verifying => match s.seq.next with
    | some p => .change p
    | none => .stay
  | .armed => match s.seq.request with
    | .start r => .start r
    | .cancel => .cancel
    | .none | .stop _ => .stay
  | .running => s.decideRunning
  | .ending => if s.fade ≤ s.seq.countdown then .complete else .stay

/-- The state that exit `k` of the state in force names. -/
def State.exitTarget (s : State) (k : Fin 4) : Fin 32 := Fin.ofNat 32 (Part0.exitNext s.part0 k)

/-- The decision ends RUNNING. -/
def State.decisionEnds (s : State) : Decision → Bool
  | .stop _ | .duration | .complete => true
  | .exit k => Part0.final s.plan.part0[s.exitTarget k]
  | .stay | .change _ | .cancel | .start _ => false

/-- The frame that begins with this decision is IDLE, or is in no test. -/
def State.decisionLeaves (s : State) (d : Decision) : Bool :=
  match s.seq.phase with
  | .running => s.decisionEnds d && s.fade == 0
  | .ending => d == .complete
  | .idle | .verifying | .armed => match d with
    | .start _ => Part0.final s.plan.part0[(0 : Fin 32)] && s.fade == 0
    | _ => true

/-- R22: the number of the next test. -/
def nextTestNumber (n : Nat) : Nat := if 255 ≤ n then 1 else n + 1

/-- R153: test number and test time of a record made by the taking of a frame, the decision being `d` (log 12). -/
def State.takeStamp (s : State) (d : Decision) : Nat × Nat :=
  if s.decisionLeaves d then (0, s.outTime)
  else match d with
    | .start _ => (nextTestNumber s.seq.testNumber, 0)
    | _ => (s.seq.testNumber, 16 * (s.seq.testFrame + 1))

/-! ### The end of a test (2.5, 2.6) -/

/-- R40: the blocks return to IDLE. -/
def State.returnToIdle (s : State) : State :=
  ((s.breakerHome.linesHome).dropVerification).withSeq { s.seq with
    phase := .idle
    next := none
    request := .none
    latches := Vector.replicate 4 false }

/-- R28: STATE_SUMMARY of the stay in the state in force, `left` by an exit or 255, at test time 16 × `n`. -/
def State.summary (s : State) (left n : Nat) : State :=
  s.make s.seq.testNumber (16 * n)
    (.stateSummary s.seq.stateInForce left s.seq.framesInState (tab fun c => s.eng[c].clip))

/-- R36: the reason raises TEST_ABNORMAL_END. -/
def EndReason.abnormal : EndReason → Bool
  | .finalState | .duration => false
  | .aborted | .channelFailed | .streamLost => true

/-- R36: TEST_END is made, `last` being the state in force in the last frame and `run` the frames run. -/
def State.testEnd (s : State) (r : EndReason) (last : Fin 32) (run : Nat) : State :=
  let s' := s.make s.seq.testNumber (16 * run) (.testEnd r last run s.seq.entryCount)
  if r.abnormal then s'.raise .testAbnormalEnd else s'

/-- R35: the closing records are made and the blocks return to IDLE, `last` being the state in force in the last frame and `run`
the frames run. -/
def State.closeTest (s : State) (r : EndReason) (last : Fin 32) (run : Nat) : State :=
  let s' := ((s.summary 255 run).testEnd r last run).returnToIdle
  s'.withSeq { s'.seq with testFrame := run - 1 }

/-- R34: the entry to ENDING is made known to the blocks, measuring to frame `e`. -/
def State.closeBlocks (s : State) (e : Nat) : State := ((s.finaliseTimers e).captureClose e).closeFailover e

/-- R34: ENDING begins at the boundary into the present frame; `own` and `last`: the frames in state, and the state in force in
the frame before, when F is 0. -/
def State.beginEnding (s : State) (r : EndReason) (own : Nat) (last : Fin 32) : State :=
  let e := s.seq.testFrame
  let s' := (s.withSeq { s.seq with
    phase := .ending
    request := .none
    latches := Vector.replicate 4 false
    countdown := 1
    endReason := some r }).closeBlocks e
  if s.fade = 0 then (s'.withSeq { s'.seq with framesInState := own }).closeTest r last e else s'

/-! ### State entry (2.4) -/

/-- R27: state `st` is entered for the present frame; `prev` and `exit` are 255 at test start. With F = 0 a FINAL state is in
force for no frame (R34), so TEST_END names the state before it (R36); a test without a frame names state 0 (log 29).
DESIGN CHOICE (log 43): there too the entry is whole (R27, R34, R45): the channels take the records of the FINAL state, clip
counts and ramp-end flags are cleared, and IDLE leaves them so, where R60 has them stay as the last frame left them. -/
def State.enterState (s : State) (st : Fin 32) (prev exit : Nat) : State :=
  let n := s.seq.testFrame
  let s1 := if prev = 255 then s else s.summary exit n
  let count := satInc 65535 s1.seq.entryCount
  let final := Part0.final s1.plan.part0[st]
  let s2 := (s1.withSeq { s1.seq with
    stateInForce := st
    framesInState := 1
    latches := Vector.replicate 4 false
    entryCount := count }).make s1.seq.testNumber (16 * n) (.stateEntered st prev exit (prev == st.val) final count)
  let s3 := ((s2.engineEnter st (prev == 255)).linesEnter st).offer ⟨.stateEntry, st⟩ (16 * n) false
  if final then s3.beginEnding .finalState 0 (if prev = 255 then st else s.seq.stateInForce) else s3

/-! ### The start of a test (2.3) -/

/-- R23: the checksum carried by the plan's PLAN_VERIFIED record. -/
def Plan.checksum (p : Plan) : Nat :=
  match p.verification with
  | some v => v.crc.toNat
  | none => 0

/-- R22: a test starts with the present frame. -/
def State.startTest (s : State) (r : StartRecord) : State :=
  let number := nextTestNumber s.seq.testNumber
  let s1 := (s.withSeq { s.seq with
    phase := .running
    testNumber := number
    testFrame := 0
    entryCount := 0
    request := .none
    startRecord := some r }).make number 0 (.testStart r s.plan.stateCount s.plan.checksum)
  let s2 := (((s1.timersStart.breakerStart).captureStart).supervisorStart).withScan
    { s1.scan with origin := s1.scan.pos + 1 }
  (s2.offer ⟨.testStart, 0⟩ 0 false).enterState 0 255 255

/-! ### The boundary -/

/-- R25, R34: the state in force stays for the next frame. -/
def Sequencer.count (q : Sequencer) : Sequencer :=
  { q with
    testFrame := q.testFrame + 1
    framesInState := q.framesInState + 1
    countdown := if q.phase = .ending then q.countdown + 1 else q.countdown
    latches := Vector.replicate 4 false }

/-- The next frame of the test begins. -/
def State.nextFrame (s : State) : State := s.withSeq { s.seq with testFrame := s.seq.testFrame + 1 }

/-- R33: ENDING begins with the frames in state going on. -/
def State.endRunning (s : State) (r : EndReason) : State :=
  (s.withSeq s.seq.count).beginEnding r s.seq.framesInState s.seq.stateInForce

/-- The decision of the boundary is carried out. -/
def State.settle (s : State) (d : Decision) : State :=
  match d with
  | .stay => if s.seq.phase.inTest then s.withSeq s.seq.count else s
  | .change p =>
    let s' := s.withSeq { s.seq with phase := p, next := none }
    if p = .idle then s'.dropVerification else s'
  | .cancel => (s.withSeq { s.seq with phase := .idle, request := .none }).dropVerification
  | .start r => s.startTest r
  | .stop r => s.endRunning r
  | .duration => s.endRunning .duration
  | .exit k => s.nextFrame.enterState (s.exitTarget k) s.seq.stateInForce k
  | .complete => s.closeTest (s.seq.endReason.getD .finalState) s.seq.stateInForce (s.seq.testFrame + 1)

/-! ### Stream loss and RESET_PART -/

/-- R37, R38, R16: the Sequencer resolves a stream loss by phase. -/
def State.lossSequencer (s : State) : State :=
  let x := s.seq.testFrame + 1
  match s.seq.phase with
  | .running => ((s.closeBlocks x).withSeq { s.seq with endReason := some .streamLost }).closeTest .streamLost s.seq.stateInForce x
  | .ending => (s.withSeq { s.seq with endReason := some .streamLost }).closeTest .streamLost s.seq.stateInForce x
  | .idle | .verifying | .armed =>
    (s.withSeq { s.seq with phase := .idle, next := none, request := .none }).dropVerification

/-- R17, R39, R40: RESET_PART. -/
def State.sequencerReset (s : State) : State :=
  ((s.breakerHome.linesHome).dropVerification).withSeq { Sequencer.reset with testNumber := s.seq.testNumber }

end Sys2Proof.Machine
end

