-- ==== Sys2Proof/Machine/Status.lean ====
section
/-! DEFINITION. What READ and QUERY_STATUS return (11.4, 11.6). -/

namespace Sys2Proof.Machine

/-- The index of a message, if it lies below `n`. -/
def indexBelow (n : Nat) (b : Byte) : Option (Fin n) := if h : b.toNat < n then some ⟨b.toNat, h⟩ else none

/-! ### Stored records (R165) -/

/-- R165: the limit of a channel as a stored payload. -/
def limitBytes (x : Nat) : List Byte := padTo 20 (byte2 x)

/-- R165, R73: the supervision settings of a channel as a stored payload. -/
def ChanSup.bytes (x : ChanSup) : List Byte := padTo 20 (byte2 x.tolerance ++ byte1 x.threshold ++ byte2 x.leakPeriod)

/-- R165, R74: the global supervision settings as a stored payload. -/
def Supervisor.bytes (p : Supervisor) : List Byte :=
  padTo 20 (byte1 p.latency ++ byte2 p.refTol ++ byte1 p.confirm ++ byte1 p.operate ++ byte1 (bit p.enable)
    ++ byte1 (bit p.abortPolicy))

/-- The single record of a table whose indices are both 0. -/
def onlyRecord (a b : Byte) (bytes : List Byte) : Option (List Byte) := if a = 0 ∧ b = 0 then some bytes else none

/-- The record `a` of a table of `n` records, whose index B is 0. -/
def recordOf (n : Nat) (a b : Byte) (f : Fin n → List Byte) : Option (List Byte) :=
  if b = 0 then (indexBelow n a).map f else none

/-- R165: the stored payload of record (`a`, `b`) of table `t`; none where the write message of the table admits no such
index. -/
def State.stored (s : State) (t a b : Byte) : Option (List Byte) :=
  match t.toNat with
  | 0x01 => onlyRecord a b s.plan.globals.toList
  | 0x02 =>
    if b = 0 then (indexBelow 32 a).map fun i => s.plan.part0[i].toList
    else if b = 1 then (indexBelow 32 a).map fun i => s.plan.part1[i].toList
    else none
  | 0x03 => (indexBelow 32 a).bind fun i => (indexBelow 12 b).map fun c => s.plan.channels[i][c].toList
  | 0x04 => recordOf 8 a b fun i => s.plan.timers[i].toList
  | 0x05 => recordOf 8 a b fun i => s.plan.inputs[i].toList
  | 0x06 => onlyRecord a b s.plan.breaker.toList
  | 0x07 => onlyRecord a b s.plan.capture.toList
  | 0x08 => recordOf 14 a b fun p => limitBytes s.out.limit[p]
  | 0x09 => recordOf 14 a b fun p => s.sup.chan[p].bytes
  | 0x0A => onlyRecord a b s.sup.bytes
  | _ => none

/-! ### Status pages (11.6) -/

/-- One byte for an item that may be empty: FFh while empty. -/
def emptyByte : Option Nat → List Byte
  | some n => byte1 n
  | none => byte1 255

/-- Page 0, part 0. An empty start record shows FFh in every byte (R166, log 30). -/
def State.pageTest (s : State) : List Byte :=
  byte1 s.seq.testNumber ++ byte1 s.seq.request.code ++ byte1 s.seq.stateInForce ++ byte1 (flagSet s.seq.latches.toList)
    ++ byte4 s.seq.testFrame ++ byte4 s.seq.framesInState ++ byte2 s.seq.entryCount ++ byte1 s.seq.countdown
    ++ emptyByte (s.seq.endReason.map EndReason.code)
    ++ emptyByte (s.seq.startRecord.map fun r => r.cause.code)
    ++ emptyByte (s.seq.startRecord.map fun r => r.input)
    ++ (match s.seq.startRecord with | some r => byte2 r.offset | none => [255, 255])
    ++ byte1 s.brk.state.code ++ byte2 s.brk.count ++ byte1 (flagSet s.lineLevels.toList)
    ++ byte1 (flagSet s.rep.attention.toList)

/-- Page 1, part 0. -/
def State.pageReceiver (s : State) : List Byte :=
  byte1 s.recv.state.code ++ byte4 s.recv.cadenceNow ++ byte4 s.recv.cadenceNext ++ byte2 s.recv.cycle
    ++ byte1 s.recv.gapLimit ++ byte1 s.recv.gapRun ++ byte4 s.recv.frameCounter ++ byte1 s.rep.queue.length
    ++ byte1 s.rep.discard ++ (s.rep.buffers.toList.flatMap fun b => byte1 b.state.code) ++ byte1 s.rep.activity.code
    ++ byte1 (if s.rep.gateOpen then 0 else 1) ++ byte1 (bit s.rep.pause) ++ byte1 (bit s.testEndQueued)

/-- Page 1, part 1. -/
def Receiver.pageCounts (r : Receiver) : List Byte :=
  byte4 r.framesTaken ++ byte4 r.crcDiscards ++ byte4 r.windowDiscards ++ byte4 r.gapFrames ++ byte4 r.losses

/-- Page 1, part 2. -/
def OutputStage.pageCounts (o : OutputStage) : List Byte :=
  byte4 o.valid ++ byte4 o.crcBad ++ byte4 o.echoBad ++ byte4 o.duplicate ++ byte4 o.missing

/-- Page 2, part 0. -/
def Scanner.pageInputs (x : Scanner) : List Byte :=
  byte1 (flagSet (x.inputs.toList.map fun i => i.settled)) ++ byte1 (flagSet (x.inputs.toList.map fun i => i.chatter))
    ++ (x.inputs.toList.flatMap fun i => byte1 i.bounce) ++ (x.inputs.toList.flatMap fun i => byte2 i.suppressed)

/-- One slot of page 2, parts 1 and 2. -/
def Slot.bytes (x : Slot) : List Byte :=
  byte1 x.state.code ++ emptyByte (x.outcome.map TimerOutcome.code) ++ byte1 (flagSet [x.early, x.disturbed, x.startBo, x.held])
    ++ byte4 (x.start.getD 0)

/-- Page 2, parts 1 and 2: the four slots from `k` on. -/
def TimerArray.pageSlots (t : TimerArray) (k : Nat) : List Byte := ((t.slots.toList.drop k).take 4).flatMap Slot.bytes

/-- Page 3, part 0. -/
def Supervisor.pageChannels (p : Supervisor) : List Byte :=
  (p.chan.toList.flatMap fun x => byte1 x.state.code) ++ (p.chan.toList.flatMap fun x => byte1 x.bucket)

/-- The engine's state and context on page 3, part 1; while QUIET the frame counts are free values within the table's ranges
(log 28), which `k` selects. -/
def FailoverEngine.bytes (k : Nat) : FailoverEngine → List Byte
  | .quiet =>
    byte1 0 ++ byte1 255 ++ byte1 255 ++ byte1 255 ++ byte2 (Config.quietFrames (2 * k) % 513)
      ++ byte1 (Config.quietFrames (2 * k + 1))
  | .awaitZero x => byte1 1 ++ byte1 x.logical ++ byte1 x.src ++ byte1 x.dst ++ byte2 x.wait ++ byte1 x.switch
  | .switching x => byte1 2 ++ byte1 x.logical ++ byte1 x.src ++ byte1 x.dst ++ byte2 x.wait ++ byte1 x.switch

/-- The readback fault on page 3, part 1: CLEAR, REFERENCE, LINK. -/
def faultCode : Option FaultCause → Nat
  | none => 0
  | some .reference => 1
  | some .link => 2

/-- Page 3, part 1. -/
def State.pageMap (s : State) : List Byte :=
  (s.out.map.toList.flatMap fun m => byte1 (chanCode m)) ++ byte1 (faultCode s.sup.fault) ++ byte1 s.sup.refRun
    ++ byte1 s.sup.linkRun ++ byte1 s.sup.recRun ++ byte1 (bit s.sup.dormant) ++ s.sup.engine.bytes s.choices
    ++ byte1 s.sup.requests.length ++ emptyByte (s.sup.requests.head?.map fun c => c.val)

/-- R166: the fields of part `b` of page `a`; none beyond the last page or part. -/
def State.page (s : State) (a b : Byte) : Option (List Byte) :=
  match a.toNat, b.toNat with
  | 0, 0 => some s.pageTest
  | 1, 0 => some s.pageReceiver
  | 1, 1 => some s.recv.pageCounts
  | 1, 2 => some s.out.pageCounts
  | 2, 0 => some s.scan.pageInputs
  | 2, 1 => some (s.timers.pageSlots 0)
  | 2, 2 => some (s.timers.pageSlots 4)
  | 3, 0 => some s.sup.pageChannels
  | 3, 1 => some s.pageMap
  | _, _ => none

end Sys2Proof.Machine
end

