-- ==== Sys2Proof/Machine/Messages.lean ====
section
/-! DEFINITION. The Message Handler: what each message does within the frame-taken event of its frame (chapter 11). -/

namespace Sys2Proof.Machine

/-- What the handling of a message gives: the state, the status, and the reply's payload before the zero bytes. -/
structure Handled where
  state : State
  status : Status
  payload : List Byte
deriving DecidableEq, Repr

/-- R163: refused: no block changes. -/
def refuse (s : State) (st : Status) : Handled := ⟨s, st, []⟩

/-- Answered DONE with payload zero. -/
def done (s : State) : Handled := ⟨s, .done, []⟩

/-- R163 step 2: the message is taken only in the phases that `ok` admits. -/
def inPhase (ok : Phase → Bool) (s : State) (k : Handled) : Handled := if ok s.seq.phase then k else refuse s .wrongPhase

/-- The phase is IDLE. -/
def Phase.isIdle (p : Phase) : Bool := p == .idle

/-- R163 step 3: an index outside the values allowed is refused. -/
def indexed {α : Type} (s : State) (i : Option α) (k : α → Handled) : Handled :=
  match i with
  | some x => k x
  | none => refuse s .noEntry

/-- The indices allowed where both must be 0. -/
def bothZero (m : Msg) : Option Unit := if m.indexA = 0 ∧ m.indexB = 0 then some () else none

/-- Index A below `n`, index B 0. -/
def indexA (n : Nat) (m : Msg) : Option (Fin n) := if m.indexB = 0 then indexBelow n m.indexA else none

/-- R163 steps 4 and 5: a payload that does not pass is refused with BAD_VALUE. -/
def valued (ok : Bool) (s : State) (k : Handled) : Handled := if ok then k else refuse s .badValue

/-- R163 step 4 for a message without payload. -/
def noPayload (m : Msg) : Bool := Payload.clearFrom m.payload 0

/-! ### Definition writes (R2 to R8) -/

/-- R3. -/
def writeGlobals (m : Msg) (s : State) : Handled :=
  inPhase Phase.isIdle s <| indexed s (bothZero m) fun _ => valued (Globals.ok m.payload) s <|
    done (s.withPlan { s.plan with globals := m.payload })

/-- R4, R5. -/
def writeState (m : Msg) (s : State) : Handled :=
  inPhase Phase.isIdle s <| indexed s (indexBelow 32 m.indexA) fun i => indexed s (indexBelow 2 m.indexB) fun part =>
    if part = 0 then
      valued (Part0.ok m.payload) s <| done (s.withPlan { s.plan with part0 := upd s.plan.part0 i m.payload })
    else
      valued (Part1.ok m.payload) s <| done (s.withPlan { s.plan with part1 := upd s.plan.part1 i m.payload })

/-- R6. -/
def writeChannel (m : Msg) (s : State) : Handled :=
  inPhase Phase.isIdle s <| indexed s (indexBelow 32 m.indexA) fun i => indexed s (indexBelow 12 m.indexB) fun c =>
    valued (Chan.ok m.payload) s <|
      done (s.withPlan { s.plan with channels := upd s.plan.channels i (upd s.plan.channels[i] c m.payload) })

/-- R7. -/
def writeTimer (m : Msg) (s : State) : Handled :=
  inPhase Phase.isIdle s <| indexed s (indexA 8 m) fun k => valued (Timer.ok m.payload) s <|
    done (s.withPlan { s.plan with timers := upd s.plan.timers k m.payload })

/-- R8, R103: the scanner takes the record up at sub-tick 1. -/
def writeInput (m : Msg) (s : State) : Handled :=
  inPhase Phase.isIdle s <| indexed s (indexA 8 m) fun i => valued (Input.ok m.payload) s <|
    done ((s.withPlan { s.plan with inputs := upd s.plan.inputs i m.payload }).setInput i
      { s.scan.inputs[i] with reload := .afterZero })

/-- R8, R106. -/
def writeBreaker (m : Msg) (s : State) : Handled :=
  inPhase Phase.isIdle s <| indexed s (bothZero m) fun _ => valued (Brk.ok m.payload) s <|
    done (s.withPlan { s.plan with breaker := m.payload }).breakerHome

/-- R7. -/
def writeCapture (m : Msg) (s : State) : Handled :=
  inPhase Phase.isIdle s <| indexed s (bothZero m) fun _ => valued (Capture.ok m.payload) s <|
    done (s.withPlan { s.plan with capture := m.payload })

/-! ### Limits, supervision, cadence -/

/-- R62. -/
def writeLimit (m : Msg) (s : State) : Handled :=
  let v := Payload.u16 m.payload 0
  indexed s (indexA 14 m) fun p => valued (Payload.clearFrom m.payload 2) s <|
    if s.out.written[p] then refuse s .locked
    else valued (within 1 32767 v) s <|
      done (s.withOut { s.out with limit := upd s.out.limit p v, written := upd s.out.written p true })

/-- R73. -/
def writeSupervision (m : Msg) (s : State) : Handled :=
  let leak := Payload.u16 m.payload 3
  inPhase Phase.isIdle s <| indexed s (indexA 14 m) fun p => valued (SupWrite.ok m.payload) s <|
    done (s.setChan p { s.sup.chan[p] with
      tolerance := Payload.u16 m.payload 0
      threshold := Payload.u8 m.payload 2
      leakPeriod := leak
      countdown := leak })

/-- R74. -/
def writeSupervisionGlobal (m : Msg) (s : State) : Handled :=
  inPhase Phase.isIdle s <| indexed s (bothZero m) fun _ => valued (SupGlobal.ok m.payload) s <|
    done (s.withSup { s.sup with
      latency := Payload.u8 m.payload 0
      refTol := Payload.u16 m.payload 1
      confirm := Payload.u8 m.payload 3
      operate := Payload.u8 m.payload 4
      enable := Payload.u8 m.payload 5 == 1
      abortPolicy := Payload.u8 m.payload 6 == 1 })

/-- R156. -/
def setCadence (m : Msg) (s : State) : Handled :=
  inPhase Phase.isIdle s <| indexed s (bothZero m) fun _ => valued (Cadence.ok m.payload) s <|
    done (s.withRecv { s.recv with
      cadenceNext := Payload.u32 m.payload 0
      cycle := Payload.u16 m.payload 4
      gapLimit := Payload.u8 m.payload 6 })

/-- R155: the receiver leaves LOCKED once the answer frame has been sent. -/
def resync (m : Msg) (s : State) : Handled :=
  inPhase Phase.isIdle s <| indexed s (bothZero m) fun _ => valued (noPayload m) s <|
    done (s.withRecv { s.recv with resync := true })

/-! ### READ -/

/-- R165 step 1: index A names a table. -/
def isTable (a : Byte) : Bool := within 1 10 a.toNat

/-- R165. -/
def readRecord (m : Msg) (s : State) : Handled :=
  let a := m.payload[0]
  let b := m.payload[1]
  indexed s (if isTable m.indexA && m.indexB == 0 then some () else none) fun _ =>
    valued (Payload.clearFrom m.payload 2) s <| indexed s (s.stored m.indexA a b) fun bytes =>
      ⟨s, .done, [m.indexA, a, b] ++ bytes⟩

/-! ### The life of a test -/

/-- R12. -/
def armPlan (m : Msg) (s : State) : Handled :=
  inPhase Phase.isIdle s <| indexed s (bothZero m) fun _ =>
    valued (Payload.clearFrom m.payload 2 && s.plan.stateCount != 0) s <|
      done ((s.withPlan { s.plan with verification := some (.begin (Payload.u16 m.payload 0)) }).withSeq
        { s.seq with next := some .verifying })

/-- R19 step 2: a START or a CANCEL is pending. -/
def Request.blocksStart : Request → Bool
  | .start _ | .cancel => true
  | .none | .stop _ => false

/-- R19; its steps 2 and 3 after the index and payload steps of R163: DEDUCED (log 11). -/
def startTest (m : Msg) (s : State) : Handled :=
  inPhase (· == .armed) s <| indexed s (bothZero m) fun _ => valued (noPayload m) s <|
    if s.seq.request.blocksStart then refuse s .wrongPhase
    else if s.testEndQueued then refuse s .reportsPending
    else done (s.withSeq { s.seq with request := .start ⟨.message, 0, 0⟩ })

/-- R31, R16: what an ABORT does. -/
def State.abort (s : State) : State :=
  match s.seq.phase with
  | .verifying => (s.withSeq { s.seq with next := some .idle }).dropVerification
  | .armed => s.withSeq { s.seq with request := .cancel }
  | .running => s.requestEnd .aborted
  | .idle | .ending => s

/-- R31. -/
def abortTest (m : Msg) (s : State) : Handled :=
  inPhase (· != .idle) s <| indexed s (bothZero m) fun _ => valued (noPayload m) s <| done s.abort

/-! ### Reports and attention -/

/-- R140: buffer `b`, which is SENT, is released. -/
def State.releaseBuffer (s : State) (b : Fin 4) : State :=
  if s.rep.activity = .waiting then
    (s.setBuffers (upd s.rep.buffers b (Buffer.recording s.seq.testNumber))).setActivity .on
  else s.setBuffers (upd s.rep.buffers b Buffer.reset)

/-- R140. -/
def release (m : Msg) (s : State) : Handled :=
  indexed s (indexA 4 m) fun b => valued (noPayload m) s <|
    if s.rep.buffers[b].state = BufState.sent then done (s.releaseBuffer b) else refuse s .wrongState

/-- R146, R163: the code is judged whole at step 3, whether its condition is pending included; the payload at step 4. -/
def ackAttention (m : Msg) (s : State) : Handled :=
  indexed s (if m.indexB = 0 then some () else none) fun _ => valued (within 1 6 m.indexA.toNat) s <|
    indexed s ((allFin 6).find? fun a => a.val + 1 == m.indexA.toNat && s.rep.attention[a]) fun a =>
      valued (noPayload m) s <| done (s.withRep { s.rep with attention := upd s.rep.attention a false })

/-- R146. -/
def clearAttention (m : Msg) (s : State) : Handled :=
  indexed s (bothZero m) fun _ => valued (noPayload m) s <|
    done (s.withRep { s.rep with attention := Vector.replicate 6 false })

/-- R143. -/
def pauseReports (m : Msg) (s : State) : Handled :=
  indexed s (bothZero m) fun _ => valued (noPayload m) s <| done (s.withRep { s.rep with pause := true })

/-- R143. -/
def resumeReports (m : Msg) (s : State) : Handled :=
  indexed s (bothZero m) fun _ => valued (noPayload m) s <| done (s.withRep { s.rep with pause := false })

/-! ### Channels and map -/

/-- R90: channel `p` is cleared. -/
def State.clearChan (s : State) (p : Fin 14) : State :=
  let x := s.sup.chan[p]
  let st := if x.state = .failed then (if s.out.isTarget p then .mapped else .spare) else x.state
  s.setChan p { x with state := st, bucket := 0, countdown := x.leakPeriod }

/-- R90. -/
def clearChannel (m : Msg) (s : State) : Handled :=
  inPhase Phase.isIdle s <| indexed s (indexA 14 m) fun p => valued (noPayload m) s <| done (s.clearChan p)

/-- R91: one of physical channels 0 to 11 is FAILED. -/
def Supervisor.failedBelow12 (p : Supervisor) : Bool :=
  (allFin 14).any fun q => decide (q.val < 12) && p.chan[q].state == .failed

/-- R91: the identity map, with the channel states that go with it. -/
def State.identityMap (s : State) : State :=
  (s.withOut { s.out with map := OutputStage.reset.map }).withSup { s.sup with
    chan := tab fun p =>
      { s.sup.chan[p] with
        state := if p.val < 12 then .mapped else if s.sup.chan[p].state = .failed then .failed else .spare } }

/-- R91. -/
def restoreMap (m : Msg) (s : State) : Handled :=
  inPhase Phase.isIdle s <| indexed s (bothZero m) fun _ => valued (noPayload m) s <|
    if s.sup.failedBelow12 then refuse s .wrongState else done s.identityMap

/-! ### QUERY_STATUS and RESET_PART -/

/-- R166. -/
def queryStatus (m : Msg) (s : State) : Handled :=
  indexed s (s.page m.indexA m.indexB) fun bytes => valued (noPayload m) s ⟨s, .done, bytes⟩

/-- R167: every block takes its RESET_PART values. -/
def State.resetBlocks (s : State) : State :=
  let s1 := ((s.sequencerReset.engineReset).supervisorReset).scannerReset
  ((s1.withBrk { s1.brk with count := 0 }).withTimers TimerArray.reset).withRep Report.reset

/-- R167. -/
def resetPart (m : Msg) (s : State) : Handled :=
  indexed s (bothZero m) fun _ => valued (noPayload m) s <| done s.resetBlocks

/-- R163 step 1: a code that is not one of the part's. -/
def unknownMessage (s : State) : Handled := refuse s .unknown

/-! ### Handling -/

/-- The handler of a message code (R161's table of codes). -/
def handlerOf (code : Byte) (m : Msg) (s : State) : Handled :=
  match code.toNat with
  | 0x01 => writeGlobals m s
  | 0x02 => writeState m s
  | 0x03 => writeChannel m s
  | 0x04 => writeTimer m s
  | 0x05 => writeInput m s
  | 0x06 => writeBreaker m s
  | 0x07 => writeCapture m s
  | 0x08 => writeLimit m s
  | 0x09 => writeSupervision m s
  | 0x0A => writeSupervisionGlobal m s
  | 0x0B => setCadence m s
  | 0x0C => resync m s
  | 0x0D => readRecord m s
  | 0x0E => armPlan m s
  | 0x0F => startTest m s
  | 0x10 => abortTest m s
  | 0x11 => release m s
  | 0x12 => ackAttention m s
  | 0x13 => clearAttention m s
  | 0x14 => pauseReports m s
  | 0x15 => resumeReports m s
  | 0x16 => clearChannel m s
  | 0x17 => restoreMap m s
  | 0x18 => queryStatus m s
  | 0x19 => resetPart m s
  | _ => unknownMessage s

/-- R164: the reply is built. -/
def Handled.answer (h : Handled) (tag code : Byte) : State :=
  h.state.withReply (some ⟨tag, h.status, code, padTo 28 h.payload⟩)

end Sys2Proof.Machine
end

