-- ==== Sys2Proof/Machine/Receiver.lean ====
section
/-! DEFINITION. The Stream Receiver (chapter 10): finding the stream, and judging what arrives. -/

namespace Sys2Proof.Machine

/-! ### Finding the stream (10.2) -/

/-- R150: the first frame of CHECK. -/
def Receiver.enterCheck (r : Receiver) (arrival seq : Nat) : Receiver :=
  { r with
    state := .check
    cadenceNow := r.cadenceNext
    reference := arrival
    lastSeq := seq
    checkCount := 0 }

/-- R154 step 2, R155: the receiver enters HUNT. -/
def Receiver.enterHunt (r : Receiver) : Receiver :=
  { r with state := .hunt, held := none, checkCount := 0, gapRun := 0, resync := false }

/-- R150: in CHECK the frame lies in its interval and has the next sequence. -/
def Receiver.fitsCheck (r : Receiver) (arrival seq : Nat) : Bool :=
  decide (r.reference + r.cadenceNow ≤ arrival + r.cadenceNow / 8)
    && decide (arrival ≤ r.reference + r.cadenceNow + r.cadenceNow / 8) && seq == (r.lastSeq + 1) % 65536

/-- R151: the arrival lies in the window, whose ends belong to it. -/
def Receiver.inWindow (r : Receiver) (arrival : Nat) : Bool :=
  decide (r.expected ≤ arrival + r.cadenceNow / 8) && decide (arrival ≤ r.expected + r.cadenceNow / 8)

/-- R157: the instant at which the window closes. -/
def Receiver.windowEnd (r : Receiver) : Nat := r.expected + r.cadenceNow / 8

/-- R151: the receiver enters LOCKED with this frame, which is not taken. -/
def Receiver.enterLocked (r : Receiver) (arrival seq : Nat) : Receiver :=
  { r with
    state := .locked
    reference := arrival
    checkCount := 2
    expected := arrival + r.cadenceNow
    held := none
    gapRun := 0
    lastSeq := seq }

/-- R43, R70, R151, R157: the receiver enters LOCKED, and the blocks that act on it do; the period in progress now ends at
the close of the first window. -/
def State.lock (s : State) (arrival seq : Nat) : State :=
  let r := s.recv.enterLocked arrival seq
  (((s.withRecv r).zeroRings).withOut { s.out with judgment := .settled }).withClock
    { s.clock with slotLen := r.windowEnd - s.clock.slotStart }

/-- R150: a good frame arrives in CHECK. -/
def State.arriveCheck (s : State) (arrival seq : Nat) : State :=
  if s.recv.fitsCheck arrival seq then
    if s.recv.checkCount = 0 then
      s.withRecv { s.recv with checkCount := 1, reference := arrival, lastSeq := seq }
    else s.lock arrival seq
  else s.withRecv (s.recv.enterCheck arrival seq)

/-- R151: a good frame arrives in LOCKED. -/
def State.arriveLocked (s : State) (h : HeldFrame) : State :=
  if s.recv.inWindow h.arrival && s.recv.held.isNone && h.sequence != s.recv.lastSeq then
    s.withRecv { s.recv with held := some h }
  else s.withRecv { s.recv with windowDiscards := satInc max32 s.recv.windowDiscards }

/-- R150: a bad frame arrives. -/
def State.arriveBad (s : State) : State :=
  s.withRecv { s.recv with
    crcDiscards := satInc max32 s.recv.crcDiscards
    state := if s.recv.state = .check then .hunt else s.recv.state }

/-- R150, R151: a good frame arrives. -/
def State.arriveGood (s : State) (h : HeldFrame) : State :=
  match s.recv.state with
  | .hunt => s.withRecv (s.recv.enterCheck h.arrival h.sequence)
  | .check => s.arriveCheck h.arrival h.sequence
  | .locked => s.arriveLocked h

/-- R150: a frame with the sync word arrives. -/
def State.arrive (s : State) (arrival : Nat) (bs : List Byte) : State :=
  if goodSampleFrame bs then s.arriveGood (heldOf arrival bs) else s.arriveBad

/-- R150: the bytes may begin a frame: as far as they go, their first two are the sync word E5A7h. -/
def fitsSync : List LinkByte → Bool
  | [] => true
  | [a] => a.byte == 0xE5
  | a :: b :: _ => a.byte == 0xE5 && b.byte == 0xA7

/-- R150: the search for the sync word, byte position by byte position: the bytes from the first place where a frame may
begin. -/
def seekSync : List LinkByte → List LinkByte
  | [] => []
  | x :: xs => if fitsSync (x :: xs) then x :: xs else seekSync xs

/-- R150: the bytes in hand are replaced. -/
def State.setStream (s : State) (bytes : List LinkByte) : State := s.withRecv { s.recv with stream := bytes }

/-- R150: the first 56 of these bytes are a frame, which arrived with its first byte. The next sync word is looked for straight
after it, but in HUNT, where every byte position counts, from the second byte of a bad frame on (log 34). -/
def State.frameWhole (s : State) (first : LinkByte) (rest : List LinkByte) : State :=
  let frame := ((first :: rest).take 56).map LinkByte.byte
  let left := if s.recv.state == .hunt && !goodSampleFrame frame then rest else (first :: rest).drop 56
  (s.setStream (seekSync left)).arrive first.instant frame

/-- R150: in CHECK no good frame has arrived in time. Bytes of a frame that is not whole stay in hand; it is judged in HUNT
(log 39). -/
def State.checkTimeout (s : State) : State :=
  if s.recv.state = .check then s.withRecv { s.recv with state := .hunt } else s

/-! ### The frame taken (10.2, 10.4) -/

/-- R151, R152: the window that closes now gives a frame taken; it gives stream loss otherwise. -/
def Receiver.frameDue (r : Receiver) : Bool := r.held.isSome || decide (r.gapRun < r.gapLimit)

/-- R151, R157: the receiver takes the held frame. -/
def Receiver.takeHeld (r : Receiver) (h : HeldFrame) : Receiver :=
  { r with
    held := none
    lastSeq := h.sequence
    gapRun := 0
    expected := h.arrival + r.cadenceNow
    frameCounter := (r.frameCounter + 1) % 4294967296
    framesTaken := satInc max32 r.framesTaken }

/-- R152, R157: the receiver takes a gap frame. -/
def Receiver.takeGap (r : Receiver) : Receiver :=
  { r with
    gapRun := r.gapRun + 1
    firstGap := if r.gapRun = 0 then (r.frameCounter + 1) % 4294967296 else r.firstGap
    lastSeq := (r.lastSeq + 1) % 65536
    expected := r.expected + r.cadenceNow
    frameCounter := (r.frameCounter + 1) % 4294967296
    gapFrames := satInc max32 r.gapFrames }

/-- R157: the slot of the window that closes now, of which no sub-tick is scanned yet; it ends at the close of the next window,
which `r` gives. -/
def State.slotClock (s : State) (r : Receiver) : Clock :=
  { s.clock with
    slotStart := s.recv.windowEnd
    slotLen := r.windowEnd - s.recv.windowEnd
    slotDone := true
    scanFrame := s.clock.scanFrame + 1 }

/-- R152, R153: the records that the taking of the held frame makes, offered at once (R168). -/
def State.takeRecords (s : State) (before : Receiver) (h : HeldFrame) (st : Nat × Nat) : State :=
  let gap : List Made :=
    if before.gapRun = 0 then [] else [⟨st.1, st.2, .streamGap before.gapRun before.firstGap false, false⟩]
  let want := (before.lastSeq + 1) % 65536
  let skip : List Made :=
    if h.sequence = want then []
    else [⟨st.1, st.2, .streamSkip want h.sequence ((h.sequence + 65536 - want) % 65536), false⟩]
  s.withRep (s.rep.admitAll (gap ++ skip))

/-- The part of the frame-taken event that is the same for a received and a gap frame: limits as they stood, decision, and
the disturbance of the frame (R53, R33, R124). -/
def State.openEvent (s : State) (d : Decision) (gap : Bool) (slot : Option ControlSlot) : State :=
  let disturbed := gap || s.sup.fault.isSome
    || (s.switchesNext && s.seq.phase == .running && !s.decisionEnds d)
  let s' := (s.withOut { s.out with limitPrev := s.out.limit }).withFrame
    ⟨.taken, gap, slot, d, disturbed, false, false⟩
  if disturbed then s'.disturb else s'

/-- R151, R152, R157: a frame is taken for the window that closes now. -/
def State.take (s : State) : State :=
  let d := s.decision
  match s.recv.held with
  | some h =>
    let r := s.recv.takeHeld h
    let s' := (s.withRecv r).withClock (s.slotClock r)
    (((s'.takeRecords s.recv h (s'.takeStamp d)).writeRings h.samples).openEvent d false (some h.slot))
  | none =>
    let r := s.recv.takeGap
    (((s.withRecv r).withClock (s.slotClock r)).fillRings).openEvent d true none

/-- R154, R155: the receiver leaves LOCKED; the periods of the answer-frame clock go on from the start of the last slot. -/
def State.leaveLocked (s : State) : State :=
  (s.withRecv s.recv.enterHunt).withClock { s.clock with slotLen := s.recv.cadenceNow }

/-- R153, R130: test number and test time of the STREAM_GAP of a loss. -/
def State.lossStamp (s : State) : Nat × Nat :=
  if s.seq.phase.inTest then (s.seq.testNumber, 16 * (s.seq.testFrame + 1)) else (0, s.outTime)

/-- R154: stream loss is declared. DESIGN CHOICE (log 35): the Sequencer has made the phase IDLE when the loss drive frame closes
the last judgment (R70). -/
def State.streamLoss (s : State) : State :=
  let s1 := ((s.make s.lossStamp.1 s.lossStamp.2 (.streamGap s.recv.gapRun s.recv.firstGap true)).withRecv
    { s.recv with losses := satInc max32 s.recv.losses }).raise .streamLost
  ((s1.leaveLocked.lossSequencer).lossDrive).flush

end Sys2Proof.Machine
end

