-- ==== Sys2Proof/Machine/Frame.lean ====
section
/-! DEFINITION. The frame-taken event from its opening to its answer frame, the periods of the answer-frame clock, and the
part's own clock (R94, R157, R162, R168). -/

namespace Sys2Proof.Machine

/-! ### Sub-ticks -/

/-- What can fall due at a sub-tick and act on shared state (R98, R109, R111). -/
inductive SubtickEvent where | edge (i : Fin 8) | deadline
deriving DecidableEq, Repr

/-- R109: the breaker's deadline is reached at the present sub-tick. -/
def State.operationDue (s : State) : Bool := s.scanning && s.deadlineDue

/-- R116: the pulse deadline of line `k` is reached at the present sub-tick. -/
def State.pulseEnds (s : State) (k : Fin 4) : Bool := s.scanning && s.pulseDue k

/-- The events due at the present sub-tick. -/
def State.dueEvents (s : State) : List SubtickEvent :=
  ((allFin 8).filter s.edgeDue).map SubtickEvent.edge ++ if s.operationDue then [.deadline] else []

/-- R96, with the records offered. -/
def State.acceptStep (s : State) (i : Fin 8) : State := (s.acceptEdge i).flush

/-- R109, with the latches set and the records offered. -/
def State.operationStep (s : State) : State := (s.completeOperation.latchRisen s).flush

/-- One event comes about. -/
def State.perform (s : State) : SubtickEvent → State
  | .edge i => s.acceptStep i
  | .deadline => s.operationStep

/-- R111: of the events due at one sub-tick one is taken; where there are several, by a free choice (log 6). -/
def State.performOne (s : State) (es : List SubtickEvent) : State :=
  match es with
  | [] => s
  | [e] => s.perform e
  | e :: es' => s.chose.perform ((e :: es').getD (s.chosen (e :: es').length) e)

/-- The step that is due now, if there is one: a leak, the end of a pulse period, an edge, a breaker deadline. -/
def State.dueStep (s : State) : Option State :=
  match (allFin 14).find? s.leakDue with
  | some p => some (s.leak p)
  | none =>
    match (allFin 4).find? s.pulseEnds with
    | some k => some (s.endPulse k)
    | none =>
      match s.dueEvents with
      | [] => none
      | es => some (s.performOne es)

/-- R94, R134: the next sub-tick is scanned; after the sixteenth the row of the frame is formed and the slot has ended. -/
def State.advance (s : State) : State :=
  if s.clock.subtick < 15 then
    ((s.withClock { s.clock with subtick := s.clock.subtick + 1 }).withScan { s.scan with pos := s.scan.pos + 1 }).scanAll
  else (s.formRow).flush |> fun s' => s'.withClock { s'.clock with slotDone := true }

/-- One step of the slot in progress. -/
def State.slotStep (s : State) : State := (s.dueStep).getD s.advance

/-- The rest of the slot in progress comes about, in at most `fuel` steps. -/
def State.runSlot (fuel : Nat) (s : State) : State :=
  match fuel with
  | 0 => s
  | n + 1 => if s.clock.slotDone then s else State.runSlot n s.slotStep

/-- The rest of the slot in progress comes about, with the leaks that are due. A slot holds at most 16 times 13 events, 16
advances and 14 leaks. -/
def State.finishSlot (s : State) : State := (State.runSlot 256 s).leaks

/-- Sub-tick 0 of a slot or period is scanned (R94). -/
def State.beginScan (s : State) : State :=
  ((s.withClock { s.clock with subtick := 0, slotDone := false }).withScan { s.scan with pos := s.scan.pos + 1 }).scanAll

/-- R94: sub-tick 0 of the slot is scanned, if it has not been. -/
def State.scanZero (s : State) : State := if s.clock.slotDone then s.beginScan else s

/-! ### The exit latches of a boundary (R24) -/

/-- R96: at the present sub-tick an edge to active of input number `n` is accepted. -/
def State.activeEdgeDue (s : State) (n : Nat) : Bool :=
  (allFin 8).any fun i =>
    decide (n = i.val) && s.scan.inputs[i].due s.scan.pos && s.scan.inputs[i].levelAt s.scan.pos

/-- R108: a trip edge of the present sub-tick, if the breaker is CLOSED, or a close edge of it, if the breaker is OPEN, begins an
operation. -/
def State.breakerLeaves (s : State) : Bool :=
  Brk.on s.plan.breaker && match s.brk.state with
    | .closed => s.activeEdgeDue (Brk.trip s.plan.breaker)
    | .opened => s.activeEdgeDue (Brk.close s.plan.breaker)
    | .opening | .closing => false

/-- R24: the condition is true at sub-tick 0 of the frame that begins: of an input, the settled level that sub-tick 0 leaves
(R96); of the breaker, the state that no edge accepted there ends (R108). A breaker state that is reached at sub-tick 0, and
a timer slot stopped there, are latched as they come about (R109; log 3). -/
def State.holdsAtZero (s : State) (c : Cond) : Bool :=
  let z := s.scanZero
  match c.kind with
  | .inputActive => z.scan.inputs[Fin.ofNat 8 c.arg].levelAt z.scan.pos
  | .inputInactive => !z.scan.inputs[Fin.ofNat 8 c.arg].levelAt z.scan.pos
  | .breakerOpen | .breakerClosed => s.holds c && !z.breakerLeaves
  | .none | .stateEntry | .testStart | .dwellDone | .timerDone | .rampEnd => s.holds c

/-- R24: at the boundary each latch is set from whether its condition is true at sub-tick 0. -/
def State.latchZero (s : State) : State := s.latchBy s.holdsAtZero

/-! ### The frame-taken event (R162) -/

/-- A frame-taken event can begin: the receiver is LOCKED and no such event is in progress. -/
def State.canOpen (s : State) : Bool := s.frame.stage == .closed && s.recv.state == .locked

/-- R151, R152: the frame of the window that closes next is taken, unless the close declares stream loss. -/
def State.openFrame (s : State) : State :=
  if s.canOpen && s.recv.frameDue then s.finishSlot.take else s

/-- The event in progress comes to stage `x`. -/
def State.toStage (s : State) (x : Stage) : State := s.withFrame { s.frame with stage := x }

/-- R18: the Sequencer settles the phase and the state in force. DESIGN CHOICE (log 33): where ENDING begins, the slots are
finalised (R126) before the expiry checks of R122 at the same boundary. -/
def State.settleSeq (s : State) : State :=
  if s.frame.stage = .taken then (s.settle s.frame.decision).toStage .settled else s

/-- R85 to R87, R100, R102, R122: what comes about at the boundary apart from the Sequencer. -/
def State.boundaryApart (s : State) : State :=
  ((s.completeFailover.switchOver.serve).checkSlots).windowSteps s.clock.scanFrame

/-- The other blocks act at the boundary; the records are offered (R168) and the exit latches set (R24). DESIGN CHOICE (log 31):
all of it, the service of a failover request among it, comes before the message of the frame. -/
def State.ready (s : State) : State :=
  if s.frame.stage = .settled then (s.boundaryApart.latchZero.flushBoundary).toStage .ready else s

/-- R162, R164: a message is handled. -/
def State.takeMessage (s : State) (m : Msg) (code : Byte) (h : Msg → State → Handled) : State :=
  ((h m s).answer m.tag code).toStage .handled

/-- R162: the control slot of the frame taken is handled. -/
def State.handleSlot (s : State) : State :=
  if s.frame.stage = .ready then
    match s.frame.slot with
    | some c => if c.msg.tag = 0 then s.toStage .handled else s.takeMessage c.msg c.code (handlerOf c.code)
    | none => s.toStage .handled
  else s

/-- R13: the Plan Store's step in a VERIFYING frame, but for the last. -/
def State.verifyState (s : State) (v : Verification) (i : Nat) : State :=
  s.withPlan { s.plan with verification := some (v.stepState s.plan (Fin.ofNat 32 i)) }

/-- R13, R14: the Plan Store's step in a VERIFYING frame. -/
def State.verify (s : State) : State :=
  match s.seq.phase, s.plan.verification with
  | .verifying, some v =>
    match v.position with
    | .state i => s.verifyState v i
    | .remaining => s.verifyOutcome v
  | _, _ => s

/-- R162: the verification step of the frame. DESIGN CHOICE (log 42): its record joins before those of the frame's outputs and
drive frame. -/
def State.verifyStep (s : State) : State :=
  if s.frame.stage = .handled then s.verify.toStage .stepped else s

/-- R49, R86, R87: the outputs of the frame are computed, in RUNNING and ENDING. -/
def State.outputs (s : State) : State :=
  if s.seq.phase.inTest then s.countFailoverFrame.computeOutputs else s

/-- R155: after the answer frame of a RESYNC the receiver enters HUNT. -/
def State.resyncStep (s : State) : State := if s.recv.resync then s.leaveLocked else s

/-- R49, R66: the outputs of the frame are computed and its drive frame sent: what the answer frame then shows (R158). DESIGN
CHOICE (log 42): of the records made in one frame, a READBACK that the drive frame makes as it closes the last judgment (R70,
R82) joins last, after what the verification step (PLAN_VERIFIED, PLAN_REJECTED) and stage 5 (RAMP_END, R56, with the result
its event makes) have made: R162 and R168 do not order these. -/
def State.outputStep (s : State) : State := (s.outputs.driveFrame.latchRisen s).flush

/-- R49, R66, R158: outputs, drive frame, answer frame; sub-tick 0 of the slot is scanned. -/
def State.finish (s : State) : State :=
  if s.frame.stage = .stepped then ((s.outputStep.answer s.frame.gap).resyncStep.toStage .closed).scanZero else s

/-- The frame-taken event in progress comes to its end. -/
def State.complete (s : State) : State := s.settleSeq.ready.handleSlot.verifyStep.finish

/-- What comes from outside the boundary comes after the frame-taken event in progress (log 3). -/
def State.closeEvent (s : State) : State := if s.frame.stage = .closed then s else s.complete

/-- R150: one byte of the downstream stream arrives; a frame that is whole with it is judged (log 3, log 34). -/
def State.receiveByte (s : State) (x : LinkByte) : State :=
  match seekSync (s.recv.stream ++ [x]) with
  | [] => s.setStream []
  | first :: rest => if 55 ≤ rest.length then s.closeEvent.frameWhole first rest else s.setStream (first :: rest)

/-- R150: bytes of the downstream stream arrive. -/
def State.receiveBytes (s : State) (bytes : List LinkByte) : State := bytes.foldl State.receiveByte s

/-- R151, R152, R154: the arrival window closes. -/
def State.windowClose (s : State) : State :=
  if s.canOpen then
    if s.recv.frameDue then s.openFrame.complete else s.finishSlot.streamLoss
  else s.complete

/-! ### The answer-frame clock (R157) -/

/-- R157, R100, R102: a period begins: its place on the clock, and the windows that end, input by input (log 32). -/
def State.openPeriod (s : State) : State :=
  let c := s.clock
  let s1 := s.withClock { c with
    slotStart := c.slotStart + c.slotLen
    slotLen := s.recv.cadenceNow
    scanFrame := c.scanFrame + 1 }
  (s1.windowSteps s1.clock.scanFrame).flush

/-- R157, R158: a period begins: windows, answer frame, sub-tick 0. -/
def State.beginPeriod (s : State) : State := (s.openPeriod.answer false).beginScan

/-- R157: a period of the answer-frame clock begins, outside LOCKED. -/
def State.answerPeriod (s : State) : State :=
  if s.recv.state = .locked then s else s.finishSlot.beginPeriod

/-! ### The part's own clock (log 2) -/

/-- The present instant, in sixteenths of a ns (R94). -/
def State.now (s : State) : Nat := 16 * s.clock.slotStart + s.clock.subtick * s.clock.slotLen

/-- R150: in CHECK the time for the next good frame has passed: reference arrival + P + P/8. A frame whose first byte came in
time but which is not whole by then has not been judged, so it does not count (log 39). -/
def State.checkIsLate (s : State) : Bool :=
  s.recv.state == .check &&
    decide (16 * (s.recv.reference + s.recv.cadenceNow + s.recv.cadenceNow / 8) < s.now)

/-- DESIGN CHOICE (log 2): what an empty queue lets come about: the event in progress, else a step that is due, else the next
window or period, else the next sub-tick. -/
def State.tick (s : State) : State :=
  if s.frame.stage = .closed then
    match s.dueStep with
    | some s' => s'
    | none =>
      if s.checkIsLate then s.checkTimeout
      else if s.clock.slotDone then
        if s.recv.state = .locked then s.windowClose else s.answerPeriod
      else s.advance
  else s.complete

end Sys2Proof.Machine
end

