-- ==== Sys2Proof/WellFormed.lean ====
section
/-! DEFINITION. Which commands stand for something that can come about. -/

namespace Sys2Proof

/-- A message is in a slot that is not empty: its tag is 1 to 255 (R162). -/
def Msg.wf (m : Msg) : Bool := m.tag != 0

/-- A frame begins with the sync word whose two bytes are `a` and `b`. -/
def hasSync {n : Nat} (a b : Byte) (frame : Vector Byte n) : Bool :=
  frame.toList.take 2 == [a, b]

/-- The bytes of a stream arrive one after another. -/
def inOrder : List LinkByte → Bool
  | a :: b :: rest => decide (a.instant ≤ b.instant) && inOrder (b :: rest)
  | _ => true

/-- The command is one that the links, lines or clocks can give the part (R150, R69, R162, R163). -/
def Instr.wf : Instr → Bool
  | .powerUpReset => true
  | .sampleFrameArrival first rest => inOrder (first :: rest)
  | .checkTimeout => true
  | .arrivalWindowClose => true
  | .answerFrameClockPeriod => true
  | .readbackFrameReceived f => hasSync 0x4C 0x2D f
  | .leakStep _ => true
  | .failoverService => true
  | .zeroFound => true
  | .failoverComplete => true
  | .inputLineChange _ _ => true
  | .acceptedEdge _ => true
  | .chatterEnd _ => true
  | .chatterWindowClose _ => true
  | .breakerOperationComplete => true
  | .pulsePeriodEnd _ => true
  | .timeoutDue _ => true
  | .timerExpired _ => true
  | .verificationOutcome => true
  | .armCancel => true
  | .testStart => true
  | .dwellDone => true
  | .stateExit => true
  | .durationLimit => true
  | .endRequest => true
  | .testComplete => true
  | .writeGlobals m => m.wf
  | .writeState m => m.wf
  | .writeChannel m => m.wf
  | .writeTimer m => m.wf
  | .writeInput m => m.wf
  | .writeBreaker m => m.wf
  | .writeCapture m => m.wf
  | .writeLimit m => m.wf
  | .writeSupervision m => m.wf
  | .writeSupervisionGlobal m => m.wf
  | .setCadence m => m.wf
  | .resync m => m.wf
  | .read m => m.wf
  | .arm m => m.wf
  | .start m => m.wf
  | .abort m => m.wf
  | .release m => m.wf
  | .ackAttention m => m.wf
  | .clearAttention m => m.wf
  | .pauseReports m => m.wf
  | .resumeReports m => m.wf
  | .clearChannel m => m.wf
  | .restoreMap m => m.wf
  | .queryStatus m => m.wf
  | .resetPart m => m.wf
  | .unknownMessage code m => m.wf && (code == 0 || decide (0x19 < code.toNat))

end Sys2Proof
end

