-- ==== Sys2Proof/Machine/Events.lean ====
section
/-! DEFINITION. The meanings of the commands that are events: at the links, the lines and the clocks, and the steps that come
about inside the part. -/

namespace Sys2Proof.Machine

/-- What a command answers: always a next state (log 16). -/
abbrev Answer := Host.Outcome State Fault Refusal

/-! ### Power -/

/-- R17 (and R1, R41, R61, R72, R93, R106, R114, R118, R129, R149, R164): power is applied. The raw levels of the input lines
are the relay's and stay; so do the model's own fields. -/
def State.powerUp (s : State) : State :=
  (State.resetWith (tab fun i => s.scan.inputs[i].raw)).withPending s.pending |>.withChoices s.choices

/-- POWER_UP_RESET. -/
def execPowerUpReset (s : State) : Answer := .next s.powerUp

/-! ### The sample link -/

/-- SAMPLE_FRAME_ARRIVAL (R150): bytes of the downstream stream arrive, and each frame that is whole with them is judged. -/
def execSampleFrameArrival (first : LinkByte) (rest : List LinkByte) (s : State) : Answer :=
  .next (s.receiveBytes (first :: rest))

/-- CHECK_TIMEOUT (R150). -/
def execCheckTimeout (s : State) : Answer := .next s.checkTimeout

/-- ARRIVAL_WINDOW_CLOSE (R151 to R154). -/
def execArrivalWindowClose (s : State) : Answer := .next s.windowClose

/-- ANSWER_FRAME_CLOCK_PERIOD (R157). -/
def execAnswerFrameClockPeriod (s : State) : Answer := .next s.answerPeriod

/-! ### The drive link and the supervisor -/

/-- R69, R78: a readback frame is judged, once the leaks of an earlier comparison have come about. -/
def State.readback (s : State) (frame : List Byte) : State := ((s.leaks.judgeReadback frame).latchRisen s).flush

/-- READBACK_FRAME_RECEIVED (R69): a frame without the sync word is neither judged nor counted. The leaks of an earlier
comparison come first (log 24). -/
def execReadbackFrameReceived (frame : Vector Byte 40) (s : State) : Answer :=
  .next (if hasSync 0x4C 0x2D frame then s.closeEvent.readback frame.toList else s)

/-- LEAK_STEP (R78). -/
def execLeakStep (p : Fin 14) (s : State) : Answer := .next (s.leakIfDue p)

/-- The boundary with the phase and the state in force settled: where the steps of the other blocks come about. -/
def State.atBoundary (s : State) : State := s.openFrame.settleSeq

/-- A step of a boundary comes about if it is due there, and only then (log 4). -/
def State.boundaryStep (s : State) (due : State → Bool) (act : State → State) : State :=
  if s.atBoundary.frame.stage == .settled && due s.atBoundary then act s.atBoundary else s

/-- FAILOVER_SERVICE (R85). -/
def execFailoverService (s : State) : Answer := .next (s.boundaryStep State.canServe State.serve)

/-- ZERO_FOUND (R86). -/
def execZeroFound (s : State) : Answer := .next (s.boundaryStep State.zeroIsFound State.switchOver)

/-- FAILOVER_COMPLETE (R87). -/
def execFailoverComplete (s : State) : Answer := .next (s.boundaryStep State.switchIsOver State.completeFailover)

/-! ### Sub-ticks -/

/-- The frame whose boundary is settled and whose message, if any, comes next. -/
def State.atMessage (s : State) : State := s.atBoundary.ready

/-- R162: sub-tick 0 of the frame being taken, scanned before the frame's message. -/
def State.beforeMessage (s : State) : State := s.atMessage.scanZero

/-- R162: something is due at sub-tick 0 of the frame being taken and is commanded before its message. -/
def State.comesFirst (s : State) (due : State → Bool) : Bool :=
  (s.frame.stage != .closed || s.clock.slotDone) && s.beforeMessage.frame.stage == .ready && due s.beforeMessage

/-- A thing at a sub-tick comes about if it is due: at the present sub-tick; or at sub-tick 0 of the frame being taken, before
its message (R21, R162: the two are not ordered; log 3); or there after it. -/
def State.subtickCommand (s : State) (due : State → Bool) (act : State → State) : State :=
  if s.comesFirst due then act s.beforeMessage
  else if due s.closeEvent then act s.closeEvent
  else s

/-! ### Inputs -/

/-- INPUT_LINE_CHANGE (R94, R95). -/
def execInputLineChange (i : Fin 8) (high : Bool) (s : State) : Answer := .next (s.closeEvent.lineChange i high)

/-- ACCEPTED_EDGE (R96 to R101). -/
def execAcceptedEdge (i : Fin 8) (s : State) : Answer :=
  .next (s.subtickCommand (fun t => t.edgeDue i) (fun t => t.acceptStep i))

/-- The end of a chatter window comes about if it is due: at the boundary into a frame, or, outside LOCKED, at the end of the
period in progress (R100, R102). -/
def State.windowCommand (s : State) (ends : State → Nat → Bool) (act : State → State) : State :=
  if s.recv.state = .locked then s.boundaryStep (fun t => ends t t.clock.scanFrame) act
  else if ends s.finishSlot (s.finishSlot.clock.scanFrame + 1) then (act s.finishSlot).flush
  else s

/-- CHATTER_END (R102). -/
def execChatterEnd (i : Fin 8) (s : State) : Answer :=
  .next (s.windowCommand (fun t n => t.chatterEnds n i) (fun t => t.endChatter i))

/-- CHATTER_WINDOW_CLOSE (R100). -/
def execChatterWindowClose (i : Fin 8) (s : State) : Answer :=
  .next (s.windowCommand (fun t n => t.normalWindowEnds n i) (fun t => t.closeWindowOf i))

/-! ### Breaker and lines -/

/-- BREAKER_OPERATION_COMPLETE (R109). -/
def execBreakerOperationComplete (s : State) : Answer :=
  .next (s.subtickCommand State.operationDue State.operationStep)

/-- PULSE_PERIOD_END (R116). -/
def execPulsePeriodEnd (k : Fin 4) (s : State) : Answer :=
  .next (s.subtickCommand (fun t => t.pulseEnds k) (fun t => t.endPulse k))

/-! ### Timers -/

/-- TIMEOUT_DUE (R122). -/
def execTimeoutDue (k : Fin 8) (s : State) : Answer :=
  .next (s.boundaryStep (fun t => t.timeoutIsDue k) (fun t => t.holdExpiry k))

/-- TIMER_EXPIRED (R122). -/
def execTimerExpired (k : Fin 8) (s : State) : Answer :=
  .next (s.boundaryStep (fun t => t.expires k) (fun t => t.expire k))

/-! ### The Plan Store -/

/-- The frame whose message has been handled, before its verification step. -/
def State.atVerification (s : State) : State := s.atBoundary.ready.handleSlot

/-- R14: this frame decides the outcome of the verification. -/
def State.outcomeDue (s : State) : Bool :=
  s.frame.stage == .handled && s.seq.phase == .verifying && match s.plan.verification with
    | some v => v.position == .remaining
    | none => false

/-- VERIFICATION_OUTCOME (R14, R15). -/
def execVerificationOutcome (s : State) : Answer :=
  .next (if s.atVerification.outcomeDue then s.atVerification.verifyStep else s)

/-! ### The Sequencer -/

/-- A step of the Sequencer comes about at the boundary if the boundary has decided on it (log 4). -/
def State.sequencerStep (s : State) (due : Decision → Bool) : State :=
  if s.openFrame.frame.stage == .taken && due s.openFrame.frame.decision then s.openFrame.settleSeq else s

/-- The decision is the cancelling of an arming. -/
def Decision.isCancel : Decision → Bool | .cancel => true | _ => false
/-- The decision is the start of a test. -/
def Decision.isStart : Decision → Bool | .start _ => true | _ => false
/-- The decision is an exit. -/
def Decision.isExit : Decision → Bool | .exit _ => true | _ => false
/-- The decision is the duration limit. -/
def Decision.isDuration : Decision → Bool | .duration => true | _ => false
/-- The decision is a pending END. -/
def Decision.isStop : Decision → Bool | .stop _ => true | _ => false
/-- The decision is the completion of the test. -/
def Decision.isComplete : Decision → Bool | .complete => true | _ => false

/-- ARM_CANCEL (R31). -/
def execArmCancel (s : State) : Answer := .next (s.sequencerStep Decision.isCancel)

/-- TEST_START (R22). -/
def execTestStart (s : State) : Answer := .next (s.sequencerStep Decision.isStart)

/-- R25: the frames in state have reached the dwell of the state in force. -/
def State.dwellReached (s : State) : Bool := s.seq.phase == .running && s.holds ⟨.dwellDone, 0⟩

/-- R24, R25: the latches of the exits on DWELL_DONE are set. -/
def State.latchDwell (s : State) : State :=
  s.withSeq { s.seq with
    latches := tab fun k => s.seq.latches[k] || (Part0.exitCond s.part0 k).kind == .dwellDone }

/-- DWELL_DONE (R25). -/
def execDwellDone (s : State) : Answer := .next (s.boundaryStep State.dwellReached State.latchDwell)

/-- STATE_EXIT (R26). -/
def execStateExit (s : State) : Answer := .next (s.sequencerStep Decision.isExit)

/-- DURATION_LIMIT (R30). -/
def execDurationLimit (s : State) : Answer := .next (s.sequencerStep Decision.isDuration)

/-- END_REQUEST (R33). -/
def execEndRequest (s : State) : Answer := .next (s.sequencerStep Decision.isStop)

/-- TEST_COMPLETE (R35). -/
def execTestComplete (s : State) : Answer := .next (s.sequencerStep Decision.isComplete)

end Sys2Proof.Machine
end

