-- ==== Sys2Proof/Machine/Commands.lean ====
section
/-! DEFINITION. The meanings of the commands that are messages. Each is the content of the control slot of the received frame
that is being taken (log 10). -/

namespace Sys2Proof.Machine

/-- R162: a message is taken from the frame that is being taken: that frame is received, the slot is not empty, and its message
has not been handled. -/
def State.hearsMessage (s : State) (m : Msg) : Bool :=
  s.atMessage.frame.stage == .ready && s.atMessage.frame.slot.isSome && m.tag != 0

/-- R162: the message is handled in its frame, if it can be taken; else it gets no reply and changes nothing (log 4). -/
def State.messageStep (s : State) (m : Msg) (code : Byte) (h : Msg → State → Handled) : State :=
  if s.hearsMessage m then s.atMessage.takeMessage m code h else s

/-- WRITE_GLOBALS (R3). -/
def execWriteGlobals (m : Msg) (s : State) : Answer := .next (s.messageStep m 0x01 writeGlobals)

/-- WRITE_STATE (R4, R5). -/
def execWriteState (m : Msg) (s : State) : Answer := .next (s.messageStep m 0x02 writeState)

/-- WRITE_CHANNEL (R6). -/
def execWriteChannel (m : Msg) (s : State) : Answer := .next (s.messageStep m 0x03 writeChannel)

/-- WRITE_TIMER (R7). -/
def execWriteTimer (m : Msg) (s : State) : Answer := .next (s.messageStep m 0x04 writeTimer)

/-- WRITE_INPUT (R8, R103). -/
def execWriteInput (m : Msg) (s : State) : Answer := .next (s.messageStep m 0x05 writeInput)

/-- WRITE_BREAKER (R8, R106). -/
def execWriteBreaker (m : Msg) (s : State) : Answer := .next (s.messageStep m 0x06 writeBreaker)

/-- WRITE_CAPTURE (R7). -/
def execWriteCapture (m : Msg) (s : State) : Answer := .next (s.messageStep m 0x07 writeCapture)

/-- WRITE_LIMIT (R62). -/
def execWriteLimit (m : Msg) (s : State) : Answer := .next (s.messageStep m 0x08 writeLimit)

/-- WRITE_SUPERVISION (R73). -/
def execWriteSupervision (m : Msg) (s : State) : Answer := .next (s.messageStep m 0x09 writeSupervision)

/-- WRITE_SUPERVISION_GLOBAL (R74). -/
def execWriteSupervisionGlobal (m : Msg) (s : State) : Answer := .next (s.messageStep m 0x0A writeSupervisionGlobal)

/-- SET_CADENCE (R156). -/
def execSetCadence (m : Msg) (s : State) : Answer := .next (s.messageStep m 0x0B setCadence)

/-- RESYNC (R155). -/
def execResync (m : Msg) (s : State) : Answer := .next (s.messageStep m 0x0C resync)

/-- READ (R165). -/
def execRead (m : Msg) (s : State) : Answer := .next (s.messageStep m 0x0D readRecord)

/-- ARM (R12). -/
def execArm (m : Msg) (s : State) : Answer := .next (s.messageStep m 0x0E armPlan)

/-- START (R19). -/
def execStart (m : Msg) (s : State) : Answer := .next (s.messageStep m 0x0F startTest)

/-- ABORT (R31, R16). -/
def execAbort (m : Msg) (s : State) : Answer := .next (s.messageStep m 0x10 abortTest)

/-- RELEASE (R140). -/
def execRelease (m : Msg) (s : State) : Answer := .next (s.messageStep m 0x11 release)

/-- ACK_ATTENTION (R146). -/
def execAckAttention (m : Msg) (s : State) : Answer := .next (s.messageStep m 0x12 ackAttention)

/-- CLEAR_ATTENTION (R146). -/
def execClearAttention (m : Msg) (s : State) : Answer := .next (s.messageStep m 0x13 clearAttention)

/-- PAUSE_REPORTS (R143). -/
def execPauseReports (m : Msg) (s : State) : Answer := .next (s.messageStep m 0x14 pauseReports)

/-- RESUME_REPORTS (R143). -/
def execResumeReports (m : Msg) (s : State) : Answer := .next (s.messageStep m 0x15 resumeReports)

/-- CLEAR_CHANNEL (R90). -/
def execClearChannel (m : Msg) (s : State) : Answer := .next (s.messageStep m 0x16 clearChannel)

/-- RESTORE_MAP (R91). -/
def execRestoreMap (m : Msg) (s : State) : Answer := .next (s.messageStep m 0x17 restoreMap)

/-- QUERY_STATUS (R166). -/
def execQueryStatus (m : Msg) (s : State) : Answer := .next (s.messageStep m 0x18 queryStatus)

/-- RESET_PART (R167). -/
def execResetPart (m : Msg) (s : State) : Answer := .next (s.messageStep m 0x19 resetPart)

/-- R163: the code is 00h or above 19h. -/
def unknownCode (code : Byte) : Bool := code == 0 || decide (0x19 < code.toNat)

/-- UNKNOWN_MESSAGE (R163). -/
def execUnknownMessage (code : Byte) (m : Msg) (s : State) : Answer :=
  .next (if unknownCode code then s.messageStep m code (fun _ => unknownMessage) else s)

end Sys2Proof.Machine
end

