-- ==== Sys2Proof/Machine/Dispatch.lean ====
section
/-! DEFINITION. One arm for each command. -/

namespace Sys2Proof.Machine

def exec (i : Instr) (s : State) : Host.Outcome State Fault Refusal :=
  match i with
  | .powerUpReset => Sys2Proof.Machine.execPowerUpReset s
  | .sampleFrameArrival first rest => Sys2Proof.Machine.execSampleFrameArrival first rest s
  | .checkTimeout => Sys2Proof.Machine.execCheckTimeout s
  | .arrivalWindowClose => Sys2Proof.Machine.execArrivalWindowClose s
  | .answerFrameClockPeriod => Sys2Proof.Machine.execAnswerFrameClockPeriod s
  | .readbackFrameReceived frame => Sys2Proof.Machine.execReadbackFrameReceived frame s
  | .leakStep p => Sys2Proof.Machine.execLeakStep p s
  | .failoverService => Sys2Proof.Machine.execFailoverService s
  | .zeroFound => Sys2Proof.Machine.execZeroFound s
  | .failoverComplete => Sys2Proof.Machine.execFailoverComplete s
  | .inputLineChange k high => Sys2Proof.Machine.execInputLineChange k high s
  | .acceptedEdge k => Sys2Proof.Machine.execAcceptedEdge k s
  | .chatterEnd k => Sys2Proof.Machine.execChatterEnd k s
  | .chatterWindowClose k => Sys2Proof.Machine.execChatterWindowClose k s
  | .breakerOperationComplete => Sys2Proof.Machine.execBreakerOperationComplete s
  | .pulsePeriodEnd k => Sys2Proof.Machine.execPulsePeriodEnd k s
  | .timeoutDue k => Sys2Proof.Machine.execTimeoutDue k s
  | .timerExpired k => Sys2Proof.Machine.execTimerExpired k s
  | .verificationOutcome => Sys2Proof.Machine.execVerificationOutcome s
  | .armCancel => Sys2Proof.Machine.execArmCancel s
  | .testStart => Sys2Proof.Machine.execTestStart s
  | .dwellDone => Sys2Proof.Machine.execDwellDone s
  | .stateExit => Sys2Proof.Machine.execStateExit s
  | .durationLimit => Sys2Proof.Machine.execDurationLimit s
  | .endRequest => Sys2Proof.Machine.execEndRequest s
  | .testComplete => Sys2Proof.Machine.execTestComplete s
  | .writeGlobals m => Sys2Proof.Machine.execWriteGlobals m s
  | .writeState m => Sys2Proof.Machine.execWriteState m s
  | .writeChannel m => Sys2Proof.Machine.execWriteChannel m s
  | .writeTimer m => Sys2Proof.Machine.execWriteTimer m s
  | .writeInput m => Sys2Proof.Machine.execWriteInput m s
  | .writeBreaker m => Sys2Proof.Machine.execWriteBreaker m s
  | .writeCapture m => Sys2Proof.Machine.execWriteCapture m s
  | .writeLimit m => Sys2Proof.Machine.execWriteLimit m s
  | .writeSupervision m => Sys2Proof.Machine.execWriteSupervision m s
  | .writeSupervisionGlobal m => Sys2Proof.Machine.execWriteSupervisionGlobal m s
  | .setCadence m => Sys2Proof.Machine.execSetCadence m s
  | .resync m => Sys2Proof.Machine.execResync m s
  | .read m => Sys2Proof.Machine.execRead m s
  | .arm m => Sys2Proof.Machine.execArm m s
  | .start m => Sys2Proof.Machine.execStart m s
  | .abort m => Sys2Proof.Machine.execAbort m s
  | .release m => Sys2Proof.Machine.execRelease m s
  | .ackAttention m => Sys2Proof.Machine.execAckAttention m s
  | .clearAttention m => Sys2Proof.Machine.execClearAttention m s
  | .pauseReports m => Sys2Proof.Machine.execPauseReports m s
  | .resumeReports m => Sys2Proof.Machine.execResumeReports m s
  | .clearChannel m => Sys2Proof.Machine.execClearChannel m s
  | .restoreMap m => Sys2Proof.Machine.execRestoreMap m s
  | .queryStatus m => Sys2Proof.Machine.execQueryStatus m s
  | .resetPart m => Sys2Proof.Machine.execResetPart m s
  | .unknownMessage code m => Sys2Proof.Machine.execUnknownMessage code m s

end Sys2Proof.Machine
end

