-- ==== Sys2Proof/Safety.lean ====
section
/-! DEFINITION. What the claims speak of: frames that are good, messages that are heard, and the invariants of a safe run. -/

namespace Sys2Proof.Machine

/-! ### Frames on the links -/

/-- R150, R161: a frame of 56 bytes with sync word, kind 01h, flags 00h and a matching CRC. -/
def GoodFrame (f : Vector Byte 56) : Prop :=
  f[0] = 0xE5 ∧ f[1] = 0xA7 ∧ f[4] = 1 ∧ f[5] = 0
    ∧ f[54].toNat * 256 + f[55].toNat = (crc ((f.toList.drop 2).take 52)).toNat

/-- R150: a frame with the sync word that fails another check. -/
def BadFrame (f : Vector Byte 56) : Prop := f[0] = 0xE5 ∧ f[1] = 0xA7 ∧ ¬ GoodFrame f

/-- R150: as far as they go, the bytes' first two are the sync word E5A7h. -/
def MayBeginFrame (l : List LinkByte) : Prop := (l.map LinkByte.byte).take 2 <+: [0xE5, 0xA7]

/-- R150: what a search at every byte position of `l` keeps: the bytes from the first place where a frame may begin. -/
def KeptBySearch (l kept : List LinkByte) : Prop :=
  kept <:+ l ∧ MayBeginFrame kept ∧ ∀ k : List LinkByte, k <:+ l → MayBeginFrame k → k.length ≤ kept.length

/-- R150: the bytes are those of the frame `f`, whose arrival, that of its first byte, is `a`. -/
def CarriesFrame (l : List LinkByte) (a : Nat) (f : Vector Byte 56) : Prop :=
  l.map LinkByte.byte = f.toList ∧ l.head?.map LinkByte.instant = some a

/-- R161: the sequence of a sample frame. -/
def frameSequence (f : Vector Byte 56) : Nat := f[2].toNat * 256 + f[3].toNat

/-- R161, 0.6.2: the base sample of channel `c` that a sample frame carries, a two's complement number. -/
def frameSample (f : Vector Byte 56) (c : Fin 12) : Int := (f[6 + 2 * c.val] ++ f[7 + 2 * c.val] : BitVec 16).toInt

/-- R69, R161: a readback frame of 40 bytes with sync word, matching CRC and flag words whose bits 15 and 14 are 0. -/
def GoodReadback (f : Vector Byte 40) : Prop :=
  f[0] = 0x4C ∧ f[1] = 0x2D ∧ f[32].toNat < 64 ∧ f[34].toNat < 64
    ∧ f[38].toNat * 256 + f[39].toNat = (crc ((f.toList.drop 2).take 36)).toNat

/-- R69: a readback frame that is judged as one with a bad CRC. -/
def BadReadback (f : Vector Byte 40) : Prop := f[0] = 0x4C ∧ f[1] = 0x2D ∧ ¬ GoodReadback f

/-- R161: the echo of a readback frame. -/
def readbackEcho (f : Vector Byte 40) : Nat := f[2].toNat * 256 + f[3].toNat

/-- R161: the reference word of a readback frame. -/
def readbackReference (f : Vector Byte 40) : Nat := f[36].toNat * 256 + f[37].toNat

/-! ### Frames without a message -/

/-- R151, R152, R162: the frame taken next carries no message: it is a received frame with an empty control slot, or a gap
frame. -/
def State.TakesSilentFrame (s : State) : Prop :=
  (∃ h : HeldFrame, s.recv.held = some h ∧ h.slot.msg.tag = 0) ∨ (s.recv.held = none ∧ s.recv.gapRun < s.recv.gapLimit)

/-! ### Records that leave the queue -/

/-- R132: the event queue may be emptied now: the command at the front is POWER_UP_RESET or RESET_PART, or the held frame or the
frame in progress carries a message with the code of RESET_PART. -/
def State.TakesReset (s : State) : Prop :=
  (∃ c : Instr, s.pending.head? = some c ∧ (c = .powerUpReset ∨ ∃ m : Msg, c = .resetPart m))
    ∨ (∃ h : HeldFrame, s.recv.held = some h ∧ h.slot.code = 0x19)
    ∨ ∃ c : ControlSlot, s.frame.slot = some c ∧ c.code = 0x19

/-! ### Results of timers -/

/-- R127: sub-ticks in microseconds at cadence `cadence`: round half up of elapsed times cadence by 16000, saturating. -/
def elapsedMicros (elapsed cadence : Nat) : Nat := min 4294967295 ((elapsed * cadence + 8000) / 16000)

/-- R125: the gain of channel `c` for the present frame: that of its accumulator until the frame's outputs are computed, the
present gain from then on; 0 in effective mode ZERO. -/
def State.frameGain (s : State) (c : Fin 12) : Nat :=
  if s.frame.stage ≠ .closed ∧ s.frame.computed = false then
    if s.eng[c].mode = .zero then 0 else s.eng[c].gacc / 65536
  else s.eng[c].gain

/-! ### Exit latches -/

/-- R24: what a thing that comes about makes of the exit latches, from `s` to `t`: in RUNNING each stays set, one whose condition
has become true is set, and no other. In every other phase they are clear. -/
def State.LatchesFollow (s t : State) : Prop :=
  ∀ k : Fin 4,
    let cond := Part0.exitCond s.plan.part0[s.seq.stateInForce] k
    (s.seq.phase = .running →
      (t.seq.latches[k] = true ↔ s.seq.latches[k] = true ∨ (s.holds cond = false ∧ t.holds cond = true)))
    ∧ (s.seq.phase ≠ .running → t.seq.latches[k] = false)

/-- R95: the new level of the edge of input `i` that sub-tick 0 of the slot that begins accepts, if it accepts one: the level of
the line differs from the settled level there, and a candidate has persisted for the debounce, or the debounce is 0. -/
def State.edgeAtZero (s : State) (i : Fin 8) : Option Bool :=
  let x := s.scan.inputs[i]
  let level := x.raw != Input.invert x.cfg
  let debounce := x.cfg[1].toNat
  if x.reload = .now ∨ level = x.settled then none
  else match x.cand with
    | none => if debounce = 0 then some level else none
    | some c => if debounce + c.start ≤ s.scan.pos + 1 then some c.active else none

/-- R96: the settled level of input `i` that sub-tick 0 of the slot that begins leaves: that of the edge accepted there, else
the one before it; RESET_PART has it read afresh (R104). -/
def State.levelAtZero (s : State) (i : Fin 8) : Bool :=
  let x := s.scan.inputs[i]
  (s.edgeAtZero i).getD (if x.reload = .now then x.raw != Input.invert s.plan.inputs[i] else x.settled)

/-! ### Events offered and blocks closed -/

/-- R120, R136: an event whose stamp is not clamped is offered to the timers, then to the capture trigger. -/
def State.offered (s : State) (ev : Cond) (stamp : Nat) : State := (s.offerTimers ev stamp false).offerCapture ev stamp

/-- R34, R168: the blocks are told of the entry to ENDING, measuring to frame `e`: the timers, the capture store, the supervisor. -/
def State.closedAt (s : State) (e : Nat) : State := ((s.finaliseTimers e).captureClose e).closeFailover e

/-! ### Breaker and output lines -/

/-- R115, R116, R5: the lines of `t` as the entry to state `n` for frame `frame` sets them, with the state records of `s`: each
has the mode of its code in part 1; a PULSE line is in HIGH_PERIOD, its pulse deadline at 16 times the frame plus its high
delay code; a line in another mode has no pulse deadline. -/
def State.LinesEntered (s t : State) (n : Fin 32) (frame : Nat) : Prop :=
  ∀ k : Fin 4,
    let r := s.plan.part1[n]
    let l := t.lines[k]
    let high : Nat := (r[5 * k.val + 1].toNat + 1) * 2 ^ r[5 * k.val + 2].toNat
    l.mode = [LineMode.low, .high, .breakerA, .breakerB, .pulse].getD r[5 * k.val].toNat .low
      ∧ (l.mode = .pulse → l.high = true ∧ l.deadline = some ((16 * frame + high : Nat) : Int))
      ∧ (l.mode ≠ .pulse → l.deadline = none)

/-- R40, R106, R113, R114, R117: breaker and lines of `s` stand as outside a test: the breaker at the initial state of its
record, with no operation and no deadline and `count` operations counted; every line in mode LOW without a pulse deadline. -/
def State.AtHome (s : State) (count : Nat) : Prop :=
  s.brk = ⟨if s.plan.breaker[7] = 1 then .opened else .closed, none, none, count⟩
    ∧ ∀ k : Fin 4, s.lines[k].mode = .low ∧ s.lines[k].deadline = none

/-- R114 to R117: output line `k` is HIGH: in a test alone, by its mode in force, the breaker state and its pulse phase. -/
abbrev State.LineHigh (s : State) (k : Fin 4) : Prop :=
  (s.seq.phase = .running ∨ s.seq.phase = .ending)
    ∧ (s.lines[k].mode = .high ∨ (s.lines[k].mode = .breakerA ∧ s.brk.state = .closed)
      ∨ (s.lines[k].mode = .breakerB ∧ s.brk.state = .opened) ∨ (s.lines[k].mode = .pulse ∧ s.lines[k].high = true))

/-! ### Inputs -/

/-- R94, R95: `y` is what the scan at position `pos` makes of the input `x`, `r` being its stored record; where it is to be read
`afresh` (R93, R103, R104), it takes that record up with the level read there. -/
def InputScan.ScannedTo (x y : InputScan) (r : Payload) (pos : Nat) (afresh : Prop) : Prop :=
  let level := x.raw != Input.invert x.cfg
  (afresh → y = ⟨x.raw, r, .no, true, x.raw != Input.invert r, none, 0, false, none, 0, 0⟩)
    ∧ (¬ afresh → x.cand = none → level = x.settled → y = { x with acted := false })
    ∧ (¬ afresh → x.cand = none → level ≠ x.settled → y = { x with cand := some ⟨level, pos⟩, acted := true })
    ∧ (∀ k : Candidate, ¬ afresh → x.cand = some k → level ≠ x.settled →
        y = { x with acted := decide (x.cfg[1].toNat + k.start ≤ pos) })
    ∧ (¬ afresh → x.cand ≠ none → level = x.settled →
        y = { x with cand := none, bounce := min 255 (x.bounce + 1), acted := true })

/-- R100: the window of input `x` is over when frame `frame` of the scan begins. -/
def InputScan.windowOver (x : InputScan) (frame : Nat) : Bool :=
  x.window.any fun w => decide (w + Input.window x.cfg ≤ frame)

/-- R100, R102: what the beginning of frame `frame` of the scan makes of input `x`. -/
def InputScan.afterWindow (x : InputScan) (frame : Nat) : InputScan :=
  if x.windowOver frame then
    if x.chatter then { x with chatter := false, window := none, edges := 0, suppressed := 0 }
    else { x with window := none, edges := 0 }
  else x

/-! ### Readbacks -/

/-- R84: the logical channel that the failover engine is serving. -/
def Supervisor.serving (p : Supervisor) : Option (Fin 12) :=
  match p.engine with
  | .quiet => none
  | .awaitZero x | .switching x => some x.logical

/-- R80: the logical channel whose map entry names `p`; R75: it is the only one. -/
def OutputStage.carriedBy (o : OutputStage) (p : Fin 14) : Option (Fin 12) :=
  (List.finRange 12).find? fun c => o.map[c] = some p

/-! ### Codes on the wire -/

/-- R161: the reply statuses. -/
def statusCode : Status → Nat
  | .done => 0 | .badValue => 1 | .wrongPhase => 2 | .wrongState => 3 | .locked => 4 | .noEntry => 5 | .unknown => 6
  | .reportsPending => 7

/-- R161: the record types. -/
def recordType : Body → Nat
  | .testStart .. => 1 | .stateEntered .. => 2 | .stateSummary .. => 3 | .testEnd .. => 4 | .inputEdge .. => 5
  | .chatterStart .. => 6 | .chatterEnd .. => 7 | .breaker .. => 8 | .timerResult .. => 9 | .channelFailed .. => 10
  | .failover .. => 11 | .readback .. => 12 | .streamGap .. => 13 | .streamSkip .. => 14 | .planVerified .. => 15
  | .planRejected .. => 16 | .rampEnd .. => 17 | .captureReady .. => 18 | .captureUnavailable .. => 19

/-- 0.6.10: a number in `width` bytes, most significant first. -/
def packed (width n : Nat) : List Byte := (List.range width).reverse.map fun k => BitVec.ofNat 8 (n / 256 ^ k)

/-- 0.6.2, 0.6.10: a sample, a two's complement number in two bytes. -/
def packedSample (x : Int) : List Byte := packed 2 (BitVec.ofInt 16 x).toNat

/-- R160: an enumerated value: one byte, coded from 0 in the order the owning table lists. -/
def codedIn {α : Type} [DecidableEq α] (order : List α) (x : α) : List Byte := [BitVec.ofNat 8 (order.idxOf x)]

/-- R160: a set of flags or causes: one byte, bit 0 for the first listed, then upward. -/
def flagged (flags : List Bool) : List Byte :=
  [BitVec.ofNat 8 (flags.zipIdx.map fun f => if f.1 then 2 ^ f.2 else 0).sum]

/-- R160: a channel or a buffer, FFh for none. -/
def orNone {n : Nat} (x : Option (Fin n)) : List Byte := packed 1 (x.elim 0xFF Fin.val)

/-- R160: the payload of an event record, its fields in the order of the chapter's table, each in the width of its range. An
enumerated value is given with the values the table lists; that ACTIVE or INACTIVE is one is read by inference (log 19). -/
def eventPayload : Body → List Byte
  -- R23
  | .testStart r states checksum =>
    codedIn [StartCause.message, .input] r.cause ++ packed 1 r.input ++ packed 2 r.offset ++ packed 1 states
      ++ packed 2 checksum
  -- R28
  | .stateEntered state previous exit self final count =>
    packed 1 state ++ packed 1 previous ++ packed 1 exit ++ packed 1 (if self then 1 else 0)
      ++ packed 1 (if final then 1 else 0) ++ packed 2 count
  | .stateSummary state leftBy frames clips =>
    packed 1 state ++ packed 1 leftBy ++ packed 4 frames ++ clips.toList.flatMap (packed 1)
  -- R36
  | .testEnd reason state frames count =>
    codedIn [EndReason.finalState, .duration, .aborted, .channelFailed, .streamLost] reason ++ packed 1 state
      ++ packed 4 frames ++ packed 2 count
  -- R99
  | .inputEdge input active bounce beforeOrigin acceptedIn =>
    packed 1 input ++ codedIn [true, false] active ++ packed 1 bounce ++ flagged [beforeOrigin] ++ packed 4 acceptedIn
  -- R101
  | .chatterStart input active edges frames beforeOrigin =>
    packed 1 input ++ codedIn [true, false] active ++ packed 2 edges ++ packed 2 frames ++ flagged [beforeOrigin]
  -- R102
  | .chatterEnd input suppressed active window =>
    packed 1 input ++ packed 2 suppressed ++ codedIn [true, false] active ++ packed 2 window
  -- R112: OPEN or CLOSED; OPERATED or TRIP_FREE
  | .breaker opened tripFree input stamp operating count beforeOrigin edgeBeforeOrigin =>
    codedIn [true, false] opened ++ codedIn [false, true] tripFree ++ packed 1 input ++ packed 4 stamp ++ packed 2 operating
      ++ packed 2 count ++ flagged [beforeOrigin, edgeBeforeOrigin]
  -- R128
  | .timerResult slot outcome start elapsed micros early disturbed startBo stopBo probe gain lag =>
    packed 1 slot ++ codedIn [TimerOutcome.stopped, .timeout, .notStarted, .cutShort] outcome ++ packed 4 start
      ++ packed 4 elapsed ++ packed 4 micros ++ flagged [early, disturbed, startBo, stopBo] ++ packed 1 probe
      ++ packed 2 gain ++ packed 1 lag
  -- R80
  | .channelFailed phys logical mismatch overload thermal bucket measured commanded disposition =>
    packed 1 phys ++ orNone logical ++ flagged [mismatch, overload, thermal] ++ packed 1 bucket ++ packedSample measured
      ++ packedSample commanded ++ codedIn [Disposition.joined, .disabled, .ending] disposition
  -- R89
  | .failover logical outcome src dst wait switch =>
    packed 1 logical ++ codedIn [FailoverOutcome.done, .noSpareInhibit, .noSpareAbort, .abandoned] outcome ++ orNone src
      ++ orNone dst ++ packed 2 wait ++ packed 1 switch ++ packed 2 (wait + switch)
  -- R83: FAULT or CLEAR
  | .readback cleared cause reference run =>
    codedIn [false, true] cleared ++ codedIn [FaultCause.reference, .link] cause ++ packed 2 reference ++ packed 1 run
  -- R153: RESUMED or LOSS
  | .streamGap run first loss => packed 1 run ++ packed 4 first ++ codedIn [false, true] loss
  | .streamSkip expected received difference => packed 2 expected ++ packed 2 received ++ packed 2 difference
  -- R15
  | .planVerified checksum states => packed 2 checksum ++ packed 1 states
  | .planRejected computed expected item cause =>
    packed 2 computed ++ packed 2 expected ++ packed 1 item ++ codedIn [PlanCause.nextState, .remaining, .crc] cause
  -- R57
  | .rampEnd channel state gain => packed 1 channel ++ packed 1 state ++ packed 2 gain
  -- R141: AT_START or AFTER_BUFFER
  | .captureReady buffer rows trigRow trigFrame trigTime truncated =>
    packed 1 buffer ++ packed 2 rows ++ packed 2 trigRow ++ packed 4 trigFrame ++ packed 4 trigTime ++ flagged [truncated]
  | .captureUnavailable after sent listed =>
    codedIn [false, true] after.isSome ++ orNone after ++ packed 1 sent ++ packed 1 listed

/-! ### CAPTURE_WAITING -/

/-- R148: the level of CAPTURE_WAITING is true: at least one buffer is SENT and no buffer is FREE. -/
def Report.WaitingNow (r : Report) : Prop :=
  (∃ i : Fin 4, r.buffers[i].state = .sent) ∧ ∀ i : Fin 4, r.buffers[i].state ≠ .free

/-- R148: what a change of the buffers, from `r` to `q`, makes of the attention set: CAPTURE_WAITING becomes pending when its
level becomes true, stops being pending when it becomes false, and stays otherwise; no other condition is touched. -/
def Report.AttentionFollows (r q : Report) : Prop :=
  (∀ a : Fin 6, a ≠ 5 → q.attention[a] = r.attention[a])
    ∧ (q.WaitingNow → ¬ r.WaitingNow → q.attention[5] = true)
    ∧ (r.WaitingNow → ¬ q.WaitingNow → q.attention[5] = false)
    ∧ ((r.WaitingNow ↔ q.WaitingNow) → q.attention[5] = r.attention[5])

/-! ### What an answer and a drive frame show -/

/-- R145: the attention code: 0 when no condition is pending, else the lowest code pending. -/
def attentionShown (attention : Vector Bool 6) : Nat :=
  ((List.finRange 6).find? fun a => attention[a]).elim 0 fun a => a.val + 1

/-- R161: the status byte: phase in bits 0 to 2, receiver state in bits 3 and 4, pause in bit 5, gap flag in bit 6. -/
def statusShown (phase : Phase) (recv : RecvState) (pause gap : Bool) : Nat :=
  (match phase with | .idle => 0 | .verifying => 1 | .armed => 2 | .running => 3 | .ending => 4)
    + (match recv with | .hunt => 0 | .check => 8 | .locked => 16) + (if pause then 32 else 0) + (if gap then 64 else 0)

/-- R158, R142, R164: `t` sends, as its answer frame, what stood in `w`: its last sequence, attention code and status byte, and
the item that the arbiter places in the return slot; the reply goes with it. -/
def AnswersFrom (w t : State) (gap : Bool) : Prop :=
  t.answerOut = answerBytes w.recv.lastSeq (attentionShown w.rep.attention)
      (statusShown w.seq.phase w.recv.state w.rep.pause gap) (w.rep.arbiter w.reply).2
    ∧ t.rep = (w.rep.arbiter w.reply).1 ∧ t.reply = none

/-- R53, R66: the route entry of logical channel `c`: the spare while its failover is SWITCHING, else the map entry. -/
def State.routeEntry (s : State) (c : Fin 12) : Option (Fin 14) :=
  match s.sup.engine with
  | .switching x => if x.logical = c then some x.dst else s.out.map[c]
  | .quiet | .awaitZero _ => s.out.map[c]

/-- R63, R64: what is delivered for logical channel `c` in a test: 0 while it is held silent, its output in RUNNING, its faded
output in ENDING. -/
def State.deliveredNow (s : State) (c : Fin 12) : Int :=
  let y := s.eng[c].y
  let sounding := if s.seq.phase = .ending then faded y (Globals.fade s.plan.globals) s.seq.countdown else y
  match s.sup.engine with
  | .switching x => if x.logical = c then 0 else sounding
  | .quiet | .awaitZero _ => sounding

/-! ### Messages -/

/-- R162: the message `m` is the one that the frame in progress hands to the Message Handler next. -/
def State.Hears (s : State) (m : Msg) : Prop :=
  s.frame.stage = .ready ∧ s.frame.slot.isSome = true ∧ m.tag ≠ 0

/-- R164: the state once the message `m` with code `code` has been answered, and nothing else. -/
def State.answered (s : State) (m : Msg) (code : Byte) (st : Status) (payload : List Byte) : State :=
  (s.withReply (some ⟨m.tag, st, code, payload⟩)).withFrame { s.frame with stage := .handled }

/-- R164: the reply payload of every reply but those of READ and QUERY_STATUS. -/
def zeros28 : List Byte := List.replicate 28 0

/-- R163 step 4: every payload byte from place `n` on is zero. -/
abbrev UnusedZero (m : Msg) (n : Nat) : Prop := ∀ k : Fin 20, n ≤ k.val → m.payload[k] = 0

/-- Payload byte `k` as a number. -/
def byteOf (m : Msg) (k : Fin 20) : Nat := m.payload[k].toNat

/-- Payload bytes `a` and `b` as a number, the first the more significant (0.6.10). -/
def wordOf (m : Msg) (a b : Fin 20) : Nat := 256 * m.payload[a].toNat + m.payload[b].toNat

/-- Four payload bytes as a number, most significant first. -/
def longOf (m : Msg) (a b c d : Fin 20) : Nat := 65536 * wordOf m a b + wordOf m c d

/-- R9, R10: kind code and argument make a condition that a state exit may use. -/
abbrev ExitCondition (kind arg : Nat) : Prop :=
  ((kind = 0 ∨ kind = 1 ∨ kind = 4 ∨ kind = 5) ∧ arg = 0) ∨ ((kind = 2 ∨ kind = 3 ∨ kind = 6) ∧ arg ≤ 7)
    ∨ (kind = 7 ∧ arg ≤ 11)

/-- R9, R10: kind code and argument make a condition that a timer or the capture may use. -/
abbrev EventCondition (kind arg : Nat) : Prop :=
  ((kind = 0 ∨ kind = 4 ∨ kind = 5 ∨ kind = 9) ∧ arg = 0) ∨ ((kind = 2 ∨ kind = 3) ∧ arg ≤ 7) ∨ (kind = 7 ∧ arg ≤ 11)
    ∨ (kind = 8 ∧ arg ≤ 31)

/-- A record made at this moment joins those made before it. -/
def State.plusMade (s : State) (ms : List Made) : State := s.withRep { s.rep with made := s.rep.made ++ ms }

/-- What only the links, the clocks and the frame-taken event move is alike: the receiver, the slot clock, the pending reply, the
frames last sent and the commands that wait. -/
def State.SameLinks (s t : State) : Prop :=
  t.recv = s.recv ∧ t.clock = s.clock ∧ t.reply = s.reply ∧ t.answerOut = s.answerOut ∧ t.driveOut = s.driveOut
    ∧ t.pending = s.pending

/-- What the Report Unit sends, and how, is alike: capture activity, send list, last item and pause. -/
def Report.SameSending (r q : Report) : Prop :=
  q.activity = r.activity ∧ q.sendList = r.sendList ∧ q.lastItem = r.lastItem ∧ q.pause = r.pause

/-- R161: the message code and message of a command that is a message. -/
def messageOf : Instr → Option (Byte × Msg)
  | .writeGlobals m => some (0x01, m)
  | .writeState m => some (0x02, m)
  | .writeChannel m => some (0x03, m)
  | .writeTimer m => some (0x04, m)
  | .writeInput m => some (0x05, m)
  | .writeBreaker m => some (0x06, m)
  | .writeCapture m => some (0x07, m)
  | .writeLimit m => some (0x08, m)
  | .writeSupervision m => some (0x09, m)
  | .writeSupervisionGlobal m => some (0x0A, m)
  | .setCadence m => some (0x0B, m)
  | .resync m => some (0x0C, m)
  | .read m => some (0x0D, m)
  | .arm m => some (0x0E, m)
  | .start m => some (0x0F, m)
  | .abort m => some (0x10, m)
  | .release m => some (0x11, m)
  | .ackAttention m => some (0x12, m)
  | .clearAttention m => some (0x13, m)
  | .pauseReports m => some (0x14, m)
  | .resumeReports m => some (0x15, m)
  | .clearChannel m => some (0x16, m)
  | .restoreMap m => some (0x17, m)
  | .queryStatus m => some (0x18, m)
  | .resetPart m => some (0x19, m)
  | .unknownMessage code m => if code = 0 ∨ 0x19 < code.toNat then some (code, m) else none
  | .powerUpReset | .sampleFrameArrival .. | .checkTimeout | .arrivalWindowClose | .answerFrameClockPeriod
  | .readbackFrameReceived _ | .leakStep _ | .failoverService | .zeroFound | .failoverComplete | .inputLineChange ..
  | .acceptedEdge _ | .chatterEnd _ | .chatterWindowClose _ | .breakerOperationComplete | .pulsePeriodEnd _
  | .timeoutDue _ | .timerExpired _ | .verificationOutcome | .armCancel | .testStart | .dwellDone | .stateExit
  | .durationLimit | .endRequest | .testComplete => none

/-! ### Rounding -/

/-- 0.6.9: `r` is the integer nearest to `num / den`, and at half-way the one of greater magnitude. -/
def NearestHalfAway (num : Int) (den : Nat) (r : Int) : Prop :=
  2 * |den * r - num| ≤ den ∧ (2 * |den * r - num| = den → |num| < |den * r|)

/-! ### Invariants -/

/-- The decision taken with a frame is carried out by the phase it was taken in: what leaves the test world, and what starts
a test, is not decided in RUNNING (R18, R22, R31, R35). -/
def State.DecisionFits (s : State) : Prop :=
  s.frame.stage = .taken → s.seq.phase = .running →
    match s.frame.decision with
    | .complete | .change _ | .cancel | .start _ => False
    | .stay | .stop _ | .duration | .exit _ => True

/-- R132, R131, R144: the event queue never holds more than 128 records, the discard count stays in its range, and the capture
gate is CLOSED at a depth of 64 or more, and only at a depth of 17 or more. -/
def State.QueueInv (s : State) : Prop :=
  s.rep.queue.length ≤ 128 ∧ s.rep.discard ≤ 255 ∧ (64 ≤ s.rep.queue.length → s.rep.gateOpen = false)
    ∧ (s.rep.gateOpen = false → 17 ≤ s.rep.queue.length)

/-- R154: outside LOCKED the phase is IDLE and no frame-taken event is in progress; a RESYNC waits for its answer frame in
IDLE alone (R155); and the Plan Store asks for no phase but VERIFYING, ARMED and IDLE (R12, R14, R16). -/
def State.LinkInv (s : State) : Prop :=
  (s.recv.state ≠ .locked → s.seq.phase = .idle ∧ s.frame.stage = .closed)
    ∧ (s.recv.resync = true → s.seq.phase = .idle ∧ (s.frame.stage = .handled ∨ s.frame.stage = .stepped))
    ∧ s.seq.next ≠ some .running ∧ s.seq.next ≠ some .ending

/-- R75: each physical channel is the map target of at most one logical channel. -/
def State.MapInjective (s : State) : Prop :=
  ∀ c d : Fin 12, ∀ p : Fin 14, s.out.map[c] = some p → s.out.map[d] = some p → c = d

/-- R75: no SPARE is a map target. -/
def State.NoSpareTarget (s : State) : Prop :=
  ∀ c : Fin 12, ∀ p : Fin 14, s.out.map[c] = some p → s.sup.chan[p].state ≠ .spare

/-- R84 to R88: the failover in flight holds a SPARE, and only RUNNING has one in flight. -/
def State.EngineFits (s : State) : Prop :=
  match s.sup.engine with
  | .quiet => True
  | .awaitZero x | .switching x => s.seq.phase = .running ∧ s.sup.chan[x.dst].state = .spare

/-- R75, with what keeps it. -/
def State.MapInv (s : State) : Prop :=
  s.MapInjective ∧ s.NoSpareTarget ∧ s.EngineFits ∧ s.DecisionFits

/-- R84: the request list holds no logical channel twice, so twelve at most, and not the one being served. -/
def State.RequestInv (s : State) : Prop :=
  s.sup.requests.Nodup ∧ s.sup.requests.length ≤ 12
    ∧ ∀ x : FailoverCtx, (s.sup.engine = .awaitZero x ∨ s.sup.engine = .switching x) → x.logical ∉ s.sup.requests

/-- A buffer is RECORDING or TRIGGERED. -/
def Buffer.Live (b : Buffer) : Prop := b.state = .recording ∨ b.state = .triggered

/-- R135: at most one buffer is RECORDING or TRIGGERED, and none unless the activity is ON; outside RUNNING the activity is
OFF (R138). -/
def State.CaptureInv (s : State) : Prop :=
  (∀ i j : Fin 4, s.rep.buffers[i].Live → s.rep.buffers[j].Live → i = j)
    ∧ (s.rep.activity ≠ .on → ∀ i : Fin 4, ¬ s.rep.buffers[i].Live)
    ∧ (s.seq.phase ≠ .running → s.rep.activity = .off)
    ∧ s.DecisionFits

/-- 3.1: a channel's items lie in their ranges. -/
def Channel.InRange (x : Channel) : Prop :=
  x.ring.length = 256 ∧ (∀ v ∈ x.ring, -32767 ≤ v ∧ v ≤ 32767) ∧ x.gacc ≤ 4294967295
    ∧ (-8388608 ≤ x.step ∧ x.step ≤ 8388607)
    ∧ (-2147418112 ≤ x.acc ∧ x.acc ≤ 2147418112) ∧ x.decay ≤ 65535 ∧ x.d16 ≤ 4080 ∧ x.clip ≤ 255 ∧ x.gain ≤ 65535
    ∧ (-32767 ≤ x.y ∧ x.y ≤ 32767)

/-- R6: what a stored channel parameter record never holds. -/
def ChannelRecordOk (p : Payload) : Prop :=
  Chan.dc0 p ≠ -32768 ∧ Chan.d16 p ≤ 4080 ∧ -8388608 ≤ Chan.step p ∧ Chan.step p ≤ 8388607

/-- 3.1, R55, R56: every channel lies in its ranges, with the limits and records that keep it there. -/
def State.EngineInv (s : State) : Prop :=
  (∀ c : Fin 12, s.eng[c].InRange)
    ∧ (∀ p : Fin 14, s.out.limit[p] ≤ 32767 ∧ s.out.limitPrev[p] ≤ 32767)
    ∧ (∀ (i : Fin 32) (c : Fin 12), ChannelRecordOk s.plan.channels[i][c])
    ∧ (∀ (h : HeldFrame) (c : Fin 12), s.recv.held = some h → -32768 ≤ h.samples[c] ∧ h.samples[c] ≤ 32767)

/-- The records of the test definition are the same. -/
def Plan.SameDefinition (p q : Plan) : Prop :=
  p.globals = q.globals ∧ p.part0 = q.part0 ∧ p.part1 = q.part1 ∧ p.channels = q.channels ∧ p.timers = q.timers
    ∧ p.inputs = q.inputs ∧ p.breaker = q.breaker ∧ p.capture = q.capture

/-! ### Reset -/

/-- R1, R17, R61, R72, R83, R106, R114, R118, R129, R149: values that the spec gives for a power-up reset. -/
def PowerUpValues (s : State) : Prop :=
  (s.seq.phase = .idle ∧ s.seq.request = .none ∧ s.seq.testNumber = 0 ∧ s.seq.testFrame = 0 ∧ s.seq.framesInState = 0
    ∧ s.seq.entryCount = 0 ∧ s.seq.countdown = 0 ∧ s.seq.stateInForce = 0 ∧ s.seq.latches = Vector.replicate 4 false
    ∧ s.seq.endReason = none ∧ s.seq.startRecord = none)
  ∧ (s.recv.state = .hunt ∧ s.recv.cadenceNow = 250000 ∧ s.recv.cadenceNext = 250000 ∧ s.recv.cycle = 80
    ∧ s.recv.gapLimit = 4 ∧ s.recv.checkCount = 0 ∧ s.recv.lastSeq = 0 ∧ s.recv.gapRun = 0 ∧ s.recv.frameCounter = 0
    ∧ s.recv.framesTaken = 0 ∧ s.recv.crcDiscards = 0 ∧ s.recv.windowDiscards = 0 ∧ s.recv.gapFrames = 0
    ∧ s.recv.losses = 0 ∧ s.recv.held = none)
  ∧ (s.plan.globals = Payload.zero ∧ (∀ i : Fin 32, s.plan.part0[i] = Payload.zero ∧ s.plan.part1[i] = Payload.zero
      ∧ ∀ c : Fin 12, s.plan.channels[i][c] = Payload.zero)
    ∧ (∀ k : Fin 8, s.plan.timers[k] = Payload.zero ∧ s.plan.inputs[k] = Payload.zero)
    ∧ s.plan.breaker = Payload.zero ∧ s.plan.capture = Payload.zero ∧ s.plan.verification = none)
  ∧ (∀ c : Fin 12, s.eng[c] = ⟨List.replicate 256 0, .zero, 0, 0, 0, 0, 0, false, 0, 0, 0⟩)
  ∧ ((∀ p : Fin 14, s.out.limit[p] = 0 ∧ s.out.written[p] = false)
    ∧ (∀ c : Fin 12, (s.out.map[c]).map Fin.val = some c.val) ∧ s.out.nextSeq = 0 ∧ s.out.lastSeq = none
    ∧ s.out.history = [] ∧ s.out.judgment = .settled ∧ s.out.valid = 0 ∧ s.out.crcBad = 0 ∧ s.out.echoBad = 0
    ∧ s.out.duplicate = 0 ∧ s.out.missing = 0)
  ∧ ((∀ p : Fin 14, s.sup.chan[p] = ⟨if p.val < 12 then .mapped else .spare, 0, 0, 0, 0, 0⟩) ∧ s.sup.latency = 0
    ∧ s.sup.refTol = 0 ∧ s.sup.confirm = 0 ∧ s.sup.operate = 0 ∧ s.sup.enable = false ∧ s.sup.abortPolicy = false
    ∧ s.sup.fault = none ∧ s.sup.refRun = 0 ∧ s.sup.linkRun = 0 ∧ s.sup.recRun = 0 ∧ s.sup.lastRef = 0
    ∧ s.sup.requests = [] ∧ s.sup.engine = .quiet)
  ∧ (∀ i : Fin 8, s.scan.inputs[i].cand = none ∧ s.scan.inputs[i].bounce = 0 ∧ s.scan.inputs[i].chatter = false
    ∧ s.scan.inputs[i].window = none ∧ s.scan.inputs[i].edges = 0 ∧ s.scan.inputs[i].suppressed = 0)
  ∧ (s.brk = ⟨.closed, none, none, 0⟩ ∧ ∀ k : Fin 4, s.lines[k] = ⟨.low, true, none⟩)
  ∧ (s.timers.gate = false ∧ ∀ k : Fin 8, s.timers.slots[k] = ⟨.disabled, none, none, false, false, false, false, none⟩)
  ∧ (s.rep.queue = [] ∧ s.rep.discard = 0 ∧ s.rep.activity = .off ∧ s.rep.sendList = [] ∧ s.rep.gateOpen = true
    ∧ s.rep.lastItem = .row ∧ s.rep.pause = false ∧ s.rep.attention = Vector.replicate 6 false
    ∧ ∀ b : Fin 4, s.rep.buffers[b].state = .free ∧ s.rep.buffers[b].rows = [])
  ∧ s.reply = none

end Sys2Proof.Machine
end

