-- ==== Sys2Proof/Certificates/Slice0/Obligations.lean ====
section
/-! DEFINITION. The statements about this model. Each docstring names the rules of the spec that the statement formalises. -/

section Statements

open Sys2Proof Sys2Proof.Machine

/-! ### The machine -/

/-- A step takes the command at the front of the queue and carries it out on the state with the rest of the queue (log 1).
On an empty queue the part's own clock runs (the model's choice, log 2): a frame-taken event in progress comes to its end;
once the slot is over and nothing else is due, the window closes (R151) or the next period begins (R157). No command stops
the part (log 16), and none touches the commands that wait. -/
def Obligations.StepTakesFrontCommand : Prop :=
  (∀ (c : Instr) (rest : List Instr) (s : State),
    step (s.withPending (c :: rest)) = exec c (s.withPending rest))
  ∧ (∀ s : State, s.pending = [] →
    (s.frame.stage ≠ .closed → step s = .next s.complete)
    ∧ (s.frame.stage = .closed → s.dueStep = none → s.checkIsLate = false → s.clock.slotDone = true →
        (s.recv.state = .locked → step s = exec .arrivalWindowClose s)
        ∧ (s.recv.state ≠ .locked → step s = exec .answerFrameClockPeriod s)))
  ∧ (∀ (c : Instr) (s : State), ∃ t : State, exec c s = .next t ∧ t.pending = s.pending)

/-- R94, R95, R103, R104, R111, R150: what the part's own clock lets come about on an empty queue within a slot or period
(the model's choice, log 2): a leak that is due (log 24); else the end of a pulse period; else an accepted edge or the
breaker's deadline, in a free order where several are due at one sub-tick (R111, log 6); else CHECK_TIMEOUT, once its
instant has passed, also where a frame has begun in time and is not whole yet (the model's choice, log 39); else the next
sub-tick, at which the scanner reads every input, and nothing but scan position, inputs and sub-tick changes. -/
def Obligations.OwnClock : Prop :=
  ∀ s : State, s.pending = [] → s.frame.stage = .closed →
    let due (c : Instr) : Prop :=
      (∃ i : Fin 8, c = .acceptedEdge i ∧ s.edgeDue i = true) ∨ (c = .breakerOperationComplete ∧ s.operationDue = true)
    (∀ p : Fin 14, s.leakDue p = true → (∀ q : Fin 14, q < p → s.leakDue q = false) → step s = exec (.leakStep p) s)
    ∧ ((∀ p : Fin 14, s.leakDue p = false) →
      (∀ k : Fin 4, s.pulseEnds k = true → (∀ l : Fin 4, l < k → s.pulseEnds l = false) →
        step s = exec (.pulsePeriodEnd k) s)
      ∧ ((∀ k : Fin 4, s.pulseEnds k = false) →
        (∀ c : Instr, due c → (∀ d : Instr, due d → d = c) → step s = exec c s)
        ∧ (∀ c d : Instr, due c → due d → c ≠ d → ∃ e : Instr, due e ∧ step s = exec e (s.withChoices (s.choices + 1)))
        ∧ ((∀ c : Instr, ¬ due c) →
          (s.recv.state = .check →
            16 * (s.recv.reference + s.recv.cadenceNow + s.recv.cadenceNow / 8)
              < 16 * s.clock.slotStart + s.clock.subtick * s.clock.slotLen → step s = exec .checkTimeout s)
          ∧ (s.checkIsLate = false → s.clock.slotDone = false → s.clock.subtick < 15 →
            ∃ inputs : Vector InputScan 8,
              step s = .next { s with
                clock := { s.clock with subtick := s.clock.subtick + 1 }
                scan := { s.scan with pos := s.scan.pos + 1, inputs := inputs } }
              ∧ ∀ i : Fin 8, (s.scan.inputs[i]).ScannedTo inputs[i] s.plan.inputs[i] (s.scan.pos + 1)
                  (s.scan.inputs[i].reload ≠ .no)))))

/-- What comes from outside the boundary comes after the frame-taken event in progress (R162, R98; log 3); but an edge or
a deadline due at sub-tick 0 of the frame may be commanded before the frame's message, with which it is not ordered (R21,
R162). A byte of the stream comes about at once, but a frame that is whole with it is judged after the event. A readback
frame without the sync word, an edge that is not accepted and a deadline that is not reached change nothing at all. A
command that is a step of the boundary, given before the boundary is settled, comes about where the boundary is settled,
if it is due there, and changes nothing if it is not; so does a step of the Sequencer where the frame is taken, and the
outcome of a verification where the message has been handled (R18, R162; log 3, log 4). With no event open and the slot
over, an edge, a breaker deadline or a pulse end is that of sub-tick 0 of the frame that is taken next, before its message,
and changes nothing where it is not due there or no frame is due (log 3, log 4). -/
def Obligations.CommandsMeetTheFrameEvent : Prop :=
  (∀ s : State, s.frame.stage ≠ .closed →
    s.complete.frame.stage = .closed
    ∧ (∀ (x : LinkByte) (kept : List LinkByte), KeptBySearch (s.recv.stream ++ [x]) kept →
        exec (.sampleFrameArrival x []) s =
          if 56 ≤ kept.length then exec (.sampleFrameArrival x []) s.complete
          else .next (s.withRecv { s.recv with stream := kept }))
    ∧ (∀ f : Vector Byte 40,
        exec (.readbackFrameReceived f) s =
          if f[0] = 0x4C ∧ f[1] = 0x2D then exec (.readbackFrameReceived f) s.complete else .next s)
    ∧ (∀ (i : Fin 8) (high : Bool), exec (.inputLineChange i high) s = exec (.inputLineChange i high) s.complete)
    ∧ (let b := s.beforeMessage
      let early (due : State → Bool) (c : Instr) : Prop :=
        exec c s = if b.frame.stage = .ready ∧ due b = true then exec c b
          else if due s.complete = true then exec c s.complete else .next s
      (∀ i : Fin 8, early (fun t => t.edgeDue i) (.acceptedEdge i))
      ∧ early State.operationDue .breakerOperationComplete
      ∧ (∀ k : Fin 4, early (fun t => t.pulseEnds k) (.pulsePeriodEnd k))))
  ∧ (∀ s : State, s.frame.stage = .closed → s.clock.slotDone = true →
    let b := s.beforeMessage
    let next (due : State → Bool) (c : Instr) : Prop :=
      exec c s = if b.frame.stage = .ready ∧ due b = true then exec c b else .next s
    (b.frame.stage = .ready ↔ s.recv.state = .locked ∧ (s.recv.held ≠ none ∨ s.recv.gapRun < s.recv.gapLimit))
    ∧ (b.frame.stage = .ready → b.clock.slotDone = false ∧ b.clock.subtick = 0)
    ∧ (∀ i : Fin 8, next (fun t => t.edgeDue i) (.acceptedEdge i))
    ∧ next State.operationDue .breakerOperationComplete
    ∧ (∀ k : Fin 4, next (fun t => t.pulseEnds k) (.pulsePeriodEnd k)))
  ∧ (∀ s : State,
    let b := s.openFrame.settleSeq
    let at' (due : Bool) (c : Instr) : Prop :=
      exec c s = if b.frame.stage = .settled ∧ due = true then exec c b else .next s
    let seq (due : Decision → Bool) (c : Instr) : Prop :=
      exec c s = if s.openFrame.frame.stage = .taken ∧ due s.openFrame.frame.decision = true then exec c s.openFrame
        else .next s
    at' b.canServe .failoverService ∧ at' b.zeroIsFound .zeroFound ∧ at' b.switchIsOver .failoverComplete
    ∧ (∀ k : Fin 8, at' (b.timeoutIsDue k) (.timeoutDue k) ∧ at' (b.expires k) (.timerExpired k))
    ∧ at' b.dwellReached .dwellDone
    ∧ (s.recv.state = .locked → ∀ i : Fin 8, at' (b.chatterEnds b.clock.scanFrame i) (.chatterEnd i)
        ∧ at' (b.normalWindowEnds b.clock.scanFrame i) (.chatterWindowClose i))
    ∧ seq Decision.isCancel .armCancel ∧ seq Decision.isStart .testStart ∧ seq Decision.isExit .stateExit
    ∧ seq Decision.isDuration .durationLimit ∧ seq Decision.isStop .endRequest ∧ seq Decision.isComplete .testComplete
    ∧ exec .verificationOutcome s =
        if s.atVerification.outcomeDue = true then exec .verificationOutcome s.atVerification else .next s)

/-- R162: a message commanded at any earlier point of the frame-taken event of its frame is handled where messages are
handled, after the boundary: it stands for the content of that frame's control slot (read by inference, log 10); one that no
frame in progress can carry gets no reply and changes nothing (the model's choice, log 4). R163: a code of
00h or above 19h is answered UNKNOWN, with the code as received, and reaches no block; a code of the part's own is no
UNKNOWN_MESSAGE. -/
def Obligations.MessagesInTheirFrame : Prop :=
  (∀ (c : Instr) (code : Byte) (m : Msg) (s : State), messageOf c = some (code, m) →
    (s.atMessage.Hears m → exec c s = exec c s.atMessage)
    ∧ (¬ s.atMessage.Hears m → exec c s = .next s))
  ∧ (∀ (code : Byte) (m : Msg) (s : State),
    ((code = 0 ∨ 0x19 < code.toNat) → s.Hears m →
      exec (.unknownMessage code m) s = .next (s.answered m code .unknown zeros28))
    ∧ (1 ≤ code.toNat → code.toNat ≤ 0x19 → exec (.unknownMessage code m) s = .next s))

/-! ### Reset -/

/-- R1, R17, R41, R61, R72, R83, R106, R114, R118, R129, R149: what the state after reset holds, for every item whose
value the spec gives; and the invariants below hold there. -/
def Obligations.ResetState : Prop :=
  PowerUpValues State.reset ∧ State.reset.QueueInv ∧ State.reset.LinkInv ∧ State.reset.MapInv
    ∧ State.reset.RequestInv ∧ State.reset.CaptureInv ∧ State.reset.EngineInv

/-! ### The sample link -/

/-- R150, R151, R43, R70, R157: SAMPLE_FRAME_ARRIVAL in HUNT and in CHECK. Of the bytes that arrive the part keeps those
from the first place where a frame may begin, and judges a frame when its last byte is there. Bytes that arrive together
come to what they come to one after another. A good frame in HUNT begins CHECK; in CHECK it begins CHECK anew or fits; the
frame that fits for the second time brings LOCKED: rings zero, readback judgment settled, and the period in progress ends
at the close of the first window (log 5). A bad frame counts as a CRC discard in every receiver state and takes CHECK to
HUNT; in HUNT the search goes on from its second byte, else straight after it (log 34). CHECK_TIMEOUT takes CHECK to HUNT,
and falls in no other state. -/
def Obligations.SearchForStream : Prop :=
  (∀ (x : LinkByte) (l : List LinkByte) (a : Nat) (f : Vector Byte 56) (s : State), CarriesFrame (x :: l) a f →
    GoodFrame f → s.recv.stream = [] → s.frame.stage = .closed →
    let seq := frameSequence f
    let p := s.recv.cadenceNow
    let first := s.withRecv { s.recv with
      state := .check, cadenceNow := s.recv.cadenceNext, reference := a, lastSeq := seq, checkCount := 0 }
    let fits := s.recv.reference + p ≤ a + p / 8 ∧ a ≤ s.recv.reference + p + p / 8 ∧ seq = (s.recv.lastSeq + 1) % 65536
    (s.recv.state = .hunt → exec (.sampleFrameArrival x l) s = .next first)
    ∧ (s.recv.state = .check → ¬ fits → exec (.sampleFrameArrival x l) s = .next first)
    ∧ (s.recv.state = .check → fits → s.recv.checkCount = 0 →
        exec (.sampleFrameArrival x l) s =
          .next (s.withRecv { s.recv with checkCount := 1, reference := a, lastSeq := seq }))
    ∧ (s.recv.state = .check → fits → s.recv.checkCount ≠ 0 →
        exec (.sampleFrameArrival x l) s =
          .next { s with
            recv := { s.recv with
              state := .locked, checkCount := 2, reference := a, lastSeq := seq, expected := a + p, gapRun := 0, held := none }
            eng := Vector.ofFn fun c => { s.eng[c] with ring := List.replicate 256 0 }
            out := { s.out with judgment := .settled }
            clock := { s.clock with slotLen := a + p + p / 8 - s.clock.slotStart } }))
  ∧ (∀ (x : LinkByte) (l : List LinkByte) (a : Nat) (f : Vector Byte 56) (s : State) (kept : List LinkByte),
    CarriesFrame (x :: l) a f → BadFrame f → s.recv.stream = [] → s.frame.stage = .closed → KeptBySearch l kept →
    exec (.sampleFrameArrival x l) s =
      .next (s.withRecv { s.recv with
        stream := if s.recv.state = .hunt then kept else []
        crcDiscards := min 4294967295 (s.recv.crcDiscards + 1)
        state := if s.recv.state = .check then .hunt else s.recv.state }))
  ∧ (∀ s : State,
    (∀ (x : LinkByte) (kept : List LinkByte), KeptBySearch (s.recv.stream ++ [x]) kept → kept.length < 56 →
      exec (.sampleFrameArrival x []) s = .next (s.withRecv { s.recv with stream := kept }))
    ∧ (∀ (x y : LinkByte) (xs ys : List LinkByte) (t : State), exec (.sampleFrameArrival x xs) s = .next t →
      exec (.sampleFrameArrival x (xs ++ y :: ys)) s = exec (.sampleFrameArrival y ys) t)
    ∧ (s.recv.state = .check → exec .checkTimeout s = .next (s.withRecv { s.recv with state := .hunt }))
    ∧ (s.recv.state ≠ .check → exec .checkTimeout s = .next s))

/-- R151, R161: SAMPLE_FRAME_ARRIVAL of a good frame in LOCKED. In the window, with none held and another sequence than the
last, it becomes the held frame, with the samples and the control slot that its bytes carry; else it is discarded. -/
def Obligations.ArrivalInLocked : Prop :=
  ∀ (x : LinkByte) (l : List LinkByte) (a : Nat) (f : Vector Byte 56) (s : State), CarriesFrame (x :: l) a f →
    GoodFrame f → s.recv.stream = [] → s.frame.stage = .closed → s.recv.state = .locked →
    let p := s.recv.cadenceNow
    let inWindow := s.recv.expected ≤ a + p / 8 ∧ a ≤ s.recv.expected + p / 8
    ((inWindow ∧ s.recv.held = none ∧ frameSequence f ≠ s.recv.lastSeq) →
      ∃ h : HeldFrame, exec (.sampleFrameArrival x l) s = .next (s.withRecv { s.recv with held := some h })
        ∧ h.arrival = a ∧ h.sequence = frameSequence f ∧ (∀ c : Fin 12, h.samples[c] = frameSample f c)
        ∧ h.slot.code = f[31] ∧ h.slot.msg.tag = f[30] ∧ h.slot.msg.indexA = f[32] ∧ h.slot.msg.indexB = f[33]
        ∧ ∀ k : Fin 20, h.slot.msg.payload[k] = f[34 + k.val])
    ∧ (¬ (inWindow ∧ s.recv.held = none ∧ frameSequence f ≠ s.recv.lastSeq) →
      exec (.sampleFrameArrival x l) s =
        .next (s.withRecv { s.recv with windowDiscards := min 4294967295 (s.recv.windowDiscards + 1) }))

/-- R151, R152, R157, R42, R44: ARRIVAL_WINDOW_CLOSE takes the held frame, or a gap frame while the gap run is below the gap
limit: the receiver's counts, the next expected arrival, the start of the slot, and what is written into the rings. R152,
R153, R130: before anything else is made, a received frame that ends a gap run makes STREAM_GAP, and one out of sequence
STREAM_SKIP, stamped for the frame taken (log 12). R157, R94, R95: the slot begins: the frame of the scan and the scan position
are up by 1, and sub-tick 0 is scanned. That its scan comes after the frame's message and verification step is the model's
choice (log 3): R162 leaves the events of a sub-tick and the message unordered. -/
def Obligations.FrameTaken : Prop :=
  (∀ s : State, s.frame.stage = .closed → s.recv.state = .locked → s.recv.resync = false →
    (∀ h : HeldFrame, s.recv.held = some h →
      ∃ t : State, exec .arrivalWindowClose s = .next t ∧ t.frame.stage = .closed
        ∧ t.recv.held = none ∧ t.recv.lastSeq = h.sequence ∧ t.recv.gapRun = 0
        ∧ t.recv.expected = h.arrival + s.recv.cadenceNow
        ∧ t.recv.frameCounter = (s.recv.frameCounter + 1) % 4294967296
        ∧ t.recv.framesTaken = min 4294967295 (s.recv.framesTaken + 1)
        ∧ t.recv.gapFrames = s.recv.gapFrames ∧ t.recv.losses = s.recv.losses
        ∧ t.recv.crcDiscards = s.recv.crcDiscards ∧ t.recv.windowDiscards = s.recv.windowDiscards
        ∧ t.recv.cadenceNow = s.recv.cadenceNow
        ∧ t.clock.slotStart = s.recv.expected + s.recv.cadenceNow / 8
        ∧ ∀ c : Fin 12,
            t.eng[c].ring = ((if h.samples[c] = -32768 then -32767 else h.samples[c]) :: s.eng[c].ring).take 256)
    ∧ (s.recv.held = none → s.recv.gapRun < s.recv.gapLimit →
      ∃ t : State, exec .arrivalWindowClose s = .next t ∧ t.frame.stage = .closed
        ∧ t.recv.state = .locked ∧ t.recv.held = none ∧ t.recv.lastSeq = (s.recv.lastSeq + 1) % 65536
        ∧ t.recv.gapRun = s.recv.gapRun + 1
        ∧ (s.recv.gapRun = 0 → t.recv.firstGap = (s.recv.frameCounter + 1) % 4294967296)
        ∧ (s.recv.gapRun ≠ 0 → t.recv.firstGap = s.recv.firstGap)
        ∧ t.recv.expected = s.recv.expected + s.recv.cadenceNow
        ∧ t.recv.frameCounter = (s.recv.frameCounter + 1) % 4294967296
        ∧ t.recv.gapFrames = min 4294967295 (s.recv.gapFrames + 1)
        ∧ t.recv.framesTaken = s.recv.framesTaken ∧ t.recv.losses = s.recv.losses
        ∧ t.recv.crcDiscards = s.recv.crcDiscards ∧ t.recv.windowDiscards = s.recv.windowDiscards
        ∧ t.clock.slotStart = s.recv.expected + s.recv.cadenceNow / 8
        ∧ t.recv.cadenceNow = s.recv.cadenceNow ∧ t.recv.cadenceNext = s.recv.cadenceNext
        ∧ t.recv.cycle = s.recv.cycle ∧ t.recv.gapLimit = s.recv.gapLimit ∧ s.plan.SameDefinition t.plan
        ∧ t.out.limit = s.out.limit ∧ t.out.written = s.out.written ∧ t.pending = s.pending
        ∧ ∀ c : Fin 12, t.eng[c].ring = (s.eng[c].ring.getD (s.recv.cycle - 1) 0 :: s.eng[c].ring).take 256))
  ∧ (∀ s : State, s.LinkInv → s.frame.stage = .closed → s.recv.state = .locked →
    let rep := s.finishSlot.rep
    let v := s.openFrame.settleSeq
    let made (body : Body) : Made :=
      if v.seq.phase = .running ∨ v.seq.phase = .ending then ⟨v.seq.testNumber, 16 * v.seq.testFrame, body, false⟩
      else ⟨0, 16 * ((s.recv.frameCounter + 1) % 4294967296) % 4294967296, body, false⟩
    (∀ h : HeldFrame, s.recv.held = some h →
      let want := (s.recv.lastSeq + 1) % 65536
      let gap := made (.streamGap s.recv.gapRun s.recv.firstGap false)
      let skip := made (.streamSkip want h.sequence ((h.sequence + 65536 - want) % 65536))
      (s.recv.gapRun = 0 → h.sequence = want → s.openFrame.rep = rep)
      ∧ (s.recv.gapRun ≠ 0 → h.sequence = want → s.openFrame.rep = rep.admitOne gap)
      ∧ (s.recv.gapRun = 0 → h.sequence ≠ want → s.openFrame.rep = rep.admitOne skip)
      ∧ (s.recv.gapRun ≠ 0 → h.sequence ≠ want → s.openFrame.rep = (rep.admitOne gap).admitOne skip))
    ∧ (s.recv.held = none → s.recv.gapRun < s.recv.gapLimit → s.openFrame.rep = rep))
  ∧ (∀ s : State, s.frame.stage = .closed → s.recv.state = .locked →
    (s.recv.held ≠ none ∨ s.recv.gapRun < s.recv.gapLimit) →
    let u := s.openFrame.settleSeq.ready.handleSlot.verifyStep
    let edge := s.recv.expected + s.recv.cadenceNow / 8
    ∃ t : State, exec .arrivalWindowClose s = .next t
      ∧ t.clock.subtick = 0 ∧ t.clock.slotDone = false ∧ t.clock.scanFrame = s.clock.scanFrame + 1 ∧ t.clock.slotStart = edge
      ∧ (t.recv.state = .locked → t.clock.slotLen = t.recv.expected + t.recv.cadenceNow / 8 - edge)
      ∧ t.scan.pos = s.finishSlot.scan.pos + 1 ∧ t.scan = { u.scan with pos := t.scan.pos, inputs := t.scan.inputs }
      ∧ ∀ i : Fin 8, (u.scan.inputs[i]).ScannedTo t.scan.inputs[i] u.plan.inputs[i] t.scan.pos
          (u.scan.inputs[i].reload = .now))

/-- R154, R67, R37, R38, R40: ARRIVAL_WINDOW_CLOSE on an empty window with the gap run at the gap limit declares stream
loss: the receiver is in HUNT, no frame is counted, the phase is IDLE, STREAM_LOST is pending, and the loss drive frame
carries 0 on every channel. A test in progress has ended with STREAM_LOST, and breaker and lines have returned to IDLE
(R40, R113, R117). R153, R154, R37: with room in the queue (the request list without a repeat, R84), STREAM_GAP is the
first record of the loss, and STATE_SUMMARY and TEST_END of the test follow it. -/
def Obligations.StreamLoss : Prop :=
  ∀ s : State, s.frame.stage = .closed → s.recv.state = .locked → s.recv.held = none → s.recv.gapLimit ≤ s.recv.gapRun →
    ∃ t : State, exec .arrivalWindowClose s = .next t
      ∧ t.recv.state = .hunt ∧ t.recv.held = none ∧ t.recv.checkCount = 0 ∧ t.recv.gapRun = 0
      ∧ t.recv.losses = min 4294967295 (s.recv.losses + 1)
      ∧ t.recv.lastSeq = s.recv.lastSeq ∧ t.recv.frameCounter = s.recv.frameCounter
      ∧ t.recv.framesTaken = s.recv.framesTaken ∧ t.recv.gapFrames = s.recv.gapFrames
      ∧ t.seq.phase = .idle ∧ t.seq.request = .none ∧ t.seq.testNumber = s.seq.testNumber
      ∧ t.plan.verification = none
      ∧ t.rep.attention[0] = true
      ∧ t.out.nextSeq = (s.out.nextSeq + 1) % 65536 ∧ t.out.lastSeq = some s.out.nextSeq
      ∧ t.out.judgment = .openNone ∧ t.out.lastSamples = Vector.replicate 14 0
      ∧ t.driveOut = driveBytes s.out.nextSeq (Vector.replicate 14 0) t.out.map
      ∧ t.eng = s.eng ∧ t.out.limit = s.out.limit ∧ t.out.written = s.out.written ∧ s.plan.SameDefinition t.plan
      ∧ t.reply = s.reply ∧ t.answerOut = s.answerOut ∧ t.pending = s.pending ∧ t.recv.crcDiscards = s.recv.crcDiscards
      ∧ t.recv.windowDiscards = s.recv.windowDiscards ∧ t.recv.cadenceNow = s.recv.cadenceNow
      ∧ t.recv.cadenceNext = s.recv.cadenceNext ∧ t.recv.cycle = s.recv.cycle ∧ t.recv.gapLimit = s.recv.gapLimit
      ∧ ((s.seq.phase = .running ∨ s.seq.phase = .ending) →
          t.seq.endReason = some .streamLost ∧ t.rep.attention[3] = true ∧ t.AtHome s.finishSlot.brk.count)
      ∧ (s.seq.phase = .running → t.timers.gate = false ∧ t.rep.activity = .off ∧ t.sup.engine = .quiet
          ∧ t.sup.requests = [])
      ∧ (let rep := s.finishSlot.rep
         let inTest := s.seq.phase = .running ∨ s.seq.phase = .ending
         let run := s.seq.testFrame + 1
         let gap : Body := .streamGap s.recv.gapRun s.recv.firstGap true
         s.RequestInv → rep.made = [] → rep.queue.length ≤ 64 →
          (inTest → t.rep.queue[rep.queue.length]? = some ⟨rep.discard, s.seq.testNumber, 16 * run, gap⟩
            ∧ ∃ i : Nat, rep.queue.length < i
              ∧ t.rep.queue[i]? = some ⟨0, s.seq.testNumber, 16 * run, .stateSummary s.seq.stateInForce 255 s.seq.framesInState
                  (Vector.ofFn fun c => s.eng[c].clip)⟩
              ∧ t.rep.queue[i + 1]? = some ⟨0, s.seq.testNumber, 16 * run,
                  .testEnd .streamLost s.seq.stateInForce run s.seq.entryCount⟩)
          ∧ (¬ inTest → t.rep.queue[rep.queue.length]? =
              some ⟨rep.discard, 0, 16 * s.recv.frameCounter % 4294967296, gap⟩))

/-- R66, R68, R63, R65, R53: a frame taken sends one drive frame, under the next sequence, and moves the samples of the
one before into the commanded history. In RUNNING and ENDING every channel's outputs are computed from what stands once
the frame's message and verification step are over; each physical channel carries what is delivered for the logical
channel that the route places on it, and 0 where it places none; the delivered outputs are kept for the capture row (R63,
R134). R86, R87: the frame counts as a wait frame, the output of the frame before being kept to compare with, or as a switch
frame; that it counts as the outputs are computed, after the frame's message, is read by inference (log 22). In no test every sample is 0 and the route is the map.
R158, R142, R145, R164: one answer frame goes out with it, with last sequence, attention code, status byte and return
slot; no reply stays behind. That the attention code is that of the set before the arbiter fills the slot is read by
inference (log 23). -/
def Obligations.DriveAndAnswerFrames : Prop :=
  ∀ s : State, s.frame.stage = .closed → s.recv.state = .locked →
    (s.recv.held ≠ none ∨ s.recv.gapRun < s.recv.gapLimit) →
    let u := s.openFrame.settleSeq.ready.handleSlot.verifyStep
    ∃ t : State, exec .arrivalWindowClose s = .next t
      ∧ t.out.lastSeq = some s.out.nextSeq ∧ t.out.nextSeq = (s.out.nextSeq + 1) % 65536 ∧ t.out.judgment = .openNone
      ∧ (∀ q : Nat, s.out.lastSeq = some q → t.out.history = ((q, s.out.lastSamples) :: s.out.history).take 4)
      ∧ (s.out.lastSeq = none → t.out.history = s.out.history)
      ∧ (t.seq.phase ≠ .running → t.seq.phase ≠ .ending →
          t.out.lastSamples = Vector.replicate 14 0 ∧ t.out.delivered = Vector.replicate 12 0 ∧ t.sup.engine = u.sup.engine
          ∧ t.driveOut = driveBytes s.out.nextSeq (Vector.replicate 14 0) t.out.map ∧ t.eng = u.eng)
      ∧ (t.seq.phase = .running ∨ t.seq.phase = .ending →
          t.driveOut = driveBytes s.out.nextSeq t.out.lastSamples (Vector.ofFn t.routeEntry)
          ∧ (∀ p : Fin 14,
              (∀ c : Fin 12, t.routeEntry c = some p → (∀ d : Fin 12, d < c → t.routeEntry d ≠ some p) →
                t.out.lastSamples[p] = t.deliveredNow c)
              ∧ ((∀ c : Fin 12, t.routeEntry c ≠ some p) → t.out.lastSamples[p] = 0))
          ∧ (∀ c : Fin 12, t.eng[c] = ((u.eng[c]).output (u.bound c)).advance ∧ t.out.delivered[c] = t.deliveredNow c)
          ∧ (u.sup.engine = .quiet → t.sup.engine = .quiet)
          ∧ (∀ x : FailoverCtx, u.sup.engine = .awaitZero x →
              t.sup.engine = .awaitZero { x with wait := x.wait + 1, prevY := u.eng[x.logical].y })
          ∧ (∀ x : FailoverCtx, u.sup.engine = .switching x →
              t.sup.engine = .switching { x with switch := x.switch + 1 }))
      ∧ AnswersFrom u.outputStep t (decide (s.recv.held = none)) ∧ t.answerOut.length = 40
      ∧ t.answerOut.take 4 =
          [0x5A, 0x7E, BitVec.ofNat 8 (t.recv.lastSeq / 256), BitVec.ofNat 8 t.recv.lastSeq]

/-- R63, R53, R64: no physical sample that a frame taken sends exceeds in magnitude the limit of its channel as the table
stood when the frame was taken; a channel whose limit is unwritten (0) is driven with 0. -/
def Obligations.SamplesWithinLimits : Prop :=
  ∀ s : State, s.LinkInv → s.frame.stage = .closed → s.recv.state = .locked →
    (s.recv.held ≠ none ∨ s.recv.gapRun < s.recv.gapLimit) →
    ∃ t : State, exec .arrivalWindowClose s = .next t
      ∧ ∀ p : Fin 14, -(s.out.limit[p] : Int) ≤ t.out.lastSamples[p] ∧ t.out.lastSamples[p] ≤ s.out.limit[p]

/-- R157, R158: ANSWER_FRAME_CLOCK_PERIOD outside LOCKED: the next period begins where the last one ended, at the cadence
now; its answer frame carries last sequence, attention code, status byte and return slot (by inference the chatter windows
that end there come before it, input by input, and the code before the arbiter: log 23, log 32); no frame is taken and no
drive frame is sent. R94, R95, R100, R102: the windows that are over end, each in CHATTER with its record, and sub-tick 0 is
scanned. In LOCKED there is no such period. -/
def Obligations.AnswerFramePeriod : Prop :=
  ∀ s : State,
    let v := s.finishSlot
    let frame := s.clock.scanFrame + 1
    let ended (i : Fin 8) : Option Made :=
      let x := v.scan.inputs[i]
      let body : Body := .chatterEnd i x.suppressed x.settled (Input.window x.cfg)
      if x.chatter = true ∧ x.windowOver frame = true then
        if s.seq.phase = .running ∨ s.seq.phase = .ending then some ⟨s.seq.testNumber, 16 * s.seq.testFrame, body, true⟩
        else some ⟨0, 16 * s.recv.frameCounter % 4294967296, body, true⟩
      else none
    (s.recv.state ≠ .locked →
      ∃ t : State, exec .answerFrameClockPeriod s = .next t
        ∧ t.clock.slotStart = s.clock.slotStart + s.clock.slotLen ∧ t.clock.slotLen = s.recv.cadenceNow
        ∧ t.clock.subtick = 0 ∧ t.clock.slotDone = false ∧ t.clock.scanFrame = s.clock.scanFrame + 1
        ∧ t.recv = s.recv ∧ t.out = s.out ∧ t.driveOut = s.driveOut ∧ t.plan = s.plan ∧ t.eng = s.eng
        ∧ t.frame = s.frame ∧ t.pending = s.pending ∧ t.reply = none
        ∧ t.scan = { v.scan with pos := v.scan.pos + 1, inputs := t.scan.inputs }
        ∧ (∀ i : Fin 8, ((v.scan.inputs[i]).afterWindow frame).ScannedTo t.scan.inputs[i] s.plan.inputs[i] t.scan.pos
            (v.scan.inputs[i].reload = .now))
        ∧ v.openPeriod.rep =
            (v.rep.made ++ (List.finRange 8).filterMap ended).foldl Report.admitOne { v.rep with made := [] }
        ∧ AnswersFrom v.openPeriod t false ∧ t.answerOut.length = 40
        ∧ t.answerOut.take 4 = [0x5A, 0x7E, BitVec.ofNat 8 (s.recv.lastSeq / 256), BitVec.ofNat 8 s.recv.lastSeq])
    ∧ (s.recv.state = .locked → exec .answerFrameClockPeriod s = .next s)

/-! ### The drive link and the supervisor -/

/-- R69: READBACK_FRAME_RECEIVED: which count rises, and what the judgment becomes. Only the first good readback of the
last drive frame is handed to the supervisor. A frame without the sync word is neither judged nor counted. A leak
still due comes about before any other (the model's choice, log 24). The frame of the command: the blocks it leaves alone,
the Sequencer but for its latches, which follow (R24), and the timers but for their DISTURBED flags (R124). -/
def Obligations.ReadbackJudged : Prop :=
  ∀ (f : Vector Byte 40) (s : State), s.frame.stage = .closed →
    let o := s.out
    let bad : Judgment := if o.judgment = .settled then .settled else .openBad
    let up (n : Nat) : Nat := min 4294967295 (n + 1)
    let kept (t : State) : Prop := s.SameLinks t ∧ t.plan = s.plan ∧ t.eng = s.eng ∧ t.scan = s.scan ∧ t.brk = s.brk
      ∧ t.lines = s.lines ∧ t.choices = s.choices ∧ t.seq = { s.seq with latches := t.seq.latches } ∧ s.LatchesFollow t
      ∧ s.rep.SameSending t.rep
    let unjudged (t : State) : Prop := kept t ∧ t.timers = s.timers ∧ t.frame = s.frame ∧ t.sup = s.leaks.sup
    (BadReadback f → ∃ t : State, exec (.readbackFrameReceived f) s = .next t ∧ unjudged t
      ∧ t.out = { o with crcBad := up o.crcBad, judgment := bad })
    ∧ (GoodReadback f → o.lastSeq ≠ some (readbackEcho f) →
        ∃ t : State, exec (.readbackFrameReceived f) s = .next t ∧ unjudged t
          ∧ t.out = { o with echoBad := up o.echoBad, judgment := bad })
    ∧ (GoodReadback f → o.lastSeq = some (readbackEcho f) → o.judgment = .settled →
        ∃ t : State, exec (.readbackFrameReceived f) s = .next t ∧ unjudged t
          ∧ t.out = { o with duplicate := up o.duplicate })
    ∧ (GoodReadback f → o.lastSeq = some (readbackEcho f) → o.judgment ≠ .settled →
        ∃ t : State, exec (.readbackFrameReceived f) s = .next t ∧ kept t
          ∧ t.out = { o with valid := up o.valid, judgment := .settled }
          ∧ t.frame = { s.frame with disturbed := t.frame.disturbed } ∧ t.timers.gate = s.timers.gate
          ∧ (∀ k : Fin 8, t.timers.slots[k] = { s.timers.slots[k] with disturbed := t.timers.slots[k].disturbed })
          ∧ t.sup.engine = s.sup.engine ∧ (∀ p : Fin 14, t.sup.chan[p].tolerance = s.sup.chan[p].tolerance
              ∧ t.sup.chan[p].threshold = s.sup.chan[p].threshold ∧ t.sup.chan[p].leakPeriod = s.sup.chan[p].leakPeriod))
    ∧ (¬ (f[0] = 0x4C ∧ f[1] = 0x2D) → exec (.readbackFrameReceived f) s = .next s)

/-- R81, R82, R72: the runs and the readback fault: after a valid readback, and after a frame taken, received or gap, whose
drive frame closes the judgment of the one before as bad or missing (R70): from what stands once the frame's message and
verification step are over, and so from what stood before where the frame carries no message. A dormant supervisor counts nothing; a leak still due comes about
before the readback there too (the model's choice, log 24). R83: setting and clearing make READBACK, with cause, reference
word and run. -/
def Obligations.ReadbackFault : Prop :=
  (∀ s : State, s.frame.stage = .closed →
    (∀ f : Vector Byte 40, GoodReadback f → s.out.lastSeq = some (readbackEcho f) → s.out.judgment ≠ .settled →
      let ref := readbackReference f
      let inBand := 16384 ≤ ref + s.sup.refTol ∧ ref ≤ 16384 + s.sup.refTol
      let recorded (t : State) (body : Body) : Prop := s.rep.made = [] → s.rep.queue.length < 104 →
        t.rep.queue[s.rep.queue.length]? = some
          ⟨s.rep.discard, if s.seq.phase = .running ∨ s.seq.phase = .ending then s.seq.testNumber else 0,
            if s.seq.phase = .running ∨ s.seq.phase = .ending then 16 * s.seq.testFrame
            else 16 * s.recv.frameCounter % 4294967296, body⟩
      (s.sup.latency = 0 → ∃ t : State, exec (.readbackFrameReceived f) s = .next t ∧ t.sup = s.leaks.sup)
      ∧ (s.sup.latency ≠ 0 → 1 ≤ s.sup.confirm →
          ∃ t : State, exec (.readbackFrameReceived f) s = .next t ∧ t.sup.lastRef = ref ∧ t.sup.linkRun = 0
            ∧ t.sup = { s.sup with
                chan := t.sup.chan, requests := t.sup.requests, fault := t.sup.fault, refRun := t.sup.refRun, linkRun := 0
                recRun := t.sup.recRun, lastRef := ref }
            ∧ (¬ inBand → t.sup.refRun = min 15 (s.sup.refRun + 1) ∧ t.sup.recRun = 0)
            ∧ (¬ inBand → s.sup.fault = none → s.sup.confirm ≤ min 15 (s.sup.refRun + 1) →
                t.sup.fault = some .reference ∧ t.rep.attention[2] = true
                ∧ recorded t (.readback false .reference ref (min 15 (s.sup.refRun + 1))))
            ∧ (¬ inBand → s.sup.fault = none → min 15 (s.sup.refRun + 1) < s.sup.confirm → t.sup.fault = none)
            ∧ (¬ inBand → s.sup.fault ≠ none → t.sup.fault = s.sup.fault)
            ∧ (inBand → t.sup.refRun = 0)
            ∧ (inBand → s.sup.fault = none → t.sup.recRun = 0 ∧ t.sup.fault = none)
            ∧ (inBand → s.sup.fault ≠ none → t.sup.recRun = min 15 (s.sup.recRun + 1)
                ∧ (t.sup.fault = if s.sup.confirm ≤ min 15 (s.sup.recRun + 1) then none else s.sup.fault)
                ∧ ∀ cause : FaultCause, s.sup.fault = some cause → s.sup.confirm ≤ min 15 (s.sup.recRun + 1) →
                    recorded t (.readback true cause ref (min 15 (s.sup.recRun + 1))))))
    ∧ (s.recv.state = .locked → (s.recv.held ≠ none ∨ s.recv.gapRun < s.recv.gapLimit) →
        let u := s.openFrame.settleSeq.ready.handleSlot.verifyStep
        let counted (p : Supervisor) (t : State) : Prop :=
          ((p.latency = 0 ∨ s.out.judgment = .settled) →
              t.sup.refRun = p.refRun ∧ t.sup.linkRun = p.linkRun ∧ t.sup.recRun = p.recRun ∧ t.sup.fault = p.fault)
          ∧ (p.latency ≠ 0 → s.out.judgment ≠ .settled → 1 ≤ p.confirm →
              t.sup.refRun = p.refRun ∧ t.sup.linkRun = min 16 (p.linkRun + 1) ∧ t.sup.recRun = 0
              ∧ (p.fault ≠ none → t.sup.fault = p.fault)
              ∧ (p.fault = none → 16 ≤ p.linkRun + 1 → t.sup.fault = some .link ∧ t.rep.attention[2] = true)
              ∧ (p.fault = none → p.linkRun + 1 < 16 → p.confirm ≤ p.refRun →
                  t.sup.fault = some .reference ∧ t.rep.attention[2] = true)
              ∧ (p.fault = none → p.linkRun + 1 < 16 → p.refRun < p.confirm → t.sup.fault = none))
        ∃ t : State, exec .arrivalWindowClose s = .next t
          ∧ t.out.missing = (if s.out.judgment = .openNone then min 4294967295 (s.out.missing + 1) else s.out.missing)
          ∧ counted u.sup t ∧ (s.TakesSilentFrame → counted s.sup t)))
  ∧ (∀ s : State, s.sup.latency ≠ 0 → s.sup.fault = none → 16 ≤ s.sup.linkRun + 1 →
      (s.countOutcome none).rep.made = s.rep.made ++
        [⟨if s.seq.phase = .running ∨ s.seq.phase = .ending then s.seq.testNumber else 0,
          if s.seq.phase = .running ∨ s.seq.phase = .ending then 16 * s.seq.testFrame
          else 16 * s.recv.frameCounter % 4294967296, .readback false .link s.sup.lastRef 16, false⟩])

/-- R76, R82: a valid readback is counted first (ReadbackFault). It compares channels where the readback fault is then clear,
be it that none was set or that this readback clears it, whatever its reference word, in a test alone and with a supervisor
that is not dormant; else it compares none: every bucket, countdown and channel state and the request list stay, and no
CHANNEL_FAILED is made. R76, R77, R80, R84: where it compares, the evidence of each physical channel (but for the leak, which
the model makes a step of its own: its choice, log 24), its failure, the attention it raises, the requests and the record it
makes. The logical channels of the channels that fail join the request list in the order of the physical channels, in RUNNING
with failover enabled and there alone, also while another failover is in flight; one that is in the list or is being served
does not join. A channel that is not compared keeps bucket, countdown and state. -/
def Obligations.ReadbackEvidence : Prop :=
  ∀ (f : Vector Byte 40) (s : State), s.frame.stage = .closed → GoodReadback f →
    s.out.lastSeq = some (readbackEcho f) → s.out.judgment ≠ .settled → (∀ q : Fin 14, s.leakDue q = false) →
    let ref := readbackReference f
    let inBand := 16384 ≤ ref + s.sup.refTol ∧ ref ≤ 16384 + s.sup.refTol
    let refRun := if inBand then 0 else min 15 (s.sup.refRun + 1)
    let recRun := if inBand ∧ s.sup.fault ≠ none then min 15 (s.sup.recRun + 1) else 0
    let clear := (s.sup.fault = none ∧ refRun < s.sup.confirm) ∨ (s.sup.fault ≠ none ∧ s.sup.confirm ≤ recRun)
    let inTest := s.seq.phase = .running ∨ s.seq.phase = .ending
    let found := s.out.history.find? fun e => e.1 == (readbackEcho f + 65536 - s.sup.latency) % 65536
    let compared (p : Fin 14) : Bool :=
      let x := s.sup.chan[p]
      decide ((x.state = .mapped ∨ (x.state = .failed ∧ ∃ c : Fin 12, s.out.map[c] = some p)) ∧ x.threshold ≠ 0)
    let me (p : Fin 14) : Int := (f[4 + 2 * p.val] ++ f[5 + 2 * p.val] : BitVec 16).toInt
    let mm (co : Int) (p : Fin 14) : Nat :=
      if (s.sup.chan[p].tolerance : Int) < me p - co ∨ (s.sup.chan[p].tolerance : Int) < co - me p then 1 else 0
    let ov (p : Fin 14) : Nat := if (f[32] ++ f[33] : BitVec 16).getLsbD p then 2 else 0
    let th (p : Fin 14) : Nat := if (f[34] ++ f[35] : BitVec 16).getLsbD p then 4 else 0
    let b (co : Int) (p : Fin 14) : Nat := min 255 (s.sup.chan[p].bucket + (mm co p + ov p + th p))
    let fails (co : Int) (p : Fin 14) : Bool :=
      compared p && decide (s.sup.chan[p].state = .mapped ∧ s.sup.chan[p].threshold ≤ b co p)
    let joins (co : Int) (p : Fin 14) : Option (Fin 12) :=
      if fails co p = true ∧ s.seq.phase = .running ∧ s.sup.enable = true then
        (s.out.carriedBy p).filter fun c => decide (c ∉ s.sup.requests ∧ s.sup.serving ≠ some c)
      else none
    ((s.sup.latency = 0 ∨ (1 ≤ s.sup.confirm ∧ ¬ clear) ∨ ¬ inTest) →
      ∃ t : State, exec (.readbackFrameReceived f) s = .next t
        ∧ t.sup.chan = s.sup.chan ∧ t.sup.requests = s.sup.requests ∧ t.rep.attention[1] = s.rep.attention[1]
        ∧ (s.rep.made = [] → ∀ r ∈ t.rep.queue.drop s.rep.queue.length, recordType r.body ≠ 10))
    ∧ (s.sup.latency ≠ 0 → 1 ≤ s.sup.confirm → clear → inTest →
      ∃ t : State, exec (.readbackFrameReceived f) s = .next t
        ∧ t.sup = { s.sup with
            chan := t.sup.chan, requests := t.sup.requests, fault := none, refRun := refRun, linkRun := 0, recRun := recRun
            lastRef := ref }
        ∧ (found = none → t.sup.chan = s.sup.chan ∧ t.sup.requests = s.sup.requests)
        ∧ (∀ e : Nat × Vector Int 14, found = some e →
            t.sup.requests = s.sup.requests ++ (List.finRange 14).filterMap fun p => joins e.2[p] p)
        ∧ ∀ (e : Nat × Vector Int 14) (p : Fin 14), found = some e →
          let x := s.sup.chan[p]
          let co := e.2[p]
          (compared p = false → t.sup.chan[p] = x)
          ∧ (compared p = true → fails co p = false →
              t.sup.chan[p] = { x with bucket := b co p, countdown := x.countdown - 1 })
          ∧ (fails co p = true →
              t.sup.chan[p] = { x with bucket := b co p, countdown := x.countdown - 1, state := .failed }
              ∧ t.rep.attention[1] = true
              ∧ ∀ c : Fin 12, s.MapInjective → s.out.map[c] = some p →
                  (s.seq.phase = .running → s.sup.enable = true → s.sup.serving ≠ some c → c ∈ t.sup.requests)
                  ∧ (s.rep.made = [] → s.rep.queue.length ≤ 64 →
                      ∃ r ∈ t.rep.queue.drop s.rep.queue.length, r.testNo = s.seq.testNumber
                        ∧ r.time = 16 * s.seq.testFrame
                        ∧ r.body = .channelFailed p (some c) (decide (mm co p = 1)) (decide (ov p = 2)) (decide (th p = 4))
                            (b co p) (me p) co
                            (if s.seq.phase = .ending then .ending else if s.sup.enable = true then .joined else .disabled))))

/-- R78: LEAK_STEP: a countdown that has come to 0 takes 1 from the bucket, if it is above 0, and is loaded again with the
leak period. Nothing else changes; where no leak has fallen due nothing changes at all (log 4). That the leak is a step
apart from the comparison that brought the countdown to 0 is the model's choice (log 24). -/
def Obligations.LeakStep : Prop :=
  ∀ (p : Fin 14) (s : State),
    let x := s.sup.chan[p]
    exec (.leakStep p) s =
      .next (if x.countdown = 0 ∧ x.leakPeriod ≠ 0 then
        s.withSup { s.sup with
          chan := s.sup.chan.set p { x with bucket := x.bucket - 1, countdown := x.leakPeriod } }
      else s)

/-- R85, R32, R89: FAILOVER_SERVICE at a boundary whose frame is RUNNING, with the engine QUIET and the list not empty: a
spare is found; or INHIBIT; or ABORT, which asks for the end of the test. In every other case nothing is served. R86, R87:
ZERO_FOUND takes AWAIT_ZERO to SWITCHING when the output was 0, changed its sign, or 2L frames have passed;
FAILOVER_COMPLETE after the M-th SWITCHING frame moves the map, makes the spare MAPPED and FAILOVER with outcome DONE, and
serves the head of the list. Neither falls otherwise; commanded where it does not, each of the three changes nothing
(log 4). R88: what the entry to ENDING makes of the failover in flight and of
the list. -/
def Obligations.Failover : Prop :=
  (∀ s : State, s.frame.stage = .settled →
    let fit (q : Fin 14) : Prop := s.sup.chan[q].state = .spare ∧ s.out.written[q] = true
    let served (rest : List (Fin 12)) (e : FailoverEngine) : State :=
      { s with sup := { s.sup with requests := rest, engine := e }, frame := { s.frame with served := true } }
    let rec' (c : Fin 12) (o : FailoverOutcome) : Made :=
      ⟨s.seq.testNumber, 16 * s.seq.testFrame, .failover c o s.out.map[c] none 0 0, true⟩
    (∀ (c : Fin 12) (rest : List (Fin 12)), s.seq.phase = .running → s.sup.engine = .quiet → s.sup.requests = c :: rest →
      s.frame.served = false →
        (∀ p q : Fin 14, fit q → (∀ q' : Fin 14, q' < q → ¬ fit q') → s.out.map[c] = some p →
          exec .failoverService s = .next (served rest (.awaitZero ⟨c, p, q, 0, 0, 0⟩)))
        ∧ ((∀ q : Fin 14, ¬ fit q) → s.sup.abortPolicy = false →
          exec .failoverService s =
            .next (((served rest .quiet).withOut { s.out with map := s.out.map.set c none }).plusMade
              [rec' c .noSpareInhibit]))
        ∧ ((∀ q : Fin 14, ¬ fit q) → s.sup.abortPolicy = true →
          exec .failoverService s =
            .next (((served rest .quiet).plusMade [rec' c .noSpareAbort]).withSeq { s.seq with
              request := if s.seq.request = .none then .stop .channelFailed else s.seq.request })))
    ∧ ((s.seq.phase ≠ .running ∨ s.sup.engine ≠ .quiet ∨ s.sup.requests = [] ∨ s.frame.served = true) →
        exec .failoverService s = .next s))
  ∧ (∀ s : State, s.frame.stage = .settled →
    (∀ x : FailoverCtx, s.sup.engine = .awaitZero x →
      let y := s.eng[x.logical].y
      let zero := 1 ≤ x.wait ∧ (y = 0 ∨ (y < 0 ∧ 0 < x.prevY) ∨ (0 < y ∧ x.prevY < 0) ∨ 2 * s.recv.cycle ≤ x.wait)
      (zero → exec .zeroFound s = .next (s.withSup { s.sup with engine := .switching { x with switch := 0 } }))
      ∧ (¬ zero → exec .zeroFound s = .next s)
      ∧ exec .failoverComplete s = .next s)
    ∧ (∀ x : FailoverCtx, s.sup.engine = .switching x →
      let isOver := 1 ≤ x.switch ∧ s.sup.operate ≤ x.switch ∧ s.seq.phase = .running
      let moved : State :=
        { s with
          out := { s.out with map := s.out.map.set x.logical (some x.dst) }
          sup := { s.sup with
            chan := s.sup.chan.set x.dst { s.sup.chan[x.dst] with state := .mapped }
            engine := .quiet } }
      (isOver → exec .failoverComplete s = exec .failoverService (moved.plusMade
        [⟨s.seq.testNumber, 16 * s.seq.testFrame, .failover x.logical .done (some x.src) (some x.dst) x.wait x.switch, true⟩]))
      ∧ (¬ isOver → exec .failoverComplete s = .next s)
      ∧ exec .zeroFound s = .next s)
    ∧ (s.sup.engine = .quiet → exec .zeroFound s = .next s ∧ exec .failoverComplete s = .next s))
  ∧ (∀ (s : State) (e : Nat),
    let rec' (c : Fin 12) (o : FailoverOutcome) (src dst : Option (Fin 14)) (w m : Nat) : Made :=
      ⟨s.seq.testNumber, 16 * e, .failover c o src dst w m, false⟩
    let closed (u : State) (first : List Made) : State :=
      (u.withSup { u.sup with requests := [], engine := .quiet }).plusMade
        (first ++ s.sup.requests.map fun c => rec' c .abandoned u.out.map[c] none 0 0)
    (s.sup.engine = .quiet → s.closeFailover e = closed s [])
    ∧ (∀ x : FailoverCtx, s.sup.engine = .awaitZero x →
        s.closeFailover e = closed s [rec' x.logical .abandoned (some x.src) (some x.dst) x.wait 0])
    ∧ (∀ x : FailoverCtx, s.sup.engine = .switching x →
        s.closeFailover e = closed { s with
          out := { s.out with map := s.out.map.set x.logical (some x.dst) }
          sup := { s.sup with chan := s.sup.chan.set x.dst { s.sup.chan[x.dst] with state := .mapped } } }
          [rec' x.logical .done (some x.src) (some x.dst) x.wait x.switch]))

/-! ### Inputs -/

/-- R94, R95: INPUT_LINE_CHANGE while sub-ticks are scanned: what the scanner makes of the new level at the present
sub-tick; an input on which it has acted there, or whose slot has ended, is read at the next; so is every input at sub-tick
0 of a frame taken, from which its exit latches have been set (log 9, R24). -/
def Obligations.InputLineChange : Prop :=
  ∀ (i : Fin 8) (high : Bool) (s : State), s.frame.stage = .closed →
    let x := s.scan.inputs[i]
    let put (y : InputScan) : State := s.withScan { s.scan with inputs := s.scan.inputs.set i y }
    let level := high != Input.invert x.cfg
    let reread := x.reload = .now ∨ (x.reload = .afterZero ∧ s.clock.subtick ≠ 0)
    let rec' := s.plan.inputs[i]
    let readThere := s.recv.state = .locked ∧ s.clock.subtick = 0
    ((s.clock.slotDone = true ∨ x.acted = true ∨ readThere) →
      exec (.inputLineChange i high) s = .next (put { x with raw := high }))
    ∧ (s.clock.slotDone = false → x.acted = false → ¬ readThere →
      (¬ reread → x.cand = none → level = x.settled →
        exec (.inputLineChange i high) s = .next (put { x with raw := high }))
      ∧ (¬ reread → x.cand = none → level ≠ x.settled →
        exec (.inputLineChange i high) s =
          .next (put { x with raw := high, cand := some ⟨level, s.scan.pos⟩, acted := true }))
      ∧ (∀ k : Candidate, ¬ reread → x.cand = some k → level ≠ x.settled →
        exec (.inputLineChange i high) s =
          .next (put { x with raw := high, acted := decide (x.cfg[1].toNat + k.start ≤ s.scan.pos) }))
      ∧ (¬ reread → x.cand ≠ none → level = x.settled →
        exec (.inputLineChange i high) s =
          .next (put { x with raw := high, cand := none, bounce := min 255 (x.bounce + 1), acted := true }))
      ∧ (reread → exec (.inputLineChange i high) s =
          .next (put ⟨high, rec', .no, true, high != Input.invert rec', none, 0, false, none, 0, 0⟩)))

/-- R96, R97, R99 to R101, R20, R21: ACCEPTED_EDGE of a candidate that has persisted, with no frame-taken event in
progress or before the message of the frame: the input's new state, with the chatter count; the start request that it
makes in ARMED; the INPUT_EDGE that it makes in a test; the CHATTER_START of an input that enters CHATTER. R98, R24: in a
test the edge is offered to timers and capture trigger, and the exit latches follow. An edge of an input in CHATTER, and
the one that takes an input into it, make no INPUT_EDGE in any phase, and the former no CHATTER_START (R99, R101). Where no
candidate is to be accepted, nothing changes (log 4). That an edge at sub-tick 0 may come before the message of its frame
is log 3; so does one commanded once the slot is over in LOCKED. What it leaves alone; the breaker, and the edge that finds
it CLOSING, are the subject of BreakerEdges. -/
def Obligations.AcceptedEdge : Prop :=
  ∀ (i : Fin 8) (s : State), (s.frame.stage = .closed ∨ s.frame.stage = .ready) →
    let x := s.scan.inputs[i]
    (∀ c : Candidate, s.clock.slotDone = false → x.cand = some c → Input.debounce x.cfg + c.start ≤ s.scan.pos →
      let lim := Input.limit x.cfg
      let frame := s.clock.scanFrame
      let n := if x.window = none then 1 else x.edges + 1
      let y : InputScan := { x with settled := c.active, cand := none, bounce := 0, acted := true }
      let stamp : Int := (c.start : Int) - s.scan.origin - Globals.lat s.plan.globals
      let inTest := s.seq.phase = .running ∨ s.seq.phase = .ending
      let event : Cond := ⟨if c.active then .inputActive else .inputInactive, i⟩
      let tripFree := c.active = true ∧ s.plan.breaker[0] = 1 ∧ (s.plan.breaker[1]).toNat = i.val ∧ s.brk.state = .closing
      ∃ t : State, exec (.acceptedEdge i) s = .next t
        ∧ (∀ j : Fin 8, j ≠ i → t.scan.inputs[j] = s.scan.inputs[j]) ∧ t.scan.pos = s.scan.pos
        ∧ t.scan.origin = s.scan.origin ∧ s.SameLinks t ∧ t.plan = s.plan ∧ t.eng = s.eng ∧ t.out = s.out ∧ t.sup = s.sup
        ∧ t.lines = s.lines ∧ t.frame = s.frame ∧ s.rep.SameSending t.rep
        ∧ t.seq = { s.seq with request := t.seq.request, latches := t.seq.latches }
        ∧ (s.seq.phase ≠ .running → s.seq.phase ≠ .ending → t.timers = s.timers ∧ t.rep.buffers = s.rep.buffers)
        ∧ (inTest → ¬ tripFree → t.timers = (s.offerTimers event stamp.toNat (decide (stamp < 0))).timers
            ∧ t.rep.buffers = (s.offerCapture event stamp.toNat).rep.buffers)
        ∧ s.LatchesFollow t
        ∧ (lim = 0 → t.scan.inputs[i] = y)
        ∧ (lim ≠ 0 → x.chatter = true →
            t.scan.inputs[i] = { y with suppressed := min 65535 (x.suppressed + 1), window := some frame })
        ∧ (lim ≠ 0 → x.chatter = false → n ≤ lim →
            t.scan.inputs[i] = { y with window := some (x.window.getD frame), edges := n })
        ∧ (lim ≠ 0 → x.chatter = false → lim < n →
            t.scan.inputs[i] = { y with chatter := true, suppressed := 1, window := some frame, edges := n })
        ∧ (s.seq.phase = .armed → c.active = true → Globals.startInputMode s.plan.globals = true →
            Globals.startInput s.plan.globals = i.val → s.seq.request = .none → s.testEndQueued = false →
            t.seq.request =
              .start ⟨.input, i, Globals.lat s.plan.globals + (s.scan.pos + 16 - s.clock.subtick - c.start)⟩)
        ∧ ((s.seq.phase ≠ .armed ∨ c.active = false ∨ Globals.startInputMode s.plan.globals = false
            ∨ Globals.startInput s.plan.globals ≠ i.val ∨ s.seq.request ≠ .none ∨ s.testEndQueued = true) →
            t.seq.request = s.seq.request)
        ∧ ((s.seq.phase = .running ∨ s.seq.phase = .ending) → (lim = 0 ∨ (x.chatter = false ∧ n ≤ lim)) →
            s.rep.made = [] → s.rep.queue.length ≤ 64 →
            ∃ r ∈ t.rep.queue.drop s.rep.queue.length, r.testNo = s.seq.testNumber ∧ r.time = stamp.toNat
              ∧ r.body = .inputEdge i c.active x.bounce (decide (stamp < 0)) s.seq.testFrame)
        ∧ (lim ≠ 0 → x.chatter = false → lim < n → s.rep.made = [] → s.rep.queue.length ≤ 64 →
            ∃ r ∈ t.rep.queue.drop s.rep.queue.length, r.testNo = (if inTest then s.seq.testNumber else 0)
              ∧ r.time = (if inTest then stamp.toNat else 16 * s.recv.frameCounter % 4294967296)
              ∧ r.body = .chatterStart i c.active n (frame + 1 - x.window.getD frame) (decide (inTest ∧ stamp < 0)))
        ∧ ((s.seq.phase = .idle ∨ s.seq.phase = .verifying ∨ s.seq.phase = .armed) → (lim = 0 ∨ x.chatter = true ∨ n ≤ lim) →
            s.rep.made = [] → t.rep.queue = s.rep.queue)
        ∧ (lim ≠ 0 → (x.chatter = true ∨ lim < n) → s.rep.made = [] →
            s.rep.queue <+: t.rep.queue
            ∧ ∀ r ∈ t.rep.queue.drop s.rep.queue.length,
              (∀ (j : Fin 8) (active : Bool) (bounce : Nat) (before : Bool) (accepted : Nat),
                r.body ≠ .inputEdge j active bounce before accepted)
              ∧ (x.chatter = true → ∀ (j : Fin 8) (active : Bool) (edges frames : Nat) (before : Bool),
                r.body ≠ .chatterStart j active edges frames before)))
    ∧ (s.edgeDue i = false → s.frame.stage = .closed → (s.clock.slotDone = false ∨ s.recv.state ≠ .locked) →
        exec (.acceptedEdge i) s = .next s)
    ∧ (s.frame.stage = .closed → s.clock.slotDone = true → s.recv.state = .locked →
        exec (.acceptedEdge i) s =
          if s.beforeMessage.frame.stage = .ready ∧ s.beforeMessage.edgeDue i = true then
            exec (.acceptedEdge i) s.beforeMessage
          else .next s)

/-- R100, R102: CHATTER_END and CHATTER_WINDOW_CLOSE at a settled boundary in LOCKED, and at the end of a period outside
it. What is commanded where the window does not end, CHATTER_END for an input in NORMAL, and CHATTER_WINDOW_CLOSE for
one in CHATTER change nothing (log 4). The boundary of a frame taken ends every window that is over, commanded or not. -/
def Obligations.ChatterWindows : Prop :=
  ∀ (i : Fin 8) (s : State),
    let x := s.scan.inputs[i]
    let put (y : InputScan) : State := s.withScan { s.scan with inputs := s.scan.inputs.set i y }
    let closed := put { x with window := none, edges := 0 }
    let quiet := put { x with chatter := false, window := none, edges := 0, suppressed := 0 }
    let body : Body := .chatterEnd i x.suppressed x.settled (Input.window x.cfg)
    let inTest := s.seq.phase = .running ∨ s.seq.phase = .ending
    (s.recv.state = .locked → s.frame.stage = .settled → ∀ w : Nat, x.window = some w →
      (x.chatter = true → w + Input.window x.cfg ≤ s.clock.scanFrame → inTest →
        exec (.chatterEnd i) s = .next (quiet.plusMade [⟨s.seq.testNumber, 16 * s.seq.testFrame, body, true⟩]))
      ∧ (x.chatter = true → w + Input.window x.cfg ≤ s.clock.scanFrame → ¬ inTest →
        exec (.chatterEnd i) s = .next (quiet.plusMade [⟨0, 16 * s.recv.frameCounter % 4294967296, body, true⟩]))
      ∧ (x.chatter = true → exec (.chatterWindowClose i) s = .next s)
      ∧ (x.chatter = false → w + Input.window x.cfg ≤ s.clock.scanFrame → exec (.chatterWindowClose i) s = .next closed)
      ∧ (x.chatter = false → exec (.chatterEnd i) s = .next s)
      ∧ (s.clock.scanFrame < w + Input.window x.cfg →
          exec (.chatterEnd i) s = .next s ∧ exec (.chatterWindowClose i) s = .next s))
    ∧ (s.recv.state = .locked → s.frame.stage = .settled → x.window = none →
        exec (.chatterEnd i) s = .next s ∧ exec (.chatterWindowClose i) s = .next s)
    ∧ (s.frame.stage = .settled →
        s.ready.scan = { s.scan with inputs := s.ready.scan.inputs }
        ∧ s.ready.scan.inputs[i] = x.afterWindow s.clock.scanFrame
        ∧ (x.chatter = true → x.windowOver s.clock.scanFrame = true →
            (inTest → ⟨s.seq.testNumber, 16 * s.seq.testFrame, body, true⟩ ∈ s.boundaryApart.rep.made)
            ∧ (¬ inTest → ⟨0, 16 * s.recv.frameCounter % 4294967296, body, true⟩ ∈ s.boundaryApart.rep.made)))
    ∧ (s.recv.state ≠ .locked → s.clock.slotDone = true → (∀ p : Fin 14, s.leakDue p = false) → s.rep.made = [] →
      s.seq.phase = .idle → ∀ w : Nat, x.window = some w → w + Input.window x.cfg ≤ s.clock.scanFrame + 1 →
        (x.chatter = false → exec (.chatterWindowClose i) s = .next closed ∧ exec (.chatterEnd i) s = .next s)
        ∧ (x.chatter = true → exec (.chatterWindowClose i) s = .next s)
        ∧ (x.chatter = true → ∃ t : State, exec (.chatterEnd i) s = .next t ∧ t = quiet.withRep t.rep
            ∧ s.rep.SameSending t.rep ∧ t.rep.buffers = s.rep.buffers
            ∧ (s.rep.queue.length < 104 → t.rep.queue = s.rep.queue ++
                [⟨s.rep.discard, 0, 16 * s.recv.frameCounter % 4294967296, body⟩])))
    ∧ (s.recv.state ≠ .locked → s.clock.slotDone = true → (∀ p : Fin 14, s.leakDue p = false) → s.rep.made = [] →
      s.seq.phase = .idle → (∀ w : Nat, x.window = some w → s.clock.scanFrame + 1 < w + Input.window x.cfg) →
        exec (.chatterEnd i) s = .next s ∧ exec (.chatterWindowClose i) s = .next s)

/-! ### Breaker and output lines -/

/-- R108, R110: what an accepted edge of input `i` makes of the breaker, with mode ON and OFF, in a test and outside one.
R110, R98: a trip edge that finds the breaker CLOSING makes a TRIP_FREE BREAKER record, and the change is offered to
timers and capture trigger after the edge itself (R98 gives no order: the model's choice, log 21). -/
def Obligations.BreakerEdges : Prop :=
  ∀ (i : Fin 8) (c : Candidate) (s : State), (s.frame.stage = .closed ∨ s.frame.stage = .ready) → s.clock.slotDone = false →
    s.scan.inputs[i].cand = some c → Input.debounce s.scan.inputs[i].cfg + c.start ≤ s.scan.pos →
    let r := s.plan.breaker
    let now : Int := (s.scan.pos : Int) - s.scan.origin
    let unclamped : Int := (c.start : Int) - s.scan.origin - Globals.lat s.plan.globals
    let openDelay : Nat := (r[3].toNat + 1) * 2 ^ r[4].toNat
    let closeDelay : Nat := (r[5].toNat + 1) * 2 ^ r[6].toNat
    let op : Operation := ⟨now, i, unclamped.toNat, decide (unclamped < 0)⟩
    let acts := c.active = true ∧ r[0] = 1 ∧ (s.seq.phase = .running ∨ s.seq.phase = .ending)
    let trip := r[1].toNat = i.val
    let close := r[2].toNat = i.val
    let event : Cond := ⟨.inputActive, i⟩
    let change : Cond := ⟨.breakerOpen, 0⟩
    let at' : Int := now - Globals.lat s.plan.globals
    let count := min 65535 (s.brk.count + 1)
    ∃ t : State, exec (.acceptedEdge i) s = .next t
      ∧ (¬ acts → t.brk = s.brk)
      ∧ (acts → s.brk.state = .closed → trip →
          t.brk = { s.brk with state := .opening, deadline := some (now + openDelay), operation := some op })
      ∧ (acts → s.brk.state = .closed → ¬ trip → t.brk = s.brk)
      ∧ (acts → s.brk.state = .opening → t.brk = s.brk)
      ∧ (acts → s.brk.state = .opened → close →
          t.brk = { s.brk with state := .closing, deadline := some (now + closeDelay), operation := some op })
      ∧ (acts → s.brk.state = .opened → ¬ close → t.brk = s.brk)
      ∧ (acts → s.brk.state = .closing → trip → s.brk.operation ≠ none →
          t.brk = ⟨.opened, none, none, count⟩
          ∧ t.timers = ((s.offerTimers event unclamped.toNat (decide (unclamped < 0))).offerTimers change at'.toNat
              (decide (at' < 0))).timers
          ∧ t.rep.buffers = ((s.offerCapture event unclamped.toNat).offerCapture change at'.toNat).rep.buffers)
      ∧ (∀ o : Operation, acts → s.brk.state = .closing → trip → s.brk.operation = some o →
          s.rep.made = [] → s.rep.queue.length ≤ 64 →
          ∃ e ∈ t.rep.queue.drop s.rep.queue.length, e.testNo = s.seq.testNumber ∧ e.time = at'.toNat
            ∧ e.body = .breaker true true i unclamped.toNat (now - o.start).toNat count (decide (at' < 0))
                (decide (unclamped < 0)))
      ∧ (acts → s.brk.state = .closing → ¬ trip → t.brk = s.brk)

/-- R109, R112: BREAKER_OPERATION_COMPLETE at the deadline: the new state, the count, and the BREAKER record, which is made
before any other record of the change; the change is offered to timers and capture trigger, and the exit latches follow
(R109, R24). R116: PULSE_PERIOD_END at the pulse deadline: the other period begins, with its delay code
of the state in force counted from the deadline (TestStart and StateExit say what sets a pulse deadline first). Before
their deadlines nothing changes (log 4). That a deadline at sub-tick 0 may come before the message of its frame is log 3;
so does one commanded once the slot is over in LOCKED. -/
def Obligations.BreakerAndPulseDeadlines : Prop :=
  (∀ s : State, (s.frame.stage = .closed ∨ s.frame.stage = .ready) →
    (∀ (d : Int) (op : Operation), s.clock.slotDone = false → (s.seq.phase = .running ∨ s.seq.phase = .ending) →
      s.brk.deadline = some d → s.brk.operation = some op → d ≤ (s.scan.pos : Int) - s.scan.origin →
      let stamp : Int := d - Globals.lat s.plan.globals
      let opened := s.brk.state = .opening
      let count := min 65535 (s.brk.count + 1)
      let event : Cond := ⟨if opened then .breakerOpen else .breakerClosed, 0⟩
      ∃ t : State, exec .breakerOperationComplete s = .next t
        ∧ t.brk = ⟨if opened then .opened else .closed, none, none, count⟩
        ∧ s.SameLinks t ∧ t.plan = s.plan ∧ t.eng = s.eng ∧ t.out = s.out ∧ t.sup = s.sup ∧ t.scan = s.scan
        ∧ t.lines = s.lines ∧ t.frame = s.frame ∧ t.choices = s.choices ∧ s.rep.SameSending t.rep
        ∧ t.seq = { s.seq with latches := t.seq.latches } ∧ s.LatchesFollow t
        ∧ t.timers = (s.offerTimers event stamp.toNat (decide (stamp < 0))).timers
        ∧ t.rep.buffers = (s.offerCapture event stamp.toNat).rep.buffers
        ∧ (s.rep.made = [] → s.rep.queue.length < 104 →
            t.rep.queue[s.rep.queue.length]? = some ⟨s.rep.discard, s.seq.testNumber, stamp.toNat,
              .breaker (decide opened) false op.input op.stamp (d - op.start).toNat count (decide (stamp < 0))
                op.beforeOrigin⟩))
    ∧ (s.operationDue = false → s.frame.stage = .closed → (s.clock.slotDone = false ∨ s.recv.state ≠ .locked) →
        exec .breakerOperationComplete s = .next s)
    ∧ (s.frame.stage = .closed → s.clock.slotDone = true → s.recv.state = .locked →
        exec .breakerOperationComplete s =
          if s.beforeMessage.frame.stage = .ready ∧ s.beforeMessage.operationDue = true then
            exec .breakerOperationComplete s.beforeMessage
          else .next s))
  ∧ (∀ (k : Fin 4) (s : State), (s.frame.stage = .closed ∨ s.frame.stage = .ready) →
    let l := s.lines[k]
    let r := s.plan.part1[s.seq.stateInForce]
    let period (a b : Nat) (ha : a < 20) (hb : b < 20) : Nat := (r[a].toNat + 1) * 2 ^ r[b].toNat
    (∀ d : Int, s.clock.slotDone = false → (s.seq.phase = .running ∨ s.seq.phase = .ending) → l.mode = .pulse →
      l.deadline = some d → d ≤ (s.scan.pos : Int) - s.scan.origin →
      exec (.pulsePeriodEnd k) s =
        .next (s.withLines (s.lines.set k { l with
          high := !l.high
          deadline := some (d + (if l.high then period (5 * k + 3) (5 * k + 4) (by omega) (by omega)
            else period (5 * k + 1) (5 * k + 2) (by omega) (by omega) : Nat)) })))
    ∧ (s.pulseEnds k = false → s.frame.stage = .closed → (s.clock.slotDone = false ∨ s.recv.state ≠ .locked) →
        exec (.pulsePeriodEnd k) s = .next s)
    ∧ (s.frame.stage = .closed → s.clock.slotDone = true → s.recv.state = .locked →
        exec (.pulsePeriodEnd k) s =
          if s.beforeMessage.frame.stage = .ready ∧ s.beforeMessage.pulseEnds k = true then
            exec (.pulsePeriodEnd k) s.beforeMessage
          else .next s))

/-! ### Timers -/

/-- R122: TIMEOUT_DUE and TIMER_EXPIRED at a settled boundary, with the hold of the slot's stop condition. R127,
R125: the microseconds and the probe gain of the result; its stamp lag is 0. That expiry held stays set in the slot that is
EXPIRED is the model's choice (log 40). Where neither is due nothing changes (log 4). The boundary of a frame taken checks every
slot so, commanded or not. -/
def Obligations.TimerDueAndExpired : Prop :=
  ∀ (k : Fin 8) (s : State), s.frame.stage = .settled →
    let x := s.timers.slots[k]
    let r := s.plan.timers[k]
    let hold : Nat :=
      if r[3] = 2 ∨ r[3] = 3 then
        Globals.lat s.plan.globals + (s.plan.inputs[Fin.ofNat 8 r[4].toNat])[1].toNat
      else if r[3] = 4 ∨ r[3] = 5 then Globals.lat s.plan.globals else 0
    let put (y : Slot) : State := s.withTimers { s.timers with slots := s.timers.slots.set k y }
    let elapsed := 16 * (256 * r[5].toNat + r[6].toNat)
    let probe := Fin.ofNat 12 r[7].toNat
    let expired : Slot := { x with state := .expired, held := true, outcome := some .timeout }
    let result (e : Nat) : Made :=
      ⟨s.seq.testNumber, e, .timerResult k .timeout (x.start.getD 0) elapsed (elapsedMicros elapsed s.recv.cadenceNow)
        x.early x.disturbed x.startBo false probe (s.frameGain probe) 0, true⟩
    (∀ e : Nat, s.timers.gate = true → x.state = .running → x.expiry = some e →
      (e ≤ 16 * s.seq.testFrame → x.held = false → exec (.timeoutDue k) s = .next (put { x with held := true }))
      ∧ (16 * s.seq.testFrame < e → exec (.timeoutDue k) s = .next s)
      ∧ (x.held = true → exec (.timeoutDue k) s = .next s)
      ∧ (e + hold ≤ 16 * s.seq.testFrame →
          exec (.timerExpired k) s = .next ((put expired).plusMade [result e])
          ∧ s.ready.timers.slots[k] = expired ∧ result e ∈ s.boundaryApart.rep.made)
      ∧ (16 * s.seq.testFrame < e + hold → exec (.timerExpired k) s = .next s
          ∧ s.ready.timers.slots[k] = { x with held := x.held || decide (e ≤ 16 * s.seq.testFrame) }))
    ∧ ((s.timers.gate = false ∨ x.state ≠ .running) →
        exec (.timeoutDue k) s = .next s ∧ exec (.timerExpired k) s = .next s ∧ s.ready.timers.slots[k] = x)
    ∧ s.ready.timers.gate = s.timers.gate

/-- R120, R121, R124: what an event offered to the array makes of every slot. R127, R125: the microseconds,
probe gain and stamp lag of the STOPPED result. That expiry held stays as it was in a slot that is STOPPED is the model's
choice (log 40). -/
def Obligations.EventsAtTimers : Prop :=
  ∀ (ev : Cond) (stamp : Nat) (bo : Bool) (s : State) (k : Fin 8),
    let x := s.timers.slots[k]
    let r := s.plan.timers[k]
    let probe := Fin.ofNat 12 r[7].toNat
    let t := s.offerTimers ev stamp bo
    let y := t.timers.slots[k]
    (s.timers.gate = false → t = s)
    ∧ t = (s.withTimers { s.timers with slots := t.timers.slots }).withRep { s.rep with made := t.rep.made }
    ∧ (∃ results : List Made, t.rep.made = s.rep.made ++ results)
    ∧ (s.timers.gate = true →
      (x.state = .waiting → Timer.start r = ev → y = { x with
        state := .running, start := some stamp, expiry := some (stamp + 16 * (256 * r[5].toNat + r[6].toNat))
        startBo := bo, disturbed := x.disturbed || s.frame.disturbed })
      ∧ (x.state = .waiting → Timer.start r ≠ ev → Timer.stop r = ev → y = { x with early := true })
      ∧ (x.state = .waiting → Timer.start r ≠ ev → Timer.stop r ≠ ev → y = x)
      ∧ (∀ a e : Nat, x.state = .running → x.start = some a → x.expiry = some e → Timer.stop r = ev →
          (stamp < a → y = { x with early := true })
          ∧ (a ≤ stamp → stamp < e → y = { x with state := .stopped, outcome := some .stopped }
              ∧ ⟨s.seq.testNumber, stamp, .timerResult k .stopped a (stamp - a) (elapsedMicros (stamp - a) s.recv.cadenceNow)
                  x.early x.disturbed x.startBo bo probe (s.frameGain probe) (s.seq.testFrame - stamp / 16), false⟩ ∈ t.rep.made)
          ∧ (a ≤ stamp → e ≤ stamp → y = x))
      ∧ (x.state = .running → Timer.stop r ≠ ev → y = x)
      ∧ ((x.state = .disabled ∨ x.state = .stopped ∨ x.state = .expired) → y = x))

/-- R124: a frame is disturbed when it is a gap frame, when the readback fault is set at the boundary into it, and when it
is a SWITCHING frame of a failover; every slot RUNNING at that boundary is then DISTURBED (before the boundary's own
events, log 13), in RUNNING and in ENDING alike. A readback fault that is set during the frame, by the drive frame of this
very frame, which closes the judgment of the one before (R70), or by a readback, disturbs it, and every RUNNING slot,
then. Nothing else sets the flag of a slot that runs, and outside a test no slot changes (log 13). Where ENDING begins
at the boundary after the zero was found, the failover is abandoned and the frame is no SWITCHING frame (log 14). -/
def Obligations.Disturbed : Prop :=
  (∀ s : State, s.MapInv → s.frame.stage = .closed → s.recv.state = .locked →
    (s.recv.held ≠ none ∨ s.recv.gapRun < s.recv.gapLimit) →
    let u := s.finishSlot
    let v := s.openFrame
    let w := v.settleSeq.ready
    let inTest := s.seq.phase = .running ∨ s.seq.phase = .ending
    let isDisturbed := s.recv.held = none ∨ u.sup.fault ≠ none ∨ ∃ x : FailoverCtx, w.sup.engine = .switching x
    (v.frame.disturbed = true ↔ isDisturbed) ∧ (w.frame.disturbed = true ↔ isDisturbed)
    ∧ v.timers.gate = u.timers.gate
    ∧ ∀ k : Fin 8,
      let x := u.timers.slots[k]
      (inTest → isDisturbed → x.state = .running → v.timers.slots[k] = { x with disturbed := true })
      ∧ ((¬ inTest ∨ ¬ isDisturbed ∨ x.state ≠ .running) → v.timers.slots[k] = x))
  ∧ (∀ s t : State, s.frame.stage = .closed → s.recv.state = .locked →
    (s.recv.held ≠ none ∨ s.recv.gapRun < s.recv.gapLimit) → exec .arrivalWindowClose s = .next t →
    let w := s.openFrame.settleSeq.ready.handleSlot.verifyStep
    let inTest := w.seq.phase = .running ∨ w.seq.phase = .ending
    let becomesSet := w.sup.fault = none ∧ t.sup.fault ≠ none
    (t.frame.disturbed = true ↔ w.frame.disturbed = true ∨ becomesSet)
    ∧ (becomesSet ↔ w.sup.fault = none ∧ w.sup.latency ≠ 0 ∧ w.out.judgment ≠ .settled
        ∧ (16 ≤ w.sup.linkRun + 1 ∨ w.sup.confirm ≤ w.sup.refRun))
    ∧ t.timers.gate = w.timers.gate
    ∧ ∀ k : Fin 8,
      let x := w.outputs.timers.slots[k]
      (inTest → becomesSet → x.state = .running → t.timers.slots[k] = { x with disturbed := true })
      ∧ ((¬ inTest ∨ ¬ becomesSet ∨ x.state ≠ .running) → t.timers.slots[k] = x))
  ∧ (∀ (f : Vector Byte 40) (s t : State), s.frame.stage = .closed → exec (.readbackFrameReceived f) s = .next t →
    let inTest := s.seq.phase = .running ∨ s.seq.phase = .ending
    let becomesSet := s.sup.fault = none ∧ t.sup.fault ≠ none
    (becomesSet → t.frame = { s.frame with disturbed := true }) ∧ (¬ becomesSet → t.frame = s.frame)
    ∧ t.timers.gate = s.timers.gate
    ∧ ∀ k : Fin 8,
      let x := s.timers.slots[k]
      (inTest → becomesSet → x.state = .running → t.timers.slots[k] = { x with disturbed := true })
      ∧ ((¬ inTest ∨ ¬ becomesSet ∨ x.state ≠ .running) → t.timers.slots[k] = x))

/-! ### Verification -/

/-- R13: a VERIFYING frame checks the state at the position: the running CRC (the globals with state 0, log 18), the next
position, and the first failure. Said from the state before it for a gap frame and for a received frame with an empty control
slot, and for every frame taken from what stands once its message has been handled (R162). R14, R15: VERIFICATION_OUTCOME: the CRC is
completed over timers, inputs, breaker and capture, and decides with the structural checks; the phase is asked for and the
record made. Where the outcome is not due nothing changes (log 4). -/
def Obligations.VerificationSteps : Prop :=
  (∀ (s : State) (v : Verification) (i : Fin 32), s.frame.stage = .closed → s.recv.state = .locked →
    v.position = .state i →
    let checked (p : Plan) (next : Option Phase) (t : State) : Prop :=
      let n := p.globals[0].toNat
      let records : List Payload := p.part0[i] :: p.part1[i] :: p.channels[i].toList
      let bytes := ((if i = 0 then [p.globals] else []) ++ records).flatMap fun r => r.toList
      let bad := ∃ k : Fin 4, (p.part0[i])[4 + 3 * k.val] ≠ 0 ∧ (p.part0[i])[4 + 3 * k.val].toNat ≤ 9
        ∧ n ≤ (p.part0[i])[6 + 3 * k.val].toNat
      t.seq.phase = .verifying ∧ t.seq.next = next ∧ p.SameDefinition t.plan
        ∧ ∃ w : Verification, t.plan.verification = some w ∧ w.expected = v.expected ∧ w.crc = crcFrom v.crc bytes
          ∧ (i.val + 1 < n → w.position = .state (i.val + 1)) ∧ (n ≤ i.val + 1 → w.position = .remaining)
          ∧ (v.failure = none → bad → w.failure = some (i.val, .nextState))
          ∧ (v.failure = none → ¬ bad → w.failure = none)
          ∧ (v.failure ≠ none → w.failure = v.failure)
    (s.TakesSilentFrame → s.seq.phase = .verifying → s.seq.next = none → s.plan.verification = some v →
      ∃ t : State, exec .arrivalWindowClose s = .next t ∧ checked s.plan none t)
    ∧ ((s.recv.held ≠ none ∨ s.recv.gapRun < s.recv.gapLimit) →
      let u := s.openFrame.settleSeq.ready.handleSlot
      u.seq.phase = .verifying → u.plan.verification = some v →
      ∃ t : State, exec .arrivalWindowClose s = .next t ∧ checked u.plan u.seq.next t))
  ∧ (∀ s : State, s.frame.stage = .handled →
    (∀ v : Verification, s.seq.phase = .verifying → s.plan.verification = some v → v.position = .remaining →
      let n := s.plan.globals[0].toNat
      let records : List Payload :=
        s.plan.timers.toList ++ s.plan.inputs.toList ++ [s.plan.breaker, s.plan.capture]
      let crc' := crcFrom v.crc (records.flatMap fun r => r.toList)
      let time := 16 * s.recv.frameCounter % 4294967296
      let bad := (∃ k : Fin 8, (s.plan.timers[k])[0] = 1
          ∧ (((s.plan.timers[k])[1] = 8 ∧ n ≤ (s.plan.timers[k])[2].toNat)
            ∨ ((s.plan.timers[k])[3] = 8 ∧ n ≤ (s.plan.timers[k])[4].toNat)))
        ∨ (s.plan.capture[0] = 1 ∧ s.plan.capture[1] = 8 ∧ n ≤ s.plan.capture[2].toNat)
      let failed (item : Nat) (cause : PlanCause) : State :=
        { (s.plusMade [⟨0, time, .planRejected crc'.toNat v.expected item cause, false⟩]) with
          plan := { s.plan with verification := none }
          seq := { s.seq with next := some .idle }
          frame := { s.frame with stage := .stepped } }
      (v.failure = none → ¬ bad → crc'.toNat = v.expected → exec .verificationOutcome s = .next
        { (s.plusMade [⟨0, time, .planVerified crc'.toNat n, false⟩]) with
          plan := { s.plan with verification := some { v with crc := crc' } }
          seq := { s.seq with next := some .armed }
          frame := { s.frame with stage := .stepped } })
      ∧ (∀ (item : Nat) (cause : PlanCause), v.failure = some (item, cause) →
          exec .verificationOutcome s = .next (failed item cause))
      ∧ (v.failure = none → bad → exec .verificationOutcome s = .next (failed 255 .remaining))
      ∧ (v.failure = none → ¬ bad → crc'.toNat ≠ v.expected → exec .verificationOutcome s = .next (failed 255 .crc)))
    ∧ (s.outcomeDue = false → exec .verificationOutcome s = .next s))

/-! ### The Sequencer -/

/-- R26, R30, R33, R22, R31, R34, R35: what a boundary decides, in order; the frame taken carries the decision of the frame
before. R25, R26, R34: where the state in force stays, test frame, frames in state and, in ENDING, the ending countdown go on,
and the exits are latched anew. R12, R14, R16, R18: a phase that the Plan Store asks for begins, and at the return to IDLE the
verification state is empty. In a phase without a test nothing else changes. -/
def Obligations.BoundaryDecision : Prop :=
  ∀ s : State,
    (s.seq.phase = .running → ∀ r : EndReason, s.seq.request = .stop r → s.decision = .stop r)
    ∧ (s.seq.phase = .running → (∀ r : EndReason, s.seq.request ≠ .stop r) →
        (s.seq.testFrame + 1 = Globals.duration s.plan.globals → s.decision = .duration)
        ∧ (s.seq.testFrame + 1 ≠ Globals.duration s.plan.globals →
            (∀ k : Fin 4, s.seq.latches[k] = true → (∀ j : Fin 4, j < k → s.seq.latches[j] = false) →
              s.decision = .exit k)
            ∧ ((∀ k : Fin 4, s.seq.latches[k] = false) → s.decision = .stay)))
    ∧ (s.seq.phase = .armed → ∀ r : StartRecord, s.seq.request = .start r → s.decision = .start r)
    ∧ (s.seq.phase = .armed → s.seq.request = .cancel → s.decision = .cancel)
    ∧ (s.seq.phase = .armed → s.seq.request = .none → s.decision = .stay)
    ∧ (s.seq.phase = .ending → s.decision = if Globals.fade s.plan.globals ≤ s.seq.countdown then .complete else .stay)
    ∧ ((s.seq.phase = .idle ∨ s.seq.phase = .verifying) →
        (s.seq.next = none → s.decision = .stay) ∧ ∀ p : Phase, s.seq.next = some p → s.decision = .change p)
    ∧ (s.frame.stage = .closed → s.recv.state = .locked → (s.recv.held ≠ none ∨ s.recv.gapRun < s.recv.gapLimit) →
        s.openFrame.frame.stage = .taken ∧ s.openFrame.frame.decision = s.finishSlot.decision)
    ∧ (s.frame.stage = .taken →
        let settled : FrameEvent := { s.frame with stage := .settled }
        (s.frame.decision = .stay → (s.seq.phase = .running ∨ s.seq.phase = .ending) →
          s.settleSeq = { s with
            frame := settled
            seq := { s.seq with
              testFrame := s.seq.testFrame + 1, framesInState := s.seq.framesInState + 1
              countdown := if s.seq.phase = .ending then s.seq.countdown + 1 else s.seq.countdown
              latches := Vector.replicate 4 false } })
        ∧ (s.frame.decision = .stay → s.seq.phase ≠ .running → s.seq.phase ≠ .ending →
            s.settleSeq = { s with frame := settled })
        ∧ ∀ p : Phase, s.frame.decision = .change p →
            s.settleSeq = { s with
              frame := settled
              seq := { s.seq with phase := p, next := none }
              plan := if p = .idle then { s.plan with verification := none } else s.plan })

/-- R22, R23, R27, R79, R107, R119, R106: TEST_START. State 0 is entered for test frame 0; TEST_START is the first record.
The output lines take the modes of state 0, a PULSE line with its first pulse deadline, and the breaker its initial state
(R115, R116, R107), also where ENDING begins there; with F = 0 both have returned to IDLE (R40, R113, R117).
The timer array as R119 sets it and the capture store as R135 leaves it are offered TEST_START, then STATE_ENTRY(0), both
stamped 0 (R120, R136); the records of the boundary follow in the order of R168. A FINAL state 0 begins ENDING there, and
with F = 0 the test is over there: no frame of it was in any state, and that TEST_END then names state 0 is read from the
spec by inference (log 29). Blocks are closed as R34 gives: timers, then capture, then failover. That the slots are finalised
before the expiry check of R122 (log 33), that a failover in AWAIT_ZERO is abandoned (log 14), and the gain of a result
made there (log 36; log 37 with F = 0), are the model's choices. R45 to R48: the channels take the records of state 0, as
at test start; that they do so too, clip counts and ramp-end flags cleared, where state 0 is FINAL and F is 0, so that the
test has no frame, is the model's choice beside R60 (log 43). -/
def Obligations.TestStart : Prop :=
  ∀ (s : State) (r : StartRecord), s.frame.stage = .taken → s.frame.decision = .start r →
    let final := (s.plan.part0[(0 : Fin 32)])[16] = 1
    let number := if 255 ≤ s.seq.testNumber then 1 else s.seq.testNumber + 1
    let begun : State := { s with
      seq := { s.seq with testNumber := number, testFrame := 0 }
      timers := ⟨true, Vector.ofFn fun k : Fin 8 =>
        ⟨if (s.plan.timers[k])[0] = 1 then .waiting else .disabled, none, none, false, false, false, false, none⟩⟩
      eng := (s.engineEnter 0 true).eng
      sup := { s.sup with
        chan := Vector.ofFn fun p : Fin 14 => { s.sup.chan[p] with bucket := 0, countdown := s.sup.chan[p].leakPeriod } } }
    let armed := begun.captureStart
    let entered := armed.offered ⟨.testStart, 0⟩ 0 |>.offered ⟨.stateEntry, 0⟩ 0
    let ended := entered.closedAt 0
    let kept := s.rep.made.length
    ∃ t : State, exec .testStart s = .next t ∧ t.frame.stage = .settled
      ∧ t.seq.testNumber = number ∧ t.seq.entryCount = 1 ∧ t.seq.request = .none ∧ t.seq.startRecord = some r
      ∧ t.seq.stateInForce = 0 ∧ t.seq.latches = Vector.replicate 4 false
      ∧ t.scan = { s.scan with origin := s.scan.pos + 1 }
      ∧ s.SameLinks t ∧ t.choices = s.choices
      ∧ t.eng = (s.engineEnter 0 true).eng
      ∧ t.rep.queue = s.rep.queue ∧ t.rep.discard = s.rep.discard ∧ t.rep.pause = s.rep.pause ∧ t.rep.lastItem = s.rep.lastItem
      ∧ t.rep.gateOpen = s.rep.gateOpen ∧ s.plan.SameDefinition t.plan
      ∧ (∃ checksum : Nat, (∀ v : Verification, s.plan.verification = some v → checksum = v.crc.toNat)
          ∧ t.rep.made = s.rep.made ++ [⟨number, 0, .testStart r (s.plan.globals[0].toNat) checksum, false⟩]
              ++ armed.rep.made.drop kept ++ [⟨number, 0, .stateEntered 0 255 255 false (decide final) 1, false⟩]
              ++ (if final then ended else entered).rep.made.drop armed.rep.made.length
              ++ (if final ∧ Globals.fade s.plan.globals = 0 then
                [⟨number, 0, .stateSummary 0 255 0 (Vector.ofFn fun c => t.eng[c].clip), false⟩,
                  ⟨number, 0, .testEnd .finalState 0 0 1, false⟩] else []))
      ∧ (¬ final → t.timers = entered.timers ∧ t.rep = { entered.rep with made := t.rep.made } ∧ t.sup = begun.sup
          ∧ t.seq.phase = .running ∧ t.seq.testFrame = 0 ∧ t.seq.framesInState = 1 ∧ t.timers.gate = true
          ∧ t.out = s.out ∧ t.plan = s.plan)
      ∧ (¬ final ∨ Globals.fade s.plan.globals ≠ 0 →
          t.brk = ⟨if s.plan.breaker[7] = 1 then .opened else .closed, none, none, 0⟩ ∧ s.LinesEntered t 0 0)
      ∧ (final → t.timers = ended.timers ∧ t.sup = ended.sup ∧ t.out = ended.out
          ∧ t.rep = { ended.rep with made := t.rep.made })
      ∧ (final → Globals.fade s.plan.globals ≠ 0 →
          t.seq.phase = .ending ∧ t.seq.countdown = 1 ∧ t.seq.endReason = some .finalState ∧ t.timers.gate = false
          ∧ t.seq.framesInState = 1)
      ∧ (final → Globals.fade s.plan.globals = 0 →
          t.seq.phase = .idle ∧ t.seq.endReason = some .finalState ∧ t.timers.gate = false ∧ t.plan.verification = none
          ∧ t.AtHome 0)

/-- R26 to R29, R25: STATE_EXIT: the summary of the stay and the entry to the exit's next state are the first records of the
boundary; frames in state, entry count and latches are those of the entry. The output lines take the modes of the state
entered, a PULSE line begins with HIGH_PERIOD and a pulse deadline counted from the entry, and the breaker goes on (R115,
R116, R117, R113), also where ENDING begins there; with F = 0 both have returned to IDLE (R40). STATE_ENTRY of the
state, stamped 16 times the frame, is offered to timers and capture trigger (R120, R136). A FINAL state begins ENDING:
timers, then capture, then failover are closed, measuring to the frame (R126, R138, R88); with F = 0 it is in force for no
frame, and TEST_END names the state that was in force in the last (R34, R36). Five things there are the model's
choice: a slot whose E plus hold falls due at this very boundary is finalised before the expiry check of R122 and stays
RUNNING, expiry held as it was (log 33, log 40); a failover whose zero was found in the last RUNNING frame is abandoned, and
one whose M-th SWITCHING frame is over is closed with the others (log 14); a TIMEOUT made by finalisation carries the gain
of the first ENDING frame (log 36), and with F = 0 every result that of the frame that begins (log 37); and with F = 0 the
channels take the records of the FINAL state, clip counts and ramp-end flags cleared, and keep them in IDLE, beside R60
(log 43). R45 to R48: the channels take the records of the state entered. -/
def Obligations.StateExit : Prop :=
  ∀ (s : State) (k : Fin 4), s.frame.stage = .taken → s.frame.decision = .exit k → s.seq.phase = .running →
    let n : Fin 32 := Fin.ofNat 32 (s.plan.part0[s.seq.stateInForce])[6 + 3 * k.val].toNat
    let final := (s.plan.part0[n])[16] = 1
    let frame := s.seq.testFrame + 1
    let count := min 65535 (s.seq.entryCount + 1)
    let entered := { s with seq := { s.seq with testFrame := frame }, eng := (s.engineEnter n false).eng }.offered
      ⟨.stateEntry, n⟩ (16 * frame)
    let ended := entered.closedAt frame
    ∃ t : State, exec .stateExit s = .next t ∧ t.frame.stage = .settled
      ∧ t.seq.stateInForce = n ∧ t.seq.entryCount = count ∧ t.seq.latches = Vector.replicate 4 false
      ∧ t.seq.testNumber = s.seq.testNumber ∧ t.scan = s.scan ∧ s.SameLinks t ∧ t.choices = s.choices
      ∧ t.eng = (s.engineEnter n false).eng
      ∧ s.plan.SameDefinition t.plan
      ∧ t.rep.queue = s.rep.queue ∧ t.rep.discard = s.rep.discard ∧ t.rep.pause = s.rep.pause ∧ t.rep.lastItem = s.rep.lastItem
      ∧ t.rep.gateOpen = s.rep.gateOpen
      ∧ t.rep.made = s.rep.made
          ++ [⟨s.seq.testNumber, 16 * frame,
              .stateSummary s.seq.stateInForce k s.seq.framesInState (Vector.ofFn fun c => s.eng[c].clip), false⟩,
            ⟨s.seq.testNumber, 16 * frame,
              .stateEntered n s.seq.stateInForce k (decide (s.seq.stateInForce = n)) (decide final) count, false⟩]
          ++ (if final then ended else entered).rep.made.drop s.rep.made.length
          ++ (if final ∧ Globals.fade s.plan.globals = 0 then
            [⟨s.seq.testNumber, 16 * frame,
                .stateSummary n 255 0 (Vector.ofFn fun c => t.eng[c].clip), false⟩,
              ⟨s.seq.testNumber, 16 * frame, .testEnd .finalState s.seq.stateInForce frame count, false⟩] else [])
      ∧ (¬ final → t.timers = entered.timers ∧ t.rep = { entered.rep with made := t.rep.made }
          ∧ t.seq.phase = .running ∧ t.seq.testFrame = frame ∧ t.seq.framesInState = 1
          ∧ t.seq.request = s.seq.request ∧ t.out = s.out ∧ t.sup = s.sup ∧ t.plan = s.plan)
      ∧ (¬ final ∨ Globals.fade s.plan.globals ≠ 0 → t.brk = s.brk ∧ s.LinesEntered t n frame)
      ∧ (final → t.timers = ended.timers ∧ t.sup = ended.sup ∧ t.out = ended.out
          ∧ t.rep = { ended.rep with made := t.rep.made })
      ∧ (final → Globals.fade s.plan.globals ≠ 0 →
          t.seq.phase = .ending ∧ t.seq.testFrame = frame ∧ t.seq.countdown = 1 ∧ t.seq.endReason = some .finalState
          ∧ t.seq.request = .none ∧ t.timers.gate = false ∧ t.rep.activity = .off ∧ t.sup.engine = .quiet)
      ∧ (final → Globals.fade s.plan.globals = 0 →
          t.seq.phase = .idle ∧ t.seq.testFrame = s.seq.testFrame ∧ t.seq.framesInState = 0
          ∧ t.seq.endReason = some .finalState ∧ t.seq.request = .none ∧ t.plan.verification = none
          ∧ t.AtHome s.brk.count)

/-- R45 to R48, R56: the parameters that the entry to a state gives a channel, at test start (STATE_ENTERED with previous
state 255) and later; clip count and ramp-end flag are cleared whatever the mode. TestStart and StateExit say where a
state is entered. -/
def Obligations.StateEntryLoadsChannels : Prop :=
  ∀ (s : State) (n : Fin 32) (first : Bool) (c : Fin 12),
    let r := s.plan.channels[n][c]
    let x := s.eng[c]
    let y := (s.engineEnter n first).eng[c]
    let loaded (m : Mode) : Prop :=
      y.mode = m ∧ y.gacc = (256 * r[1].toNat + r[2].toNat) * 65536
        ∧ y.step = (r[3] ++ r[4] ++ r[5] ++ r[6] : BitVec 32).toInt ∧ y.d16 = 256 * r[7].toNat + r[8].toNat
        ∧ y.acc = (r[9] ++ r[10] : BitVec 16).toInt * 65536 ∧ y.decay = 256 * r[11].toNat + r[12].toNat
    s.engineEnter n first = s.withEng (s.engineEnter n first).eng
    ∧ y.clip = 0 ∧ y.rampEnd = false ∧ y.ring = x.ring ∧ y.y = x.y ∧ y.gain = x.gain
    ∧ (r[0] = 2 → loaded .scale)
    ∧ (r[0] = 1 → loaded .pass)
    ∧ (r[0] = 0 → y.mode = .zero ∧ y.gacc = 0 ∧ y.step = 0 ∧ y.d16 = 0 ∧ y.acc = 0 ∧ y.decay = 0)
    ∧ (r[0] = 3 → first = true → loaded .pass)
    ∧ (r[0] = 3 → first = false → y.mode = x.mode ∧ y.gacc = x.gacc ∧ y.step = x.step ∧ y.d16 = x.d16 ∧ y.acc = x.acc
        ∧ y.decay = x.decay)

/-- R33, R30, R34, R35, R126: END_REQUEST and DURATION_LIMIT end RUNNING: ENDING begins, or, with F = 0, the test is over
at the same boundary; the state in force stays and no state is entered. The timer slots are finalised, measuring to the
frame, with microseconds and probe gain as R127 and R125 give them and a stamp lag of 0. A RUNNING slot whose E has been
reached stays RUNNING with outcome TIMEOUT, also where E plus its hold falls due at this very boundary: the slots are
finalised before the expiry check of R122, and expiry held stays as it was (the model's choices, log 33, log 40); its probe gain is that of the first ENDING frame
(log 36), and with F = 0 that of the frame that begins, for every slot (log 37). R138, R88: capture and failover are closed
at the same frame: buffers and send list, map, channel states and records are what those leave, the records in the order
of R168. A failover whose zero was found in the last RUNNING frame is then abandoned, still in AWAIT_ZERO, and one whose
M-th SWITCHING frame is over completes with the other records of the closing (the model's reading, log 14). With F not 0
breaker and lines go on (R113, R117); with F = 0 both have returned to IDLE (R40). -/
def Obligations.EndOfRunning : Prop :=
  ∀ (c : Instr) (r : EndReason) (s : State), s.frame.stage = .taken → s.seq.phase = .running →
    ((c = .endRequest ∧ s.frame.decision = .stop r)
      ∨ (c = .durationLimit ∧ s.frame.decision = .duration ∧ r = .duration)) →
    let frame := s.seq.testFrame + 1
    let abnormal := r = .aborted ∨ r = .channelFailed ∨ r = .streamLost
    let ended := { s with seq := { s.seq with testFrame := frame } }.closedAt frame
    ∃ t : State, exec c s = .next t ∧ t.frame.stage = .settled
      ∧ t.seq.endReason = some r ∧ t.seq.request = .none ∧ t.seq.latches = Vector.replicate 4 false
      ∧ t.seq.stateInForce = s.seq.stateInForce ∧ t.seq.entryCount = s.seq.entryCount
      ∧ t.seq.testNumber = s.seq.testNumber
      ∧ t.timers.gate = false ∧ t.rep.activity = .off ∧ t.sup.engine = .quiet ∧ t.sup.requests = []
      ∧ t.scan = s.scan ∧ s.SameLinks t ∧ t.eng = s.eng ∧ t.choices = s.choices
      ∧ t.out = { s.out with map := t.out.map } ∧ t.out = ended.out ∧ t.sup = ended.sup ∧ t.timers = ended.timers
      ∧ t.rep = { ended.rep with made := t.rep.made, attention := t.rep.attention }
      ∧ (∀ a : Fin 6, a ≠ 3 → t.rep.attention[a] = ended.rep.attention[a]) ∧ s.plan.SameDefinition t.plan
      ∧ t.rep.queue = s.rep.queue ∧ t.rep.discard = s.rep.discard ∧ t.rep.pause = s.rep.pause ∧ t.rep.lastItem = s.rep.lastItem
      ∧ t.rep.gateOpen = s.rep.gateOpen
      ∧ (∀ k : Fin 8,
          let x := s.timers.slots[k]
          let probe := Fin.ofNat 12 (s.plan.timers[k])[7].toNat
          let result (o : TimerOutcome) (time elapsed start : Nat) : Prop :=
            t.timers.slots[k] = { x with outcome := some o }
            ∧ ⟨s.seq.testNumber, time, .timerResult k o start elapsed (elapsedMicros elapsed s.recv.cadenceNow) x.early
                x.disturbed x.startBo false probe (s.frameGain probe) 0, false⟩ ∈ t.rep.made
          (x.state = .waiting → result .notStarted (16 * frame) 0 0)
          ∧ (∀ a e : Nat, x.state = .running → x.start = some a → x.expiry = some e →
              (e ≤ 16 * frame →
                result .timeout e (16 * (256 * (s.plan.timers[k])[5].toNat + (s.plan.timers[k])[6].toNat)) a)
              ∧ (16 * frame < e → result .cutShort (16 * frame) (16 * frame - a) a))
          ∧ ((x.state = .disabled ∨ x.state = .stopped ∨ x.state = .expired) → t.timers.slots[k] = x))
      ∧ (Globals.fade s.plan.globals ≠ 0 →
          t.seq.phase = .ending ∧ t.seq.countdown = 1 ∧ t.seq.testFrame = frame
          ∧ t.seq.framesInState = s.seq.framesInState + 1 ∧ t.brk = s.brk ∧ t.lines = s.lines
          ∧ t.rep = ended.rep)
      ∧ (Globals.fade s.plan.globals = 0 →
          t.seq.phase = .idle ∧ t.seq.testFrame = s.seq.testFrame ∧ t.seq.framesInState = s.seq.framesInState
          ∧ t.plan.verification = none ∧ t.AtHome s.brk.count
          ∧ t.rep.made = ended.rep.made ++
              [⟨s.seq.testNumber, 16 * frame, .stateSummary s.seq.stateInForce 255 s.seq.framesInState
                  (Vector.ofFn fun c => s.eng[c].clip), false⟩,
                ⟨s.seq.testNumber, 16 * frame, .testEnd r s.seq.stateInForce frame s.seq.entryCount, false⟩]
          ∧ (abnormal → t.rep.attention[3] = true) ∧ (¬ abnormal → t.rep.attention = ended.rep.attention))

/-- R35, R36, R40: TEST_COMPLETE: final STATE_SUMMARY, TEST_END, and the return of the blocks to IDLE. End reason, ending
countdown and the other items of the Sequencer that no rule clears stay (read by inference, log 17). -/
def Obligations.TestComplete : Prop :=
  ∀ (r : EndReason) (s : State), s.frame.stage = .taken → s.seq.phase = .ending → s.frame.decision = .complete →
    s.seq.endReason = some r →
    let run := s.seq.testFrame + 1
    let abnormal := r = .aborted ∨ r = .channelFailed ∨ r = .streamLost
    ∃ t : State, exec .testComplete s = .next t ∧ t.frame.stage = .settled
      ∧ t.seq = { s.seq with phase := .idle, next := none, request := .none, latches := Vector.replicate 4 false }
      ∧ t.plan = { s.plan with verification := none }
      ∧ t.brk = { s.brk with
          state := if s.plan.breaker[7] = 1 then .opened else .closed, deadline := none, operation := none }
      ∧ (∀ k : Fin 4, t.lines[k].mode = .low ∧ t.lines[k].deadline = none)
      ∧ t.rep.made = s.rep.made ++
          [⟨s.seq.testNumber, 16 * run, .stateSummary s.seq.stateInForce 255 s.seq.framesInState
              (Vector.ofFn fun c => s.eng[c].clip), false⟩,
            ⟨s.seq.testNumber, 16 * run, .testEnd r s.seq.stateInForce run s.seq.entryCount, false⟩]
      ∧ (abnormal → t.rep.attention[3] = true) ∧ (¬ abnormal → t.rep.attention = s.rep.attention)
      ∧ t.eng = s.eng ∧ t.out = s.out ∧ t.sup = s.sup ∧ t.scan = s.scan ∧ t.timers = s.timers ∧ s.SameLinks t
      ∧ t.choices = s.choices ∧ t.rep = { s.rep with made := t.rep.made, attention := t.rep.attention }
      ∧ (∀ a : Fin 6, a ≠ 3 → t.rep.attention[a] = s.rep.attention[a])

/-- R24, R25: the exit latches. At the boundary, by the kind of its condition, what sets a latch in RUNNING: the condition is
true at sub-tick 0. An input's level there is the one that an edge accepted at sub-tick 0 leaves (R96), and a breaker that
leaves its state by an edge accepted there is in neither (R108); a breaker state reached there, and a slot stopped there,
are latched as they come about (R109; log 3). In every other phase the latches are clear. As the outputs are computed, a
condition that becomes true sets its latch. DWELL_DONE sets the latches of the exits on DWELL_DONE once the frames in state
have reached a dwell that is not 0; otherwise it changes nothing (log 4). -/
def Obligations.ExitLatches : Prop :=
  (∀ (s : State) (k : Fin 4), s.frame.stage = .settled → s.clock.slotDone = true →
    let u := s.boundaryApart
    let t := s.ready
    let r := s.plan.part0[s.seq.stateInForce]
    let dwell := 16777216 * r[0].toNat + 65536 * r[1].toNat + 256 * r[2].toNat + r[3].toNat
    let kind := r[4 + 3 * k.val]
    let arg := r[5 + 3 * k.val].toNat
    let b := s.plan.breaker
    let leaves := b[0] = 1 ∧ ∃ i : Fin 8, s.edgeAtZero i = some true
      ∧ ((s.brk.state = .closed ∧ b[1].toNat = i.val) ∨ (s.brk.state = .opened ∧ b[2].toNat = i.val))
    let setBy (now : Prop) : Prop := t.seq.latches[k] = true ↔ s.seq.latches[k] = true ∨ now
    t.frame.stage = .ready ∧ t.seq = { u.seq with latches := t.seq.latches } ∧ t.scan = u.scan ∧ t.brk = s.brk
    ∧ t.timers = u.timers ∧ t.eng = s.eng
    ∧ (s.seq.phase ≠ .running → t.seq.latches[k] = false)
    ∧ (s.seq.phase = .running →
      (kind = 0 → setBy False)
      ∧ (kind = 1 → setBy (1 ≤ dwell ∧ dwell ≤ s.seq.framesInState))
      ∧ (∀ i : Fin 8, kind = 2 → arg = i.val → setBy (s.levelAtZero i = true))
      ∧ (∀ i : Fin 8, kind = 3 → arg = i.val → setBy (s.levelAtZero i = false))
      ∧ (kind = 4 → setBy (s.brk.state = .opened ∧ ¬ leaves))
      ∧ (kind = 5 → setBy (s.brk.state = .closed ∧ ¬ leaves))
      ∧ (∀ j : Fin 8, kind = 6 → arg = j.val →
          setBy (u.timers.slots[j].state = .stopped ∨ u.timers.slots[j].state = .expired))
      ∧ (∀ c : Fin 12, kind = 7 → arg = c.val → setBy (s.eng[c].rampEnd = true))))
  ∧ (∀ s : State, s.LatchesFollow s.outputStep)
  ∧ (∀ s : State, s.frame.stage = .settled →
    let r := s.plan.part0[s.seq.stateInForce]
    let dwell := 16777216 * r[0].toNat + 65536 * r[1].toNat + 256 * r[2].toNat + r[3].toNat
    (s.seq.phase = .running → 1 ≤ dwell → dwell ≤ s.seq.framesInState →
      exec .dwellDone s = .next (s.withSeq { s.seq with
        latches := Vector.ofFn fun k : Fin 4 => s.seq.latches[k] || decide (r[4 + 3 * k.val] = 1) }))
    ∧ ((s.seq.phase ≠ .running ∨ dwell = 0 ∨ s.seq.framesInState < dwell) → exec .dwellDone s = .next s))

/-! ### Messages: the definition writes -/

/-- R2, R3: WRITE_GLOBALS. R2, R4, R5, R9, R10: WRITE_STATE, part 0 (dwell, exits, FINAL) and part 1 (output lines). R2, R6:
WRITE_CHANNEL. -/
def Obligations.WriteGlobalsStateAndChannel : Prop :=
  (∀ (m : Msg) (s : State), s.Hears m →
    let inRange := 1 ≤ byteOf m 0 ∧ byteOf m 0 ≤ 32 ∧ byteOf m 1 ≤ 1 ∧ byteOf m 2 ≤ 7
      ∧ 1 ≤ longOf m 3 4 5 6 ∧ longOf m 3 4 5 6 ≤ 16777215 ∧ byteOf m 7 ≤ 64 ∧ UnusedZero m 9
    exec (.writeGlobals m) s = .next (
      if s.seq.phase ≠ .idle then s.answered m 0x01 .wrongPhase zeros28
      else if m.indexA ≠ 0 ∨ m.indexB ≠ 0 then s.answered m 0x01 .noEntry zeros28
      else if inRange then (s.withPlan { s.plan with globals := m.payload }).answered m 0x01 .done zeros28
      else s.answered m 0x01 .badValue zeros28))
  ∧ (∀ (m : Msg) (s : State), s.Hears m →
    let part0Ok := longOf m 0 1 2 3 ≤ 16777215
      ∧ (ExitCondition (byteOf m 4) (byteOf m 5) ∧ byteOf m 6 ≤ 31)
      ∧ (ExitCondition (byteOf m 7) (byteOf m 8) ∧ byteOf m 9 ≤ 31)
      ∧ (ExitCondition (byteOf m 10) (byteOf m 11) ∧ byteOf m 12 ≤ 31)
      ∧ (ExitCondition (byteOf m 13) (byteOf m 14) ∧ byteOf m 15 ≤ 31)
      ∧ byteOf m 16 ≤ 1 ∧ UnusedZero m 17
    let part1Ok := (byteOf m 0 ≤ 4 ∧ byteOf m 2 ≤ 7 ∧ byteOf m 4 ≤ 7) ∧ (byteOf m 5 ≤ 4 ∧ byteOf m 7 ≤ 7 ∧ byteOf m 9 ≤ 7)
      ∧ (byteOf m 10 ≤ 4 ∧ byteOf m 12 ≤ 7 ∧ byteOf m 14 ≤ 7) ∧ (byteOf m 15 ≤ 4 ∧ byteOf m 17 ≤ 7 ∧ byteOf m 19 ≤ 7)
    let i : Fin 32 := Fin.ofNat 32 m.indexA.toNat
    exec (.writeState m) s = .next (
      if s.seq.phase ≠ .idle then s.answered m 0x02 .wrongPhase zeros28
      else if 31 < m.indexA.toNat ∨ 1 < m.indexB.toNat then s.answered m 0x02 .noEntry zeros28
      else if m.indexB = 0 then
        if part0Ok then
          (s.withPlan { s.plan with part0 := s.plan.part0.set i m.payload }).answered m 0x02 .done zeros28
        else s.answered m 0x02 .badValue zeros28
      else if part1Ok then
        (s.withPlan { s.plan with part1 := s.plan.part1.set i m.payload }).answered m 0x02 .done zeros28
      else s.answered m 0x02 .badValue zeros28))
  ∧ (∀ (m : Msg) (s : State), s.Hears m →
    let step : Int := (m.payload[3] ++ m.payload[4] ++ m.payload[5] ++ m.payload[6] : BitVec 32).toInt
    let dc : Int := (m.payload[9] ++ m.payload[10] : BitVec 16).toInt
    let inRange := byteOf m 0 ≤ 3 ∧ -8388608 ≤ step ∧ step ≤ 8388607 ∧ wordOf m 7 8 ≤ 4080 ∧ dc ≠ -32768 ∧ UnusedZero m 13
    let i : Fin 32 := Fin.ofNat 32 m.indexA.toNat
    let c : Fin 12 := Fin.ofNat 12 m.indexB.toNat
    exec (.writeChannel m) s = .next (
      if s.seq.phase ≠ .idle then s.answered m 0x03 .wrongPhase zeros28
      else if 31 < m.indexA.toNat ∨ 11 < m.indexB.toNat then s.answered m 0x03 .noEntry zeros28
      else if inRange then
        (s.withPlan { s.plan with channels := s.plan.channels.set i (s.plan.channels[i].set c m.payload) }).answered m 0x03
          .done zeros28
      else s.answered m 0x03 .badValue zeros28))

/-- R2, R7, R8, R9, R10, R103, R106: WRITE_TIMER and WRITE_CAPTURE; WRITE_INPUT, which the scanner takes up at the first
sub-tick after sub-tick 0; and WRITE_BREAKER, which sets the breaker to the new initial state at once. -/
def Obligations.WriteConfiguration : Prop :=
  (∀ (m : Msg) (s : State), s.Hears m →
    let timerOk := byteOf m 0 ≤ 1 ∧ EventCondition (byteOf m 1) (byteOf m 2) ∧ EventCondition (byteOf m 3) (byteOf m 4)
      ∧ (byteOf m 0 = 1 → 1 ≤ wordOf m 5 6) ∧ byteOf m 7 ≤ 11 ∧ UnusedZero m 8
    let captureOk := byteOf m 0 ≤ 1 ∧ EventCondition (byteOf m 1) (byteOf m 2) ∧ wordOf m 3 4 ≤ 1023 ∧ UnusedZero m 5
    let k : Fin 8 := Fin.ofNat 8 m.indexA.toNat
    exec (.writeTimer m) s = .next (
      if s.seq.phase ≠ .idle then s.answered m 0x04 .wrongPhase zeros28
      else if 7 < m.indexA.toNat ∨ m.indexB ≠ 0 then s.answered m 0x04 .noEntry zeros28
      else if timerOk then
        (s.withPlan { s.plan with timers := s.plan.timers.set k m.payload }).answered m 0x04 .done zeros28
      else s.answered m 0x04 .badValue zeros28)
    ∧ exec (.writeCapture m) s = .next (
      if s.seq.phase ≠ .idle then s.answered m 0x07 .wrongPhase zeros28
      else if m.indexA ≠ 0 ∨ m.indexB ≠ 0 then s.answered m 0x07 .noEntry zeros28
      else if captureOk then (s.withPlan { s.plan with capture := m.payload }).answered m 0x07 .done zeros28
      else s.answered m 0x07 .badValue zeros28))
  ∧ (∀ (m : Msg) (s : State), s.Hears m →
    let inputOk := byteOf m 0 ≤ 1 ∧ (byteOf m 2 ≠ 0 → 1 ≤ wordOf m 3 4) ∧ UnusedZero m 5
    let breakerOk := byteOf m 0 ≤ 1 ∧ byteOf m 1 ≤ 7 ∧ byteOf m 2 ≤ 7 ∧ byteOf m 4 ≤ 7 ∧ byteOf m 6 ≤ 7 ∧ byteOf m 7 ≤ 1
      ∧ UnusedZero m 8
    let i : Fin 8 := Fin.ofNat 8 m.indexA.toNat
    exec (.writeInput m) s = .next (
      if s.seq.phase ≠ .idle then s.answered m 0x05 .wrongPhase zeros28
      else if 7 < m.indexA.toNat ∨ m.indexB ≠ 0 then s.answered m 0x05 .noEntry zeros28
      else if inputOk then
        ((s.withPlan { s.plan with inputs := s.plan.inputs.set i m.payload }).withScan { s.scan with
          inputs := s.scan.inputs.set i { s.scan.inputs[i] with reload := .afterZero } }).answered m 0x05 .done zeros28
      else s.answered m 0x05 .badValue zeros28)
    ∧ exec (.writeBreaker m) s = .next (
      if s.seq.phase ≠ .idle then s.answered m 0x06 .wrongPhase zeros28
      else if m.indexA ≠ 0 ∨ m.indexB ≠ 0 then s.answered m 0x06 .noEntry zeros28
      else if breakerOk then
        ((s.withPlan { s.plan with breaker := m.payload }).withBrk { s.brk with
          state := if byteOf m 7 = 1 then .opened else .closed, deadline := none, operation := none }).answered m 0x06
            .done zeros28
      else s.answered m 0x06 .badValue zeros28))

/-! ### Messages: limits, supervision, cadence -/

/-- R62: WRITE_LIMIT, judged in four steps in every phase; a written entry keeps its value under every command but
POWER_UP_RESET; and READ of the limit table gives the value in the first two of the stored bytes. -/
def Obligations.WriteLimit : Prop :=
  (∀ (m : Msg) (s : State), s.Hears m →
    let p : Fin 14 := Fin.ofNat 14 m.indexA.toNat
    let v := wordOf m 0 1
    exec (.writeLimit m) s = .next (
      if 13 < m.indexA.toNat ∨ m.indexB ≠ 0 then s.answered m 0x08 .noEntry zeros28
      else if ¬ UnusedZero m 2 then s.answered m 0x08 .badValue zeros28
      else if s.out.written[p] = true then s.answered m 0x08 .locked zeros28
      else if v = 0 ∨ 32767 < v then s.answered m 0x08 .badValue zeros28
      else (s.withOut { s.out with limit := s.out.limit.set p v, written := s.out.written.set p true }).answered m 0x08 .done
        zeros28))
  ∧ (∀ (c : Instr) (s t : State) (p : Fin 14), c ≠ .powerUpReset → exec c s = .next t → s.out.written[p] = true →
      t.out.written[p] = true ∧ t.out.limit[p] = s.out.limit[p])
  ∧ (∀ (s t : State) (p : Fin 14), s.pending = [] → step s = .next t → s.out.written[p] = true →
      t.out.written[p] = true ∧ t.out.limit[p] = s.out.limit[p])
  ∧ (∀ (m : Msg) (s : State) (p : Fin 14), s.Hears m → m.indexA = 0x08 → m.indexB = 0 → m.payload[0].toNat = p.val →
      m.payload[1] = 0 → UnusedZero m 2 →
      exec (.read m) s = .next (s.answered m 0x0D .done
        ([(0x08 : Byte), m.payload[0], 0, BitVec.ofNat 8 (s.out.limit[p] / 256), BitVec.ofNat 8 s.out.limit[p]]
          ++ List.replicate 23 0)))

/-- R73: WRITE_SUPERVISION; the bucket and the channel state stay, and READ returns the three values. R74:
WRITE_SUPERVISION_GLOBAL; after an accepted one the supervisor is not dormant (R72). -/
def Obligations.WriteSupervision : Prop :=
  ((∀ (m : Msg) (s : State), s.Hears m →
    let p : Fin 14 := Fin.ofNat 14 m.indexA.toNat
    let x := s.sup.chan[p]
    let tol := wordOf m 0 1
    let thr := byteOf m 2
    let leak := wordOf m 3 4
    let inRange := ((tol = 0 ∧ thr = 0 ∧ leak = 0) ∨ (1 ≤ tol ∧ tol ≤ 32767 ∧ 1 ≤ thr ∧ 1 ≤ leak)) ∧ UnusedZero m 5
    exec (.writeSupervision m) s = .next (
      if s.seq.phase ≠ .idle then s.answered m 0x09 .wrongPhase zeros28
      else if 13 < m.indexA.toNat ∨ m.indexB ≠ 0 then s.answered m 0x09 .noEntry zeros28
      else if inRange then
        (s.withSup { s.sup with
          chan := s.sup.chan.set p ⟨x.state, tol, thr, leak, x.bucket, leak⟩ }).answered m 0x09 .done zeros28
      else s.answered m 0x09 .badValue zeros28))
  ∧ (∀ (m : Msg) (s : State) (p : Fin 14), s.Hears m → m.indexA = 0x09 → m.indexB = 0 → m.payload[0].toNat = p.val →
      m.payload[1] = 0 → UnusedZero m 2 →
      let x := s.sup.chan[p]
      exec (.read m) s = .next (s.answered m 0x0D .done
        ([(0x09 : Byte), m.payload[0], 0, BitVec.ofNat 8 (x.tolerance / 256), BitVec.ofNat 8 x.tolerance,
          BitVec.ofNat 8 x.threshold, BitVec.ofNat 8 (x.leakPeriod / 256), BitVec.ofNat 8 x.leakPeriod] ++ List.replicate 20 0))))
  ∧ (∀ (m : Msg) (s : State), s.Hears m →
    let inRange := 1 ≤ byteOf m 0 ∧ byteOf m 0 ≤ 4 ∧ 1 ≤ wordOf m 1 2 ∧ wordOf m 1 2 ≤ 4096 ∧ 1 ≤ byteOf m 3
      ∧ byteOf m 3 ≤ 15 ∧ 1 ≤ byteOf m 4 ∧ byteOf m 5 ≤ 1 ∧ byteOf m 6 ≤ 1 ∧ UnusedZero m 7
    let sup' : Supervisor := { s.sup with
      latency := byteOf m 0, refTol := wordOf m 1 2, confirm := byteOf m 3, operate := byteOf m 4
      enable := decide (byteOf m 5 = 1), abortPolicy := decide (byteOf m 6 = 1) }
    exec (.writeSupervisionGlobal m) s = .next (
      if s.seq.phase ≠ .idle then s.answered m 0x0A .wrongPhase zeros28
      else if m.indexA ≠ 0 ∨ m.indexB ≠ 0 then s.answered m 0x0A .noEntry zeros28
      else if inRange then (s.withSup sup').answered m 0x0A .done zeros28
      else s.answered m 0x0A .badValue zeros28)
    ∧ (inRange → sup'.dormant = false))

/-- R156, R155: SET_CADENCE stores cadence next, L and gap limit, and leaves the cadence now. RESYNC is answered like any
message; the receiver enters HUNT once the answer frame of the frame has been sent, with held frame, check count and gap run
cleared as at step 2 of R154, and the last drive frame of the lock carries 0. -/
def Obligations.CadenceAndResync : Prop :=
  (∀ (m : Msg) (s : State), s.Hears m →
    let p := longOf m 0 1 2 3
    let inRange := 50000 ≤ p ∧ p ≤ 1000000 ∧ p % 16 = 0 ∧ 8 ≤ wordOf m 4 5 ∧ wordOf m 4 5 ≤ 256 ∧ 1 ≤ byteOf m 6
      ∧ byteOf m 6 ≤ 16 ∧ UnusedZero m 7
    exec (.setCadence m) s = .next (
      if s.seq.phase ≠ .idle then s.answered m 0x0B .wrongPhase zeros28
      else if m.indexA ≠ 0 ∨ m.indexB ≠ 0 then s.answered m 0x0B .noEntry zeros28
      else if inRange then
        (s.withRecv { s.recv with cadenceNext := p, cycle := wordOf m 4 5, gapLimit := byteOf m 6 }).answered m 0x0B .done
          zeros28
      else s.answered m 0x0B .badValue zeros28)
    ∧ exec (.resync m) s = .next (
      if s.seq.phase ≠ .idle then s.answered m 0x0C .wrongPhase zeros28
      else if m.indexA ≠ 0 ∨ m.indexB ≠ 0 then s.answered m 0x0C .noEntry zeros28
      else if UnusedZero m 0 then (s.withRecv { s.recv with resync := true }).answered m 0x0C .done zeros28
      else s.answered m 0x0C .badValue zeros28))
  ∧ (∀ s : State, s.frame.stage = .handled → s.recv.resync = true → s.seq.phase = .idle →
      ∃ t : State, exec .arrivalWindowClose s = .next t ∧ t.frame.stage = .closed ∧ t.recv.state = .hunt
        ∧ t.recv = { s.recv with state := .hunt, held := none, checkCount := 0, gapRun := 0, resync := false }
        ∧ t.out.lastSamples = Vector.replicate 14 0 ∧ t.reply = none)

/-! ### Messages: reading -/

/-- R165, R166: READ returns a stored record byte for byte, QUERY_STATUS the fields of a status page, which are those of
StatusPages; neither changes any state. What they refuse, they refuse in the order of their rules. -/
def Obligations.ReadAndQuery : Prop :=
  ∀ (m : Msg) (s : State), s.Hears m →
    let a := m.payload[0]
    let b := m.payload[1]
    (m.indexA = 0 ∨ 0x0A < m.indexA.toNat ∨ m.indexB ≠ 0 → exec (.read m) s = .next (s.answered m 0x0D .noEntry zeros28))
    ∧ (1 ≤ m.indexA.toNat → m.indexA.toNat ≤ 0x0A → m.indexB = 0 → ¬ UnusedZero m 2 →
        exec (.read m) s = .next (s.answered m 0x0D .badValue zeros28))
    ∧ (m.indexB = 0 → UnusedZero m 2 →
        let is (record : Payload) : Prop :=
          exec (.read m) s = .next (s.answered m 0x0D .done ([m.indexA, a, b] ++ record.toList ++ List.replicate 5 0))
        let refused : Prop := exec (.read m) s = .next (s.answered m 0x0D .noEntry zeros28)
        (m.indexA = 1 → if a = 0 ∧ b = 0 then is s.plan.globals else refused)
        ∧ (m.indexA = 2 → ∀ i : Fin 32, a.toNat = i.val →
            if b = 0 then is s.plan.part0[i] else if b = 1 then is s.plan.part1[i] else refused)
        ∧ (m.indexA = 3 → ∀ (i : Fin 32) (c : Fin 12), a.toNat = i.val → b.toNat = c.val → is s.plan.channels[i][c])
        ∧ (m.indexA = 4 → ∀ k : Fin 8, a.toNat = k.val → if b = 0 then is s.plan.timers[k] else refused)
        ∧ (m.indexA = 5 → ∀ k : Fin 8, a.toNat = k.val → if b = 0 then is s.plan.inputs[k] else refused)
        ∧ (m.indexA = 6 → if a = 0 ∧ b = 0 then is s.plan.breaker else refused)
        ∧ (m.indexA = 7 → if a = 0 ∧ b = 0 then is s.plan.capture else refused)
        ∧ ((m.indexA = 2 ∨ m.indexA = 3) → 31 < a.toNat → refused)
        ∧ (m.indexA = 3 → 11 < b.toNat → refused)
        ∧ ((m.indexA = 4 ∨ m.indexA = 5) → 7 < a.toNat → refused)
        ∧ ((m.indexA = 8 ∨ m.indexA = 9) → 13 < a.toNat ∨ b ≠ 0 → refused)
        ∧ (m.indexA = 10 → a ≠ 0 ∨ b ≠ 0 → refused)
        ∧ (m.indexA = 10 → a = 0 → b = 0 → exec (.read m) s = .next (s.answered m 0x0D .done
            ([(10 : Byte), 0, 0, BitVec.ofNat 8 s.sup.latency, BitVec.ofNat 8 (s.sup.refTol / 256),
              BitVec.ofNat 8 s.sup.refTol, BitVec.ofNat 8 s.sup.confirm, BitVec.ofNat 8 s.sup.operate,
              if s.sup.enable then 1 else 0, if s.sup.abortPolicy then 1 else 0] ++ List.replicate 18 0))))
    ∧ (let lastPart := if m.indexA = 0 then 0 else if m.indexA = 3 then 1 else 2
       ((3 < m.indexA.toNat ∨ lastPart < m.indexB.toNat) →
          exec (.queryStatus m) s = .next (s.answered m 0x18 .noEntry zeros28))
       ∧ (m.indexA.toNat ≤ 3 → m.indexB.toNat ≤ lastPart → ¬ UnusedZero m 0 →
          exec (.queryStatus m) s = .next (s.answered m 0x18 .badValue zeros28))
       ∧ (m.indexA.toNat ≤ 3 → m.indexB.toNat ≤ lastPart → UnusedZero m 0 →
          ∃ fields : List Byte, s.page m.indexA m.indexB = some fields ∧ fields.length ≤ 28
            ∧ exec (.queryStatus m) s =
                .next (s.answered m 0x18 .done (fields ++ List.replicate (28 - fields.length) 0))))

/-- R166, 11.6: the fields of each status page at their byte offsets: a count or a code is the state's, an empty item is
FFh, a set has one bit for each member, the lines that are HIGH (R114 to R117) among them. The codes count from 0 in the order of the page's table (R160). An empty start
record shows FFh in every byte of its three fields (read by inference, log 30); the frame counts of an engine that is
QUIET are free (log 28). -/
def Obligations.StatusPages : Prop :=
  ∀ s : State,
    let fields (a b : Byte) (n : Nat) (is : List Byte → Prop) : Prop := ∃ f : List Byte, s.page a b = some f ∧ f.length = n ∧ is f
    let at8 (f : List Byte) (i n : Nat) : Prop := f[i]? = some (BitVec.ofNat 8 n)
    let at16 (f : List Byte) (i n : Nat) : Prop := at8 f i (n / 256) ∧ at8 f (i + 1) n
    let at32 (f : List Byte) (i n : Nat) : Prop := at16 f i (n / 65536) ∧ at16 f (i + 2) n
    let member (f : List Byte) (i k : Nat) (b : Bool) : Prop := (f.getD i 0).getLsbD k = b
    let alone (f : List Byte) (i n : Nat) : Prop := (f.getD i 0).toNat < 2 ^ n
    fields 0 0 25 (fun f =>
      at8 f 0 s.seq.testNumber
      ∧ at8 f 1 (match s.seq.request with | .none => 0 | .start _ => 1 | .cancel => 2 | .stop _ => 3)
      ∧ at8 f 2 s.seq.stateInForce ∧ (∀ k : Fin 4, member f 3 k s.seq.latches[k]) ∧ alone f 3 4
      ∧ at32 f 4 s.seq.testFrame ∧ at32 f 8 s.seq.framesInState ∧ at16 f 12 s.seq.entryCount ∧ at8 f 14 s.seq.countdown
      ∧ at8 f 15 (match s.seq.endReason with
          | none => 255 | some .finalState => 0 | some .duration => 1 | some .aborted => 2 | some .channelFailed => 3
          | some .streamLost => 4)
      ∧ (s.seq.startRecord = none → at8 f 16 255 ∧ at8 f 17 255 ∧ at16 f 18 65535)
      ∧ (∀ r : StartRecord, s.seq.startRecord = some r →
          at8 f 16 (match r.cause with | .message => 0 | .input => 1) ∧ at8 f 17 r.input ∧ at16 f 18 r.offset)
      ∧ at8 f 20 (match s.brk.state with | .closed => 0 | .opening => 1 | .opened => 2 | .closing => 3)
      ∧ at16 f 21 s.brk.count ∧ (∀ l : Fin 4, member f 23 l (decide (s.LineHigh l))) ∧ alone f 23 4
      ∧ (∀ a : Fin 6, member f 24 a s.rep.attention[a]) ∧ alone f 24 6)
    ∧ fields 1 0 27 (fun f =>
      at8 f 0 (match s.recv.state with | .hunt => 0 | .check => 1 | .locked => 2)
      ∧ at32 f 1 s.recv.cadenceNow ∧ at32 f 5 s.recv.cadenceNext ∧ at16 f 9 s.recv.cycle ∧ at8 f 11 s.recv.gapLimit
      ∧ at8 f 12 s.recv.gapRun ∧ at32 f 13 s.recv.frameCounter ∧ at8 f 17 s.rep.queue.length ∧ at8 f 18 s.rep.discard
      ∧ (∀ b : Fin 4, at8 f (19 + b.val) (match s.rep.buffers[b].state with
          | .free => 0 | .recording => 1 | .triggered => 2 | .full => 3 | .sending => 4 | .sent => 5))
      ∧ at8 f 23 (match s.rep.activity with | .off => 0 | .waiting => 1 | .on => 2)
      ∧ at8 f 24 (if s.rep.gateOpen = true then 0 else 1) ∧ at8 f 25 (if s.rep.pause = true then 1 else 0)
      ∧ (let holdsTestEnd := ∃ r ∈ s.rep.queue, ∃ er st run n, r.body = .testEnd er st run n
         (holdsTestEnd → at8 f 26 1) ∧ (¬ holdsTestEnd → at8 f 26 0)))
    ∧ fields 1 1 20 (fun f =>
      at32 f 0 s.recv.framesTaken ∧ at32 f 4 s.recv.crcDiscards ∧ at32 f 8 s.recv.windowDiscards ∧ at32 f 12 s.recv.gapFrames
      ∧ at32 f 16 s.recv.losses)
    ∧ fields 1 2 20 (fun f =>
      at32 f 0 s.out.valid ∧ at32 f 4 s.out.crcBad ∧ at32 f 8 s.out.echoBad ∧ at32 f 12 s.out.duplicate ∧ at32 f 16 s.out.missing)
    ∧ fields 2 0 26 (fun f => ∀ i : Fin 8,
      member f 0 i s.scan.inputs[i].settled ∧ member f 1 i s.scan.inputs[i].chatter
      ∧ at8 f (2 + i.val) s.scan.inputs[i].bounce ∧ at16 f (10 + 2 * i.val) s.scan.inputs[i].suppressed)
    ∧ (∀ part : Fin 2, fields 2 (if part = 0 then 1 else 2) 28 (fun f => ∀ j : Fin 4,
      let x := s.timers.slots[4 * part.val + j.val]
      let i := 7 * j.val
      at8 f i (match x.state with | .disabled => 0 | .waiting => 1 | .running => 2 | .stopped => 3 | .expired => 4)
      ∧ at8 f (i + 1) (match x.outcome with
          | none => 255 | some .stopped => 0 | some .timeout => 1 | some .notStarted => 2 | some .cutShort => 3)
      ∧ member f (i + 2) 0 x.early ∧ member f (i + 2) 1 x.disturbed ∧ member f (i + 2) 2 x.startBo ∧ member f (i + 2) 3 x.held
      ∧ alone f (i + 2) 4 ∧ (∀ stamp : Nat, x.start = some stamp → at32 f (i + 3) stamp) ∧ (x.start = none → at32 f (i + 3) 0)))
    ∧ fields 3 0 28 (fun f => ∀ p : Fin 14,
      at8 f p.val (match s.sup.chan[p].state with | .spare => 0 | .mapped => 1 | .failed => 2)
      ∧ at8 f (14 + p.val) s.sup.chan[p].bucket)
    ∧ fields 3 1 26 (fun f =>
      (∀ c : Fin 12, at8 f c.val ((s.out.map[c]).elim 255 Fin.val))
      ∧ at8 f 12 (match s.sup.fault with | none => 0 | some .reference => 1 | some .link => 2)
      ∧ at8 f 13 s.sup.refRun ∧ at8 f 14 s.sup.linkRun ∧ at8 f 15 s.sup.recRun ∧ at8 f 16 (if s.sup.latency = 0 then 1 else 0)
      ∧ (s.sup.engine = .quiet → at8 f 17 0 ∧ at8 f 18 255 ∧ at8 f 19 255 ∧ at8 f 20 255
          ∧ ∃ wait : Nat, wait ≤ 512 ∧ at16 f 21 wait)
      ∧ (∀ x : FailoverCtx, (s.sup.engine = .awaitZero x ∨ s.sup.engine = .switching x) →
          at8 f 17 (if s.sup.engine = .awaitZero x then 1 else 2) ∧ at8 f 18 x.logical ∧ at8 f 19 x.src ∧ at8 f 20 x.dst
          ∧ at16 f 21 x.wait ∧ at8 f 23 x.switch)
      ∧ at8 f 24 s.sup.requests.length ∧ at8 f 25 ((s.sup.requests.head?).elim 255 Fin.val))

/-! ### Messages: the life of a test -/

/-- R12, R31, R16, R19, R163: ARM, START and ABORT by phase and pending request, each refused by phase, then indices, then
payload (R163 steps 2 to 4); and ARM_CANCEL at the next boundary: the phase is IDLE, the request NONE, the verification state
empty, and nothing else changes. START: R19 orders phase, pending request and TEST_END in the queue, and does not say where
indices and payload are judged; that its refusals for a pending request and for a TEST_END in the queue (R19 steps 2 and 3)
come after those for index and payload is read by inference from R163 steps 2 to 5 (log 11, DEDUCED). -/
def Obligations.ArmStartAbortCancel : Prop :=
  (∀ (m : Msg) (s : State), s.Hears m →
    let plain := m.indexA = 0 ∧ m.indexB = 0
    exec (.arm m) s = .next (
      if s.seq.phase ≠ .idle then s.answered m 0x0E .wrongPhase zeros28
      else if ¬ plain then s.answered m 0x0E .noEntry zeros28
      else if UnusedZero m 2 ∧ s.plan.globals[0] ≠ 0 then
        ((s.withPlan { s.plan with verification := some ⟨wordOf m 0 1, .state 0, 0xFFFF#16, none⟩ }).withSeq
          { s.seq with next := some .verifying }).answered m 0x0E .done zeros28
      else s.answered m 0x0E .badValue zeros28)
    ∧ exec (.start m) s = .next (
      if s.seq.phase ≠ .armed then s.answered m 0x0F .wrongPhase zeros28
      else if ¬ plain then s.answered m 0x0F .noEntry zeros28
      else if ¬ UnusedZero m 0 then s.answered m 0x0F .badValue zeros28
      else if s.seq.request.blocksStart = true then s.answered m 0x0F .wrongPhase zeros28
      else if s.testEndQueued = true then s.answered m 0x0F .reportsPending zeros28
      else (s.withSeq { s.seq with request := .start ⟨.message, 0, 0⟩ }).answered m 0x0F .done zeros28)
    ∧ exec (.abort m) s = .next (
      if s.seq.phase = .idle then s.answered m 0x10 .wrongPhase zeros28
      else if ¬ plain then s.answered m 0x10 .noEntry zeros28
      else if ¬ UnusedZero m 0 then s.answered m 0x10 .badValue zeros28
      else if s.seq.phase = .verifying then
        ((s.withSeq { s.seq with next := some .idle }).withPlan { s.plan with verification := none }).answered m 0x10 .done
          zeros28
      else if s.seq.phase = .armed then (s.withSeq { s.seq with request := .cancel }).answered m 0x10 .done zeros28
      else if s.seq.phase = .running ∧ s.seq.request = .none then
        (s.withSeq { s.seq with request := .stop .aborted }).answered m 0x10 .done zeros28
      else s.answered m 0x10 .done zeros28))
  ∧ (∀ s : State, s.frame.stage = .taken → s.frame.decision = .cancel →
    exec .armCancel s = .next { s with
      seq := { s.seq with phase := .idle, request := .none }
      plan := { s.plan with verification := none }
      frame := { s.frame with stage := .settled } })

/-! ### Messages: reports -/

/-- R140, R148: RELEASE of a SENT buffer makes it FREE, or, while the activity is WAITING, RECORDING for the present test;
the activity is then ON. CAPTURE_WAITING stops being pending when its level ends; while the level stays true it stays as
it was, also where the freed buffer records at once: read from R148 by inference, against the remark of 9.7 (log 15).
That RELEASE refuses a payload before a buffer that is not SENT is read by inference (log 11). R146, R163: ACK_ATTENTION
clears the condition it names, and refuses an index B, then a code of 0 or above 6, then a code whose condition is not
pending (R163 step 3: R146 judges the code), then a payload (step 4). CLEAR_ATTENTION clears them all. R143: PAUSE_REPORTS
and RESUME_REPORTS set and clear the pause. -/
def Obligations.ReleaseAttentionAndPause : Prop :=
  (∀ (m : Msg) (s : State), s.Hears m →
    let b : Fin 4 := Fin.ofNat 4 m.indexA.toNat
    (3 < m.indexA.toNat ∨ m.indexB ≠ 0 → exec (.release m) s = .next (s.answered m 0x11 .noEntry zeros28))
    ∧ (m.indexA.toNat ≤ 3 → m.indexB = 0 → ¬ UnusedZero m 0 →
        exec (.release m) s = .next (s.answered m 0x11 .badValue zeros28))
    ∧ (m.indexA.toNat ≤ 3 → m.indexB = 0 → UnusedZero m 0 → s.rep.buffers[b].state ≠ .sent →
        exec (.release m) s = .next (s.answered m 0x11 .wrongState zeros28))
    ∧ (m.indexA.toNat ≤ 3 → m.indexB = 0 → UnusedZero m 0 → s.rep.buffers[b].state = .sent →
        ∃ r : Report, exec (.release m) s = .next ((s.withRep r).answered m 0x11 .done zeros28)
          ∧ (s.rep.activity ≠ .waiting → r.activity = s.rep.activity
              ∧ r.buffers = s.rep.buffers.set b ⟨.free, 0, [], 0, 0, 0, false, 0⟩)
          ∧ (s.rep.activity = .waiting → r.activity = .on
              ∧ r.buffers = s.rep.buffers.set b ⟨.recording, s.seq.testNumber, [], 0, 0, 0, false, 0⟩)
          ∧ r.queue = s.rep.queue ∧ r.discard = s.rep.discard ∧ r.sendList = s.rep.sendList
          ∧ r.gateOpen = s.rep.gateOpen ∧ r.lastItem = s.rep.lastItem ∧ r.pause = s.rep.pause ∧ r.made = s.rep.made
          ∧ (∀ a : Fin 6, a ≠ 5 → r.attention[a] = s.rep.attention[a])
          ∧ (waitingLevel s.rep.buffers = true → waitingLevel r.buffers = false → r.attention[5] = false)
          ∧ (waitingLevel s.rep.buffers = waitingLevel r.buffers → r.attention[5] = s.rep.attention[5])))
  ∧ (∀ (m : Msg) (s : State), s.Hears m →
    let plain := m.indexA = 0 ∧ m.indexB = 0
    (∀ a : Fin 6, m.indexA.toNat = a.val + 1 → m.indexB = 0 →
      exec (.ackAttention m) s = .next (
        if s.rep.attention[a] = false then s.answered m 0x12 .noEntry zeros28
        else if ¬ UnusedZero m 0 then s.answered m 0x12 .badValue zeros28
        else (s.withRep { s.rep with attention := s.rep.attention.set a false }).answered m 0x12 .done zeros28))
    ∧ (m.indexB ≠ 0 → exec (.ackAttention m) s = .next (s.answered m 0x12 .noEntry zeros28))
    ∧ (m.indexB = 0 → (m.indexA = 0 ∨ 6 < m.indexA.toNat) →
        exec (.ackAttention m) s = .next (s.answered m 0x12 .badValue zeros28))
    ∧ exec (.clearAttention m) s = .next (
      if ¬ plain then s.answered m 0x13 .noEntry zeros28
      else if ¬ UnusedZero m 0 then s.answered m 0x13 .badValue zeros28
      else (s.withRep { s.rep with attention := Vector.replicate 6 false }).answered m 0x13 .done zeros28)
    ∧ exec (.pauseReports m) s = .next (
      if ¬ plain then s.answered m 0x14 .noEntry zeros28
      else if ¬ UnusedZero m 0 then s.answered m 0x14 .badValue zeros28
      else (s.withRep { s.rep with pause := true }).answered m 0x14 .done zeros28)
    ∧ exec (.resumeReports m) s = .next (
      if ¬ plain then s.answered m 0x15 .noEntry zeros28
      else if ¬ UnusedZero m 0 then s.answered m 0x15 .badValue zeros28
      else (s.withRep { s.rep with pause := false }).answered m 0x15 .done zeros28))

/-! ### Messages: channels, map, reset -/

/-- R90: CLEAR_CHANNEL: a FAILED channel becomes MAPPED if a map entry names it, else SPARE; bucket 0, countdown loaded. R91:
RESTORE_MAP: the identity map and the channel states that go with it, unless one of channels 0 to 11 is FAILED. -/
def Obligations.ClearChannelAndRestoreMap : Prop :=
  (∀ (m : Msg) (s : State), s.Hears m →
    let p : Fin 14 := Fin.ofNat 14 m.indexA.toNat
    let x := s.sup.chan[p]
    exec (.clearChannel m) s = .next (
      if s.seq.phase ≠ .idle then s.answered m 0x16 .wrongPhase zeros28
      else if 13 < m.indexA.toNat ∨ m.indexB ≠ 0 then s.answered m 0x16 .noEntry zeros28
      else if ¬ UnusedZero m 0 then s.answered m 0x16 .badValue zeros28
      else (s.withSup { s.sup with
        chan := s.sup.chan.set p ⟨if x.state ≠ .failed then x.state
            else if ∃ c : Fin 12, s.out.map[c] = some p then .mapped else .spare,
          x.tolerance, x.threshold, x.leakPeriod, 0, x.leakPeriod⟩ }).answered m 0x16 .done zeros28))
  ∧ (∀ (m : Msg) (s : State), s.Hears m →
    let blocked := ∃ p : Fin 14, p.val < 12 ∧ s.sup.chan[p].state = .failed
    let restored : State :=
      { s with
        out := { s.out with map := Vector.ofFn fun c : Fin 12 => some (Fin.castLE (by decide) c) }
        sup := { s.sup with
          chan := Vector.ofFn fun p : Fin 14 => { s.sup.chan[p] with
            state := if p.val < 12 then .mapped else if s.sup.chan[p].state = .failed then .failed else .spare } } }
    exec (.restoreMap m) s = .next (
      if s.seq.phase ≠ .idle then s.answered m 0x17 .wrongPhase zeros28
      else if m.indexA ≠ 0 ∨ m.indexB ≠ 0 then s.answered m 0x17 .noEntry zeros28
      else if ¬ UnusedZero m 0 then s.answered m 0x17 .badValue zeros28
      else if blocked then s.answered m 0x17 .wrongState zeros28
      else restored.answered m 0x17 .done zeros28))

/-- R167, R17, R39, R41, R92, R104, R106, R114, R118, R129, R1, R61, R149: RESET_PART in every phase: what each block
takes and what is kept. POWER_UP_RESET gives every block its power-up values in every state;
the levels on the input lines are the relay's (log 7), and they stay. -/
def Obligations.PowerUpResetAndResetPart : Prop :=
  (∀ s : State, ∃ t : State, exec .powerUpReset s = .next t ∧ PowerUpValues t
    ∧ (∀ i : Fin 8, t.scan.inputs[i].raw = s.scan.inputs[i].raw) ∧ t.pending = s.pending)
  ∧ (∀ (m : Msg) (s : State), s.Hears m →
    (m.indexA ≠ 0 ∨ m.indexB ≠ 0 → exec (.resetPart m) s = .next (s.answered m 0x19 .noEntry zeros28))
    ∧ (m.indexA = 0 → m.indexB = 0 → ¬ UnusedZero m 0 →
        exec (.resetPart m) s = .next (s.answered m 0x19 .badValue zeros28))
    ∧ (m.indexA = 0 → m.indexB = 0 → UnusedZero m 0 →
      ∃ t : State, exec (.resetPart m) s = .next (t.answered m 0x19 .done zeros28)
        ∧ t.seq = ⟨.idle, none, .none, s.seq.testNumber, 0, 0, 0, 0, Vector.replicate 4 false, 0, none, none⟩
        ∧ t.plan = { s.plan with verification := none } ∧ t.recv = s.recv ∧ t.out = s.out ∧ t.frame = s.frame
        ∧ (∀ c : Fin 12, t.eng[c] = ⟨s.eng[c].ring, .zero, 0, 0, 0, 0, 0, false, 0, 0, 0⟩)
        ∧ (∀ p : Fin 14, t.sup.chan[p] = { s.sup.chan[p] with bucket := 0, countdown := s.sup.chan[p].leakPeriod })
        ∧ t.sup = { s.sup with
            chan := t.sup.chan, fault := none, refRun := 0, linkRun := 0, recRun := 0, requests := [], engine := .quiet }
        ∧ (∀ i : Fin 8, t.scan.inputs[i] = { s.scan.inputs[i] with
            reload := .now, cand := none, bounce := 0, chatter := false, window := none, edges := 0, suppressed := 0 })
        ∧ t.scan.pos = s.scan.pos
        ∧ t.brk = ⟨if s.plan.breaker[7] = 1 then .opened else .closed, none, none, 0⟩
        ∧ (∀ k : Fin 4, t.lines[k].mode = .low ∧ t.lines[k].deadline = none)
        ∧ t.timers = ⟨false, Vector.replicate 8 ⟨.disabled, none, none, false, false, false, false, none⟩⟩
        ∧ t.rep = ⟨[], 0, Vector.replicate 4 ⟨.free, 0, [], 0, 0, 0, false, 0⟩, .off, [], true, .row, false,
            Vector.replicate 6 false, []⟩))

/-! ### Injection arithmetic -/

/-- R50, R51, R52: delayed base, gain term and DC term of a SCALE channel. -/
def Obligations.ScaleStages : Prop :=
  (∀ (ring : List Int) (d16 : Nat), ring.length = 256 → (∀ v ∈ ring, -32767 ≤ v ∧ v ≤ 32767) → d16 ≤ 4080 →
    let i := d16 / 16
    let f := d16 % 16
    let new := ring.getD i 0
    let old := ring.getD (i + 1) 0
    let xd := delayedBase ring d16
    (f = 0 → xd = new)
    ∧ (f ≠ 0 → NearestHalfAway ((old - new) * f) 16 (xd - new))
    ∧ (f ≠ 0 → min new old ≤ xd ∧ xd ≤ max new old)
    ∧ -32767 ≤ xd ∧ xd ≤ 32767
    ∧ (d16 = 4080 → xd = ring.getD 255 0))
  ∧ (∀ (x : Channel) (b : Bound), x.mode = .scale →
      x.sum = gainTerm (delayedBase x.ring x.d16) (x.gacc / 65536) + dcTerm x.acc
      ∧ (x.output b).gain = x.gacc / 65536 ∧ (x.gacc ≤ 4294967295 → x.gacc / 65536 ≤ 65535))
  ∧ (∀ (xd : Int) (g : Nat),
      NearestHalfAway (xd * g) 1024 (gainTerm xd g)
      ∧ (-32767 ≤ xd → xd ≤ 32767 → g ≤ 65535 → -2097056 ≤ gainTerm xd g ∧ gainTerm xd g ≤ 2097056)
      ∧ gainTerm xd 1024 = xd ∧ gainTerm xd 0 = 0)
  ∧ gainTerm 32767 65535 = 2097056 ∧ gainTerm (-32767) 65535 = -2097056
  ∧ (∀ a : Int,
      65536 * dcTerm a ≤ a + 32768 ∧ a + 32768 < 65536 * dcTerm a + 65536
      ∧ (-2147418112 ≤ a → a ≤ 2147418112 → -32767 ≤ dcTerm a ∧ dcTerm a ≤ 32767)
      ∧ (-32767 ≤ a → a ≤ 32767 → dcTerm a = 0))
  ∧ (∀ d : Int, dcTerm (d * 65536) = d) ∧ dcTerm 32768 = 1 ∧ dcTerm (-32768) = 0

/-- R53, R54: what bounds a channel's output, the output, the clip count and the present gain, in every mode and for every
target: the route entry is the spare while the channel's failover is SWITCHING, else the map entry. R64, R63, R65: the
fade, and the output delivered for each logical channel in each phase. -/
def Obligations.OutputClampAndFade : Prop :=
  ((∀ (s : State) (c : Fin 12),
    let target : Option (Fin 14) := match s.sup.engine with
      | .switching x => if x.logical = c then some x.dst else s.out.map[c]
      | _ => s.out.map[c]
    (target = none → s.bound c = .unrouted)
    ∧ (∀ p : Fin 14, target = some p → s.out.limitPrev[p] = 0 → s.bound c = .unwritten)
    ∧ (∀ p : Fin 14, target = some p → s.out.limitPrev[p] ≠ 0 → s.bound c = .limit s.out.limitPrev[p]))
  ∧ (∀ (x : Channel) (lim : Nat),
      let sum : Int := if x.mode = .pass then x.ring.getD 0 0
        else gainTerm (delayedBase x.ring x.d16) (x.gacc / 65536) + dcTerm x.acc
      let counted (changed : Prop) [Decidable changed] : Nat := if changed then min 255 (x.clip + 1) else x.clip
      let bounded := x.output (.limit lim)
      (x.mode = .zero → ∀ b : Bound, x.output b = { x with y := 0, gain := 0 })
      ∧ (x.mode ≠ .zero →
          x.output .unrouted = { x with y := 0, gain := x.gacc / 65536 }
          ∧ x.output .unwritten = { x with y := 0, gain := x.gacc / 65536, clip := counted (sum ≠ 0) }
          ∧ bounded = { x with y := bounded.y, gain := x.gacc / 65536, clip := counted (bounded.y ≠ sum) }
          ∧ (sum < -(lim : Int) → bounded.y = -(lim : Int)) ∧ ((lim : Int) < sum → bounded.y = lim)
          ∧ (-(lim : Int) ≤ sum → sum ≤ lim → bounded.y = sum))))
  ∧ ((∀ (y : Int) (f k : Nat), 1 ≤ f → k ≤ f →
    NearestHalfAway (y * ((f : Int) - k)) f (faded y f k) ∧ |faded y f k| ≤ |y| ∧ (k = f → faded y f k = 0)
      ∧ faded (-y) f k = -(faded y f k))
  ∧ (∀ (s : State) (c : Fin 12),
      let silent := ∃ x : FailoverCtx, s.sup.engine = .switching x ∧ x.logical = c
      (s.seq.phase = .running → ¬ silent → s.deliveredOutputs[c] = s.eng[c].y)
      ∧ (s.seq.phase = .ending → ¬ silent →
          s.deliveredOutputs[c] = faded s.eng[c].y (Globals.fade s.plan.globals) s.seq.countdown)
      ∧ (silent → s.deliveredOutputs[c] = 0)
      ∧ (s.seq.phase ≠ .running → s.seq.phase ≠ .ending → s.deliveredOutputs[c] = 0)))

/-- R55, R58: the DC accumulator never grows in magnitude and never changes its sign; where it comes to rest, for every decay
factor, and that it always comes to rest. -/
def Obligations.DcAccumulator : Prop :=
  (∀ (x : Channel), (x.mode = .scale ∨ x.mode = .pass → x.advance.acc = nextAcc x.acc x.decay)
      ∧ (x.mode = .zero → x.advance.acc = x.acc))
  ∧ (∀ (a : Int) (k : Nat), k ≤ 65535 →
    let b := nextAcc a k
    let rest := b = a
    65536 * b ≤ a * k + 32768 ∧ a * k + 32768 < 65536 * b + 65536
    ∧ (0 ≤ a → 0 ≤ b ∧ b ≤ a ∧ 0 ≤ dcTerm b ∧ dcTerm b ≤ dcTerm a)
    ∧ (a < 0 → a ≤ b ∧ b ≤ 0 ∧ dcTerm a ≤ dcTerm b ∧ dcTerm b ≤ 0)
    ∧ (0 < a → (rest ↔ a * (65536 - k) ≤ 32768)) ∧ (a < 0 → (rest ↔ -a * (65536 - k) < 32768))
    ∧ (a ≠ 0 → ¬ rest → |b| < |a|)
    ∧ (rest → k = 65535 → -32767 ≤ a ∧ a ≤ 32768 ∧ dcTerm a = if a = 32768 then 1 else 0)
    ∧ (rest → k = 65534 → -16383 ≤ a ∧ a ≤ 16384)
    ∧ (rest → 32769 ≤ k → k ≤ 65533 → -16384 < a ∧ a < 16384)
    ∧ (rest → k = 32768 → 0 ≤ a ∧ a ≤ 1)
    ∧ (rest → k ≤ 32767 → a = 0)
    ∧ (rest → k ≤ 65534 → dcTerm a = 0)
    ∧ (k = 65535 → 32768 < a → a ≤ 98304 → b = a - 1)
    ∧ (k = 0 → b = 0)
    ∧ ∃ n : Nat, let r := Nat.iterate (fun v => nextAcc v k) n a
        nextAcc r k = r)
  ∧ nextAcc 32768 65535 = 32768 ∧ nextAcc (-32767) 65535 = -32767 ∧ nextAcc 16384 65534 = 16384
  ∧ nextAcc (-16383) 65534 = -16383
  ∧ (∀ k : Nat, 32768 ≤ k → k ≤ 65535 → nextAcc 1 k = 1) ∧ (∀ k : Nat, 32769 ≤ k → k ≤ 65535 → nextAcc (-1) k = -1)

/-- R49, R56, R57: the ramp of every channel as the outputs of a frame are computed: the accumulator, the ramp-end flag,
and the RAMP_END record of the first clamp of a stay. R56 steps 2 and 3, R120, R136: each first clamp offers RAMP_END of
its channel, stamped 16 times the frame, to timers and capture trigger, and then makes its record; where there is none,
slots and buffers stay. Where several channels clamp for the first time in one frame, their events are offered in the
order of the channels 0 to 11, which decides what becomes of a slot that one of them starts and another stops, and their
records stand in that order: R49 has the channels computed side by side, and the order is the model's choice (log 26). -/
def Obligations.RampAdvance : Prop :=
  (∀ s : State,
    let t := s.computeOutputs
    let first := (List.finRange 12).filter fun c => s.eng[c].mode ≠ .zero ∧ s.eng[c].rampEnd = false
      ∧ ((s.eng[c].gacc : Int) + s.eng[c].step < 0 ∨ 4294967295 < (s.eng[c].gacc : Int) + s.eng[c].step)
    let time := 16 * s.seq.testFrame
    let event (c : Fin 12) : Cond := ⟨.rampEnd, c⟩
    let gain (c : Fin 12) : Nat := if (s.eng[c].gacc : Int) + s.eng[c].step < 0 then 0 else 65535
    let clamp (u : State) (c : Fin 12) : State := ((u.offerTimers (event c) time false).offerCapture (event c) time).plusMade
      [⟨s.seq.testNumber, time, .rampEnd c s.seq.stateInForce (gain c), false⟩]
    let triggered := first.foldl (fun u c => u.offerCapture (event c) time) s
    t.timers = (first.foldl (fun u c => u.offerTimers (event c) time false) s).timers
    ∧ t.rep = { triggered.rep with made := t.rep.made }
    ∧ t.rep = (first.foldl clamp { s with eng := t.eng, frame := { s.frame with computed := true } }).rep
    ∧ (first = [] → t.timers = s.timers ∧ t.rep = s.rep))
  ∧ ∀ (s : State) (c : Fin 12),
    let x := s.eng[c]
    let t := s.computeOutputs
    let y := t.eng[c]
    let sum : Int := x.gacc + x.step
    let clamped := sum < 0 ∨ 4294967295 < sum
    let record (g : Nat) : Made := ⟨s.seq.testNumber, 16 * s.seq.testFrame, .rampEnd c s.seq.stateInForce g, false⟩
    s.SameLinks t ∧ t.plan = s.plan ∧ t.seq = s.seq ∧ t.out = s.out ∧ t.sup = s.sup ∧ t.scan = s.scan ∧ t.brk = s.brk
    ∧ t.lines = s.lines ∧ t.choices = s.choices ∧ t.timers.gate = s.timers.gate
    ∧ t.rep = { s.rep with made := t.rep.made, buffers := t.rep.buffers, attention := t.rep.attention }
    ∧ y.ring = x.ring ∧ y.mode = x.mode ∧ y.step = x.step ∧ y.d16 = x.d16 ∧ y.decay = x.decay
    ∧ (x.mode = .zero → y.gacc = x.gacc ∧ y.rampEnd = x.rampEnd ∧ y.acc = x.acc ∧ y.clip = x.clip ∧ y.y = 0 ∧ y.gain = 0)
    ∧ (x.mode ≠ .zero →
        (¬ clamped → (y.gacc : Int) = sum ∧ y.rampEnd = x.rampEnd)
        ∧ (clamped → y.rampEnd = true)
        ∧ (sum < 0 → y.gacc = 0 ∧ (x.rampEnd = false → record 0 ∈ t.rep.made))
        ∧ (4294967295 < sum → y.gacc = 4294967295 ∧ (x.rampEnd = false → record 65535 ∈ t.rep.made)))
    ∧ ((x.mode = .zero ∨ ¬ clamped ∨ x.rampEnd = true) → ∀ m ∈ t.rep.made, m ∉ s.rep.made →
        ∀ st g : Nat, m.body ≠ .rampEnd c st g)

/-! ### Reports -/

/-- R131, R144, R147: a record offered to the event queue is admitted or discarded by the depth, the reserved types up to
128, the others up to 104; RESET_PART empties queue and discard count. R168: the records made at a boundary are offered one
after another: the Sequencer's with those of item 3 in order, each made apart before or after them (never among them, and
FAILOVERs in their order: the model's choices, log 41, log 6). The records that the frame's verification step, outputs and drive
frame make are offered after these, in the order in which they were made (the model's choice, log 42). R142, R133, R139, R144: what the arbiter places in
the return slot, by the first step that applies. R148: the row that makes its buffer SENT while no buffer is FREE makes
CAPTURE_WAITING pending, if none was SENT before. -/
def Obligations.QueueAndReturnSlot : Prop :=
  ((∀ (r : Report) (m : Made),
    let reserved := (∃ k o st el us e d sb pb pr g lag, m.body = .timerResult k o st el us e d sb pb pr g lag)
      ∨ (∃ p c mm ov th b me co d, m.body = .channelFailed p c mm ov th b me co d)
      ∨ (∃ er st run n, m.body = .testEnd er st run n)
    let depth := r.queue.length
    ((reserved ∧ depth < 128) ∨ (¬ reserved ∧ depth < 104) →
      r.admitOne m = { r with
        queue := r.queue ++ [⟨r.discard, m.testNo, m.time, m.body⟩]
        discard := 0
        gateOpen := if 64 ≤ depth + 1 then false else r.gateOpen })
    ∧ (¬ ((reserved ∧ depth < 128) ∨ (¬ reserved ∧ depth < 104)) →
      r.admitOne m = { r with discard := min 255 (r.discard + 1), attention := r.attention.set 4 true }))
  ∧ ∀ s : State, s.resetBlocks.rep.queue = [] ∧ s.resetBlocks.rep.discard = 0)
  ∧ (∀ s : State, s.flush = s.withRep (s.rep.made.foldl Report.admitOne { s.rep with made := [] }))
  ∧ (∀ s : State, s.frame.stage = .settled →
    let u := s.boundaryApart
    let offered (ms : List Made) : Prop := s.ready.rep = ms.foldl Report.admitOne { u.rep with made := [] }
    let apart := u.rep.made.filter fun m => m.apart
    let own := u.rep.made.filter fun m => !m.apart
    let failovers (ms : List Made) : List Made := ms.filter fun m => recordType m.body = 11
    (∃ later : List Made, u.rep.made = s.rep.made ++ later ∧ ∀ m ∈ later, m.apart = true)
    ∧ (apart = [] → offered u.rep.made)
    ∧ ∃ before after : List Made, offered (before ++ own ++ after) ∧ (before ++ after).Perm apart
        ∧ failovers (before ++ after) = failovers apart)
  ∧ (∀ s : State,
    let w := s.outputs.driveFrame
    s.outputStep.rep = w.rep.made.foldl Report.admitOne { w.rep with made := [] }
    ∧ ∃ later : List Made, w.rep.made = s.rep.made ++ later)
  ∧ (∀ r : Report,
    let rows (i : Fin 4) (rest : List (Fin 4)) : Prop :=
      r.sendList = i :: rest ∧ r.gateOpen = true ∧ (r.queue = [] ∨ r.lastItem = .event)
    (∀ rp : Reply, r.arbiter (some rp) = (r, rp.item))
    ∧ (r.pause = true → r.arbiter none = (r, List.replicate 32 0))
    ∧ (r.pause = false → (∀ (i : Fin 4) (rest : List (Fin 4)), ¬ rows i rest) → r.queue = [] →
        r.arbiter none = (r, List.replicate 32 0))
    ∧ (∀ (e : Record) (rest : List Record), r.pause = false →
        (∀ (i : Fin 4) (rest' : List (Fin 4)), ¬ rows i rest') → r.queue = e :: rest →
        r.arbiter none = ({ r with
          queue := rest, lastItem := .event, gateOpen := if rest.length ≤ 16 then true else r.gateOpen }, e.item))
    ∧ (∀ (i : Fin 4) (rest : List (Fin 4)) (row : Row), r.pause = false → rows i rest →
        r.buffers[i].rows[r.buffers[i].sentRows]? = some row →
        let b := r.buffers[i]
        let last := b.sentRows + 1 = b.rows.length
        let q := r.arbiter none
        q.2 = row.item i b.testNumber b.sentRows (decide last)
        ∧ q.1 = { r with
            lastItem := .row, sendList := if last then rest else r.sendList, attention := q.1.attention
            buffers := r.buffers.set i { b with state := if last then .sent else .sending, sentRows := b.sentRows + 1 } }
        ∧ r.AttentionFollows q.1))

/-- R135, R136, R134, R137, R138: what the capture store makes of the start of a test, of an event offered to the trigger,
of the row of a frame, which is formed after sub-tick 15, and of the entry to ENDING. R148: at each of them
CAPTURE_WAITING becomes pending when its level becomes true, as where the last FREE buffer begins to record while another
is SENT; it stops being pending when the level becomes false; otherwise it stays. That an empty queue lets the part's own
clock form the row, as the step after sub-tick 15 with nothing else due, is the model's choice (log 2). -/
def Obligations.CaptureRows : Prop :=
  (∀ s : State,
    let t := s.captureStart
    let b := s.rep.buffers
    (s.plan.capture[0] ≠ 1 → t = s.withRep { s.rep with activity := .off })
    ∧ (s.plan.capture[0] = 1 → ∀ i : Fin 4, b[i].state = .free → (∀ j : Fin 4, j < i → b[j].state ≠ .free) →
        t.rep = { s.rep with
          activity := .on, buffers := b.set i ⟨.recording, s.seq.testNumber, [], 0, 0, 0, false, 0⟩
          attention := t.rep.attention }
        ∧ s.rep.AttentionFollows t.rep)
    ∧ (s.plan.capture[0] = 1 → (∀ i : Fin 4, b[i].state ≠ .free) →
        t = (s.withRep { s.rep with activity := .waiting }).plusMade [⟨s.seq.testNumber, 16 * s.seq.testFrame,
          .captureUnavailable none ((allFin 4).countP fun i => b[i].state = .sent) s.rep.sendList.length, false⟩]))
  ∧ (∀ (ev : Cond) (stamp : Nat) (s : State) (i : Fin 4),
    let t := s.offerCapture ev stamp
    let b := s.rep.buffers
    let live (j : Fin 4) : Prop := b[j].state = .recording ∨ b[j].state = .triggered
    let matched := (⟨Kind.ofCode s.plan.capture[1].toNat |>.getD .none, s.plan.capture[2].toNat⟩ : Cond) = ev
    (s.rep.activity = .on → matched → b[i].state = .recording → (∀ j : Fin 4, j < i → ¬ live j) →
      t.rep = { s.rep with
        buffers := b.set i { b[i] with
          state := .triggered, trigRow := b[i].rows.length, trigFrame := s.seq.testFrame, trigTime := stamp } })
    ∧ ((s.rep.activity ≠ .on ∨ ¬ matched ∨ ∀ j : Fin 4, b[j].state ≠ .recording) → t = s))
  ∧ (∀ (r : Row) (s : State) (i : Fin 4),
    let t := s.addRow r
    let b := s.rep.buffers
    let pre : Nat := 256 * s.plan.capture[3].toNat + s.plan.capture[4].toNat
    let live (j : Fin 4) : Prop := b[j].state = .recording ∨ b[j].state = .triggered
    let all := b[i].rows ++ [r]
    let full := b.set i { b[i] with state := .full, rows := all }
    let rec' (m : Body) : Made := ⟨s.seq.testNumber, 16 * s.seq.testFrame, m, false⟩
    let ready := rec' (.captureReady i all.length b[i].trigRow b[i].trigFrame b[i].trigTime b[i].truncated)
    t = s.withRep { s.rep with
      buffers := t.rep.buffers, made := t.rep.made, activity := t.rep.activity, sendList := t.rep.sendList
      attention := t.rep.attention }
    ∧ s.rep.AttentionFollows t.rep
    ∧ ((∀ j : Fin 4, ¬ live j) → t = s)
    ∧ (live i → (∀ j : Fin 4, j < i → ¬ live j) →
      (b[i].state = .recording → t.rep.buffers = b.set i { b[i] with rows := all.drop (all.length - pre) }
        ∧ t.rep.made = s.rep.made ∧ t.rep.activity = s.rep.activity ∧ t.rep.sendList = s.rep.sendList)
      ∧ (b[i].state = .triggered → all.length ≠ b[i].trigRow + 1024 - pre →
        t.rep.buffers = b.set i { b[i] with rows := all }
        ∧ t.rep.made = s.rep.made ∧ t.rep.activity = s.rep.activity ∧ t.rep.sendList = s.rep.sendList)
      ∧ (b[i].state = .triggered → all.length = b[i].trigRow + 1024 - pre → t.rep.sendList = s.rep.sendList ++ [i]
        ∧ (∀ k : Fin 4, b[k].state = .free → (∀ j : Fin 4, j < k → b[j].state ≠ .free) →
            t.rep.buffers = full.set k ⟨.recording, s.seq.testNumber, [], 0, 0, 0, false, 0⟩
            ∧ t.rep.made = s.rep.made ++ [ready] ∧ t.rep.activity = s.rep.activity)
        ∧ ((∀ k : Fin 4, b[k].state ≠ .free) → t.rep.buffers = full ∧ t.rep.activity = .waiting
            ∧ t.rep.made = s.rep.made ++ [ready, rec' (.captureUnavailable (some i)
                ((allFin 4).countP fun j => b[j].state = .sent) (s.rep.sendList.length + 1))]))))
  ∧ (∀ s : State, s.pending = [] → s.frame.stage = .closed → s.dueStep = none → s.checkIsLate = false →
    s.clock.slotDone = false → s.clock.subtick = 15 →
      let row : Row := ⟨s.frame.gap, s.out.delivered, Vector.ofFn fun i => s.scan.inputs[i].settled,
        Vector.ofFn fun l => decide (s.LineHigh l)⟩
      step s = .next ((if s.seq.phase = .running ∨ s.seq.phase = .ending then s.addRow row else s).flush.withClock
        { s.clock with slotDone := true }))
  ∧ (∀ (s : State) (e : Nat) (i : Fin 4),
    let t := s.captureClose e
    let b := s.rep.buffers
    let live (j : Fin 4) : Prop := b[j].state = .recording ∨ b[j].state = .triggered
    let ready : Made := ⟨s.seq.testNumber, 16 * e,
      .captureReady i b[i].rows.length b[i].trigRow b[i].trigFrame b[i].trigTime true, false⟩
    let freed := b.set i ⟨.free, 0, [], 0, 0, 0, false, 0⟩
    t = s.withRep { s.rep with
      buffers := t.rep.buffers, made := t.rep.made, activity := .off, sendList := t.rep.sendList
      attention := t.rep.attention }
    ∧ s.rep.AttentionFollows t.rep
    ∧ ((∀ j : Fin 4, ¬ live j) → t = s.withRep { s.rep with activity := .off })
    ∧ (live i → (∀ j : Fin 4, j < i → ¬ live j) →
      (b[i].state = .recording → t.rep.buffers = freed ∧ t.rep.made = s.rep.made ∧ t.rep.sendList = s.rep.sendList)
      ∧ (b[i].state = .triggered → b[i].rows = [] →
          t.rep.buffers = freed ∧ t.rep.made = s.rep.made ++ [ready] ∧ t.rep.sendList = s.rep.sendList)
      ∧ (b[i].state = .triggered → b[i].rows ≠ [] →
          t.rep.buffers = b.set i { b[i] with state := .full, truncated := true }
          ∧ t.rep.made = s.rep.made ++ [ready] ∧ t.rep.sendList = s.rep.sendList ++ [i])))

/-! ### The wire -/

/-- R161, R150, 0.6.10, 0.6.11: a sample frame laid out as the spec gives it is good, and is read back whole; every drive and
answer frame the part forms has its length and closes with the CRC of its body. R160, R161: the 32 bytes of the three items
of the return slot, with the codes of statuses and record types, and the 24 payload bytes of each of the nineteen record
types, packed by R160 from the table of its chapter; that a level a record lists is coded as an enumerated value, ACTIVE
0 and INACTIVE 1, and that a field without a listed range has the width of its values, is read by inference (log 19). -/
def Obligations.FrameEncoding : Prop :=
  (∀ (arrival sequence : Nat) (samples : Vector Int 12) (slot : ControlSlot), sequence < 65536 →
    (∀ c : Fin 12, -32768 ≤ samples[c] ∧ samples[c] ≤ 32767) →
    let body := byte2 sequence ++ [0x01, 0x00] ++ samples.toList.flatMap sample2
      ++ [slot.msg.tag, slot.code, slot.msg.indexA, slot.msg.indexB] ++ slot.msg.payload.toList
    let frame := sealFrame 0xE5A7 body
    frame.length = 56 ∧ goodSampleFrame frame = true ∧ heldOf arrival frame = ⟨arrival, sequence, samples, slot⟩)
  ∧ (∀ (seq : Nat) (samples : Vector Int 14) (route : Vector (Option (Fin 14)) 12),
      let f := driveBytes seq samples route
      f.length = 46
      ∧ f.take 44 = [0xD2, 0xC4] ++ byte2 seq ++ samples.toList.flatMap sample2
          ++ route.toList.map (fun r => r.elim 0xFF fun p => BitVec.ofNat 8 p.val)
      ∧ f.drop 44 = byte2 (crc ((f.drop 2).take 42)).toNat)
  ∧ (∀ (echo att status : Nat) (item : List Byte), item.length = 32 →
      let f := answerBytes echo att status item
      f.length = 40 ∧ f.take 38 = [0x5A, 0x7E] ++ byte2 echo ++ [BitVec.ofNat 8 att, BitVec.ofNat 8 status] ++ item
      ∧ f.drop 38 = byte2 (crc ((f.drop 2).take 36)).toNat)
  ∧ (let byte (n : Nat) : Byte := BitVec.ofNat 8 n
    let two (n : Nat) : List Byte := [byte (n / 256), byte n]
    let four (n : Nat) : List Byte := two (n / 65536) ++ two n
    let sample (x : Int) : List Byte := two (BitVec.ofInt 16 x).toNat
    let set (n : Nat) (b : Fin n → Bool) : Byte := byte ((List.finRange n).map fun i => if b i then 2 ^ i.val else 0).sum
    (∀ r : Reply, r.payload.length = 28 → r.item = [0x01, r.tag, byte (statusCode r.status), r.code] ++ r.payload)
    ∧ (∀ r : Record,
      let payload := eventPayload r.body
      r.item.length = 32
      ∧ r.item.take 8 = [0x02, byte (recordType r.body), byte r.lost, byte r.testNo] ++ four r.time
      ∧ r.item.drop 8 = payload ++ List.replicate (24 - payload.length) 0)
    ∧ (∀ (r : Row) (b : Fin 4) (testNo index : Nat) (last : Bool),
      r.item b testNo index last = [0x03, byte b, byte testNo] ++ two index
        ++ [byte ((if last then 1 else 0) + if r.gap then 2 else 0)] ++ r.outputs.toList.flatMap sample
        ++ [set 8 fun i => r.inputs[i], set 4 fun k => r.lines[k]]))

/-! ### What every step keeps -/

/-- R132, R131, R144: every step keeps the event queue within its bounds and the capture gate as the depth requires. -/
def Obligations.StepKeepsQueueInv : Prop :=
  ∀ s t : State, s.QueueInv → step s = .next t → t.QueueInv

/-- R154, R155, R38: every step keeps the phase IDLE outside LOCKED, and a RESYNC within its frame. -/
def Obligations.StepKeepsLinkInv : Prop :=
  ∀ s t : State, s.LinkInv → step s = .next t → t.LinkInv

/-- R75: every step keeps each physical channel the target of at most one map entry, and no SPARE a target. -/
def Obligations.StepKeepsMapInv : Prop :=
  ∀ s t : State, s.MapInv → step s = .next t → t.MapInv

/-- R84: every step keeps the request list free of repeats, at most 12 long, and without the channel being served. -/
def Obligations.StepKeepsRequestInv : Prop :=
  ∀ s t : State, s.RequestInv → step s = .next t → t.RequestInv

/-- R135, R138: every step keeps at most one buffer RECORDING or TRIGGERED, and none unless the capture activity is ON. -/
def Obligations.StepKeepsCaptureInv : Prop :=
  ∀ s t : State, s.CaptureInv → step s = .next t → t.CaptureInv

/-- 3.1, R42, R53, R55, R56, R62: every step keeps the engine's items in their ranges. -/
def Obligations.StepKeepsEngineInv : Prop :=
  ∀ s t : State, s.EngineInv → step s = .next t → t.EngineInv

/-- R132, R133: but for POWER_UP_RESET and the message RESET_PART, a step takes no record from the event queue, or its
oldest alone, which the return slot of an answer frame then carries; every other record, TIMER_RESULT, CHANNEL_FAILED and
TEST_END among them, stays in its place. -/
def Obligations.RecordsLeaveByBeingSent : Prop :=
  ∀ s t : State, step s = .next t → ¬ s.TakesReset →
    s.rep.queue <+: t.rep.queue
    ∨ ∃ (r : Record) (rest : List Record), s.rep.queue = r :: rest ∧ rest <+: t.rep.queue
        ∧ (t.answerOut.drop 6).take 32 = r.item

/-- R2: a step that leaves the part in any phase but IDLE has changed no record of the test definition. -/
def Obligations.DefinitionStandsOutsideIdle : Prop :=
  ∀ s t : State, step s = .next t → t.seq.phase ≠ .idle → s.plan.SameDefinition t.plan

/-! ### The parts of a frame and the whole -/

/-- R162, R168: a step of the frame-taken event commanded by itself, and then the window's close, come to the same state
as the window's close alone; so does a message commanded that the held frame carries. That a part may be commanded by itself,
and changes nothing where it is not due, is the model's choice (log 3, log 4). TIMER_EXPIRED and CHATTER_END are
left out: the records they make join the others of the boundary in a free order (log 6, log 41), which a command ahead of
the others may change; TimerDueAndExpired and ChatterWindows say that the boundary brings them about by itself. -/
def Obligations.PartsOfTheFrame : Prop :=
  (∀ (c : Instr) (s t : State),
    (c = .armCancel ∨ c = .testStart ∨ c = .stateExit ∨ c = .durationLimit ∨ c = .endRequest ∨ c = .testComplete
      ∨ c = .failoverService ∨ c = .zeroFound ∨ c = .failoverComplete ∨ (∃ k, c = .timeoutDue k) ∨ c = .dwellDone
      ∨ c = .verificationOutcome ∨ (s.recv.state = .locked ∧ ∃ i, c = .chatterWindowClose i)) →
    exec c s = .next t → exec .arrivalWindowClose t = exec .arrivalWindowClose s)
  ∧ (∀ (c : Instr) (code : Byte) (m : Msg) (h : HeldFrame) (s t : State), messageOf c = some (code, m) →
      s.frame.stage = .closed → s.recv.state = .locked → s.recv.held = some h → h.slot = ⟨code, m⟩ →
      exec c s = .next t → exec .arrivalWindowClose t = exec .arrivalWindowClose s)

end Statements
end

