-- ==== Sys2Proof/Laws/State.lean ====
section
/-! SUPPORT. One lemma for each block and each replacement of a block, so that no proof unfolds a record update. -/

namespace Sys2Proof.Machine

@[simp] theorem State.withRecv_recv (s : State) (x : Receiver) : (s.withRecv x).recv = x := rfl
@[simp] theorem State.withRecv_clock (s : State) (x : Receiver) : (s.withRecv x).clock = s.clock := rfl
@[simp] theorem State.withRecv_plan (s : State) (x : Receiver) : (s.withRecv x).plan = s.plan := rfl
@[simp] theorem State.withRecv_seq (s : State) (x : Receiver) : (s.withRecv x).seq = s.seq := rfl
@[simp] theorem State.withRecv_eng (s : State) (x : Receiver) : (s.withRecv x).eng = s.eng := rfl
@[simp] theorem State.withRecv_out (s : State) (x : Receiver) : (s.withRecv x).out = s.out := rfl
@[simp] theorem State.withRecv_sup (s : State) (x : Receiver) : (s.withRecv x).sup = s.sup := rfl
@[simp] theorem State.withRecv_scan (s : State) (x : Receiver) : (s.withRecv x).scan = s.scan := rfl
@[simp] theorem State.withRecv_brk (s : State) (x : Receiver) : (s.withRecv x).brk = s.brk := rfl
@[simp] theorem State.withRecv_lines (s : State) (x : Receiver) : (s.withRecv x).lines = s.lines := rfl
@[simp] theorem State.withRecv_timers (s : State) (x : Receiver) : (s.withRecv x).timers = s.timers := rfl
@[simp] theorem State.withRecv_rep (s : State) (x : Receiver) : (s.withRecv x).rep = s.rep := rfl
@[simp] theorem State.withRecv_reply (s : State) (x : Receiver) : (s.withRecv x).reply = s.reply := rfl
@[simp] theorem State.withRecv_frame (s : State) (x : Receiver) : (s.withRecv x).frame = s.frame := rfl
@[simp] theorem State.withRecv_answerOut (s : State) (x : Receiver) : (s.withRecv x).answerOut = s.answerOut := rfl
@[simp] theorem State.withRecv_driveOut (s : State) (x : Receiver) : (s.withRecv x).driveOut = s.driveOut := rfl
@[simp] theorem State.withRecv_choices (s : State) (x : Receiver) : (s.withRecv x).choices = s.choices := rfl
@[simp] theorem State.withRecv_pending (s : State) (x : Receiver) : (s.withRecv x).pending = s.pending := rfl

@[simp] theorem State.withClock_recv (s : State) (x : Clock) : (s.withClock x).recv = s.recv := rfl
@[simp] theorem State.withClock_clock (s : State) (x : Clock) : (s.withClock x).clock = x := rfl
@[simp] theorem State.withClock_plan (s : State) (x : Clock) : (s.withClock x).plan = s.plan := rfl
@[simp] theorem State.withClock_seq (s : State) (x : Clock) : (s.withClock x).seq = s.seq := rfl
@[simp] theorem State.withClock_eng (s : State) (x : Clock) : (s.withClock x).eng = s.eng := rfl
@[simp] theorem State.withClock_out (s : State) (x : Clock) : (s.withClock x).out = s.out := rfl
@[simp] theorem State.withClock_sup (s : State) (x : Clock) : (s.withClock x).sup = s.sup := rfl
@[simp] theorem State.withClock_scan (s : State) (x : Clock) : (s.withClock x).scan = s.scan := rfl
@[simp] theorem State.withClock_brk (s : State) (x : Clock) : (s.withClock x).brk = s.brk := rfl
@[simp] theorem State.withClock_lines (s : State) (x : Clock) : (s.withClock x).lines = s.lines := rfl
@[simp] theorem State.withClock_timers (s : State) (x : Clock) : (s.withClock x).timers = s.timers := rfl
@[simp] theorem State.withClock_rep (s : State) (x : Clock) : (s.withClock x).rep = s.rep := rfl
@[simp] theorem State.withClock_reply (s : State) (x : Clock) : (s.withClock x).reply = s.reply := rfl
@[simp] theorem State.withClock_frame (s : State) (x : Clock) : (s.withClock x).frame = s.frame := rfl
@[simp] theorem State.withClock_answerOut (s : State) (x : Clock) : (s.withClock x).answerOut = s.answerOut := rfl
@[simp] theorem State.withClock_driveOut (s : State) (x : Clock) : (s.withClock x).driveOut = s.driveOut := rfl
@[simp] theorem State.withClock_choices (s : State) (x : Clock) : (s.withClock x).choices = s.choices := rfl
@[simp] theorem State.withClock_pending (s : State) (x : Clock) : (s.withClock x).pending = s.pending := rfl

@[simp] theorem State.withPlan_recv (s : State) (x : Plan) : (s.withPlan x).recv = s.recv := rfl
@[simp] theorem State.withPlan_clock (s : State) (x : Plan) : (s.withPlan x).clock = s.clock := rfl
@[simp] theorem State.withPlan_plan (s : State) (x : Plan) : (s.withPlan x).plan = x := rfl
@[simp] theorem State.withPlan_seq (s : State) (x : Plan) : (s.withPlan x).seq = s.seq := rfl
@[simp] theorem State.withPlan_eng (s : State) (x : Plan) : (s.withPlan x).eng = s.eng := rfl
@[simp] theorem State.withPlan_out (s : State) (x : Plan) : (s.withPlan x).out = s.out := rfl
@[simp] theorem State.withPlan_sup (s : State) (x : Plan) : (s.withPlan x).sup = s.sup := rfl
@[simp] theorem State.withPlan_scan (s : State) (x : Plan) : (s.withPlan x).scan = s.scan := rfl
@[simp] theorem State.withPlan_brk (s : State) (x : Plan) : (s.withPlan x).brk = s.brk := rfl
@[simp] theorem State.withPlan_lines (s : State) (x : Plan) : (s.withPlan x).lines = s.lines := rfl
@[simp] theorem State.withPlan_timers (s : State) (x : Plan) : (s.withPlan x).timers = s.timers := rfl
@[simp] theorem State.withPlan_rep (s : State) (x : Plan) : (s.withPlan x).rep = s.rep := rfl
@[simp] theorem State.withPlan_reply (s : State) (x : Plan) : (s.withPlan x).reply = s.reply := rfl
@[simp] theorem State.withPlan_frame (s : State) (x : Plan) : (s.withPlan x).frame = s.frame := rfl
@[simp] theorem State.withPlan_answerOut (s : State) (x : Plan) : (s.withPlan x).answerOut = s.answerOut := rfl
@[simp] theorem State.withPlan_driveOut (s : State) (x : Plan) : (s.withPlan x).driveOut = s.driveOut := rfl
@[simp] theorem State.withPlan_choices (s : State) (x : Plan) : (s.withPlan x).choices = s.choices := rfl
@[simp] theorem State.withPlan_pending (s : State) (x : Plan) : (s.withPlan x).pending = s.pending := rfl

@[simp] theorem State.withSeq_recv (s : State) (x : Sequencer) : (s.withSeq x).recv = s.recv := rfl
@[simp] theorem State.withSeq_clock (s : State) (x : Sequencer) : (s.withSeq x).clock = s.clock := rfl
@[simp] theorem State.withSeq_plan (s : State) (x : Sequencer) : (s.withSeq x).plan = s.plan := rfl
@[simp] theorem State.withSeq_seq (s : State) (x : Sequencer) : (s.withSeq x).seq = x := rfl
@[simp] theorem State.withSeq_eng (s : State) (x : Sequencer) : (s.withSeq x).eng = s.eng := rfl
@[simp] theorem State.withSeq_out (s : State) (x : Sequencer) : (s.withSeq x).out = s.out := rfl
@[simp] theorem State.withSeq_sup (s : State) (x : Sequencer) : (s.withSeq x).sup = s.sup := rfl
@[simp] theorem State.withSeq_scan (s : State) (x : Sequencer) : (s.withSeq x).scan = s.scan := rfl
@[simp] theorem State.withSeq_brk (s : State) (x : Sequencer) : (s.withSeq x).brk = s.brk := rfl
@[simp] theorem State.withSeq_lines (s : State) (x : Sequencer) : (s.withSeq x).lines = s.lines := rfl
@[simp] theorem State.withSeq_timers (s : State) (x : Sequencer) : (s.withSeq x).timers = s.timers := rfl
@[simp] theorem State.withSeq_rep (s : State) (x : Sequencer) : (s.withSeq x).rep = s.rep := rfl
@[simp] theorem State.withSeq_reply (s : State) (x : Sequencer) : (s.withSeq x).reply = s.reply := rfl
@[simp] theorem State.withSeq_frame (s : State) (x : Sequencer) : (s.withSeq x).frame = s.frame := rfl
@[simp] theorem State.withSeq_answerOut (s : State) (x : Sequencer) : (s.withSeq x).answerOut = s.answerOut := rfl
@[simp] theorem State.withSeq_driveOut (s : State) (x : Sequencer) : (s.withSeq x).driveOut = s.driveOut := rfl
@[simp] theorem State.withSeq_choices (s : State) (x : Sequencer) : (s.withSeq x).choices = s.choices := rfl
@[simp] theorem State.withSeq_pending (s : State) (x : Sequencer) : (s.withSeq x).pending = s.pending := rfl

@[simp] theorem State.withEng_recv (s : State) (x : Vector Channel 12) : (s.withEng x).recv = s.recv := rfl
@[simp] theorem State.withEng_clock (s : State) (x : Vector Channel 12) : (s.withEng x).clock = s.clock := rfl
@[simp] theorem State.withEng_plan (s : State) (x : Vector Channel 12) : (s.withEng x).plan = s.plan := rfl
@[simp] theorem State.withEng_seq (s : State) (x : Vector Channel 12) : (s.withEng x).seq = s.seq := rfl
@[simp] theorem State.withEng_eng (s : State) (x : Vector Channel 12) : (s.withEng x).eng = x := rfl
@[simp] theorem State.withEng_out (s : State) (x : Vector Channel 12) : (s.withEng x).out = s.out := rfl
@[simp] theorem State.withEng_sup (s : State) (x : Vector Channel 12) : (s.withEng x).sup = s.sup := rfl
@[simp] theorem State.withEng_scan (s : State) (x : Vector Channel 12) : (s.withEng x).scan = s.scan := rfl
@[simp] theorem State.withEng_brk (s : State) (x : Vector Channel 12) : (s.withEng x).brk = s.brk := rfl
@[simp] theorem State.withEng_lines (s : State) (x : Vector Channel 12) : (s.withEng x).lines = s.lines := rfl
@[simp] theorem State.withEng_timers (s : State) (x : Vector Channel 12) : (s.withEng x).timers = s.timers := rfl
@[simp] theorem State.withEng_rep (s : State) (x : Vector Channel 12) : (s.withEng x).rep = s.rep := rfl
@[simp] theorem State.withEng_reply (s : State) (x : Vector Channel 12) : (s.withEng x).reply = s.reply := rfl
@[simp] theorem State.withEng_frame (s : State) (x : Vector Channel 12) : (s.withEng x).frame = s.frame := rfl
@[simp] theorem State.withEng_answerOut (s : State) (x : Vector Channel 12) : (s.withEng x).answerOut = s.answerOut := rfl
@[simp] theorem State.withEng_driveOut (s : State) (x : Vector Channel 12) : (s.withEng x).driveOut = s.driveOut := rfl
@[simp] theorem State.withEng_choices (s : State) (x : Vector Channel 12) : (s.withEng x).choices = s.choices := rfl
@[simp] theorem State.withEng_pending (s : State) (x : Vector Channel 12) : (s.withEng x).pending = s.pending := rfl

@[simp] theorem State.withOut_recv (s : State) (x : OutputStage) : (s.withOut x).recv = s.recv := rfl
@[simp] theorem State.withOut_clock (s : State) (x : OutputStage) : (s.withOut x).clock = s.clock := rfl
@[simp] theorem State.withOut_plan (s : State) (x : OutputStage) : (s.withOut x).plan = s.plan := rfl
@[simp] theorem State.withOut_seq (s : State) (x : OutputStage) : (s.withOut x).seq = s.seq := rfl
@[simp] theorem State.withOut_eng (s : State) (x : OutputStage) : (s.withOut x).eng = s.eng := rfl
@[simp] theorem State.withOut_out (s : State) (x : OutputStage) : (s.withOut x).out = x := rfl
@[simp] theorem State.withOut_sup (s : State) (x : OutputStage) : (s.withOut x).sup = s.sup := rfl
@[simp] theorem State.withOut_scan (s : State) (x : OutputStage) : (s.withOut x).scan = s.scan := rfl
@[simp] theorem State.withOut_brk (s : State) (x : OutputStage) : (s.withOut x).brk = s.brk := rfl
@[simp] theorem State.withOut_lines (s : State) (x : OutputStage) : (s.withOut x).lines = s.lines := rfl
@[simp] theorem State.withOut_timers (s : State) (x : OutputStage) : (s.withOut x).timers = s.timers := rfl
@[simp] theorem State.withOut_rep (s : State) (x : OutputStage) : (s.withOut x).rep = s.rep := rfl
@[simp] theorem State.withOut_reply (s : State) (x : OutputStage) : (s.withOut x).reply = s.reply := rfl
@[simp] theorem State.withOut_frame (s : State) (x : OutputStage) : (s.withOut x).frame = s.frame := rfl
@[simp] theorem State.withOut_answerOut (s : State) (x : OutputStage) : (s.withOut x).answerOut = s.answerOut := rfl
@[simp] theorem State.withOut_driveOut (s : State) (x : OutputStage) : (s.withOut x).driveOut = s.driveOut := rfl
@[simp] theorem State.withOut_choices (s : State) (x : OutputStage) : (s.withOut x).choices = s.choices := rfl
@[simp] theorem State.withOut_pending (s : State) (x : OutputStage) : (s.withOut x).pending = s.pending := rfl

@[simp] theorem State.withSup_recv (s : State) (x : Supervisor) : (s.withSup x).recv = s.recv := rfl
@[simp] theorem State.withSup_clock (s : State) (x : Supervisor) : (s.withSup x).clock = s.clock := rfl
@[simp] theorem State.withSup_plan (s : State) (x : Supervisor) : (s.withSup x).plan = s.plan := rfl
@[simp] theorem State.withSup_seq (s : State) (x : Supervisor) : (s.withSup x).seq = s.seq := rfl
@[simp] theorem State.withSup_eng (s : State) (x : Supervisor) : (s.withSup x).eng = s.eng := rfl
@[simp] theorem State.withSup_out (s : State) (x : Supervisor) : (s.withSup x).out = s.out := rfl
@[simp] theorem State.withSup_sup (s : State) (x : Supervisor) : (s.withSup x).sup = x := rfl
@[simp] theorem State.withSup_scan (s : State) (x : Supervisor) : (s.withSup x).scan = s.scan := rfl
@[simp] theorem State.withSup_brk (s : State) (x : Supervisor) : (s.withSup x).brk = s.brk := rfl
@[simp] theorem State.withSup_lines (s : State) (x : Supervisor) : (s.withSup x).lines = s.lines := rfl
@[simp] theorem State.withSup_timers (s : State) (x : Supervisor) : (s.withSup x).timers = s.timers := rfl
@[simp] theorem State.withSup_rep (s : State) (x : Supervisor) : (s.withSup x).rep = s.rep := rfl
@[simp] theorem State.withSup_reply (s : State) (x : Supervisor) : (s.withSup x).reply = s.reply := rfl
@[simp] theorem State.withSup_frame (s : State) (x : Supervisor) : (s.withSup x).frame = s.frame := rfl
@[simp] theorem State.withSup_answerOut (s : State) (x : Supervisor) : (s.withSup x).answerOut = s.answerOut := rfl
@[simp] theorem State.withSup_driveOut (s : State) (x : Supervisor) : (s.withSup x).driveOut = s.driveOut := rfl
@[simp] theorem State.withSup_choices (s : State) (x : Supervisor) : (s.withSup x).choices = s.choices := rfl
@[simp] theorem State.withSup_pending (s : State) (x : Supervisor) : (s.withSup x).pending = s.pending := rfl

@[simp] theorem State.withScan_recv (s : State) (x : Scanner) : (s.withScan x).recv = s.recv := rfl
@[simp] theorem State.withScan_clock (s : State) (x : Scanner) : (s.withScan x).clock = s.clock := rfl
@[simp] theorem State.withScan_plan (s : State) (x : Scanner) : (s.withScan x).plan = s.plan := rfl
@[simp] theorem State.withScan_seq (s : State) (x : Scanner) : (s.withScan x).seq = s.seq := rfl
@[simp] theorem State.withScan_eng (s : State) (x : Scanner) : (s.withScan x).eng = s.eng := rfl
@[simp] theorem State.withScan_out (s : State) (x : Scanner) : (s.withScan x).out = s.out := rfl
@[simp] theorem State.withScan_sup (s : State) (x : Scanner) : (s.withScan x).sup = s.sup := rfl
@[simp] theorem State.withScan_scan (s : State) (x : Scanner) : (s.withScan x).scan = x := rfl
@[simp] theorem State.withScan_brk (s : State) (x : Scanner) : (s.withScan x).brk = s.brk := rfl
@[simp] theorem State.withScan_lines (s : State) (x : Scanner) : (s.withScan x).lines = s.lines := rfl
@[simp] theorem State.withScan_timers (s : State) (x : Scanner) : (s.withScan x).timers = s.timers := rfl
@[simp] theorem State.withScan_rep (s : State) (x : Scanner) : (s.withScan x).rep = s.rep := rfl
@[simp] theorem State.withScan_reply (s : State) (x : Scanner) : (s.withScan x).reply = s.reply := rfl
@[simp] theorem State.withScan_frame (s : State) (x : Scanner) : (s.withScan x).frame = s.frame := rfl
@[simp] theorem State.withScan_answerOut (s : State) (x : Scanner) : (s.withScan x).answerOut = s.answerOut := rfl
@[simp] theorem State.withScan_driveOut (s : State) (x : Scanner) : (s.withScan x).driveOut = s.driveOut := rfl
@[simp] theorem State.withScan_choices (s : State) (x : Scanner) : (s.withScan x).choices = s.choices := rfl
@[simp] theorem State.withScan_pending (s : State) (x : Scanner) : (s.withScan x).pending = s.pending := rfl

@[simp] theorem State.withBrk_recv (s : State) (x : Breaker) : (s.withBrk x).recv = s.recv := rfl
@[simp] theorem State.withBrk_clock (s : State) (x : Breaker) : (s.withBrk x).clock = s.clock := rfl
@[simp] theorem State.withBrk_plan (s : State) (x : Breaker) : (s.withBrk x).plan = s.plan := rfl
@[simp] theorem State.withBrk_seq (s : State) (x : Breaker) : (s.withBrk x).seq = s.seq := rfl
@[simp] theorem State.withBrk_eng (s : State) (x : Breaker) : (s.withBrk x).eng = s.eng := rfl
@[simp] theorem State.withBrk_out (s : State) (x : Breaker) : (s.withBrk x).out = s.out := rfl
@[simp] theorem State.withBrk_sup (s : State) (x : Breaker) : (s.withBrk x).sup = s.sup := rfl
@[simp] theorem State.withBrk_scan (s : State) (x : Breaker) : (s.withBrk x).scan = s.scan := rfl
@[simp] theorem State.withBrk_brk (s : State) (x : Breaker) : (s.withBrk x).brk = x := rfl
@[simp] theorem State.withBrk_lines (s : State) (x : Breaker) : (s.withBrk x).lines = s.lines := rfl
@[simp] theorem State.withBrk_timers (s : State) (x : Breaker) : (s.withBrk x).timers = s.timers := rfl
@[simp] theorem State.withBrk_rep (s : State) (x : Breaker) : (s.withBrk x).rep = s.rep := rfl
@[simp] theorem State.withBrk_reply (s : State) (x : Breaker) : (s.withBrk x).reply = s.reply := rfl
@[simp] theorem State.withBrk_frame (s : State) (x : Breaker) : (s.withBrk x).frame = s.frame := rfl
@[simp] theorem State.withBrk_answerOut (s : State) (x : Breaker) : (s.withBrk x).answerOut = s.answerOut := rfl
@[simp] theorem State.withBrk_driveOut (s : State) (x : Breaker) : (s.withBrk x).driveOut = s.driveOut := rfl
@[simp] theorem State.withBrk_choices (s : State) (x : Breaker) : (s.withBrk x).choices = s.choices := rfl
@[simp] theorem State.withBrk_pending (s : State) (x : Breaker) : (s.withBrk x).pending = s.pending := rfl

@[simp] theorem State.withLines_recv (s : State) (x : Vector Line 4) : (s.withLines x).recv = s.recv := rfl
@[simp] theorem State.withLines_clock (s : State) (x : Vector Line 4) : (s.withLines x).clock = s.clock := rfl
@[simp] theorem State.withLines_plan (s : State) (x : Vector Line 4) : (s.withLines x).plan = s.plan := rfl
@[simp] theorem State.withLines_seq (s : State) (x : Vector Line 4) : (s.withLines x).seq = s.seq := rfl
@[simp] theorem State.withLines_eng (s : State) (x : Vector Line 4) : (s.withLines x).eng = s.eng := rfl
@[simp] theorem State.withLines_out (s : State) (x : Vector Line 4) : (s.withLines x).out = s.out := rfl
@[simp] theorem State.withLines_sup (s : State) (x : Vector Line 4) : (s.withLines x).sup = s.sup := rfl
@[simp] theorem State.withLines_scan (s : State) (x : Vector Line 4) : (s.withLines x).scan = s.scan := rfl
@[simp] theorem State.withLines_brk (s : State) (x : Vector Line 4) : (s.withLines x).brk = s.brk := rfl
@[simp] theorem State.withLines_lines (s : State) (x : Vector Line 4) : (s.withLines x).lines = x := rfl
@[simp] theorem State.withLines_timers (s : State) (x : Vector Line 4) : (s.withLines x).timers = s.timers := rfl
@[simp] theorem State.withLines_rep (s : State) (x : Vector Line 4) : (s.withLines x).rep = s.rep := rfl
@[simp] theorem State.withLines_reply (s : State) (x : Vector Line 4) : (s.withLines x).reply = s.reply := rfl
@[simp] theorem State.withLines_frame (s : State) (x : Vector Line 4) : (s.withLines x).frame = s.frame := rfl
@[simp] theorem State.withLines_answerOut (s : State) (x : Vector Line 4) : (s.withLines x).answerOut = s.answerOut := rfl
@[simp] theorem State.withLines_driveOut (s : State) (x : Vector Line 4) : (s.withLines x).driveOut = s.driveOut := rfl
@[simp] theorem State.withLines_choices (s : State) (x : Vector Line 4) : (s.withLines x).choices = s.choices := rfl
@[simp] theorem State.withLines_pending (s : State) (x : Vector Line 4) : (s.withLines x).pending = s.pending := rfl

@[simp] theorem State.withTimers_recv (s : State) (x : TimerArray) : (s.withTimers x).recv = s.recv := rfl
@[simp] theorem State.withTimers_clock (s : State) (x : TimerArray) : (s.withTimers x).clock = s.clock := rfl
@[simp] theorem State.withTimers_plan (s : State) (x : TimerArray) : (s.withTimers x).plan = s.plan := rfl
@[simp] theorem State.withTimers_seq (s : State) (x : TimerArray) : (s.withTimers x).seq = s.seq := rfl
@[simp] theorem State.withTimers_eng (s : State) (x : TimerArray) : (s.withTimers x).eng = s.eng := rfl
@[simp] theorem State.withTimers_out (s : State) (x : TimerArray) : (s.withTimers x).out = s.out := rfl
@[simp] theorem State.withTimers_sup (s : State) (x : TimerArray) : (s.withTimers x).sup = s.sup := rfl
@[simp] theorem State.withTimers_scan (s : State) (x : TimerArray) : (s.withTimers x).scan = s.scan := rfl
@[simp] theorem State.withTimers_brk (s : State) (x : TimerArray) : (s.withTimers x).brk = s.brk := rfl
@[simp] theorem State.withTimers_lines (s : State) (x : TimerArray) : (s.withTimers x).lines = s.lines := rfl
@[simp] theorem State.withTimers_timers (s : State) (x : TimerArray) : (s.withTimers x).timers = x := rfl
@[simp] theorem State.withTimers_rep (s : State) (x : TimerArray) : (s.withTimers x).rep = s.rep := rfl
@[simp] theorem State.withTimers_reply (s : State) (x : TimerArray) : (s.withTimers x).reply = s.reply := rfl
@[simp] theorem State.withTimers_frame (s : State) (x : TimerArray) : (s.withTimers x).frame = s.frame := rfl
@[simp] theorem State.withTimers_answerOut (s : State) (x : TimerArray) : (s.withTimers x).answerOut = s.answerOut := rfl
@[simp] theorem State.withTimers_driveOut (s : State) (x : TimerArray) : (s.withTimers x).driveOut = s.driveOut := rfl
@[simp] theorem State.withTimers_choices (s : State) (x : TimerArray) : (s.withTimers x).choices = s.choices := rfl
@[simp] theorem State.withTimers_pending (s : State) (x : TimerArray) : (s.withTimers x).pending = s.pending := rfl

@[simp] theorem State.withRep_recv (s : State) (x : Report) : (s.withRep x).recv = s.recv := rfl
@[simp] theorem State.withRep_clock (s : State) (x : Report) : (s.withRep x).clock = s.clock := rfl
@[simp] theorem State.withRep_plan (s : State) (x : Report) : (s.withRep x).plan = s.plan := rfl
@[simp] theorem State.withRep_seq (s : State) (x : Report) : (s.withRep x).seq = s.seq := rfl
@[simp] theorem State.withRep_eng (s : State) (x : Report) : (s.withRep x).eng = s.eng := rfl
@[simp] theorem State.withRep_out (s : State) (x : Report) : (s.withRep x).out = s.out := rfl
@[simp] theorem State.withRep_sup (s : State) (x : Report) : (s.withRep x).sup = s.sup := rfl
@[simp] theorem State.withRep_scan (s : State) (x : Report) : (s.withRep x).scan = s.scan := rfl
@[simp] theorem State.withRep_brk (s : State) (x : Report) : (s.withRep x).brk = s.brk := rfl
@[simp] theorem State.withRep_lines (s : State) (x : Report) : (s.withRep x).lines = s.lines := rfl
@[simp] theorem State.withRep_timers (s : State) (x : Report) : (s.withRep x).timers = s.timers := rfl
@[simp] theorem State.withRep_rep (s : State) (x : Report) : (s.withRep x).rep = x := rfl
@[simp] theorem State.withRep_reply (s : State) (x : Report) : (s.withRep x).reply = s.reply := rfl
@[simp] theorem State.withRep_frame (s : State) (x : Report) : (s.withRep x).frame = s.frame := rfl
@[simp] theorem State.withRep_answerOut (s : State) (x : Report) : (s.withRep x).answerOut = s.answerOut := rfl
@[simp] theorem State.withRep_driveOut (s : State) (x : Report) : (s.withRep x).driveOut = s.driveOut := rfl
@[simp] theorem State.withRep_choices (s : State) (x : Report) : (s.withRep x).choices = s.choices := rfl
@[simp] theorem State.withRep_pending (s : State) (x : Report) : (s.withRep x).pending = s.pending := rfl

@[simp] theorem State.withReply_recv (s : State) (x : Option Reply) : (s.withReply x).recv = s.recv := rfl
@[simp] theorem State.withReply_clock (s : State) (x : Option Reply) : (s.withReply x).clock = s.clock := rfl
@[simp] theorem State.withReply_plan (s : State) (x : Option Reply) : (s.withReply x).plan = s.plan := rfl
@[simp] theorem State.withReply_seq (s : State) (x : Option Reply) : (s.withReply x).seq = s.seq := rfl
@[simp] theorem State.withReply_eng (s : State) (x : Option Reply) : (s.withReply x).eng = s.eng := rfl
@[simp] theorem State.withReply_out (s : State) (x : Option Reply) : (s.withReply x).out = s.out := rfl
@[simp] theorem State.withReply_sup (s : State) (x : Option Reply) : (s.withReply x).sup = s.sup := rfl
@[simp] theorem State.withReply_scan (s : State) (x : Option Reply) : (s.withReply x).scan = s.scan := rfl
@[simp] theorem State.withReply_brk (s : State) (x : Option Reply) : (s.withReply x).brk = s.brk := rfl
@[simp] theorem State.withReply_lines (s : State) (x : Option Reply) : (s.withReply x).lines = s.lines := rfl
@[simp] theorem State.withReply_timers (s : State) (x : Option Reply) : (s.withReply x).timers = s.timers := rfl
@[simp] theorem State.withReply_rep (s : State) (x : Option Reply) : (s.withReply x).rep = s.rep := rfl
@[simp] theorem State.withReply_reply (s : State) (x : Option Reply) : (s.withReply x).reply = x := rfl
@[simp] theorem State.withReply_frame (s : State) (x : Option Reply) : (s.withReply x).frame = s.frame := rfl
@[simp] theorem State.withReply_answerOut (s : State) (x : Option Reply) : (s.withReply x).answerOut = s.answerOut := rfl
@[simp] theorem State.withReply_driveOut (s : State) (x : Option Reply) : (s.withReply x).driveOut = s.driveOut := rfl
@[simp] theorem State.withReply_choices (s : State) (x : Option Reply) : (s.withReply x).choices = s.choices := rfl
@[simp] theorem State.withReply_pending (s : State) (x : Option Reply) : (s.withReply x).pending = s.pending := rfl

@[simp] theorem State.withFrame_recv (s : State) (x : FrameEvent) : (s.withFrame x).recv = s.recv := rfl
@[simp] theorem State.withFrame_clock (s : State) (x : FrameEvent) : (s.withFrame x).clock = s.clock := rfl
@[simp] theorem State.withFrame_plan (s : State) (x : FrameEvent) : (s.withFrame x).plan = s.plan := rfl
@[simp] theorem State.withFrame_seq (s : State) (x : FrameEvent) : (s.withFrame x).seq = s.seq := rfl
@[simp] theorem State.withFrame_eng (s : State) (x : FrameEvent) : (s.withFrame x).eng = s.eng := rfl
@[simp] theorem State.withFrame_out (s : State) (x : FrameEvent) : (s.withFrame x).out = s.out := rfl
@[simp] theorem State.withFrame_sup (s : State) (x : FrameEvent) : (s.withFrame x).sup = s.sup := rfl
@[simp] theorem State.withFrame_scan (s : State) (x : FrameEvent) : (s.withFrame x).scan = s.scan := rfl
@[simp] theorem State.withFrame_brk (s : State) (x : FrameEvent) : (s.withFrame x).brk = s.brk := rfl
@[simp] theorem State.withFrame_lines (s : State) (x : FrameEvent) : (s.withFrame x).lines = s.lines := rfl
@[simp] theorem State.withFrame_timers (s : State) (x : FrameEvent) : (s.withFrame x).timers = s.timers := rfl
@[simp] theorem State.withFrame_rep (s : State) (x : FrameEvent) : (s.withFrame x).rep = s.rep := rfl
@[simp] theorem State.withFrame_reply (s : State) (x : FrameEvent) : (s.withFrame x).reply = s.reply := rfl
@[simp] theorem State.withFrame_frame (s : State) (x : FrameEvent) : (s.withFrame x).frame = x := rfl
@[simp] theorem State.withFrame_answerOut (s : State) (x : FrameEvent) : (s.withFrame x).answerOut = s.answerOut := rfl
@[simp] theorem State.withFrame_driveOut (s : State) (x : FrameEvent) : (s.withFrame x).driveOut = s.driveOut := rfl
@[simp] theorem State.withFrame_choices (s : State) (x : FrameEvent) : (s.withFrame x).choices = s.choices := rfl
@[simp] theorem State.withFrame_pending (s : State) (x : FrameEvent) : (s.withFrame x).pending = s.pending := rfl

@[simp] theorem State.withAnswerOut_recv (s : State) (x : List Byte) : (s.withAnswerOut x).recv = s.recv := rfl
@[simp] theorem State.withAnswerOut_clock (s : State) (x : List Byte) : (s.withAnswerOut x).clock = s.clock := rfl
@[simp] theorem State.withAnswerOut_plan (s : State) (x : List Byte) : (s.withAnswerOut x).plan = s.plan := rfl
@[simp] theorem State.withAnswerOut_seq (s : State) (x : List Byte) : (s.withAnswerOut x).seq = s.seq := rfl
@[simp] theorem State.withAnswerOut_eng (s : State) (x : List Byte) : (s.withAnswerOut x).eng = s.eng := rfl
@[simp] theorem State.withAnswerOut_out (s : State) (x : List Byte) : (s.withAnswerOut x).out = s.out := rfl
@[simp] theorem State.withAnswerOut_sup (s : State) (x : List Byte) : (s.withAnswerOut x).sup = s.sup := rfl
@[simp] theorem State.withAnswerOut_scan (s : State) (x : List Byte) : (s.withAnswerOut x).scan = s.scan := rfl
@[simp] theorem State.withAnswerOut_brk (s : State) (x : List Byte) : (s.withAnswerOut x).brk = s.brk := rfl
@[simp] theorem State.withAnswerOut_lines (s : State) (x : List Byte) : (s.withAnswerOut x).lines = s.lines := rfl
@[simp] theorem State.withAnswerOut_timers (s : State) (x : List Byte) : (s.withAnswerOut x).timers = s.timers := rfl
@[simp] theorem State.withAnswerOut_rep (s : State) (x : List Byte) : (s.withAnswerOut x).rep = s.rep := rfl
@[simp] theorem State.withAnswerOut_reply (s : State) (x : List Byte) : (s.withAnswerOut x).reply = s.reply := rfl
@[simp] theorem State.withAnswerOut_frame (s : State) (x : List Byte) : (s.withAnswerOut x).frame = s.frame := rfl
@[simp] theorem State.withAnswerOut_answerOut (s : State) (x : List Byte) : (s.withAnswerOut x).answerOut = x := rfl
@[simp] theorem State.withAnswerOut_driveOut (s : State) (x : List Byte) : (s.withAnswerOut x).driveOut = s.driveOut := rfl
@[simp] theorem State.withAnswerOut_choices (s : State) (x : List Byte) : (s.withAnswerOut x).choices = s.choices := rfl
@[simp] theorem State.withAnswerOut_pending (s : State) (x : List Byte) : (s.withAnswerOut x).pending = s.pending := rfl

@[simp] theorem State.withDriveOut_recv (s : State) (x : List Byte) : (s.withDriveOut x).recv = s.recv := rfl
@[simp] theorem State.withDriveOut_clock (s : State) (x : List Byte) : (s.withDriveOut x).clock = s.clock := rfl
@[simp] theorem State.withDriveOut_plan (s : State) (x : List Byte) : (s.withDriveOut x).plan = s.plan := rfl
@[simp] theorem State.withDriveOut_seq (s : State) (x : List Byte) : (s.withDriveOut x).seq = s.seq := rfl
@[simp] theorem State.withDriveOut_eng (s : State) (x : List Byte) : (s.withDriveOut x).eng = s.eng := rfl
@[simp] theorem State.withDriveOut_out (s : State) (x : List Byte) : (s.withDriveOut x).out = s.out := rfl
@[simp] theorem State.withDriveOut_sup (s : State) (x : List Byte) : (s.withDriveOut x).sup = s.sup := rfl
@[simp] theorem State.withDriveOut_scan (s : State) (x : List Byte) : (s.withDriveOut x).scan = s.scan := rfl
@[simp] theorem State.withDriveOut_brk (s : State) (x : List Byte) : (s.withDriveOut x).brk = s.brk := rfl
@[simp] theorem State.withDriveOut_lines (s : State) (x : List Byte) : (s.withDriveOut x).lines = s.lines := rfl
@[simp] theorem State.withDriveOut_timers (s : State) (x : List Byte) : (s.withDriveOut x).timers = s.timers := rfl
@[simp] theorem State.withDriveOut_rep (s : State) (x : List Byte) : (s.withDriveOut x).rep = s.rep := rfl
@[simp] theorem State.withDriveOut_reply (s : State) (x : List Byte) : (s.withDriveOut x).reply = s.reply := rfl
@[simp] theorem State.withDriveOut_frame (s : State) (x : List Byte) : (s.withDriveOut x).frame = s.frame := rfl
@[simp] theorem State.withDriveOut_answerOut (s : State) (x : List Byte) : (s.withDriveOut x).answerOut = s.answerOut := rfl
@[simp] theorem State.withDriveOut_driveOut (s : State) (x : List Byte) : (s.withDriveOut x).driveOut = x := rfl
@[simp] theorem State.withDriveOut_choices (s : State) (x : List Byte) : (s.withDriveOut x).choices = s.choices := rfl
@[simp] theorem State.withDriveOut_pending (s : State) (x : List Byte) : (s.withDriveOut x).pending = s.pending := rfl

@[simp] theorem State.withChoices_recv (s : State) (x : Nat) : (s.withChoices x).recv = s.recv := rfl
@[simp] theorem State.withChoices_clock (s : State) (x : Nat) : (s.withChoices x).clock = s.clock := rfl
@[simp] theorem State.withChoices_plan (s : State) (x : Nat) : (s.withChoices x).plan = s.plan := rfl
@[simp] theorem State.withChoices_seq (s : State) (x : Nat) : (s.withChoices x).seq = s.seq := rfl
@[simp] theorem State.withChoices_eng (s : State) (x : Nat) : (s.withChoices x).eng = s.eng := rfl
@[simp] theorem State.withChoices_out (s : State) (x : Nat) : (s.withChoices x).out = s.out := rfl
@[simp] theorem State.withChoices_sup (s : State) (x : Nat) : (s.withChoices x).sup = s.sup := rfl
@[simp] theorem State.withChoices_scan (s : State) (x : Nat) : (s.withChoices x).scan = s.scan := rfl
@[simp] theorem State.withChoices_brk (s : State) (x : Nat) : (s.withChoices x).brk = s.brk := rfl
@[simp] theorem State.withChoices_lines (s : State) (x : Nat) : (s.withChoices x).lines = s.lines := rfl
@[simp] theorem State.withChoices_timers (s : State) (x : Nat) : (s.withChoices x).timers = s.timers := rfl
@[simp] theorem State.withChoices_rep (s : State) (x : Nat) : (s.withChoices x).rep = s.rep := rfl
@[simp] theorem State.withChoices_reply (s : State) (x : Nat) : (s.withChoices x).reply = s.reply := rfl
@[simp] theorem State.withChoices_frame (s : State) (x : Nat) : (s.withChoices x).frame = s.frame := rfl
@[simp] theorem State.withChoices_answerOut (s : State) (x : Nat) : (s.withChoices x).answerOut = s.answerOut := rfl
@[simp] theorem State.withChoices_driveOut (s : State) (x : Nat) : (s.withChoices x).driveOut = s.driveOut := rfl
@[simp] theorem State.withChoices_choices (s : State) (x : Nat) : (s.withChoices x).choices = x := rfl
@[simp] theorem State.withChoices_pending (s : State) (x : Nat) : (s.withChoices x).pending = s.pending := rfl

@[simp] theorem State.withPending_recv (s : State) (x : List Instr) : (s.withPending x).recv = s.recv := rfl
@[simp] theorem State.withPending_clock (s : State) (x : List Instr) : (s.withPending x).clock = s.clock := rfl
@[simp] theorem State.withPending_plan (s : State) (x : List Instr) : (s.withPending x).plan = s.plan := rfl
@[simp] theorem State.withPending_seq (s : State) (x : List Instr) : (s.withPending x).seq = s.seq := rfl
@[simp] theorem State.withPending_eng (s : State) (x : List Instr) : (s.withPending x).eng = s.eng := rfl
@[simp] theorem State.withPending_out (s : State) (x : List Instr) : (s.withPending x).out = s.out := rfl
@[simp] theorem State.withPending_sup (s : State) (x : List Instr) : (s.withPending x).sup = s.sup := rfl
@[simp] theorem State.withPending_scan (s : State) (x : List Instr) : (s.withPending x).scan = s.scan := rfl
@[simp] theorem State.withPending_brk (s : State) (x : List Instr) : (s.withPending x).brk = s.brk := rfl
@[simp] theorem State.withPending_lines (s : State) (x : List Instr) : (s.withPending x).lines = s.lines := rfl
@[simp] theorem State.withPending_timers (s : State) (x : List Instr) : (s.withPending x).timers = s.timers := rfl
@[simp] theorem State.withPending_rep (s : State) (x : List Instr) : (s.withPending x).rep = s.rep := rfl
@[simp] theorem State.withPending_reply (s : State) (x : List Instr) : (s.withPending x).reply = s.reply := rfl
@[simp] theorem State.withPending_frame (s : State) (x : List Instr) : (s.withPending x).frame = s.frame := rfl
@[simp] theorem State.withPending_answerOut (s : State) (x : List Instr) : (s.withPending x).answerOut = s.answerOut := rfl
@[simp] theorem State.withPending_driveOut (s : State) (x : List Instr) : (s.withPending x).driveOut = s.driveOut := rfl
@[simp] theorem State.withPending_choices (s : State) (x : List Instr) : (s.withPending x).choices = s.choices := rfl
@[simp] theorem State.withPending_pending (s : State) (x : List Instr) : (s.withPending x).pending = x := rfl

end Sys2Proof.Machine
end

