-- ==== Sys2Proof/Laws/Vectors.lean ====
section
/-! SUPPORT. The entries of tables, and of tables with one entry replaced. -/

namespace Sys2Proof

@[simp] theorem tab_getElem {α : Type} {n : Nat} (f : Fin n → α) (i : Nat) (h : i < n) : (tab f)[i] = f ⟨i, h⟩ := by
  simp [tab]

@[simp] theorem upd_getElem {α : Type} {n : Nat} (v : Vector α n) (k : Fin n) (x : α) (i : Nat) (h : i < n) :
    (upd v k x)[i] = if k.val = i then x else v[i] := by
  simp [upd, Vector.getElem_set]

theorem tab_eq_ofFn {α : Type} {n : Nat} (f : Fin n → α) : tab f = Vector.ofFn f := by
  ext i h; simp

theorem upd_eq_set {α : Type} {n : Nat} (v : Vector α n) (k : Fin n) (x : α) : upd v k x = v.set k x := rfl

@[simp] theorem mem_allFin {n : Nat} (i : Fin n) : i ∈ allFin n := by simp [allFin]

/-- A search through all numbers finds the least that passes. -/
theorem find_allFin_eq_some {n : Nat} {p : Fin n → Bool} {i : Fin n} :
    (allFin n).find? p = some i ↔ p i = true ∧ ∀ j : Fin n, j < i → p j = false := by
  rw [List.find?_eq_some_iff_getElem]
  constructor
  · rintro ⟨hp, k, hk, rfl, hj⟩
    refine ⟨hp, fun j hlt => ?_⟩
    have h := hj j.val (by simp [allFin, Fin.lt_def] at hlt ⊢; omega)
    simpa [allFin] using h
  · rintro ⟨hp, hj⟩
    refine ⟨hp, i.val, by simp [allFin], by simp [allFin], fun j hlt => ?_⟩
    have hjn : j < n := by omega
    have h := hj ⟨j, hjn⟩ (by simpa [Fin.lt_def] using hlt)
    simpa [allFin] using h

theorem find_allFin_eq_none {n : Nat} {p : Fin n → Bool} :
    (allFin n).find? p = none ↔ ∀ i : Fin n, p i = false := by
  simp [List.find?_eq_none]

end Sys2Proof
end

