-- ==== Sys2Proof/Laws/Frames.lean ====
section
/-! SUPPORT. For each operation on the state one lemma: the blocks that it leaves alone. `simp` rewrites with each of its
equations. -/

namespace Sys2Proof.Machine

@[simp] theorem State.make_frame (s : State) (testNo time : Nat) (b : Body) :
    (s.make testNo time b).recv = s.recv ∧ (s.make testNo time b).clock = s.clock ∧ (s.make testNo time b).plan = s.plan
    ∧ (s.make testNo time b).seq = s.seq ∧ (s.make testNo time b).eng = s.eng ∧ (s.make testNo time b).out = s.out
    ∧ (s.make testNo time b).sup = s.sup ∧ (s.make testNo time b).scan = s.scan ∧ (s.make testNo time b).brk = s.brk
    ∧ (s.make testNo time b).lines = s.lines ∧ (s.make testNo time b).timers = s.timers
    ∧ (s.make testNo time b).reply = s.reply ∧ (s.make testNo time b).frame = s.frame
    ∧ (s.make testNo time b).answerOut = s.answerOut ∧ (s.make testNo time b).driveOut = s.driveOut
    ∧ (s.make testNo time b).choices = s.choices ∧ (s.make testNo time b).pending = s.pending := by
  unfold State.make
  simp

@[simp] theorem State.makeApart_frame (s : State) (testNo time : Nat) (b : Body) :
    (s.makeApart testNo time b).recv = s.recv ∧ (s.makeApart testNo time b).clock = s.clock
    ∧ (s.makeApart testNo time b).plan = s.plan ∧ (s.makeApart testNo time b).seq = s.seq
    ∧ (s.makeApart testNo time b).eng = s.eng ∧ (s.makeApart testNo time b).out = s.out
    ∧ (s.makeApart testNo time b).sup = s.sup ∧ (s.makeApart testNo time b).scan = s.scan
    ∧ (s.makeApart testNo time b).brk = s.brk ∧ (s.makeApart testNo time b).lines = s.lines
    ∧ (s.makeApart testNo time b).timers = s.timers ∧ (s.makeApart testNo time b).reply = s.reply
    ∧ (s.makeApart testNo time b).frame = s.frame ∧ (s.makeApart testNo time b).answerOut = s.answerOut
    ∧ (s.makeApart testNo time b).driveOut = s.driveOut ∧ (s.makeApart testNo time b).choices = s.choices
    ∧ (s.makeApart testNo time b).pending = s.pending := by
  unfold State.makeApart
  simp

@[simp] theorem State.flush_frame (s : State) :
    s.flush.recv = s.recv ∧ s.flush.clock = s.clock ∧ s.flush.plan = s.plan ∧ s.flush.seq = s.seq ∧ s.flush.eng = s.eng
    ∧ s.flush.out = s.out ∧ s.flush.sup = s.sup ∧ s.flush.scan = s.scan ∧ s.flush.brk = s.brk ∧ s.flush.lines = s.lines
    ∧ s.flush.timers = s.timers ∧ s.flush.reply = s.reply ∧ s.flush.frame = s.frame ∧ s.flush.answerOut = s.answerOut
    ∧ s.flush.driveOut = s.driveOut ∧ s.flush.choices = s.choices ∧ s.flush.pending = s.pending := by
  unfold State.flush
  simp

@[simp] theorem State.raise_frame (s : State) (a : Attn) :
    (s.raise a).recv = s.recv ∧ (s.raise a).clock = s.clock ∧ (s.raise a).plan = s.plan ∧ (s.raise a).seq = s.seq
    ∧ (s.raise a).eng = s.eng ∧ (s.raise a).out = s.out ∧ (s.raise a).sup = s.sup ∧ (s.raise a).scan = s.scan
    ∧ (s.raise a).brk = s.brk ∧ (s.raise a).lines = s.lines ∧ (s.raise a).timers = s.timers ∧ (s.raise a).reply = s.reply
    ∧ (s.raise a).frame = s.frame ∧ (s.raise a).answerOut = s.answerOut ∧ (s.raise a).driveOut = s.driveOut
    ∧ (s.raise a).choices = s.choices ∧ (s.raise a).pending = s.pending := by
  unfold State.raise
  simp

@[simp] theorem State.chose_frame (s : State) :
    s.chose.recv = s.recv ∧ s.chose.clock = s.clock ∧ s.chose.plan = s.plan ∧ s.chose.seq = s.seq ∧ s.chose.eng = s.eng
    ∧ s.chose.out = s.out ∧ s.chose.sup = s.sup ∧ s.chose.scan = s.scan ∧ s.chose.brk = s.brk ∧ s.chose.lines = s.lines
    ∧ s.chose.timers = s.timers ∧ s.chose.rep = s.rep ∧ s.chose.reply = s.reply ∧ s.chose.frame = s.frame
    ∧ s.chose.answerOut = s.answerOut ∧ s.chose.driveOut = s.driveOut ∧ s.chose.pending = s.pending := by
  unfold State.chose
  simp

@[simp] theorem State.flushBoundary_frame (s : State) :
    s.flushBoundary.recv = s.recv ∧ s.flushBoundary.clock = s.clock ∧ s.flushBoundary.plan = s.plan
    ∧ s.flushBoundary.seq = s.seq ∧ s.flushBoundary.eng = s.eng ∧ s.flushBoundary.out = s.out ∧ s.flushBoundary.sup = s.sup
    ∧ s.flushBoundary.scan = s.scan ∧ s.flushBoundary.brk = s.brk ∧ s.flushBoundary.lines = s.lines
    ∧ s.flushBoundary.timers = s.timers ∧ s.flushBoundary.reply = s.reply ∧ s.flushBoundary.frame = s.frame
    ∧ s.flushBoundary.answerOut = s.answerOut ∧ s.flushBoundary.driveOut = s.driveOut ∧ s.flushBoundary.pending = s.pending := by
  unfold State.flushBoundary
  (try dsimp only)
  and_intros <;> (repeat' split) <;> simp

@[simp] theorem State.requestEnd_frame (s : State) (r : EndReason) :
    (s.requestEnd r).recv = s.recv ∧ (s.requestEnd r).clock = s.clock ∧ (s.requestEnd r).plan = s.plan
    ∧ (s.requestEnd r).eng = s.eng ∧ (s.requestEnd r).out = s.out ∧ (s.requestEnd r).sup = s.sup
    ∧ (s.requestEnd r).scan = s.scan ∧ (s.requestEnd r).brk = s.brk ∧ (s.requestEnd r).lines = s.lines
    ∧ (s.requestEnd r).timers = s.timers ∧ (s.requestEnd r).rep = s.rep ∧ (s.requestEnd r).reply = s.reply
    ∧ (s.requestEnd r).frame = s.frame ∧ (s.requestEnd r).answerOut = s.answerOut ∧ (s.requestEnd r).driveOut = s.driveOut
    ∧ (s.requestEnd r).choices = s.choices ∧ (s.requestEnd r).pending = s.pending := by
  unfold State.requestEnd
  repeat' split
  all_goals simp

@[simp] theorem State.latchBy_frame (s : State) (now : Cond → Bool) :
    (s.latchBy now).recv = s.recv ∧ (s.latchBy now).clock = s.clock ∧ (s.latchBy now).plan = s.plan
    ∧ (s.latchBy now).eng = s.eng ∧ (s.latchBy now).out = s.out ∧ (s.latchBy now).sup = s.sup
    ∧ (s.latchBy now).scan = s.scan ∧ (s.latchBy now).brk = s.brk ∧ (s.latchBy now).lines = s.lines
    ∧ (s.latchBy now).timers = s.timers ∧ (s.latchBy now).rep = s.rep ∧ (s.latchBy now).reply = s.reply
    ∧ (s.latchBy now).frame = s.frame ∧ (s.latchBy now).answerOut = s.answerOut
    ∧ (s.latchBy now).driveOut = s.driveOut ∧ (s.latchBy now).choices = s.choices
    ∧ (s.latchBy now).pending = s.pending := by
  unfold State.latchBy
  simp

/-- All that a latching does: it touches the latches alone, and sets in RUNNING those that were set or that `now` tells. -/
theorem State.latchBy_seq (s : State) (now : Cond → Bool) :
    (s.latchBy now).seq = { s.seq with latches := (s.latchBy now).seq.latches }
    ∧ ∀ k : Fin 4, (s.latchBy now).seq.latches[k] =
        (s.seq.phase == .running && (s.seq.latches[k] || now (Part0.exitCond s.part0 k))) := by
  refine ⟨rfl, fun k => ?_⟩
  simp only [State.latchBy, State.withSeq, Fin.getElem_fin, tab_getElem]

@[simp] theorem State.latchRisen_frame (s before : State) :
    (s.latchRisen before).recv = s.recv ∧ (s.latchRisen before).clock = s.clock ∧ (s.latchRisen before).plan = s.plan
    ∧ (s.latchRisen before).eng = s.eng ∧ (s.latchRisen before).out = s.out ∧ (s.latchRisen before).sup = s.sup
    ∧ (s.latchRisen before).scan = s.scan ∧ (s.latchRisen before).brk = s.brk ∧ (s.latchRisen before).lines = s.lines
    ∧ (s.latchRisen before).timers = s.timers ∧ (s.latchRisen before).rep = s.rep
    ∧ (s.latchRisen before).reply = s.reply ∧ (s.latchRisen before).frame = s.frame
    ∧ (s.latchRisen before).answerOut = s.answerOut ∧ (s.latchRisen before).driveOut = s.driveOut
    ∧ (s.latchRisen before).choices = s.choices ∧ (s.latchRisen before).pending = s.pending := by
  unfold State.latchRisen
  simp

@[simp] theorem State.setSlot_frame (s : State) (k : Fin 8) (x : Slot) :
    (s.setSlot k x).recv = s.recv ∧ (s.setSlot k x).clock = s.clock ∧ (s.setSlot k x).plan = s.plan
    ∧ (s.setSlot k x).seq = s.seq ∧ (s.setSlot k x).eng = s.eng ∧ (s.setSlot k x).out = s.out ∧ (s.setSlot k x).sup = s.sup
    ∧ (s.setSlot k x).scan = s.scan ∧ (s.setSlot k x).brk = s.brk ∧ (s.setSlot k x).lines = s.lines
    ∧ (s.setSlot k x).rep = s.rep ∧ (s.setSlot k x).reply = s.reply ∧ (s.setSlot k x).frame = s.frame
    ∧ (s.setSlot k x).answerOut = s.answerOut ∧ (s.setSlot k x).driveOut = s.driveOut ∧ (s.setSlot k x).choices = s.choices
    ∧ (s.setSlot k x).pending = s.pending := by
  unfold State.setSlot
  simp

@[simp] theorem State.stopSlot_frame (s : State) (k : Fin 8) (t : Nat) (bo : Bool) :
    (s.stopSlot k t bo).recv = s.recv ∧ (s.stopSlot k t bo).clock = s.clock ∧ (s.stopSlot k t bo).plan = s.plan
    ∧ (s.stopSlot k t bo).seq = s.seq ∧ (s.stopSlot k t bo).eng = s.eng ∧ (s.stopSlot k t bo).out = s.out
    ∧ (s.stopSlot k t bo).sup = s.sup ∧ (s.stopSlot k t bo).scan = s.scan ∧ (s.stopSlot k t bo).brk = s.brk
    ∧ (s.stopSlot k t bo).lines = s.lines ∧ (s.stopSlot k t bo).reply = s.reply ∧ (s.stopSlot k t bo).frame = s.frame
    ∧ (s.stopSlot k t bo).answerOut = s.answerOut ∧ (s.stopSlot k t bo).driveOut = s.driveOut
    ∧ (s.stopSlot k t bo).choices = s.choices ∧ (s.stopSlot k t bo).pending = s.pending := by
  unfold State.stopSlot
  (try dsimp only)
  and_intros <;> (repeat' split) <;> simp

@[simp] theorem State.offerSlot_frame (ev : Cond) (stamp : Nat) (bo : Bool) (s : State) (k : Fin 8) :
    (State.offerSlot ev stamp bo s k).recv = s.recv ∧ (State.offerSlot ev stamp bo s k).clock = s.clock
    ∧ (State.offerSlot ev stamp bo s k).plan = s.plan ∧ (State.offerSlot ev stamp bo s k).seq = s.seq
    ∧ (State.offerSlot ev stamp bo s k).eng = s.eng ∧ (State.offerSlot ev stamp bo s k).out = s.out
    ∧ (State.offerSlot ev stamp bo s k).sup = s.sup ∧ (State.offerSlot ev stamp bo s k).scan = s.scan
    ∧ (State.offerSlot ev stamp bo s k).brk = s.brk ∧ (State.offerSlot ev stamp bo s k).lines = s.lines
    ∧ (State.offerSlot ev stamp bo s k).reply = s.reply ∧ (State.offerSlot ev stamp bo s k).frame = s.frame
    ∧ (State.offerSlot ev stamp bo s k).answerOut = s.answerOut
    ∧ (State.offerSlot ev stamp bo s k).driveOut = s.driveOut ∧ (State.offerSlot ev stamp bo s k).choices = s.choices
    ∧ (State.offerSlot ev stamp bo s k).pending = s.pending := by
  unfold State.offerSlot
  (try dsimp only)
  and_intros <;> (repeat' split) <;> simp

@[simp] theorem State.offerSlot_fold_frame (ev : Cond) (stamp : Nat) (bo : Bool) (s : State) (l : List (Fin 8)) :
    (l.foldl (State.offerSlot ev stamp bo) s).recv = s.recv
    ∧ (l.foldl (State.offerSlot ev stamp bo) s).clock = s.clock
    ∧ (l.foldl (State.offerSlot ev stamp bo) s).plan = s.plan ∧ (l.foldl (State.offerSlot ev stamp bo) s).seq = s.seq
    ∧ (l.foldl (State.offerSlot ev stamp bo) s).eng = s.eng ∧ (l.foldl (State.offerSlot ev stamp bo) s).out = s.out
    ∧ (l.foldl (State.offerSlot ev stamp bo) s).sup = s.sup ∧ (l.foldl (State.offerSlot ev stamp bo) s).scan = s.scan
    ∧ (l.foldl (State.offerSlot ev stamp bo) s).brk = s.brk
    ∧ (l.foldl (State.offerSlot ev stamp bo) s).lines = s.lines
    ∧ (l.foldl (State.offerSlot ev stamp bo) s).reply = s.reply
    ∧ (l.foldl (State.offerSlot ev stamp bo) s).frame = s.frame
    ∧ (l.foldl (State.offerSlot ev stamp bo) s).answerOut = s.answerOut
    ∧ (l.foldl (State.offerSlot ev stamp bo) s).driveOut = s.driveOut
    ∧ (l.foldl (State.offerSlot ev stamp bo) s).choices = s.choices
    ∧ (l.foldl (State.offerSlot ev stamp bo) s).pending = s.pending := by
  induction l generalizing s with
  | nil => simp
  | cons x xs ih => simp [ih]

@[simp] theorem State.offerTimers_frame (s : State) (ev : Cond) (stamp : Nat) (bo : Bool) :
    (s.offerTimers ev stamp bo).recv = s.recv ∧ (s.offerTimers ev stamp bo).clock = s.clock
    ∧ (s.offerTimers ev stamp bo).plan = s.plan ∧ (s.offerTimers ev stamp bo).seq = s.seq
    ∧ (s.offerTimers ev stamp bo).eng = s.eng ∧ (s.offerTimers ev stamp bo).out = s.out
    ∧ (s.offerTimers ev stamp bo).sup = s.sup ∧ (s.offerTimers ev stamp bo).scan = s.scan
    ∧ (s.offerTimers ev stamp bo).brk = s.brk ∧ (s.offerTimers ev stamp bo).lines = s.lines
    ∧ (s.offerTimers ev stamp bo).reply = s.reply ∧ (s.offerTimers ev stamp bo).frame = s.frame
    ∧ (s.offerTimers ev stamp bo).answerOut = s.answerOut ∧ (s.offerTimers ev stamp bo).driveOut = s.driveOut
    ∧ (s.offerTimers ev stamp bo).choices = s.choices ∧ (s.offerTimers ev stamp bo).pending = s.pending := by
  unfold State.offerTimers
  repeat' split
  all_goals simp

@[simp] theorem State.timersStart_frame (s : State) :
    s.timersStart.recv = s.recv ∧ s.timersStart.clock = s.clock ∧ s.timersStart.plan = s.plan ∧ s.timersStart.seq = s.seq
    ∧ s.timersStart.eng = s.eng ∧ s.timersStart.out = s.out ∧ s.timersStart.sup = s.sup ∧ s.timersStart.scan = s.scan
    ∧ s.timersStart.brk = s.brk ∧ s.timersStart.lines = s.lines ∧ s.timersStart.rep = s.rep ∧ s.timersStart.reply = s.reply
    ∧ s.timersStart.frame = s.frame ∧ s.timersStart.answerOut = s.answerOut ∧ s.timersStart.driveOut = s.driveOut
    ∧ s.timersStart.choices = s.choices ∧ s.timersStart.pending = s.pending := by
  unfold State.timersStart
  simp

@[simp] theorem State.holdExpiry_frame (s : State) (k : Fin 8) :
    (s.holdExpiry k).recv = s.recv ∧ (s.holdExpiry k).clock = s.clock ∧ (s.holdExpiry k).plan = s.plan
    ∧ (s.holdExpiry k).seq = s.seq ∧ (s.holdExpiry k).eng = s.eng ∧ (s.holdExpiry k).out = s.out
    ∧ (s.holdExpiry k).sup = s.sup ∧ (s.holdExpiry k).scan = s.scan ∧ (s.holdExpiry k).brk = s.brk
    ∧ (s.holdExpiry k).lines = s.lines ∧ (s.holdExpiry k).rep = s.rep ∧ (s.holdExpiry k).reply = s.reply
    ∧ (s.holdExpiry k).frame = s.frame ∧ (s.holdExpiry k).answerOut = s.answerOut ∧ (s.holdExpiry k).driveOut = s.driveOut
    ∧ (s.holdExpiry k).choices = s.choices ∧ (s.holdExpiry k).pending = s.pending := by
  unfold State.holdExpiry
  simp

@[simp] theorem State.expire_frame (s : State) (k : Fin 8) :
    (s.expire k).recv = s.recv ∧ (s.expire k).clock = s.clock ∧ (s.expire k).plan = s.plan ∧ (s.expire k).seq = s.seq
    ∧ (s.expire k).eng = s.eng ∧ (s.expire k).out = s.out ∧ (s.expire k).sup = s.sup ∧ (s.expire k).scan = s.scan
    ∧ (s.expire k).brk = s.brk ∧ (s.expire k).lines = s.lines ∧ (s.expire k).reply = s.reply ∧ (s.expire k).frame = s.frame
    ∧ (s.expire k).answerOut = s.answerOut ∧ (s.expire k).driveOut = s.driveOut ∧ (s.expire k).choices = s.choices
    ∧ (s.expire k).pending = s.pending := by
  unfold State.expire
  simp

@[simp] theorem State.checkSlot_frame (s : State) (k : Fin 8) :
    (s.checkSlot k).recv = s.recv ∧ (s.checkSlot k).clock = s.clock ∧ (s.checkSlot k).plan = s.plan
    ∧ (s.checkSlot k).seq = s.seq ∧ (s.checkSlot k).eng = s.eng ∧ (s.checkSlot k).out = s.out ∧ (s.checkSlot k).sup = s.sup
    ∧ (s.checkSlot k).scan = s.scan ∧ (s.checkSlot k).brk = s.brk ∧ (s.checkSlot k).lines = s.lines
    ∧ (s.checkSlot k).reply = s.reply ∧ (s.checkSlot k).frame = s.frame ∧ (s.checkSlot k).answerOut = s.answerOut
    ∧ (s.checkSlot k).driveOut = s.driveOut ∧ (s.checkSlot k).choices = s.choices ∧ (s.checkSlot k).pending = s.pending := by
  unfold State.checkSlot
  (try dsimp only)
  and_intros <;> (repeat' split) <;> simp

@[simp] theorem State.checkSlot_fold_frame (s : State) (l : List (Fin 8)) :
    (l.foldl (State.checkSlot) s).recv = s.recv ∧ (l.foldl (State.checkSlot) s).clock = s.clock
    ∧ (l.foldl (State.checkSlot) s).plan = s.plan ∧ (l.foldl (State.checkSlot) s).seq = s.seq
    ∧ (l.foldl (State.checkSlot) s).eng = s.eng ∧ (l.foldl (State.checkSlot) s).out = s.out
    ∧ (l.foldl (State.checkSlot) s).sup = s.sup ∧ (l.foldl (State.checkSlot) s).scan = s.scan
    ∧ (l.foldl (State.checkSlot) s).brk = s.brk ∧ (l.foldl (State.checkSlot) s).lines = s.lines
    ∧ (l.foldl (State.checkSlot) s).reply = s.reply ∧ (l.foldl (State.checkSlot) s).frame = s.frame
    ∧ (l.foldl (State.checkSlot) s).answerOut = s.answerOut ∧ (l.foldl (State.checkSlot) s).driveOut = s.driveOut
    ∧ (l.foldl (State.checkSlot) s).choices = s.choices ∧ (l.foldl (State.checkSlot) s).pending = s.pending := by
  induction l generalizing s with
  | nil => simp
  | cons x xs ih => simp [ih]

@[simp] theorem State.checkSlots_frame (s : State) :
    s.checkSlots.recv = s.recv ∧ s.checkSlots.clock = s.clock ∧ s.checkSlots.plan = s.plan ∧ s.checkSlots.seq = s.seq
    ∧ s.checkSlots.eng = s.eng ∧ s.checkSlots.out = s.out ∧ s.checkSlots.sup = s.sup ∧ s.checkSlots.scan = s.scan
    ∧ s.checkSlots.brk = s.brk ∧ s.checkSlots.lines = s.lines ∧ s.checkSlots.reply = s.reply ∧ s.checkSlots.frame = s.frame
    ∧ s.checkSlots.answerOut = s.answerOut ∧ s.checkSlots.driveOut = s.driveOut ∧ s.checkSlots.choices = s.choices
    ∧ s.checkSlots.pending = s.pending := by
  unfold State.checkSlots
  simp

@[simp] theorem State.finaliseSlot_frame (e : Nat) (s : State) (k : Fin 8) :
    (State.finaliseSlot e s k).recv = s.recv ∧ (State.finaliseSlot e s k).clock = s.clock
    ∧ (State.finaliseSlot e s k).plan = s.plan ∧ (State.finaliseSlot e s k).seq = s.seq
    ∧ (State.finaliseSlot e s k).eng = s.eng ∧ (State.finaliseSlot e s k).out = s.out
    ∧ (State.finaliseSlot e s k).sup = s.sup ∧ (State.finaliseSlot e s k).scan = s.scan
    ∧ (State.finaliseSlot e s k).brk = s.brk ∧ (State.finaliseSlot e s k).lines = s.lines
    ∧ (State.finaliseSlot e s k).reply = s.reply ∧ (State.finaliseSlot e s k).frame = s.frame
    ∧ (State.finaliseSlot e s k).answerOut = s.answerOut ∧ (State.finaliseSlot e s k).driveOut = s.driveOut
    ∧ (State.finaliseSlot e s k).choices = s.choices ∧ (State.finaliseSlot e s k).pending = s.pending := by
  unfold State.finaliseSlot
  (try dsimp only)
  and_intros <;> (repeat' split) <;> simp

@[simp] theorem State.finaliseSlot_fold_frame (e : Nat) (s : State) (l : List (Fin 8)) :
    (l.foldl (State.finaliseSlot e) s).recv = s.recv ∧ (l.foldl (State.finaliseSlot e) s).clock = s.clock
    ∧ (l.foldl (State.finaliseSlot e) s).plan = s.plan ∧ (l.foldl (State.finaliseSlot e) s).seq = s.seq
    ∧ (l.foldl (State.finaliseSlot e) s).eng = s.eng ∧ (l.foldl (State.finaliseSlot e) s).out = s.out
    ∧ (l.foldl (State.finaliseSlot e) s).sup = s.sup ∧ (l.foldl (State.finaliseSlot e) s).scan = s.scan
    ∧ (l.foldl (State.finaliseSlot e) s).brk = s.brk ∧ (l.foldl (State.finaliseSlot e) s).lines = s.lines
    ∧ (l.foldl (State.finaliseSlot e) s).reply = s.reply ∧ (l.foldl (State.finaliseSlot e) s).frame = s.frame
    ∧ (l.foldl (State.finaliseSlot e) s).answerOut = s.answerOut
    ∧ (l.foldl (State.finaliseSlot e) s).driveOut = s.driveOut
    ∧ (l.foldl (State.finaliseSlot e) s).choices = s.choices ∧ (l.foldl (State.finaliseSlot e) s).pending = s.pending := by
  induction l generalizing s with
  | nil => simp
  | cons x xs ih => simp [ih]

@[simp] theorem State.finaliseTimers_frame (s : State) (e : Nat) :
    (s.finaliseTimers e).recv = s.recv ∧ (s.finaliseTimers e).clock = s.clock ∧ (s.finaliseTimers e).plan = s.plan
    ∧ (s.finaliseTimers e).seq = s.seq ∧ (s.finaliseTimers e).eng = s.eng ∧ (s.finaliseTimers e).out = s.out
    ∧ (s.finaliseTimers e).sup = s.sup ∧ (s.finaliseTimers e).scan = s.scan ∧ (s.finaliseTimers e).brk = s.brk
    ∧ (s.finaliseTimers e).lines = s.lines ∧ (s.finaliseTimers e).reply = s.reply ∧ (s.finaliseTimers e).frame = s.frame
    ∧ (s.finaliseTimers e).answerOut = s.answerOut ∧ (s.finaliseTimers e).driveOut = s.driveOut
    ∧ (s.finaliseTimers e).choices = s.choices ∧ (s.finaliseTimers e).pending = s.pending := by
  unfold State.finaliseTimers
  simp

@[simp] theorem State.disturb_frame (s : State) :
    s.disturb.recv = s.recv ∧ s.disturb.clock = s.clock ∧ s.disturb.plan = s.plan ∧ s.disturb.seq = s.seq
    ∧ s.disturb.eng = s.eng ∧ s.disturb.out = s.out ∧ s.disturb.sup = s.sup ∧ s.disturb.scan = s.scan ∧ s.disturb.brk = s.brk
    ∧ s.disturb.lines = s.lines ∧ s.disturb.rep = s.rep ∧ s.disturb.reply = s.reply ∧ s.disturb.frame = s.frame
    ∧ s.disturb.answerOut = s.answerOut ∧ s.disturb.driveOut = s.driveOut ∧ s.disturb.choices = s.choices
    ∧ s.disturb.pending = s.pending := by
  unfold State.disturb
  repeat' split
  all_goals simp

@[simp] theorem State.setBuffers_frame (s : State) (b : Vector Buffer 4) :
    (s.setBuffers b).recv = s.recv ∧ (s.setBuffers b).clock = s.clock ∧ (s.setBuffers b).plan = s.plan
    ∧ (s.setBuffers b).seq = s.seq ∧ (s.setBuffers b).eng = s.eng ∧ (s.setBuffers b).out = s.out
    ∧ (s.setBuffers b).sup = s.sup ∧ (s.setBuffers b).scan = s.scan ∧ (s.setBuffers b).brk = s.brk
    ∧ (s.setBuffers b).lines = s.lines ∧ (s.setBuffers b).timers = s.timers ∧ (s.setBuffers b).reply = s.reply
    ∧ (s.setBuffers b).frame = s.frame ∧ (s.setBuffers b).answerOut = s.answerOut ∧ (s.setBuffers b).driveOut = s.driveOut
    ∧ (s.setBuffers b).choices = s.choices ∧ (s.setBuffers b).pending = s.pending := by
  unfold State.setBuffers
  simp

@[simp] theorem State.setActivity_frame (s : State) (a : Activity) :
    (s.setActivity a).recv = s.recv ∧ (s.setActivity a).clock = s.clock ∧ (s.setActivity a).plan = s.plan
    ∧ (s.setActivity a).seq = s.seq ∧ (s.setActivity a).eng = s.eng ∧ (s.setActivity a).out = s.out
    ∧ (s.setActivity a).sup = s.sup ∧ (s.setActivity a).scan = s.scan ∧ (s.setActivity a).brk = s.brk
    ∧ (s.setActivity a).lines = s.lines ∧ (s.setActivity a).timers = s.timers ∧ (s.setActivity a).reply = s.reply
    ∧ (s.setActivity a).frame = s.frame ∧ (s.setActivity a).answerOut = s.answerOut ∧ (s.setActivity a).driveOut = s.driveOut
    ∧ (s.setActivity a).choices = s.choices ∧ (s.setActivity a).pending = s.pending := by
  unfold State.setActivity
  simp

@[simp] theorem State.listBuffer_frame (s : State) (i : Fin 4) :
    (s.listBuffer i).recv = s.recv ∧ (s.listBuffer i).clock = s.clock ∧ (s.listBuffer i).plan = s.plan
    ∧ (s.listBuffer i).seq = s.seq ∧ (s.listBuffer i).eng = s.eng ∧ (s.listBuffer i).out = s.out
    ∧ (s.listBuffer i).sup = s.sup ∧ (s.listBuffer i).scan = s.scan ∧ (s.listBuffer i).brk = s.brk
    ∧ (s.listBuffer i).lines = s.lines ∧ (s.listBuffer i).timers = s.timers ∧ (s.listBuffer i).reply = s.reply
    ∧ (s.listBuffer i).frame = s.frame ∧ (s.listBuffer i).answerOut = s.answerOut ∧ (s.listBuffer i).driveOut = s.driveOut
    ∧ (s.listBuffer i).choices = s.choices ∧ (s.listBuffer i).pending = s.pending := by
  unfold State.listBuffer
  simp

@[simp] theorem State.captureStart_frame (s : State) :
    s.captureStart.recv = s.recv ∧ s.captureStart.clock = s.clock ∧ s.captureStart.plan = s.plan ∧ s.captureStart.seq = s.seq
    ∧ s.captureStart.eng = s.eng ∧ s.captureStart.out = s.out ∧ s.captureStart.sup = s.sup ∧ s.captureStart.scan = s.scan
    ∧ s.captureStart.brk = s.brk ∧ s.captureStart.lines = s.lines ∧ s.captureStart.timers = s.timers
    ∧ s.captureStart.reply = s.reply ∧ s.captureStart.frame = s.frame ∧ s.captureStart.answerOut = s.answerOut
    ∧ s.captureStart.driveOut = s.driveOut ∧ s.captureStart.choices = s.choices ∧ s.captureStart.pending = s.pending := by
  unfold State.captureStart
  repeat' split
  all_goals simp

@[simp] theorem State.offerCapture_frame (s : State) (ev : Cond) (stamp : Nat) :
    (s.offerCapture ev stamp).recv = s.recv ∧ (s.offerCapture ev stamp).clock = s.clock
    ∧ (s.offerCapture ev stamp).plan = s.plan ∧ (s.offerCapture ev stamp).seq = s.seq ∧ (s.offerCapture ev stamp).eng = s.eng
    ∧ (s.offerCapture ev stamp).out = s.out ∧ (s.offerCapture ev stamp).sup = s.sup ∧ (s.offerCapture ev stamp).scan = s.scan
    ∧ (s.offerCapture ev stamp).brk = s.brk ∧ (s.offerCapture ev stamp).lines = s.lines
    ∧ (s.offerCapture ev stamp).timers = s.timers ∧ (s.offerCapture ev stamp).reply = s.reply
    ∧ (s.offerCapture ev stamp).frame = s.frame ∧ (s.offerCapture ev stamp).answerOut = s.answerOut
    ∧ (s.offerCapture ev stamp).driveOut = s.driveOut ∧ (s.offerCapture ev stamp).choices = s.choices
    ∧ (s.offerCapture ev stamp).pending = s.pending := by
  unfold State.offerCapture
  (try dsimp only)
  and_intros <;> (repeat' split) <;> simp

@[simp] theorem State.bufferFull_frame (s : State) (i : Fin 4) (b : Buffer) :
    (s.bufferFull i b).recv = s.recv ∧ (s.bufferFull i b).clock = s.clock ∧ (s.bufferFull i b).plan = s.plan
    ∧ (s.bufferFull i b).seq = s.seq ∧ (s.bufferFull i b).eng = s.eng ∧ (s.bufferFull i b).out = s.out
    ∧ (s.bufferFull i b).sup = s.sup ∧ (s.bufferFull i b).scan = s.scan ∧ (s.bufferFull i b).brk = s.brk
    ∧ (s.bufferFull i b).lines = s.lines ∧ (s.bufferFull i b).timers = s.timers ∧ (s.bufferFull i b).reply = s.reply
    ∧ (s.bufferFull i b).frame = s.frame ∧ (s.bufferFull i b).answerOut = s.answerOut
    ∧ (s.bufferFull i b).driveOut = s.driveOut ∧ (s.bufferFull i b).choices = s.choices
    ∧ (s.bufferFull i b).pending = s.pending := by
  unfold State.bufferFull
  (try dsimp only)
  and_intros <;> (repeat' split) <;> simp

@[simp] theorem State.addRow_frame (s : State) (r : Row) :
    (s.addRow r).recv = s.recv ∧ (s.addRow r).clock = s.clock ∧ (s.addRow r).plan = s.plan ∧ (s.addRow r).seq = s.seq
    ∧ (s.addRow r).eng = s.eng ∧ (s.addRow r).out = s.out ∧ (s.addRow r).sup = s.sup ∧ (s.addRow r).scan = s.scan
    ∧ (s.addRow r).brk = s.brk ∧ (s.addRow r).lines = s.lines ∧ (s.addRow r).timers = s.timers ∧ (s.addRow r).reply = s.reply
    ∧ (s.addRow r).frame = s.frame ∧ (s.addRow r).answerOut = s.answerOut ∧ (s.addRow r).driveOut = s.driveOut
    ∧ (s.addRow r).choices = s.choices ∧ (s.addRow r).pending = s.pending := by
  unfold State.addRow
  (try dsimp only)
  and_intros <;> (repeat' split) <;> simp

@[simp] theorem State.formRow_frame (s : State) :
    s.formRow.recv = s.recv ∧ s.formRow.clock = s.clock ∧ s.formRow.plan = s.plan ∧ s.formRow.seq = s.seq
    ∧ s.formRow.eng = s.eng ∧ s.formRow.out = s.out ∧ s.formRow.sup = s.sup ∧ s.formRow.scan = s.scan ∧ s.formRow.brk = s.brk
    ∧ s.formRow.lines = s.lines ∧ s.formRow.timers = s.timers ∧ s.formRow.reply = s.reply ∧ s.formRow.frame = s.frame
    ∧ s.formRow.answerOut = s.answerOut ∧ s.formRow.driveOut = s.driveOut ∧ s.formRow.choices = s.choices
    ∧ s.formRow.pending = s.pending := by
  unfold State.formRow
  repeat' split
  all_goals simp

@[simp] theorem State.captureClose_frame (s : State) (e : Nat) :
    (s.captureClose e).recv = s.recv ∧ (s.captureClose e).clock = s.clock ∧ (s.captureClose e).plan = s.plan
    ∧ (s.captureClose e).seq = s.seq ∧ (s.captureClose e).eng = s.eng ∧ (s.captureClose e).out = s.out
    ∧ (s.captureClose e).sup = s.sup ∧ (s.captureClose e).scan = s.scan ∧ (s.captureClose e).brk = s.brk
    ∧ (s.captureClose e).lines = s.lines ∧ (s.captureClose e).timers = s.timers ∧ (s.captureClose e).reply = s.reply
    ∧ (s.captureClose e).frame = s.frame ∧ (s.captureClose e).answerOut = s.answerOut
    ∧ (s.captureClose e).driveOut = s.driveOut ∧ (s.captureClose e).choices = s.choices
    ∧ (s.captureClose e).pending = s.pending := by
  unfold State.captureClose
  (try dsimp only)
  and_intros <;> (repeat' split) <;> simp

@[simp] theorem State.answer_frame (s : State) (gap : Bool) :
    (s.answer gap).recv = s.recv ∧ (s.answer gap).clock = s.clock ∧ (s.answer gap).plan = s.plan ∧ (s.answer gap).seq = s.seq
    ∧ (s.answer gap).eng = s.eng ∧ (s.answer gap).out = s.out ∧ (s.answer gap).sup = s.sup ∧ (s.answer gap).scan = s.scan
    ∧ (s.answer gap).brk = s.brk ∧ (s.answer gap).lines = s.lines ∧ (s.answer gap).timers = s.timers
    ∧ (s.answer gap).frame = s.frame ∧ (s.answer gap).driveOut = s.driveOut ∧ (s.answer gap).choices = s.choices
    ∧ (s.answer gap).pending = s.pending := by
  unfold State.answer
  repeat' split
  all_goals simp

@[simp] theorem State.writeRings_frame (s : State) (samples : Vector Int 12) :
    (s.writeRings samples).recv = s.recv ∧ (s.writeRings samples).clock = s.clock ∧ (s.writeRings samples).plan = s.plan
    ∧ (s.writeRings samples).seq = s.seq ∧ (s.writeRings samples).out = s.out ∧ (s.writeRings samples).sup = s.sup
    ∧ (s.writeRings samples).scan = s.scan ∧ (s.writeRings samples).brk = s.brk ∧ (s.writeRings samples).lines = s.lines
    ∧ (s.writeRings samples).timers = s.timers ∧ (s.writeRings samples).rep = s.rep ∧ (s.writeRings samples).reply = s.reply
    ∧ (s.writeRings samples).frame = s.frame ∧ (s.writeRings samples).answerOut = s.answerOut
    ∧ (s.writeRings samples).driveOut = s.driveOut ∧ (s.writeRings samples).choices = s.choices
    ∧ (s.writeRings samples).pending = s.pending := by
  unfold State.writeRings
  simp

@[simp] theorem State.fillRings_frame (s : State) :
    s.fillRings.recv = s.recv ∧ s.fillRings.clock = s.clock ∧ s.fillRings.plan = s.plan ∧ s.fillRings.seq = s.seq
    ∧ s.fillRings.out = s.out ∧ s.fillRings.sup = s.sup ∧ s.fillRings.scan = s.scan ∧ s.fillRings.brk = s.brk
    ∧ s.fillRings.lines = s.lines ∧ s.fillRings.timers = s.timers ∧ s.fillRings.rep = s.rep ∧ s.fillRings.reply = s.reply
    ∧ s.fillRings.frame = s.frame ∧ s.fillRings.answerOut = s.answerOut ∧ s.fillRings.driveOut = s.driveOut
    ∧ s.fillRings.choices = s.choices ∧ s.fillRings.pending = s.pending := by
  unfold State.fillRings
  simp

@[simp] theorem State.zeroRings_frame (s : State) :
    s.zeroRings.recv = s.recv ∧ s.zeroRings.clock = s.clock ∧ s.zeroRings.plan = s.plan ∧ s.zeroRings.seq = s.seq
    ∧ s.zeroRings.out = s.out ∧ s.zeroRings.sup = s.sup ∧ s.zeroRings.scan = s.scan ∧ s.zeroRings.brk = s.brk
    ∧ s.zeroRings.lines = s.lines ∧ s.zeroRings.timers = s.timers ∧ s.zeroRings.rep = s.rep ∧ s.zeroRings.reply = s.reply
    ∧ s.zeroRings.frame = s.frame ∧ s.zeroRings.answerOut = s.answerOut ∧ s.zeroRings.driveOut = s.driveOut
    ∧ s.zeroRings.choices = s.choices ∧ s.zeroRings.pending = s.pending := by
  unfold State.zeroRings
  and_intros <;> rfl

@[simp] theorem State.engineEnter_frame (s : State) (st : Fin 32) (first : Bool) :
    (s.engineEnter st first).recv = s.recv ∧ (s.engineEnter st first).clock = s.clock
    ∧ (s.engineEnter st first).plan = s.plan ∧ (s.engineEnter st first).seq = s.seq ∧ (s.engineEnter st first).out = s.out
    ∧ (s.engineEnter st first).sup = s.sup ∧ (s.engineEnter st first).scan = s.scan ∧ (s.engineEnter st first).brk = s.brk
    ∧ (s.engineEnter st first).lines = s.lines ∧ (s.engineEnter st first).timers = s.timers
    ∧ (s.engineEnter st first).rep = s.rep ∧ (s.engineEnter st first).reply = s.reply
    ∧ (s.engineEnter st first).frame = s.frame ∧ (s.engineEnter st first).answerOut = s.answerOut
    ∧ (s.engineEnter st first).driveOut = s.driveOut ∧ (s.engineEnter st first).choices = s.choices
    ∧ (s.engineEnter st first).pending = s.pending := by
  unfold State.engineEnter
  simp

@[simp] theorem State.rampEvent_frame (s : State) (c : Fin 12) :
    (s.rampEvent c).recv = s.recv ∧ (s.rampEvent c).clock = s.clock ∧ (s.rampEvent c).plan = s.plan
    ∧ (s.rampEvent c).seq = s.seq ∧ (s.rampEvent c).eng = s.eng ∧ (s.rampEvent c).out = s.out ∧ (s.rampEvent c).sup = s.sup
    ∧ (s.rampEvent c).scan = s.scan ∧ (s.rampEvent c).brk = s.brk ∧ (s.rampEvent c).lines = s.lines
    ∧ (s.rampEvent c).reply = s.reply ∧ (s.rampEvent c).frame = s.frame ∧ (s.rampEvent c).answerOut = s.answerOut
    ∧ (s.rampEvent c).driveOut = s.driveOut ∧ (s.rampEvent c).choices = s.choices ∧ (s.rampEvent c).pending = s.pending := by
  unfold State.rampEvent
  simp

@[simp] theorem State.rampEvent_fold_frame (s : State) (l : List (Fin 12)) :
    (l.foldl (State.rampEvent) s).recv = s.recv ∧ (l.foldl (State.rampEvent) s).clock = s.clock
    ∧ (l.foldl (State.rampEvent) s).plan = s.plan ∧ (l.foldl (State.rampEvent) s).seq = s.seq
    ∧ (l.foldl (State.rampEvent) s).eng = s.eng ∧ (l.foldl (State.rampEvent) s).out = s.out
    ∧ (l.foldl (State.rampEvent) s).sup = s.sup ∧ (l.foldl (State.rampEvent) s).scan = s.scan
    ∧ (l.foldl (State.rampEvent) s).brk = s.brk ∧ (l.foldl (State.rampEvent) s).lines = s.lines
    ∧ (l.foldl (State.rampEvent) s).reply = s.reply ∧ (l.foldl (State.rampEvent) s).frame = s.frame
    ∧ (l.foldl (State.rampEvent) s).answerOut = s.answerOut ∧ (l.foldl (State.rampEvent) s).driveOut = s.driveOut
    ∧ (l.foldl (State.rampEvent) s).choices = s.choices ∧ (l.foldl (State.rampEvent) s).pending = s.pending := by
  induction l generalizing s with
  | nil => simp
  | cons x xs ih => simp [ih]

@[simp] theorem State.computeOutputs_frame (s : State) :
    s.computeOutputs.recv = s.recv ∧ s.computeOutputs.clock = s.clock ∧ s.computeOutputs.plan = s.plan
    ∧ s.computeOutputs.seq = s.seq ∧ s.computeOutputs.out = s.out ∧ s.computeOutputs.sup = s.sup
    ∧ s.computeOutputs.scan = s.scan ∧ s.computeOutputs.brk = s.brk ∧ s.computeOutputs.lines = s.lines
    ∧ s.computeOutputs.reply = s.reply ∧ s.computeOutputs.answerOut = s.answerOut ∧ s.computeOutputs.driveOut = s.driveOut
    ∧ s.computeOutputs.choices = s.choices ∧ s.computeOutputs.pending = s.pending := by
  unfold State.computeOutputs
  simp

@[simp] theorem State.engineReset_frame (s : State) :
    s.engineReset.recv = s.recv ∧ s.engineReset.clock = s.clock ∧ s.engineReset.plan = s.plan ∧ s.engineReset.seq = s.seq
    ∧ s.engineReset.out = s.out ∧ s.engineReset.sup = s.sup ∧ s.engineReset.scan = s.scan ∧ s.engineReset.brk = s.brk
    ∧ s.engineReset.lines = s.lines ∧ s.engineReset.timers = s.timers ∧ s.engineReset.rep = s.rep
    ∧ s.engineReset.reply = s.reply ∧ s.engineReset.frame = s.frame ∧ s.engineReset.answerOut = s.answerOut
    ∧ s.engineReset.driveOut = s.driveOut ∧ s.engineReset.choices = s.choices ∧ s.engineReset.pending = s.pending := by
  unfold State.engineReset
  simp

@[simp] theorem State.setFault_frame (s : State) (c : FaultCause) :
    (s.setFault c).recv = s.recv ∧ (s.setFault c).clock = s.clock ∧ (s.setFault c).plan = s.plan ∧ (s.setFault c).seq = s.seq
    ∧ (s.setFault c).eng = s.eng ∧ (s.setFault c).out = s.out ∧ (s.setFault c).scan = s.scan ∧ (s.setFault c).brk = s.brk
    ∧ (s.setFault c).lines = s.lines ∧ (s.setFault c).reply = s.reply ∧ (s.setFault c).answerOut = s.answerOut
    ∧ (s.setFault c).driveOut = s.driveOut ∧ (s.setFault c).choices = s.choices ∧ (s.setFault c).pending = s.pending := by
  unfold State.setFault
  simp

@[simp] theorem State.clearFault_frame (s : State) (c : FaultCause) :
    (s.clearFault c).recv = s.recv ∧ (s.clearFault c).clock = s.clock ∧ (s.clearFault c).plan = s.plan
    ∧ (s.clearFault c).seq = s.seq ∧ (s.clearFault c).eng = s.eng ∧ (s.clearFault c).out = s.out
    ∧ (s.clearFault c).scan = s.scan ∧ (s.clearFault c).brk = s.brk ∧ (s.clearFault c).lines = s.lines
    ∧ (s.clearFault c).timers = s.timers ∧ (s.clearFault c).reply = s.reply ∧ (s.clearFault c).frame = s.frame
    ∧ (s.clearFault c).answerOut = s.answerOut ∧ (s.clearFault c).driveOut = s.driveOut
    ∧ (s.clearFault c).choices = s.choices ∧ (s.clearFault c).pending = s.pending := by
  unfold State.clearFault
  simp

@[simp] theorem State.countOutcome_frame (s : State) (outcome : Option Nat) :
    (s.countOutcome outcome).recv = s.recv ∧ (s.countOutcome outcome).clock = s.clock
    ∧ (s.countOutcome outcome).plan = s.plan ∧ (s.countOutcome outcome).seq = s.seq ∧ (s.countOutcome outcome).eng = s.eng
    ∧ (s.countOutcome outcome).out = s.out ∧ (s.countOutcome outcome).scan = s.scan ∧ (s.countOutcome outcome).brk = s.brk
    ∧ (s.countOutcome outcome).lines = s.lines ∧ (s.countOutcome outcome).reply = s.reply
    ∧ (s.countOutcome outcome).answerOut = s.answerOut ∧ (s.countOutcome outcome).driveOut = s.driveOut
    ∧ (s.countOutcome outcome).choices = s.choices ∧ (s.countOutcome outcome).pending = s.pending := by
  unfold State.countOutcome
  (try dsimp only)
  and_intros <;> (repeat' split) <;> simp

@[simp] theorem State.setChan_frame (s : State) (p : Fin 14) (x : ChanSup) :
    (s.setChan p x).recv = s.recv ∧ (s.setChan p x).clock = s.clock ∧ (s.setChan p x).plan = s.plan
    ∧ (s.setChan p x).seq = s.seq ∧ (s.setChan p x).eng = s.eng ∧ (s.setChan p x).out = s.out ∧ (s.setChan p x).scan = s.scan
    ∧ (s.setChan p x).brk = s.brk ∧ (s.setChan p x).lines = s.lines ∧ (s.setChan p x).timers = s.timers
    ∧ (s.setChan p x).rep = s.rep ∧ (s.setChan p x).reply = s.reply ∧ (s.setChan p x).frame = s.frame
    ∧ (s.setChan p x).answerOut = s.answerOut ∧ (s.setChan p x).driveOut = s.driveOut ∧ (s.setChan p x).choices = s.choices
    ∧ (s.setChan p x).pending = s.pending := by
  unfold State.setChan
  simp

@[simp] theorem State.failChannel_frame (s : State) (p : Fin 14) (mm ov th : Bool) (bucket : Nat) (me co : Int) :
    (s.failChannel p mm ov th bucket me co).recv = s.recv ∧ (s.failChannel p mm ov th bucket me co).clock = s.clock
    ∧ (s.failChannel p mm ov th bucket me co).plan = s.plan ∧ (s.failChannel p mm ov th bucket me co).seq = s.seq
    ∧ (s.failChannel p mm ov th bucket me co).eng = s.eng ∧ (s.failChannel p mm ov th bucket me co).out = s.out
    ∧ (s.failChannel p mm ov th bucket me co).scan = s.scan ∧ (s.failChannel p mm ov th bucket me co).brk = s.brk
    ∧ (s.failChannel p mm ov th bucket me co).lines = s.lines ∧ (s.failChannel p mm ov th bucket me co).timers = s.timers
    ∧ (s.failChannel p mm ov th bucket me co).reply = s.reply ∧ (s.failChannel p mm ov th bucket me co).frame = s.frame
    ∧ (s.failChannel p mm ov th bucket me co).answerOut = s.answerOut
    ∧ (s.failChannel p mm ov th bucket me co).driveOut = s.driveOut
    ∧ (s.failChannel p mm ov th bucket me co).choices = s.choices
    ∧ (s.failChannel p mm ov th bucket me co).pending = s.pending := by
  unfold State.failChannel
  repeat' split
  all_goals simp

@[simp] theorem State.compare_frame (s : State) (p : Fin 14) (me co : Int) (ov th : Bool) :
    (s.compare p me co ov th).recv = s.recv ∧ (s.compare p me co ov th).clock = s.clock
    ∧ (s.compare p me co ov th).plan = s.plan ∧ (s.compare p me co ov th).seq = s.seq ∧ (s.compare p me co ov th).eng = s.eng
    ∧ (s.compare p me co ov th).out = s.out ∧ (s.compare p me co ov th).scan = s.scan ∧ (s.compare p me co ov th).brk = s.brk
    ∧ (s.compare p me co ov th).lines = s.lines ∧ (s.compare p me co ov th).timers = s.timers
    ∧ (s.compare p me co ov th).reply = s.reply ∧ (s.compare p me co ov th).frame = s.frame
    ∧ (s.compare p me co ov th).answerOut = s.answerOut ∧ (s.compare p me co ov th).driveOut = s.driveOut
    ∧ (s.compare p me co ov th).choices = s.choices ∧ (s.compare p me co ov th).pending = s.pending := by
  unfold State.compare
  (try dsimp only)
  and_intros <;> (repeat' split) <;> simp

@[simp] theorem State.leak_frame (s : State) (p : Fin 14) :
    (s.leak p).recv = s.recv ∧ (s.leak p).clock = s.clock ∧ (s.leak p).plan = s.plan ∧ (s.leak p).seq = s.seq
    ∧ (s.leak p).eng = s.eng ∧ (s.leak p).out = s.out ∧ (s.leak p).scan = s.scan ∧ (s.leak p).brk = s.brk
    ∧ (s.leak p).lines = s.lines ∧ (s.leak p).timers = s.timers ∧ (s.leak p).rep = s.rep ∧ (s.leak p).reply = s.reply
    ∧ (s.leak p).frame = s.frame ∧ (s.leak p).answerOut = s.answerOut ∧ (s.leak p).driveOut = s.driveOut
    ∧ (s.leak p).choices = s.choices ∧ (s.leak p).pending = s.pending := by
  unfold State.leak
  simp

@[simp] theorem State.leakIfDue_frame (s : State) (p : Fin 14) :
    (s.leakIfDue p).recv = s.recv ∧ (s.leakIfDue p).clock = s.clock ∧ (s.leakIfDue p).plan = s.plan
    ∧ (s.leakIfDue p).seq = s.seq ∧ (s.leakIfDue p).eng = s.eng ∧ (s.leakIfDue p).out = s.out ∧ (s.leakIfDue p).scan = s.scan
    ∧ (s.leakIfDue p).brk = s.brk ∧ (s.leakIfDue p).lines = s.lines ∧ (s.leakIfDue p).timers = s.timers
    ∧ (s.leakIfDue p).rep = s.rep ∧ (s.leakIfDue p).reply = s.reply ∧ (s.leakIfDue p).frame = s.frame
    ∧ (s.leakIfDue p).answerOut = s.answerOut ∧ (s.leakIfDue p).driveOut = s.driveOut ∧ (s.leakIfDue p).choices = s.choices
    ∧ (s.leakIfDue p).pending = s.pending := by
  unfold State.leakIfDue
  repeat' split
  all_goals simp

@[simp] theorem State.leakIfDue_fold_frame (s : State) (l : List (Fin 14)) :
    (l.foldl (State.leakIfDue) s).recv = s.recv ∧ (l.foldl (State.leakIfDue) s).clock = s.clock
    ∧ (l.foldl (State.leakIfDue) s).plan = s.plan ∧ (l.foldl (State.leakIfDue) s).seq = s.seq
    ∧ (l.foldl (State.leakIfDue) s).eng = s.eng ∧ (l.foldl (State.leakIfDue) s).out = s.out
    ∧ (l.foldl (State.leakIfDue) s).scan = s.scan ∧ (l.foldl (State.leakIfDue) s).brk = s.brk
    ∧ (l.foldl (State.leakIfDue) s).lines = s.lines ∧ (l.foldl (State.leakIfDue) s).timers = s.timers
    ∧ (l.foldl (State.leakIfDue) s).rep = s.rep ∧ (l.foldl (State.leakIfDue) s).reply = s.reply
    ∧ (l.foldl (State.leakIfDue) s).frame = s.frame ∧ (l.foldl (State.leakIfDue) s).answerOut = s.answerOut
    ∧ (l.foldl (State.leakIfDue) s).driveOut = s.driveOut ∧ (l.foldl (State.leakIfDue) s).choices = s.choices
    ∧ (l.foldl (State.leakIfDue) s).pending = s.pending := by
  induction l generalizing s with
  | nil => simp
  | cons x xs ih => simp [ih]

@[simp] theorem State.leaks_frame (s : State) :
    s.leaks.recv = s.recv ∧ s.leaks.clock = s.clock ∧ s.leaks.plan = s.plan ∧ s.leaks.seq = s.seq ∧ s.leaks.eng = s.eng
    ∧ s.leaks.out = s.out ∧ s.leaks.scan = s.scan ∧ s.leaks.brk = s.brk ∧ s.leaks.lines = s.lines ∧ s.leaks.timers = s.timers
    ∧ s.leaks.rep = s.rep ∧ s.leaks.reply = s.reply ∧ s.leaks.frame = s.frame ∧ s.leaks.answerOut = s.answerOut
    ∧ s.leaks.driveOut = s.driveOut ∧ s.leaks.choices = s.choices ∧ s.leaks.pending = s.pending := by
  unfold State.leaks
  simp

@[simp] theorem State.compareOne_frame (rb : Readback) (s : State) (p : Fin 14) :
    (State.compareOne rb s p).recv = s.recv ∧ (State.compareOne rb s p).clock = s.clock
    ∧ (State.compareOne rb s p).plan = s.plan ∧ (State.compareOne rb s p).seq = s.seq
    ∧ (State.compareOne rb s p).eng = s.eng ∧ (State.compareOne rb s p).out = s.out
    ∧ (State.compareOne rb s p).scan = s.scan ∧ (State.compareOne rb s p).brk = s.brk
    ∧ (State.compareOne rb s p).lines = s.lines ∧ (State.compareOne rb s p).timers = s.timers
    ∧ (State.compareOne rb s p).reply = s.reply ∧ (State.compareOne rb s p).frame = s.frame
    ∧ (State.compareOne rb s p).answerOut = s.answerOut ∧ (State.compareOne rb s p).driveOut = s.driveOut
    ∧ (State.compareOne rb s p).choices = s.choices ∧ (State.compareOne rb s p).pending = s.pending := by
  unfold State.compareOne
  repeat' split
  all_goals simp

@[simp] theorem State.compareOne_fold_frame (rb : Readback) (s : State) (l : List (Fin 14)) :
    (l.foldl (State.compareOne rb) s).recv = s.recv ∧ (l.foldl (State.compareOne rb) s).clock = s.clock
    ∧ (l.foldl (State.compareOne rb) s).plan = s.plan ∧ (l.foldl (State.compareOne rb) s).seq = s.seq
    ∧ (l.foldl (State.compareOne rb) s).eng = s.eng ∧ (l.foldl (State.compareOne rb) s).out = s.out
    ∧ (l.foldl (State.compareOne rb) s).scan = s.scan ∧ (l.foldl (State.compareOne rb) s).brk = s.brk
    ∧ (l.foldl (State.compareOne rb) s).lines = s.lines ∧ (l.foldl (State.compareOne rb) s).timers = s.timers
    ∧ (l.foldl (State.compareOne rb) s).reply = s.reply ∧ (l.foldl (State.compareOne rb) s).frame = s.frame
    ∧ (l.foldl (State.compareOne rb) s).answerOut = s.answerOut
    ∧ (l.foldl (State.compareOne rb) s).driveOut = s.driveOut ∧ (l.foldl (State.compareOne rb) s).choices = s.choices
    ∧ (l.foldl (State.compareOne rb) s).pending = s.pending := by
  induction l generalizing s with
  | nil => simp
  | cons x xs ih => simp [ih]

@[simp] theorem State.takeReadback_frame (s : State) (rb : Readback) :
    (s.takeReadback rb).recv = s.recv ∧ (s.takeReadback rb).clock = s.clock ∧ (s.takeReadback rb).plan = s.plan
    ∧ (s.takeReadback rb).seq = s.seq ∧ (s.takeReadback rb).eng = s.eng ∧ (s.takeReadback rb).out = s.out
    ∧ (s.takeReadback rb).scan = s.scan ∧ (s.takeReadback rb).brk = s.brk ∧ (s.takeReadback rb).lines = s.lines
    ∧ (s.takeReadback rb).reply = s.reply ∧ (s.takeReadback rb).answerOut = s.answerOut
    ∧ (s.takeReadback rb).driveOut = s.driveOut ∧ (s.takeReadback rb).choices = s.choices
    ∧ (s.takeReadback rb).pending = s.pending := by
  simp only [State.takeReadback]
  split <;> simp

@[simp] theorem State.supervisorStart_frame (s : State) :
    s.supervisorStart.recv = s.recv ∧ s.supervisorStart.clock = s.clock ∧ s.supervisorStart.plan = s.plan
    ∧ s.supervisorStart.seq = s.seq ∧ s.supervisorStart.eng = s.eng ∧ s.supervisorStart.out = s.out
    ∧ s.supervisorStart.scan = s.scan ∧ s.supervisorStart.brk = s.brk ∧ s.supervisorStart.lines = s.lines
    ∧ s.supervisorStart.timers = s.timers ∧ s.supervisorStart.rep = s.rep ∧ s.supervisorStart.reply = s.reply
    ∧ s.supervisorStart.frame = s.frame ∧ s.supervisorStart.answerOut = s.answerOut ∧ s.supervisorStart.driveOut = s.driveOut
    ∧ s.supervisorStart.choices = s.choices ∧ s.supervisorStart.pending = s.pending := by
  unfold State.supervisorStart
  simp

@[simp] theorem State.setMap_frame (s : State) (c : Fin 12) (p : Option (Fin 14)) :
    (s.setMap c p).recv = s.recv ∧ (s.setMap c p).clock = s.clock ∧ (s.setMap c p).plan = s.plan ∧ (s.setMap c p).seq = s.seq
    ∧ (s.setMap c p).eng = s.eng ∧ (s.setMap c p).sup = s.sup ∧ (s.setMap c p).scan = s.scan ∧ (s.setMap c p).brk = s.brk
    ∧ (s.setMap c p).lines = s.lines ∧ (s.setMap c p).timers = s.timers ∧ (s.setMap c p).rep = s.rep
    ∧ (s.setMap c p).reply = s.reply ∧ (s.setMap c p).frame = s.frame ∧ (s.setMap c p).answerOut = s.answerOut
    ∧ (s.setMap c p).driveOut = s.driveOut ∧ (s.setMap c p).choices = s.choices ∧ (s.setMap c p).pending = s.pending := by
  unfold State.setMap
  simp

@[simp] theorem State.setEngine_frame (s : State) (e : FailoverEngine) :
    (s.setEngine e).recv = s.recv ∧ (s.setEngine e).clock = s.clock ∧ (s.setEngine e).plan = s.plan
    ∧ (s.setEngine e).seq = s.seq ∧ (s.setEngine e).eng = s.eng ∧ (s.setEngine e).out = s.out ∧ (s.setEngine e).scan = s.scan
    ∧ (s.setEngine e).brk = s.brk ∧ (s.setEngine e).lines = s.lines ∧ (s.setEngine e).timers = s.timers
    ∧ (s.setEngine e).rep = s.rep ∧ (s.setEngine e).reply = s.reply ∧ (s.setEngine e).frame = s.frame
    ∧ (s.setEngine e).answerOut = s.answerOut ∧ (s.setEngine e).driveOut = s.driveOut ∧ (s.setEngine e).choices = s.choices
    ∧ (s.setEngine e).pending = s.pending := by
  unfold State.setEngine
  simp

@[simp] theorem State.makeFailover_frame (s : State) (c : Fin 12) (o : FailoverOutcome) (src dst : Option (Fin 14)) (w sw : Nat) :
    (s.makeFailover c o src dst w sw).recv = s.recv ∧ (s.makeFailover c o src dst w sw).clock = s.clock
    ∧ (s.makeFailover c o src dst w sw).plan = s.plan ∧ (s.makeFailover c o src dst w sw).seq = s.seq
    ∧ (s.makeFailover c o src dst w sw).eng = s.eng ∧ (s.makeFailover c o src dst w sw).out = s.out
    ∧ (s.makeFailover c o src dst w sw).sup = s.sup ∧ (s.makeFailover c o src dst w sw).scan = s.scan
    ∧ (s.makeFailover c o src dst w sw).brk = s.brk ∧ (s.makeFailover c o src dst w sw).lines = s.lines
    ∧ (s.makeFailover c o src dst w sw).timers = s.timers ∧ (s.makeFailover c o src dst w sw).reply = s.reply
    ∧ (s.makeFailover c o src dst w sw).frame = s.frame ∧ (s.makeFailover c o src dst w sw).answerOut = s.answerOut
    ∧ (s.makeFailover c o src dst w sw).driveOut = s.driveOut ∧ (s.makeFailover c o src dst w sw).choices = s.choices
    ∧ (s.makeFailover c o src dst w sw).pending = s.pending := by
  unfold State.makeFailover
  simp

@[simp] theorem State.serveChannel_frame (s : State) (c : Fin 12) :
    (s.serveChannel c).recv = s.recv ∧ (s.serveChannel c).clock = s.clock ∧ (s.serveChannel c).plan = s.plan
    ∧ (s.serveChannel c).eng = s.eng ∧ (s.serveChannel c).scan = s.scan ∧ (s.serveChannel c).brk = s.brk
    ∧ (s.serveChannel c).lines = s.lines ∧ (s.serveChannel c).timers = s.timers ∧ (s.serveChannel c).reply = s.reply
    ∧ (s.serveChannel c).frame = s.frame ∧ (s.serveChannel c).answerOut = s.answerOut
    ∧ (s.serveChannel c).driveOut = s.driveOut ∧ (s.serveChannel c).choices = s.choices
    ∧ (s.serveChannel c).pending = s.pending := by
  unfold State.serveChannel
  repeat' split
  all_goals simp

@[simp] theorem State.serve_frame (s : State) :
    s.serve.recv = s.recv ∧ s.serve.clock = s.clock ∧ s.serve.plan = s.plan ∧ s.serve.eng = s.eng ∧ s.serve.scan = s.scan
    ∧ s.serve.brk = s.brk ∧ s.serve.lines = s.lines ∧ s.serve.timers = s.timers ∧ s.serve.reply = s.reply
    ∧ s.serve.answerOut = s.answerOut ∧ s.serve.driveOut = s.driveOut ∧ s.serve.choices = s.choices
    ∧ s.serve.pending = s.pending := by
  unfold State.serve
  repeat' split
  all_goals simp

@[simp] theorem State.switchOver_frame (s : State) :
    s.switchOver.recv = s.recv ∧ s.switchOver.clock = s.clock ∧ s.switchOver.plan = s.plan ∧ s.switchOver.seq = s.seq
    ∧ s.switchOver.eng = s.eng ∧ s.switchOver.out = s.out ∧ s.switchOver.scan = s.scan ∧ s.switchOver.brk = s.brk
    ∧ s.switchOver.lines = s.lines ∧ s.switchOver.timers = s.timers ∧ s.switchOver.rep = s.rep ∧ s.switchOver.reply = s.reply
    ∧ s.switchOver.frame = s.frame ∧ s.switchOver.answerOut = s.answerOut ∧ s.switchOver.driveOut = s.driveOut
    ∧ s.switchOver.choices = s.choices ∧ s.switchOver.pending = s.pending := by
  unfold State.switchOver
  repeat' split
  all_goals simp

@[simp] theorem State.moveMap_frame (s : State) (x : FailoverCtx) :
    (s.moveMap x).recv = s.recv ∧ (s.moveMap x).clock = s.clock ∧ (s.moveMap x).plan = s.plan ∧ (s.moveMap x).seq = s.seq
    ∧ (s.moveMap x).eng = s.eng ∧ (s.moveMap x).scan = s.scan ∧ (s.moveMap x).brk = s.brk ∧ (s.moveMap x).lines = s.lines
    ∧ (s.moveMap x).timers = s.timers ∧ (s.moveMap x).rep = s.rep ∧ (s.moveMap x).reply = s.reply
    ∧ (s.moveMap x).frame = s.frame ∧ (s.moveMap x).answerOut = s.answerOut ∧ (s.moveMap x).driveOut = s.driveOut
    ∧ (s.moveMap x).choices = s.choices ∧ (s.moveMap x).pending = s.pending := by
  unfold State.moveMap
  simp

@[simp] theorem State.completeFailover_frame (s : State) :
    s.completeFailover.recv = s.recv ∧ s.completeFailover.clock = s.clock ∧ s.completeFailover.plan = s.plan
    ∧ s.completeFailover.eng = s.eng ∧ s.completeFailover.scan = s.scan ∧ s.completeFailover.brk = s.brk
    ∧ s.completeFailover.lines = s.lines ∧ s.completeFailover.timers = s.timers ∧ s.completeFailover.reply = s.reply
    ∧ s.completeFailover.answerOut = s.answerOut ∧ s.completeFailover.driveOut = s.driveOut
    ∧ s.completeFailover.choices = s.choices ∧ s.completeFailover.pending = s.pending := by
  unfold State.completeFailover
  repeat' split
  all_goals simp

@[simp] theorem State.countFailoverFrame_frame (s : State) :
    s.countFailoverFrame.recv = s.recv ∧ s.countFailoverFrame.clock = s.clock ∧ s.countFailoverFrame.plan = s.plan
    ∧ s.countFailoverFrame.seq = s.seq ∧ s.countFailoverFrame.eng = s.eng ∧ s.countFailoverFrame.out = s.out
    ∧ s.countFailoverFrame.scan = s.scan ∧ s.countFailoverFrame.brk = s.brk ∧ s.countFailoverFrame.lines = s.lines
    ∧ s.countFailoverFrame.timers = s.timers ∧ s.countFailoverFrame.rep = s.rep ∧ s.countFailoverFrame.reply = s.reply
    ∧ s.countFailoverFrame.frame = s.frame ∧ s.countFailoverFrame.answerOut = s.answerOut
    ∧ s.countFailoverFrame.driveOut = s.driveOut ∧ s.countFailoverFrame.choices = s.choices
    ∧ s.countFailoverFrame.pending = s.pending := by
  unfold State.countFailoverFrame
  repeat' split
  all_goals simp

@[simp] theorem State.abandonRequest_frame (e : Nat) (s : State) (c : Fin 12) :
    (State.abandonRequest e s c).recv = s.recv ∧ (State.abandonRequest e s c).clock = s.clock
    ∧ (State.abandonRequest e s c).plan = s.plan ∧ (State.abandonRequest e s c).seq = s.seq
    ∧ (State.abandonRequest e s c).eng = s.eng ∧ (State.abandonRequest e s c).out = s.out
    ∧ (State.abandonRequest e s c).sup = s.sup ∧ (State.abandonRequest e s c).scan = s.scan
    ∧ (State.abandonRequest e s c).brk = s.brk ∧ (State.abandonRequest e s c).lines = s.lines
    ∧ (State.abandonRequest e s c).timers = s.timers ∧ (State.abandonRequest e s c).reply = s.reply
    ∧ (State.abandonRequest e s c).frame = s.frame ∧ (State.abandonRequest e s c).answerOut = s.answerOut
    ∧ (State.abandonRequest e s c).driveOut = s.driveOut ∧ (State.abandonRequest e s c).choices = s.choices
    ∧ (State.abandonRequest e s c).pending = s.pending := by
  unfold State.abandonRequest
  simp

@[simp] theorem State.abandonRequest_fold_frame (e : Nat) (s : State) (l : List (Fin 12)) :
    (l.foldl (State.abandonRequest e) s).recv = s.recv ∧ (l.foldl (State.abandonRequest e) s).clock = s.clock
    ∧ (l.foldl (State.abandonRequest e) s).plan = s.plan ∧ (l.foldl (State.abandonRequest e) s).seq = s.seq
    ∧ (l.foldl (State.abandonRequest e) s).eng = s.eng ∧ (l.foldl (State.abandonRequest e) s).out = s.out
    ∧ (l.foldl (State.abandonRequest e) s).sup = s.sup ∧ (l.foldl (State.abandonRequest e) s).scan = s.scan
    ∧ (l.foldl (State.abandonRequest e) s).brk = s.brk ∧ (l.foldl (State.abandonRequest e) s).lines = s.lines
    ∧ (l.foldl (State.abandonRequest e) s).timers = s.timers ∧ (l.foldl (State.abandonRequest e) s).reply = s.reply
    ∧ (l.foldl (State.abandonRequest e) s).frame = s.frame
    ∧ (l.foldl (State.abandonRequest e) s).answerOut = s.answerOut
    ∧ (l.foldl (State.abandonRequest e) s).driveOut = s.driveOut
    ∧ (l.foldl (State.abandonRequest e) s).choices = s.choices
    ∧ (l.foldl (State.abandonRequest e) s).pending = s.pending := by
  induction l generalizing s with
  | nil => simp
  | cons x xs ih => simp [ih]

@[simp] theorem State.closeEngine_frame (s : State) (e : Nat) :
    (s.closeEngine e).recv = s.recv ∧ (s.closeEngine e).clock = s.clock ∧ (s.closeEngine e).plan = s.plan
    ∧ (s.closeEngine e).seq = s.seq ∧ (s.closeEngine e).eng = s.eng ∧ (s.closeEngine e).scan = s.scan
    ∧ (s.closeEngine e).brk = s.brk ∧ (s.closeEngine e).lines = s.lines ∧ (s.closeEngine e).timers = s.timers
    ∧ (s.closeEngine e).reply = s.reply ∧ (s.closeEngine e).frame = s.frame ∧ (s.closeEngine e).answerOut = s.answerOut
    ∧ (s.closeEngine e).driveOut = s.driveOut ∧ (s.closeEngine e).choices = s.choices
    ∧ (s.closeEngine e).pending = s.pending := by
  unfold State.closeEngine
  repeat' split
  all_goals simp

@[simp] theorem State.closeFailover_frame (s : State) (e : Nat) :
    (s.closeFailover e).recv = s.recv ∧ (s.closeFailover e).clock = s.clock ∧ (s.closeFailover e).plan = s.plan
    ∧ (s.closeFailover e).seq = s.seq ∧ (s.closeFailover e).eng = s.eng ∧ (s.closeFailover e).scan = s.scan
    ∧ (s.closeFailover e).brk = s.brk ∧ (s.closeFailover e).lines = s.lines ∧ (s.closeFailover e).timers = s.timers
    ∧ (s.closeFailover e).reply = s.reply ∧ (s.closeFailover e).frame = s.frame ∧ (s.closeFailover e).answerOut = s.answerOut
    ∧ (s.closeFailover e).driveOut = s.driveOut ∧ (s.closeFailover e).choices = s.choices
    ∧ (s.closeFailover e).pending = s.pending := by
  unfold State.closeFailover
  simp

@[simp] theorem State.supervisorReset_frame (s : State) :
    s.supervisorReset.recv = s.recv ∧ s.supervisorReset.clock = s.clock ∧ s.supervisorReset.plan = s.plan
    ∧ s.supervisorReset.seq = s.seq ∧ s.supervisorReset.eng = s.eng ∧ s.supervisorReset.out = s.out
    ∧ s.supervisorReset.scan = s.scan ∧ s.supervisorReset.brk = s.brk ∧ s.supervisorReset.lines = s.lines
    ∧ s.supervisorReset.timers = s.timers ∧ s.supervisorReset.rep = s.rep ∧ s.supervisorReset.reply = s.reply
    ∧ s.supervisorReset.frame = s.frame ∧ s.supervisorReset.answerOut = s.answerOut ∧ s.supervisorReset.driveOut = s.driveOut
    ∧ s.supervisorReset.choices = s.choices ∧ s.supervisorReset.pending = s.pending := by
  unfold State.supervisorReset
  simp

@[simp] theorem State.closeJudgment_frame (s : State) :
    s.closeJudgment.recv = s.recv ∧ s.closeJudgment.clock = s.clock ∧ s.closeJudgment.plan = s.plan
    ∧ s.closeJudgment.seq = s.seq ∧ s.closeJudgment.eng = s.eng ∧ s.closeJudgment.scan = s.scan ∧ s.closeJudgment.brk = s.brk
    ∧ s.closeJudgment.lines = s.lines ∧ s.closeJudgment.reply = s.reply ∧ s.closeJudgment.answerOut = s.answerOut
    ∧ s.closeJudgment.driveOut = s.driveOut ∧ s.closeJudgment.choices = s.choices ∧ s.closeJudgment.pending = s.pending := by
  unfold State.closeJudgment
  repeat' split
  all_goals simp

@[simp] theorem State.sendDrive_frame (s : State) (samples : Vector Int 14) (route : Vector (Option (Fin 14)) 12) :
    (s.sendDrive samples route).recv = s.recv ∧ (s.sendDrive samples route).clock = s.clock
    ∧ (s.sendDrive samples route).plan = s.plan ∧ (s.sendDrive samples route).seq = s.seq
    ∧ (s.sendDrive samples route).eng = s.eng ∧ (s.sendDrive samples route).scan = s.scan
    ∧ (s.sendDrive samples route).brk = s.brk ∧ (s.sendDrive samples route).lines = s.lines
    ∧ (s.sendDrive samples route).reply = s.reply ∧ (s.sendDrive samples route).answerOut = s.answerOut
    ∧ (s.sendDrive samples route).choices = s.choices ∧ (s.sendDrive samples route).pending = s.pending := by
  unfold State.sendDrive
  (try dsimp only)
  and_intros <;> simp

@[simp] theorem State.driveFrame_frame (s : State) :
    s.driveFrame.recv = s.recv ∧ s.driveFrame.clock = s.clock ∧ s.driveFrame.plan = s.plan ∧ s.driveFrame.seq = s.seq
    ∧ s.driveFrame.eng = s.eng ∧ s.driveFrame.scan = s.scan ∧ s.driveFrame.brk = s.brk ∧ s.driveFrame.lines = s.lines
    ∧ s.driveFrame.reply = s.reply ∧ s.driveFrame.answerOut = s.answerOut ∧ s.driveFrame.choices = s.choices
    ∧ s.driveFrame.pending = s.pending := by
  unfold State.driveFrame
  (try dsimp only)
  and_intros <;> simp

@[simp] theorem State.lossDrive_frame (s : State) :
    s.lossDrive.recv = s.recv ∧ s.lossDrive.clock = s.clock ∧ s.lossDrive.plan = s.plan ∧ s.lossDrive.seq = s.seq
    ∧ s.lossDrive.eng = s.eng ∧ s.lossDrive.scan = s.scan ∧ s.lossDrive.brk = s.brk ∧ s.lossDrive.lines = s.lines
    ∧ s.lossDrive.reply = s.reply ∧ s.lossDrive.answerOut = s.answerOut ∧ s.lossDrive.choices = s.choices
    ∧ s.lossDrive.pending = s.pending := by
  unfold State.lossDrive
  and_intros <;> simp

@[simp] theorem State.judgeReadback_frame (s : State) (bs : List Byte) :
    (s.judgeReadback bs).recv = s.recv ∧ (s.judgeReadback bs).clock = s.clock ∧ (s.judgeReadback bs).plan = s.plan
    ∧ (s.judgeReadback bs).seq = s.seq ∧ (s.judgeReadback bs).eng = s.eng ∧ (s.judgeReadback bs).scan = s.scan
    ∧ (s.judgeReadback bs).brk = s.brk ∧ (s.judgeReadback bs).lines = s.lines ∧ (s.judgeReadback bs).reply = s.reply
    ∧ (s.judgeReadback bs).answerOut = s.answerOut ∧ (s.judgeReadback bs).driveOut = s.driveOut
    ∧ (s.judgeReadback bs).choices = s.choices ∧ (s.judgeReadback bs).pending = s.pending := by
  unfold State.judgeReadback
  (try dsimp only)
  and_intros <;> (repeat' split) <;> simp

@[simp] theorem State.offer_frame (s : State) (ev : Cond) (stamp : Nat) (bo : Bool) :
    (s.offer ev stamp bo).recv = s.recv ∧ (s.offer ev stamp bo).clock = s.clock ∧ (s.offer ev stamp bo).plan = s.plan
    ∧ (s.offer ev stamp bo).seq = s.seq ∧ (s.offer ev stamp bo).eng = s.eng ∧ (s.offer ev stamp bo).out = s.out
    ∧ (s.offer ev stamp bo).sup = s.sup ∧ (s.offer ev stamp bo).scan = s.scan ∧ (s.offer ev stamp bo).brk = s.brk
    ∧ (s.offer ev stamp bo).lines = s.lines ∧ (s.offer ev stamp bo).reply = s.reply ∧ (s.offer ev stamp bo).frame = s.frame
    ∧ (s.offer ev stamp bo).answerOut = s.answerOut ∧ (s.offer ev stamp bo).driveOut = s.driveOut
    ∧ (s.offer ev stamp bo).choices = s.choices ∧ (s.offer ev stamp bo).pending = s.pending := by
  unfold State.offer
  simp

@[simp] theorem State.breakerReached_frame (s : State) (opened tripFree : Bool) (input edgeStamp : Nat) (edgeBo : Bool) (operating : Nat) (t : Int) :
    (s.breakerReached opened tripFree input edgeStamp edgeBo operating t).recv = s.recv
    ∧ (s.breakerReached opened tripFree input edgeStamp edgeBo operating t).clock = s.clock
    ∧ (s.breakerReached opened tripFree input edgeStamp edgeBo operating t).plan = s.plan
    ∧ (s.breakerReached opened tripFree input edgeStamp edgeBo operating t).eng = s.eng
    ∧ (s.breakerReached opened tripFree input edgeStamp edgeBo operating t).out = s.out
    ∧ (s.breakerReached opened tripFree input edgeStamp edgeBo operating t).sup = s.sup
    ∧ (s.breakerReached opened tripFree input edgeStamp edgeBo operating t).scan = s.scan
    ∧ (s.breakerReached opened tripFree input edgeStamp edgeBo operating t).lines = s.lines
    ∧ (s.breakerReached opened tripFree input edgeStamp edgeBo operating t).reply = s.reply
    ∧ (s.breakerReached opened tripFree input edgeStamp edgeBo operating t).frame = s.frame
    ∧ (s.breakerReached opened tripFree input edgeStamp edgeBo operating t).answerOut = s.answerOut
    ∧ (s.breakerReached opened tripFree input edgeStamp edgeBo operating t).driveOut = s.driveOut
    ∧ (s.breakerReached opened tripFree input edgeStamp edgeBo operating t).choices = s.choices
    ∧ (s.breakerReached opened tripFree input edgeStamp edgeBo operating t).pending = s.pending := by
  unfold State.breakerReached
  repeat' split
  all_goals simp

@[simp] theorem State.completeOperation_frame (s : State) :
    s.completeOperation.recv = s.recv ∧ s.completeOperation.clock = s.clock ∧ s.completeOperation.plan = s.plan
    ∧ s.completeOperation.eng = s.eng ∧ s.completeOperation.out = s.out ∧ s.completeOperation.sup = s.sup
    ∧ s.completeOperation.scan = s.scan ∧ s.completeOperation.lines = s.lines ∧ s.completeOperation.reply = s.reply
    ∧ s.completeOperation.frame = s.frame ∧ s.completeOperation.answerOut = s.answerOut
    ∧ s.completeOperation.driveOut = s.driveOut ∧ s.completeOperation.choices = s.choices
    ∧ s.completeOperation.pending = s.pending := by
  unfold State.completeOperation
  repeat' split
  all_goals simp

@[simp] theorem State.beginOperation_frame (s : State) (st : BreakerState) (delay input stamp : Nat) (bo : Bool) :
    (s.beginOperation st delay input stamp bo).recv = s.recv ∧ (s.beginOperation st delay input stamp bo).clock = s.clock
    ∧ (s.beginOperation st delay input stamp bo).plan = s.plan ∧ (s.beginOperation st delay input stamp bo).seq = s.seq
    ∧ (s.beginOperation st delay input stamp bo).eng = s.eng ∧ (s.beginOperation st delay input stamp bo).out = s.out
    ∧ (s.beginOperation st delay input stamp bo).sup = s.sup ∧ (s.beginOperation st delay input stamp bo).scan = s.scan
    ∧ (s.beginOperation st delay input stamp bo).lines = s.lines
    ∧ (s.beginOperation st delay input stamp bo).timers = s.timers ∧ (s.beginOperation st delay input stamp bo).rep = s.rep
    ∧ (s.beginOperation st delay input stamp bo).reply = s.reply ∧ (s.beginOperation st delay input stamp bo).frame = s.frame
    ∧ (s.beginOperation st delay input stamp bo).answerOut = s.answerOut
    ∧ (s.beginOperation st delay input stamp bo).driveOut = s.driveOut
    ∧ (s.beginOperation st delay input stamp bo).choices = s.choices
    ∧ (s.beginOperation st delay input stamp bo).pending = s.pending := by
  unfold State.beginOperation
  simp

@[simp] theorem State.tripFree_frame (s : State) (input stamp : Nat) (bo : Bool) :
    (s.tripFree input stamp bo).recv = s.recv ∧ (s.tripFree input stamp bo).clock = s.clock
    ∧ (s.tripFree input stamp bo).plan = s.plan ∧ (s.tripFree input stamp bo).eng = s.eng
    ∧ (s.tripFree input stamp bo).out = s.out ∧ (s.tripFree input stamp bo).sup = s.sup
    ∧ (s.tripFree input stamp bo).scan = s.scan ∧ (s.tripFree input stamp bo).lines = s.lines
    ∧ (s.tripFree input stamp bo).reply = s.reply ∧ (s.tripFree input stamp bo).frame = s.frame
    ∧ (s.tripFree input stamp bo).answerOut = s.answerOut ∧ (s.tripFree input stamp bo).driveOut = s.driveOut
    ∧ (s.tripFree input stamp bo).choices = s.choices ∧ (s.tripFree input stamp bo).pending = s.pending := by
  unfold State.tripFree
  repeat' split
  all_goals simp

@[simp] theorem State.breakerEdge_frame (s : State) (i : Fin 8) (stamp : Nat) (bo : Bool) :
    (s.breakerEdge i stamp bo).recv = s.recv ∧ (s.breakerEdge i stamp bo).clock = s.clock
    ∧ (s.breakerEdge i stamp bo).plan = s.plan ∧ (s.breakerEdge i stamp bo).eng = s.eng
    ∧ (s.breakerEdge i stamp bo).out = s.out ∧ (s.breakerEdge i stamp bo).sup = s.sup
    ∧ (s.breakerEdge i stamp bo).scan = s.scan ∧ (s.breakerEdge i stamp bo).lines = s.lines
    ∧ (s.breakerEdge i stamp bo).reply = s.reply ∧ (s.breakerEdge i stamp bo).frame = s.frame
    ∧ (s.breakerEdge i stamp bo).answerOut = s.answerOut ∧ (s.breakerEdge i stamp bo).driveOut = s.driveOut
    ∧ (s.breakerEdge i stamp bo).choices = s.choices ∧ (s.breakerEdge i stamp bo).pending = s.pending := by
  unfold State.breakerEdge
  (try dsimp only)
  and_intros <;> (repeat' split) <;> simp

@[simp] theorem State.breakerStart_frame (s : State) :
    s.breakerStart.recv = s.recv ∧ s.breakerStart.clock = s.clock ∧ s.breakerStart.plan = s.plan ∧ s.breakerStart.seq = s.seq
    ∧ s.breakerStart.eng = s.eng ∧ s.breakerStart.out = s.out ∧ s.breakerStart.sup = s.sup ∧ s.breakerStart.scan = s.scan
    ∧ s.breakerStart.lines = s.lines ∧ s.breakerStart.timers = s.timers ∧ s.breakerStart.rep = s.rep
    ∧ s.breakerStart.reply = s.reply ∧ s.breakerStart.frame = s.frame ∧ s.breakerStart.answerOut = s.answerOut
    ∧ s.breakerStart.driveOut = s.driveOut ∧ s.breakerStart.choices = s.choices ∧ s.breakerStart.pending = s.pending := by
  unfold State.breakerStart
  simp

@[simp] theorem State.breakerHome_frame (s : State) :
    s.breakerHome.recv = s.recv ∧ s.breakerHome.clock = s.clock ∧ s.breakerHome.plan = s.plan ∧ s.breakerHome.seq = s.seq
    ∧ s.breakerHome.eng = s.eng ∧ s.breakerHome.out = s.out ∧ s.breakerHome.sup = s.sup ∧ s.breakerHome.scan = s.scan
    ∧ s.breakerHome.lines = s.lines ∧ s.breakerHome.timers = s.timers ∧ s.breakerHome.rep = s.rep
    ∧ s.breakerHome.reply = s.reply ∧ s.breakerHome.frame = s.frame ∧ s.breakerHome.answerOut = s.answerOut
    ∧ s.breakerHome.driveOut = s.driveOut ∧ s.breakerHome.choices = s.choices ∧ s.breakerHome.pending = s.pending := by
  unfold State.breakerHome
  simp

@[simp] theorem State.linesEnter_frame (s : State) (st : Fin 32) :
    (s.linesEnter st).recv = s.recv ∧ (s.linesEnter st).clock = s.clock ∧ (s.linesEnter st).plan = s.plan
    ∧ (s.linesEnter st).seq = s.seq ∧ (s.linesEnter st).eng = s.eng ∧ (s.linesEnter st).out = s.out
    ∧ (s.linesEnter st).sup = s.sup ∧ (s.linesEnter st).scan = s.scan ∧ (s.linesEnter st).brk = s.brk
    ∧ (s.linesEnter st).timers = s.timers ∧ (s.linesEnter st).rep = s.rep ∧ (s.linesEnter st).reply = s.reply
    ∧ (s.linesEnter st).frame = s.frame ∧ (s.linesEnter st).answerOut = s.answerOut ∧ (s.linesEnter st).driveOut = s.driveOut
    ∧ (s.linesEnter st).choices = s.choices ∧ (s.linesEnter st).pending = s.pending := by
  unfold State.linesEnter
  simp

@[simp] theorem State.linesHome_frame (s : State) :
    s.linesHome.recv = s.recv ∧ s.linesHome.clock = s.clock ∧ s.linesHome.plan = s.plan ∧ s.linesHome.seq = s.seq
    ∧ s.linesHome.eng = s.eng ∧ s.linesHome.out = s.out ∧ s.linesHome.sup = s.sup ∧ s.linesHome.scan = s.scan
    ∧ s.linesHome.brk = s.brk ∧ s.linesHome.timers = s.timers ∧ s.linesHome.rep = s.rep ∧ s.linesHome.reply = s.reply
    ∧ s.linesHome.frame = s.frame ∧ s.linesHome.answerOut = s.answerOut ∧ s.linesHome.driveOut = s.driveOut
    ∧ s.linesHome.choices = s.choices ∧ s.linesHome.pending = s.pending := by
  unfold State.linesHome
  simp

@[simp] theorem State.endPulse_frame (s : State) (k : Fin 4) :
    (s.endPulse k).recv = s.recv ∧ (s.endPulse k).clock = s.clock ∧ (s.endPulse k).plan = s.plan ∧ (s.endPulse k).seq = s.seq
    ∧ (s.endPulse k).eng = s.eng ∧ (s.endPulse k).out = s.out ∧ (s.endPulse k).sup = s.sup ∧ (s.endPulse k).scan = s.scan
    ∧ (s.endPulse k).brk = s.brk ∧ (s.endPulse k).timers = s.timers ∧ (s.endPulse k).rep = s.rep
    ∧ (s.endPulse k).reply = s.reply ∧ (s.endPulse k).frame = s.frame ∧ (s.endPulse k).answerOut = s.answerOut
    ∧ (s.endPulse k).driveOut = s.driveOut ∧ (s.endPulse k).choices = s.choices ∧ (s.endPulse k).pending = s.pending := by
  unfold State.endPulse
  (try dsimp only)
  and_intros <;> (repeat' split) <;> simp

@[simp] theorem State.setInput_frame (s : State) (i : Fin 8) (x : InputScan) :
    (s.setInput i x).recv = s.recv ∧ (s.setInput i x).clock = s.clock ∧ (s.setInput i x).plan = s.plan
    ∧ (s.setInput i x).seq = s.seq ∧ (s.setInput i x).eng = s.eng ∧ (s.setInput i x).out = s.out
    ∧ (s.setInput i x).sup = s.sup ∧ (s.setInput i x).brk = s.brk ∧ (s.setInput i x).lines = s.lines
    ∧ (s.setInput i x).timers = s.timers ∧ (s.setInput i x).rep = s.rep ∧ (s.setInput i x).reply = s.reply
    ∧ (s.setInput i x).frame = s.frame ∧ (s.setInput i x).answerOut = s.answerOut ∧ (s.setInput i x).driveOut = s.driveOut
    ∧ (s.setInput i x).choices = s.choices ∧ (s.setInput i x).pending = s.pending := by
  unfold State.setInput
  simp

@[simp] theorem State.scanAll_frame (s : State) :
    s.scanAll.recv = s.recv ∧ s.scanAll.clock = s.clock ∧ s.scanAll.plan = s.plan ∧ s.scanAll.seq = s.seq
    ∧ s.scanAll.eng = s.eng ∧ s.scanAll.out = s.out ∧ s.scanAll.sup = s.sup ∧ s.scanAll.brk = s.brk
    ∧ s.scanAll.lines = s.lines ∧ s.scanAll.timers = s.timers ∧ s.scanAll.rep = s.rep ∧ s.scanAll.reply = s.reply
    ∧ s.scanAll.frame = s.frame ∧ s.scanAll.answerOut = s.answerOut ∧ s.scanAll.driveOut = s.driveOut
    ∧ s.scanAll.choices = s.choices ∧ s.scanAll.pending = s.pending := by
  unfold State.scanAll
  simp

@[simp] theorem State.lineChange_frame (s : State) (i : Fin 8) (high : Bool) :
    (s.lineChange i high).recv = s.recv ∧ (s.lineChange i high).clock = s.clock ∧ (s.lineChange i high).plan = s.plan
    ∧ (s.lineChange i high).seq = s.seq ∧ (s.lineChange i high).eng = s.eng ∧ (s.lineChange i high).out = s.out
    ∧ (s.lineChange i high).sup = s.sup ∧ (s.lineChange i high).brk = s.brk ∧ (s.lineChange i high).lines = s.lines
    ∧ (s.lineChange i high).timers = s.timers ∧ (s.lineChange i high).rep = s.rep ∧ (s.lineChange i high).reply = s.reply
    ∧ (s.lineChange i high).frame = s.frame ∧ (s.lineChange i high).answerOut = s.answerOut
    ∧ (s.lineChange i high).driveOut = s.driveOut ∧ (s.lineChange i high).choices = s.choices
    ∧ (s.lineChange i high).pending = s.pending := by
  unfold State.lineChange
  (try dsimp only)
  and_intros <;> (repeat' split) <;> simp

@[simp] theorem State.startTrigger_frame (s : State) (i : Fin 8) (start : Nat) :
    (s.startTrigger i start).recv = s.recv ∧ (s.startTrigger i start).clock = s.clock
    ∧ (s.startTrigger i start).plan = s.plan ∧ (s.startTrigger i start).eng = s.eng ∧ (s.startTrigger i start).out = s.out
    ∧ (s.startTrigger i start).sup = s.sup ∧ (s.startTrigger i start).scan = s.scan ∧ (s.startTrigger i start).brk = s.brk
    ∧ (s.startTrigger i start).lines = s.lines ∧ (s.startTrigger i start).timers = s.timers
    ∧ (s.startTrigger i start).rep = s.rep ∧ (s.startTrigger i start).reply = s.reply
    ∧ (s.startTrigger i start).frame = s.frame ∧ (s.startTrigger i start).answerOut = s.answerOut
    ∧ (s.startTrigger i start).driveOut = s.driveOut ∧ (s.startTrigger i start).choices = s.choices
    ∧ (s.startTrigger i start).pending = s.pending := by
  unfold State.startTrigger
  (try dsimp only)
  and_intros <;> (repeat' split) <;> simp

@[simp] theorem State.deliver_frame (s : State) (i : Fin 8) (active : Bool) (start stamp : Nat) (bo : Bool) :
    (s.deliver i active start stamp bo).recv = s.recv ∧ (s.deliver i active start stamp bo).clock = s.clock
    ∧ (s.deliver i active start stamp bo).plan = s.plan ∧ (s.deliver i active start stamp bo).eng = s.eng
    ∧ (s.deliver i active start stamp bo).out = s.out ∧ (s.deliver i active start stamp bo).sup = s.sup
    ∧ (s.deliver i active start stamp bo).scan = s.scan ∧ (s.deliver i active start stamp bo).lines = s.lines
    ∧ (s.deliver i active start stamp bo).reply = s.reply ∧ (s.deliver i active start stamp bo).frame = s.frame
    ∧ (s.deliver i active start stamp bo).answerOut = s.answerOut ∧ (s.deliver i active start stamp bo).driveOut = s.driveOut
    ∧ (s.deliver i active start stamp bo).choices = s.choices ∧ (s.deliver i active start stamp bo).pending = s.pending := by
  unfold State.deliver
  repeat' split
  all_goals simp

@[simp] theorem State.joinEdgeRecord_frame (s : State) (before : List Made) (m : Option Made) :
    (s.joinEdgeRecord before m).recv = s.recv ∧ (s.joinEdgeRecord before m).clock = s.clock
    ∧ (s.joinEdgeRecord before m).plan = s.plan ∧ (s.joinEdgeRecord before m).seq = s.seq
    ∧ (s.joinEdgeRecord before m).eng = s.eng ∧ (s.joinEdgeRecord before m).out = s.out
    ∧ (s.joinEdgeRecord before m).sup = s.sup ∧ (s.joinEdgeRecord before m).scan = s.scan
    ∧ (s.joinEdgeRecord before m).brk = s.brk ∧ (s.joinEdgeRecord before m).lines = s.lines
    ∧ (s.joinEdgeRecord before m).timers = s.timers ∧ (s.joinEdgeRecord before m).reply = s.reply
    ∧ (s.joinEdgeRecord before m).frame = s.frame ∧ (s.joinEdgeRecord before m).answerOut = s.answerOut
    ∧ (s.joinEdgeRecord before m).driveOut = s.driveOut ∧ (s.joinEdgeRecord before m).pending = s.pending := by
  unfold State.joinEdgeRecord
  repeat' split
  all_goals simp

@[simp] theorem State.acceptEdge_frame (s : State) (i : Fin 8) :
    (s.acceptEdge i).recv = s.recv ∧ (s.acceptEdge i).clock = s.clock ∧ (s.acceptEdge i).plan = s.plan
    ∧ (s.acceptEdge i).eng = s.eng ∧ (s.acceptEdge i).out = s.out ∧ (s.acceptEdge i).sup = s.sup
    ∧ (s.acceptEdge i).lines = s.lines ∧ (s.acceptEdge i).reply = s.reply ∧ (s.acceptEdge i).frame = s.frame
    ∧ (s.acceptEdge i).answerOut = s.answerOut ∧ (s.acceptEdge i).driveOut = s.driveOut
    ∧ (s.acceptEdge i).pending = s.pending := by
  unfold State.acceptEdge
  (try dsimp only)
  and_intros <;> (repeat' split) <;> simp

@[simp] theorem State.closeWindowOf_frame (s : State) (i : Fin 8) :
    (s.closeWindowOf i).recv = s.recv ∧ (s.closeWindowOf i).clock = s.clock ∧ (s.closeWindowOf i).plan = s.plan
    ∧ (s.closeWindowOf i).seq = s.seq ∧ (s.closeWindowOf i).eng = s.eng ∧ (s.closeWindowOf i).out = s.out
    ∧ (s.closeWindowOf i).sup = s.sup ∧ (s.closeWindowOf i).brk = s.brk ∧ (s.closeWindowOf i).lines = s.lines
    ∧ (s.closeWindowOf i).timers = s.timers ∧ (s.closeWindowOf i).rep = s.rep ∧ (s.closeWindowOf i).reply = s.reply
    ∧ (s.closeWindowOf i).frame = s.frame ∧ (s.closeWindowOf i).answerOut = s.answerOut
    ∧ (s.closeWindowOf i).driveOut = s.driveOut ∧ (s.closeWindowOf i).choices = s.choices
    ∧ (s.closeWindowOf i).pending = s.pending := by
  unfold State.closeWindowOf
  simp

@[simp] theorem State.endChatter_frame (s : State) (i : Fin 8) :
    (s.endChatter i).recv = s.recv ∧ (s.endChatter i).clock = s.clock ∧ (s.endChatter i).plan = s.plan
    ∧ (s.endChatter i).seq = s.seq ∧ (s.endChatter i).eng = s.eng ∧ (s.endChatter i).out = s.out
    ∧ (s.endChatter i).sup = s.sup ∧ (s.endChatter i).brk = s.brk ∧ (s.endChatter i).lines = s.lines
    ∧ (s.endChatter i).timers = s.timers ∧ (s.endChatter i).reply = s.reply ∧ (s.endChatter i).frame = s.frame
    ∧ (s.endChatter i).answerOut = s.answerOut ∧ (s.endChatter i).driveOut = s.driveOut
    ∧ (s.endChatter i).choices = s.choices ∧ (s.endChatter i).pending = s.pending := by
  unfold State.endChatter
  simp

@[simp] theorem State.windowStep_frame (n : Nat) (s : State) (i : Fin 8) :
    (State.windowStep n s i).recv = s.recv ∧ (State.windowStep n s i).clock = s.clock
    ∧ (State.windowStep n s i).plan = s.plan ∧ (State.windowStep n s i).seq = s.seq
    ∧ (State.windowStep n s i).eng = s.eng ∧ (State.windowStep n s i).out = s.out
    ∧ (State.windowStep n s i).sup = s.sup ∧ (State.windowStep n s i).brk = s.brk
    ∧ (State.windowStep n s i).lines = s.lines ∧ (State.windowStep n s i).timers = s.timers
    ∧ (State.windowStep n s i).reply = s.reply ∧ (State.windowStep n s i).frame = s.frame
    ∧ (State.windowStep n s i).answerOut = s.answerOut ∧ (State.windowStep n s i).driveOut = s.driveOut
    ∧ (State.windowStep n s i).choices = s.choices ∧ (State.windowStep n s i).pending = s.pending := by
  unfold State.windowStep
  repeat' split
  all_goals simp

@[simp] theorem State.windowStep_fold_frame (n : Nat) (s : State) (l : List (Fin 8)) :
    (l.foldl (State.windowStep n) s).recv = s.recv ∧ (l.foldl (State.windowStep n) s).clock = s.clock
    ∧ (l.foldl (State.windowStep n) s).plan = s.plan ∧ (l.foldl (State.windowStep n) s).seq = s.seq
    ∧ (l.foldl (State.windowStep n) s).eng = s.eng ∧ (l.foldl (State.windowStep n) s).out = s.out
    ∧ (l.foldl (State.windowStep n) s).sup = s.sup ∧ (l.foldl (State.windowStep n) s).brk = s.brk
    ∧ (l.foldl (State.windowStep n) s).lines = s.lines ∧ (l.foldl (State.windowStep n) s).timers = s.timers
    ∧ (l.foldl (State.windowStep n) s).reply = s.reply ∧ (l.foldl (State.windowStep n) s).frame = s.frame
    ∧ (l.foldl (State.windowStep n) s).answerOut = s.answerOut
    ∧ (l.foldl (State.windowStep n) s).driveOut = s.driveOut ∧ (l.foldl (State.windowStep n) s).choices = s.choices
    ∧ (l.foldl (State.windowStep n) s).pending = s.pending := by
  induction l generalizing s with
  | nil => simp
  | cons x xs ih => simp [ih]

@[simp] theorem State.windowSteps_frame (s : State) (n : Nat) :
    (s.windowSteps n).recv = s.recv ∧ (s.windowSteps n).clock = s.clock ∧ (s.windowSteps n).plan = s.plan
    ∧ (s.windowSteps n).seq = s.seq ∧ (s.windowSteps n).eng = s.eng ∧ (s.windowSteps n).out = s.out
    ∧ (s.windowSteps n).sup = s.sup ∧ (s.windowSteps n).brk = s.brk ∧ (s.windowSteps n).lines = s.lines
    ∧ (s.windowSteps n).timers = s.timers ∧ (s.windowSteps n).reply = s.reply ∧ (s.windowSteps n).frame = s.frame
    ∧ (s.windowSteps n).answerOut = s.answerOut ∧ (s.windowSteps n).driveOut = s.driveOut
    ∧ (s.windowSteps n).choices = s.choices ∧ (s.windowSteps n).pending = s.pending := by
  unfold State.windowSteps
  simp

@[simp] theorem State.scannerReset_frame (s : State) :
    s.scannerReset.recv = s.recv ∧ s.scannerReset.clock = s.clock ∧ s.scannerReset.plan = s.plan ∧ s.scannerReset.seq = s.seq
    ∧ s.scannerReset.eng = s.eng ∧ s.scannerReset.out = s.out ∧ s.scannerReset.sup = s.sup ∧ s.scannerReset.brk = s.brk
    ∧ s.scannerReset.lines = s.lines ∧ s.scannerReset.timers = s.timers ∧ s.scannerReset.rep = s.rep
    ∧ s.scannerReset.reply = s.reply ∧ s.scannerReset.frame = s.frame ∧ s.scannerReset.answerOut = s.answerOut
    ∧ s.scannerReset.driveOut = s.driveOut ∧ s.scannerReset.choices = s.choices ∧ s.scannerReset.pending = s.pending := by
  unfold State.scannerReset
  simp

@[simp] theorem State.verifyOutcome_frame (s : State) (v : Verification) :
    (s.verifyOutcome v).recv = s.recv ∧ (s.verifyOutcome v).clock = s.clock ∧ (s.verifyOutcome v).eng = s.eng
    ∧ (s.verifyOutcome v).out = s.out ∧ (s.verifyOutcome v).sup = s.sup ∧ (s.verifyOutcome v).scan = s.scan
    ∧ (s.verifyOutcome v).brk = s.brk ∧ (s.verifyOutcome v).lines = s.lines ∧ (s.verifyOutcome v).timers = s.timers
    ∧ (s.verifyOutcome v).reply = s.reply ∧ (s.verifyOutcome v).frame = s.frame ∧ (s.verifyOutcome v).answerOut = s.answerOut
    ∧ (s.verifyOutcome v).driveOut = s.driveOut ∧ (s.verifyOutcome v).choices = s.choices
    ∧ (s.verifyOutcome v).pending = s.pending := by
  unfold State.verifyOutcome
  (try dsimp only)
  and_intros <;> (repeat' split) <;> simp

@[simp] theorem State.dropVerification_frame (s : State) :
    s.dropVerification.recv = s.recv ∧ s.dropVerification.clock = s.clock ∧ s.dropVerification.seq = s.seq
    ∧ s.dropVerification.eng = s.eng ∧ s.dropVerification.out = s.out ∧ s.dropVerification.sup = s.sup
    ∧ s.dropVerification.scan = s.scan ∧ s.dropVerification.brk = s.brk ∧ s.dropVerification.lines = s.lines
    ∧ s.dropVerification.timers = s.timers ∧ s.dropVerification.rep = s.rep ∧ s.dropVerification.reply = s.reply
    ∧ s.dropVerification.frame = s.frame ∧ s.dropVerification.answerOut = s.answerOut
    ∧ s.dropVerification.driveOut = s.driveOut ∧ s.dropVerification.choices = s.choices
    ∧ s.dropVerification.pending = s.pending := by
  unfold State.dropVerification
  simp

@[simp] theorem State.returnToIdle_frame (s : State) :
    s.returnToIdle.recv = s.recv ∧ s.returnToIdle.clock = s.clock ∧ s.returnToIdle.eng = s.eng ∧ s.returnToIdle.out = s.out
    ∧ s.returnToIdle.sup = s.sup ∧ s.returnToIdle.scan = s.scan ∧ s.returnToIdle.timers = s.timers
    ∧ s.returnToIdle.rep = s.rep ∧ s.returnToIdle.reply = s.reply ∧ s.returnToIdle.frame = s.frame
    ∧ s.returnToIdle.answerOut = s.answerOut ∧ s.returnToIdle.driveOut = s.driveOut ∧ s.returnToIdle.choices = s.choices
    ∧ s.returnToIdle.pending = s.pending := by
  unfold State.returnToIdle
  simp

@[simp] theorem State.summary_frame (s : State) (left n : Nat) :
    (s.summary left n).recv = s.recv ∧ (s.summary left n).clock = s.clock ∧ (s.summary left n).plan = s.plan
    ∧ (s.summary left n).seq = s.seq ∧ (s.summary left n).eng = s.eng ∧ (s.summary left n).out = s.out
    ∧ (s.summary left n).sup = s.sup ∧ (s.summary left n).scan = s.scan ∧ (s.summary left n).brk = s.brk
    ∧ (s.summary left n).lines = s.lines ∧ (s.summary left n).timers = s.timers ∧ (s.summary left n).reply = s.reply
    ∧ (s.summary left n).frame = s.frame ∧ (s.summary left n).answerOut = s.answerOut
    ∧ (s.summary left n).driveOut = s.driveOut ∧ (s.summary left n).choices = s.choices
    ∧ (s.summary left n).pending = s.pending := by
  unfold State.summary
  simp

@[simp] theorem State.testEnd_frame (s : State) (r : EndReason) (last : Fin 32) (run : Nat) :
    (s.testEnd r last run).recv = s.recv ∧ (s.testEnd r last run).clock = s.clock ∧ (s.testEnd r last run).plan = s.plan
    ∧ (s.testEnd r last run).seq = s.seq ∧ (s.testEnd r last run).eng = s.eng ∧ (s.testEnd r last run).out = s.out
    ∧ (s.testEnd r last run).sup = s.sup ∧ (s.testEnd r last run).scan = s.scan ∧ (s.testEnd r last run).brk = s.brk
    ∧ (s.testEnd r last run).lines = s.lines ∧ (s.testEnd r last run).timers = s.timers ∧ (s.testEnd r last run).reply = s.reply
    ∧ (s.testEnd r last run).frame = s.frame ∧ (s.testEnd r last run).answerOut = s.answerOut ∧ (s.testEnd r last run).driveOut = s.driveOut
    ∧ (s.testEnd r last run).choices = s.choices ∧ (s.testEnd r last run).pending = s.pending := by
  unfold State.testEnd
  repeat' split
  all_goals simp

@[simp] theorem State.closeTest_frame (s : State) (r : EndReason) (last : Fin 32) (run : Nat) :
    (s.closeTest r last run).recv = s.recv ∧ (s.closeTest r last run).clock = s.clock ∧ (s.closeTest r last run).eng = s.eng
    ∧ (s.closeTest r last run).out = s.out ∧ (s.closeTest r last run).sup = s.sup ∧ (s.closeTest r last run).scan = s.scan
    ∧ (s.closeTest r last run).timers = s.timers ∧ (s.closeTest r last run).reply = s.reply ∧ (s.closeTest r last run).frame = s.frame
    ∧ (s.closeTest r last run).answerOut = s.answerOut ∧ (s.closeTest r last run).driveOut = s.driveOut
    ∧ (s.closeTest r last run).choices = s.choices ∧ (s.closeTest r last run).pending = s.pending := by
  unfold State.closeTest
  simp

@[simp] theorem State.closeBlocks_frame (s : State) (e : Nat) :
    (s.closeBlocks e).recv = s.recv ∧ (s.closeBlocks e).clock = s.clock ∧ (s.closeBlocks e).plan = s.plan
    ∧ (s.closeBlocks e).seq = s.seq ∧ (s.closeBlocks e).eng = s.eng ∧ (s.closeBlocks e).scan = s.scan
    ∧ (s.closeBlocks e).brk = s.brk ∧ (s.closeBlocks e).lines = s.lines ∧ (s.closeBlocks e).reply = s.reply
    ∧ (s.closeBlocks e).frame = s.frame ∧ (s.closeBlocks e).answerOut = s.answerOut ∧ (s.closeBlocks e).driveOut = s.driveOut
    ∧ (s.closeBlocks e).choices = s.choices ∧ (s.closeBlocks e).pending = s.pending := by
  unfold State.closeBlocks
  simp

@[simp] theorem State.beginEnding_frame (s : State) (r : EndReason) (own : Nat) (last : Fin 32) :
    (s.beginEnding r own last).recv = s.recv ∧ (s.beginEnding r own last).clock = s.clock ∧ (s.beginEnding r own last).eng = s.eng
    ∧ (s.beginEnding r own last).scan = s.scan ∧ (s.beginEnding r own last).reply = s.reply ∧ (s.beginEnding r own last).frame = s.frame
    ∧ (s.beginEnding r own last).answerOut = s.answerOut ∧ (s.beginEnding r own last).driveOut = s.driveOut
    ∧ (s.beginEnding r own last).choices = s.choices ∧ (s.beginEnding r own last).pending = s.pending := by
  unfold State.beginEnding
  repeat' split
  all_goals simp

@[simp] theorem State.enterState_frame (s : State) (st : Fin 32) (prev exit : Nat) :
    (s.enterState st prev exit).recv = s.recv ∧ (s.enterState st prev exit).clock = s.clock
    ∧ (s.enterState st prev exit).scan = s.scan ∧ (s.enterState st prev exit).reply = s.reply
    ∧ (s.enterState st prev exit).frame = s.frame ∧ (s.enterState st prev exit).answerOut = s.answerOut
    ∧ (s.enterState st prev exit).driveOut = s.driveOut ∧ (s.enterState st prev exit).choices = s.choices
    ∧ (s.enterState st prev exit).pending = s.pending := by
  unfold State.enterState
  (try dsimp only)
  and_intros <;> (repeat' split) <;> simp

@[simp] theorem State.startTest_frame (s : State) (r : StartRecord) :
    (s.startTest r).recv = s.recv ∧ (s.startTest r).clock = s.clock ∧ (s.startTest r).reply = s.reply
    ∧ (s.startTest r).frame = s.frame ∧ (s.startTest r).answerOut = s.answerOut ∧ (s.startTest r).driveOut = s.driveOut
    ∧ (s.startTest r).choices = s.choices ∧ (s.startTest r).pending = s.pending := by
  unfold State.startTest
  simp

@[simp] theorem State.nextFrame_frame (s : State) :
    s.nextFrame.recv = s.recv ∧ s.nextFrame.clock = s.clock ∧ s.nextFrame.plan = s.plan ∧ s.nextFrame.eng = s.eng
    ∧ s.nextFrame.out = s.out ∧ s.nextFrame.sup = s.sup ∧ s.nextFrame.scan = s.scan ∧ s.nextFrame.brk = s.brk
    ∧ s.nextFrame.lines = s.lines ∧ s.nextFrame.timers = s.timers ∧ s.nextFrame.rep = s.rep ∧ s.nextFrame.reply = s.reply
    ∧ s.nextFrame.frame = s.frame ∧ s.nextFrame.answerOut = s.answerOut ∧ s.nextFrame.driveOut = s.driveOut
    ∧ s.nextFrame.choices = s.choices ∧ s.nextFrame.pending = s.pending := by
  unfold State.nextFrame
  simp

@[simp] theorem State.endRunning_frame (s : State) (r : EndReason) :
    (s.endRunning r).recv = s.recv ∧ (s.endRunning r).clock = s.clock ∧ (s.endRunning r).eng = s.eng
    ∧ (s.endRunning r).scan = s.scan ∧ (s.endRunning r).reply = s.reply ∧ (s.endRunning r).frame = s.frame
    ∧ (s.endRunning r).answerOut = s.answerOut ∧ (s.endRunning r).driveOut = s.driveOut
    ∧ (s.endRunning r).choices = s.choices ∧ (s.endRunning r).pending = s.pending := by
  unfold State.endRunning
  simp

@[simp] theorem State.settle_frame (s : State) (d : Decision) :
    (s.settle d).recv = s.recv ∧ (s.settle d).clock = s.clock ∧ (s.settle d).reply = s.reply ∧ (s.settle d).frame = s.frame
    ∧ (s.settle d).answerOut = s.answerOut ∧ (s.settle d).driveOut = s.driveOut ∧ (s.settle d).choices = s.choices
    ∧ (s.settle d).pending = s.pending := by
  unfold State.settle
  repeat' split
  all_goals simp

@[simp] theorem State.lossSequencer_frame (s : State) :
    s.lossSequencer.recv = s.recv ∧ s.lossSequencer.clock = s.clock ∧ s.lossSequencer.eng = s.eng
    ∧ s.lossSequencer.scan = s.scan ∧ s.lossSequencer.reply = s.reply ∧ s.lossSequencer.frame = s.frame
    ∧ s.lossSequencer.answerOut = s.answerOut ∧ s.lossSequencer.driveOut = s.driveOut ∧ s.lossSequencer.choices = s.choices
    ∧ s.lossSequencer.pending = s.pending := by
  unfold State.lossSequencer
  repeat' split
  all_goals simp

@[simp] theorem State.sequencerReset_frame (s : State) :
    s.sequencerReset.recv = s.recv ∧ s.sequencerReset.clock = s.clock ∧ s.sequencerReset.eng = s.eng
    ∧ s.sequencerReset.out = s.out ∧ s.sequencerReset.sup = s.sup ∧ s.sequencerReset.scan = s.scan
    ∧ s.sequencerReset.timers = s.timers ∧ s.sequencerReset.rep = s.rep ∧ s.sequencerReset.reply = s.reply
    ∧ s.sequencerReset.frame = s.frame ∧ s.sequencerReset.answerOut = s.answerOut ∧ s.sequencerReset.driveOut = s.driveOut
    ∧ s.sequencerReset.choices = s.choices ∧ s.sequencerReset.pending = s.pending := by
  unfold State.sequencerReset
  simp

@[simp] theorem State.lock_frame (s : State) (arrival seq : Nat) :
    (s.lock arrival seq).plan = s.plan ∧ (s.lock arrival seq).seq = s.seq ∧ (s.lock arrival seq).sup = s.sup
    ∧ (s.lock arrival seq).scan = s.scan ∧ (s.lock arrival seq).brk = s.brk ∧ (s.lock arrival seq).lines = s.lines
    ∧ (s.lock arrival seq).timers = s.timers ∧ (s.lock arrival seq).rep = s.rep ∧ (s.lock arrival seq).reply = s.reply
    ∧ (s.lock arrival seq).frame = s.frame ∧ (s.lock arrival seq).answerOut = s.answerOut
    ∧ (s.lock arrival seq).driveOut = s.driveOut ∧ (s.lock arrival seq).choices = s.choices
    ∧ (s.lock arrival seq).pending = s.pending := by
  unfold State.lock
  (try dsimp only)
  and_intros <;> simp

@[simp] theorem State.arriveCheck_frame (s : State) (arrival seq : Nat) :
    (s.arriveCheck arrival seq).plan = s.plan ∧ (s.arriveCheck arrival seq).seq = s.seq
    ∧ (s.arriveCheck arrival seq).sup = s.sup ∧ (s.arriveCheck arrival seq).scan = s.scan
    ∧ (s.arriveCheck arrival seq).brk = s.brk ∧ (s.arriveCheck arrival seq).lines = s.lines
    ∧ (s.arriveCheck arrival seq).timers = s.timers ∧ (s.arriveCheck arrival seq).rep = s.rep
    ∧ (s.arriveCheck arrival seq).reply = s.reply ∧ (s.arriveCheck arrival seq).frame = s.frame
    ∧ (s.arriveCheck arrival seq).answerOut = s.answerOut ∧ (s.arriveCheck arrival seq).driveOut = s.driveOut
    ∧ (s.arriveCheck arrival seq).choices = s.choices ∧ (s.arriveCheck arrival seq).pending = s.pending := by
  unfold State.arriveCheck
  repeat' split
  all_goals simp

@[simp] theorem State.arriveLocked_frame (s : State) (h : HeldFrame) :
    (s.arriveLocked h).clock = s.clock ∧ (s.arriveLocked h).plan = s.plan ∧ (s.arriveLocked h).seq = s.seq
    ∧ (s.arriveLocked h).eng = s.eng ∧ (s.arriveLocked h).out = s.out ∧ (s.arriveLocked h).sup = s.sup
    ∧ (s.arriveLocked h).scan = s.scan ∧ (s.arriveLocked h).brk = s.brk ∧ (s.arriveLocked h).lines = s.lines
    ∧ (s.arriveLocked h).timers = s.timers ∧ (s.arriveLocked h).rep = s.rep ∧ (s.arriveLocked h).reply = s.reply
    ∧ (s.arriveLocked h).frame = s.frame ∧ (s.arriveLocked h).answerOut = s.answerOut
    ∧ (s.arriveLocked h).driveOut = s.driveOut ∧ (s.arriveLocked h).choices = s.choices
    ∧ (s.arriveLocked h).pending = s.pending := by
  unfold State.arriveLocked
  repeat' split
  all_goals simp

@[simp] theorem State.arriveBad_frame (s : State) :
    s.arriveBad.clock = s.clock ∧ s.arriveBad.plan = s.plan ∧ s.arriveBad.seq = s.seq ∧ s.arriveBad.eng = s.eng
    ∧ s.arriveBad.out = s.out ∧ s.arriveBad.sup = s.sup ∧ s.arriveBad.scan = s.scan ∧ s.arriveBad.brk = s.brk
    ∧ s.arriveBad.lines = s.lines ∧ s.arriveBad.timers = s.timers ∧ s.arriveBad.rep = s.rep ∧ s.arriveBad.reply = s.reply
    ∧ s.arriveBad.frame = s.frame ∧ s.arriveBad.answerOut = s.answerOut ∧ s.arriveBad.driveOut = s.driveOut
    ∧ s.arriveBad.choices = s.choices ∧ s.arriveBad.pending = s.pending := by
  unfold State.arriveBad
  repeat' split
  all_goals simp

@[simp] theorem State.arriveGood_frame (s : State) (h : HeldFrame) :
    (s.arriveGood h).plan = s.plan ∧ (s.arriveGood h).seq = s.seq ∧ (s.arriveGood h).sup = s.sup
    ∧ (s.arriveGood h).scan = s.scan ∧ (s.arriveGood h).brk = s.brk ∧ (s.arriveGood h).lines = s.lines
    ∧ (s.arriveGood h).timers = s.timers ∧ (s.arriveGood h).rep = s.rep ∧ (s.arriveGood h).reply = s.reply
    ∧ (s.arriveGood h).frame = s.frame ∧ (s.arriveGood h).answerOut = s.answerOut ∧ (s.arriveGood h).driveOut = s.driveOut
    ∧ (s.arriveGood h).choices = s.choices ∧ (s.arriveGood h).pending = s.pending := by
  unfold State.arriveGood
  repeat' split
  all_goals simp

@[simp] theorem State.setStream_frame (s : State) (bytes : List LinkByte) :
    (s.setStream bytes).clock = s.clock ∧ (s.setStream bytes).plan = s.plan ∧ (s.setStream bytes).seq = s.seq
    ∧ (s.setStream bytes).eng = s.eng ∧ (s.setStream bytes).out = s.out ∧ (s.setStream bytes).sup = s.sup
    ∧ (s.setStream bytes).scan = s.scan ∧ (s.setStream bytes).brk = s.brk ∧ (s.setStream bytes).lines = s.lines
    ∧ (s.setStream bytes).timers = s.timers ∧ (s.setStream bytes).rep = s.rep ∧ (s.setStream bytes).reply = s.reply
    ∧ (s.setStream bytes).frame = s.frame ∧ (s.setStream bytes).answerOut = s.answerOut
    ∧ (s.setStream bytes).driveOut = s.driveOut ∧ (s.setStream bytes).choices = s.choices
    ∧ (s.setStream bytes).pending = s.pending := by
  unfold State.setStream
  simp

@[simp] theorem State.arrive_frame (s : State) (arrival : Nat) (bs : List Byte) :
    (s.arrive arrival bs).plan = s.plan ∧ (s.arrive arrival bs).seq = s.seq ∧ (s.arrive arrival bs).sup = s.sup
    ∧ (s.arrive arrival bs).scan = s.scan ∧ (s.arrive arrival bs).brk = s.brk ∧ (s.arrive arrival bs).lines = s.lines
    ∧ (s.arrive arrival bs).timers = s.timers ∧ (s.arrive arrival bs).rep = s.rep ∧ (s.arrive arrival bs).reply = s.reply
    ∧ (s.arrive arrival bs).frame = s.frame ∧ (s.arrive arrival bs).answerOut = s.answerOut
    ∧ (s.arrive arrival bs).driveOut = s.driveOut ∧ (s.arrive arrival bs).choices = s.choices
    ∧ (s.arrive arrival bs).pending = s.pending := by
  unfold State.arrive
  repeat' split
  all_goals simp

@[simp] theorem State.checkTimeout_frame (s : State) :
    s.checkTimeout.clock = s.clock ∧ s.checkTimeout.plan = s.plan ∧ s.checkTimeout.seq = s.seq ∧ s.checkTimeout.eng = s.eng
    ∧ s.checkTimeout.out = s.out ∧ s.checkTimeout.sup = s.sup ∧ s.checkTimeout.scan = s.scan ∧ s.checkTimeout.brk = s.brk
    ∧ s.checkTimeout.lines = s.lines ∧ s.checkTimeout.timers = s.timers ∧ s.checkTimeout.rep = s.rep
    ∧ s.checkTimeout.reply = s.reply ∧ s.checkTimeout.frame = s.frame ∧ s.checkTimeout.answerOut = s.answerOut
    ∧ s.checkTimeout.driveOut = s.driveOut ∧ s.checkTimeout.choices = s.choices ∧ s.checkTimeout.pending = s.pending := by
  unfold State.checkTimeout
  repeat' split
  all_goals simp

@[simp] theorem State.takeRecords_frame (s : State) (before : Receiver) (h : HeldFrame) (st : Nat × Nat) :
    (s.takeRecords before h st).recv = s.recv ∧ (s.takeRecords before h st).clock = s.clock
    ∧ (s.takeRecords before h st).plan = s.plan ∧ (s.takeRecords before h st).seq = s.seq
    ∧ (s.takeRecords before h st).eng = s.eng ∧ (s.takeRecords before h st).out = s.out
    ∧ (s.takeRecords before h st).sup = s.sup ∧ (s.takeRecords before h st).scan = s.scan
    ∧ (s.takeRecords before h st).brk = s.brk ∧ (s.takeRecords before h st).lines = s.lines
    ∧ (s.takeRecords before h st).timers = s.timers ∧ (s.takeRecords before h st).reply = s.reply
    ∧ (s.takeRecords before h st).frame = s.frame ∧ (s.takeRecords before h st).answerOut = s.answerOut
    ∧ (s.takeRecords before h st).driveOut = s.driveOut ∧ (s.takeRecords before h st).choices = s.choices
    ∧ (s.takeRecords before h st).pending = s.pending := by
  unfold State.takeRecords
  repeat' split
  all_goals simp

@[simp] theorem State.openEvent_frame (s : State) (d : Decision) (gap : Bool) (slot : Option ControlSlot) :
    (s.openEvent d gap slot).recv = s.recv ∧ (s.openEvent d gap slot).clock = s.clock
    ∧ (s.openEvent d gap slot).plan = s.plan ∧ (s.openEvent d gap slot).seq = s.seq ∧ (s.openEvent d gap slot).eng = s.eng
    ∧ (s.openEvent d gap slot).sup = s.sup ∧ (s.openEvent d gap slot).scan = s.scan ∧ (s.openEvent d gap slot).brk = s.brk
    ∧ (s.openEvent d gap slot).lines = s.lines ∧ (s.openEvent d gap slot).rep = s.rep
    ∧ (s.openEvent d gap slot).reply = s.reply ∧ (s.openEvent d gap slot).answerOut = s.answerOut
    ∧ (s.openEvent d gap slot).driveOut = s.driveOut ∧ (s.openEvent d gap slot).choices = s.choices
    ∧ (s.openEvent d gap slot).pending = s.pending := by
  unfold State.openEvent
  (try dsimp only)
  and_intros <;> (repeat' split) <;> simp

@[simp] theorem State.take_frame (s : State) :
    s.take.plan = s.plan ∧ s.take.seq = s.seq ∧ s.take.sup = s.sup ∧ s.take.scan = s.scan ∧ s.take.brk = s.brk
    ∧ s.take.lines = s.lines ∧ s.take.reply = s.reply ∧ s.take.answerOut = s.answerOut ∧ s.take.driveOut = s.driveOut
    ∧ s.take.choices = s.choices ∧ s.take.pending = s.pending := by
  unfold State.take
  repeat' split
  all_goals simp

@[simp] theorem State.leaveLocked_frame (s : State) :
    s.leaveLocked.plan = s.plan ∧ s.leaveLocked.seq = s.seq ∧ s.leaveLocked.eng = s.eng ∧ s.leaveLocked.out = s.out
    ∧ s.leaveLocked.sup = s.sup ∧ s.leaveLocked.scan = s.scan ∧ s.leaveLocked.brk = s.brk ∧ s.leaveLocked.lines = s.lines
    ∧ s.leaveLocked.timers = s.timers ∧ s.leaveLocked.rep = s.rep ∧ s.leaveLocked.reply = s.reply
    ∧ s.leaveLocked.frame = s.frame ∧ s.leaveLocked.answerOut = s.answerOut ∧ s.leaveLocked.driveOut = s.driveOut
    ∧ s.leaveLocked.choices = s.choices ∧ s.leaveLocked.pending = s.pending := by
  unfold State.leaveLocked
  simp

@[simp] theorem State.streamLoss_frame (s : State) :
    s.streamLoss.eng = s.eng ∧ s.streamLoss.scan = s.scan ∧ s.streamLoss.reply = s.reply
    ∧ s.streamLoss.answerOut = s.answerOut ∧ s.streamLoss.choices = s.choices ∧ s.streamLoss.pending = s.pending := by
  unfold State.streamLoss
  simp

@[simp] theorem State.abort_frame (s : State) :
    s.abort.recv = s.recv ∧ s.abort.clock = s.clock ∧ s.abort.eng = s.eng ∧ s.abort.out = s.out ∧ s.abort.sup = s.sup
    ∧ s.abort.scan = s.scan ∧ s.abort.brk = s.brk ∧ s.abort.lines = s.lines ∧ s.abort.timers = s.timers ∧ s.abort.rep = s.rep
    ∧ s.abort.reply = s.reply ∧ s.abort.frame = s.frame ∧ s.abort.answerOut = s.answerOut ∧ s.abort.driveOut = s.driveOut
    ∧ s.abort.choices = s.choices ∧ s.abort.pending = s.pending := by
  unfold State.abort
  repeat' split
  all_goals simp

@[simp] theorem State.releaseBuffer_frame (s : State) (b : Fin 4) :
    (s.releaseBuffer b).recv = s.recv ∧ (s.releaseBuffer b).clock = s.clock ∧ (s.releaseBuffer b).plan = s.plan
    ∧ (s.releaseBuffer b).seq = s.seq ∧ (s.releaseBuffer b).eng = s.eng ∧ (s.releaseBuffer b).out = s.out
    ∧ (s.releaseBuffer b).sup = s.sup ∧ (s.releaseBuffer b).scan = s.scan ∧ (s.releaseBuffer b).brk = s.brk
    ∧ (s.releaseBuffer b).lines = s.lines ∧ (s.releaseBuffer b).timers = s.timers ∧ (s.releaseBuffer b).reply = s.reply
    ∧ (s.releaseBuffer b).frame = s.frame ∧ (s.releaseBuffer b).answerOut = s.answerOut
    ∧ (s.releaseBuffer b).driveOut = s.driveOut ∧ (s.releaseBuffer b).choices = s.choices
    ∧ (s.releaseBuffer b).pending = s.pending := by
  unfold State.releaseBuffer
  repeat' split
  all_goals simp

@[simp] theorem State.clearChan_frame (s : State) (p : Fin 14) :
    (s.clearChan p).recv = s.recv ∧ (s.clearChan p).clock = s.clock ∧ (s.clearChan p).plan = s.plan
    ∧ (s.clearChan p).seq = s.seq ∧ (s.clearChan p).eng = s.eng ∧ (s.clearChan p).out = s.out ∧ (s.clearChan p).scan = s.scan
    ∧ (s.clearChan p).brk = s.brk ∧ (s.clearChan p).lines = s.lines ∧ (s.clearChan p).timers = s.timers
    ∧ (s.clearChan p).rep = s.rep ∧ (s.clearChan p).reply = s.reply ∧ (s.clearChan p).frame = s.frame
    ∧ (s.clearChan p).answerOut = s.answerOut ∧ (s.clearChan p).driveOut = s.driveOut ∧ (s.clearChan p).choices = s.choices
    ∧ (s.clearChan p).pending = s.pending := by
  unfold State.clearChan
  repeat' split
  all_goals simp

@[simp] theorem State.identityMap_frame (s : State) :
    s.identityMap.recv = s.recv ∧ s.identityMap.clock = s.clock ∧ s.identityMap.plan = s.plan ∧ s.identityMap.seq = s.seq
    ∧ s.identityMap.eng = s.eng ∧ s.identityMap.scan = s.scan ∧ s.identityMap.brk = s.brk ∧ s.identityMap.lines = s.lines
    ∧ s.identityMap.timers = s.timers ∧ s.identityMap.rep = s.rep ∧ s.identityMap.reply = s.reply
    ∧ s.identityMap.frame = s.frame ∧ s.identityMap.answerOut = s.answerOut ∧ s.identityMap.driveOut = s.driveOut
    ∧ s.identityMap.choices = s.choices ∧ s.identityMap.pending = s.pending := by
  unfold State.identityMap
  simp

@[simp] theorem State.resetBlocks_frame (s : State) :
    s.resetBlocks.recv = s.recv ∧ s.resetBlocks.clock = s.clock ∧ s.resetBlocks.out = s.out ∧ s.resetBlocks.reply = s.reply
    ∧ s.resetBlocks.frame = s.frame ∧ s.resetBlocks.answerOut = s.answerOut ∧ s.resetBlocks.driveOut = s.driveOut
    ∧ s.resetBlocks.choices = s.choices ∧ s.resetBlocks.pending = s.pending := by
  unfold State.resetBlocks
  simp

@[simp] theorem writeGlobals_frame (m : Msg) (s : State) :
    (writeGlobals m s).state.recv = s.recv ∧ (writeGlobals m s).state.clock = s.clock
    ∧ (writeGlobals m s).state.seq = s.seq ∧ (writeGlobals m s).state.eng = s.eng
    ∧ (writeGlobals m s).state.out = s.out ∧ (writeGlobals m s).state.sup = s.sup
    ∧ (writeGlobals m s).state.scan = s.scan ∧ (writeGlobals m s).state.brk = s.brk
    ∧ (writeGlobals m s).state.lines = s.lines ∧ (writeGlobals m s).state.timers = s.timers
    ∧ (writeGlobals m s).state.rep = s.rep ∧ (writeGlobals m s).state.reply = s.reply
    ∧ (writeGlobals m s).state.frame = s.frame ∧ (writeGlobals m s).state.answerOut = s.answerOut
    ∧ (writeGlobals m s).state.driveOut = s.driveOut ∧ (writeGlobals m s).state.choices = s.choices
    ∧ (writeGlobals m s).state.pending = s.pending := by
  unfold writeGlobals inPhase indexed valued done refuse
  repeat' split
  all_goals simp

@[simp] theorem writeState_frame (m : Msg) (s : State) :
    (writeState m s).state.recv = s.recv ∧ (writeState m s).state.clock = s.clock
    ∧ (writeState m s).state.seq = s.seq ∧ (writeState m s).state.eng = s.eng ∧ (writeState m s).state.out = s.out
    ∧ (writeState m s).state.sup = s.sup ∧ (writeState m s).state.scan = s.scan ∧ (writeState m s).state.brk = s.brk
    ∧ (writeState m s).state.lines = s.lines ∧ (writeState m s).state.timers = s.timers
    ∧ (writeState m s).state.rep = s.rep ∧ (writeState m s).state.reply = s.reply
    ∧ (writeState m s).state.frame = s.frame ∧ (writeState m s).state.answerOut = s.answerOut
    ∧ (writeState m s).state.driveOut = s.driveOut ∧ (writeState m s).state.choices = s.choices
    ∧ (writeState m s).state.pending = s.pending := by
  unfold writeState inPhase indexed valued done refuse
  (try dsimp only)
  and_intros <;> (repeat' split) <;> simp

@[simp] theorem writeChannel_frame (m : Msg) (s : State) :
    (writeChannel m s).state.recv = s.recv ∧ (writeChannel m s).state.clock = s.clock
    ∧ (writeChannel m s).state.seq = s.seq ∧ (writeChannel m s).state.eng = s.eng
    ∧ (writeChannel m s).state.out = s.out ∧ (writeChannel m s).state.sup = s.sup
    ∧ (writeChannel m s).state.scan = s.scan ∧ (writeChannel m s).state.brk = s.brk
    ∧ (writeChannel m s).state.lines = s.lines ∧ (writeChannel m s).state.timers = s.timers
    ∧ (writeChannel m s).state.rep = s.rep ∧ (writeChannel m s).state.reply = s.reply
    ∧ (writeChannel m s).state.frame = s.frame ∧ (writeChannel m s).state.answerOut = s.answerOut
    ∧ (writeChannel m s).state.driveOut = s.driveOut ∧ (writeChannel m s).state.choices = s.choices
    ∧ (writeChannel m s).state.pending = s.pending := by
  unfold writeChannel inPhase indexed valued done refuse
  repeat' split
  all_goals simp

@[simp] theorem writeTimer_frame (m : Msg) (s : State) :
    (writeTimer m s).state.recv = s.recv ∧ (writeTimer m s).state.clock = s.clock
    ∧ (writeTimer m s).state.seq = s.seq ∧ (writeTimer m s).state.eng = s.eng ∧ (writeTimer m s).state.out = s.out
    ∧ (writeTimer m s).state.sup = s.sup ∧ (writeTimer m s).state.scan = s.scan ∧ (writeTimer m s).state.brk = s.brk
    ∧ (writeTimer m s).state.lines = s.lines ∧ (writeTimer m s).state.timers = s.timers
    ∧ (writeTimer m s).state.rep = s.rep ∧ (writeTimer m s).state.reply = s.reply
    ∧ (writeTimer m s).state.frame = s.frame ∧ (writeTimer m s).state.answerOut = s.answerOut
    ∧ (writeTimer m s).state.driveOut = s.driveOut ∧ (writeTimer m s).state.choices = s.choices
    ∧ (writeTimer m s).state.pending = s.pending := by
  unfold writeTimer inPhase indexed valued done refuse
  repeat' split
  all_goals simp

@[simp] theorem writeInput_frame (m : Msg) (s : State) :
    (writeInput m s).state.recv = s.recv ∧ (writeInput m s).state.clock = s.clock
    ∧ (writeInput m s).state.seq = s.seq ∧ (writeInput m s).state.eng = s.eng ∧ (writeInput m s).state.out = s.out
    ∧ (writeInput m s).state.sup = s.sup ∧ (writeInput m s).state.brk = s.brk
    ∧ (writeInput m s).state.lines = s.lines ∧ (writeInput m s).state.timers = s.timers
    ∧ (writeInput m s).state.rep = s.rep ∧ (writeInput m s).state.reply = s.reply
    ∧ (writeInput m s).state.frame = s.frame ∧ (writeInput m s).state.answerOut = s.answerOut
    ∧ (writeInput m s).state.driveOut = s.driveOut ∧ (writeInput m s).state.choices = s.choices
    ∧ (writeInput m s).state.pending = s.pending := by
  unfold writeInput inPhase indexed valued done refuse
  repeat' split
  all_goals simp

@[simp] theorem writeBreaker_frame (m : Msg) (s : State) :
    (writeBreaker m s).state.recv = s.recv ∧ (writeBreaker m s).state.clock = s.clock
    ∧ (writeBreaker m s).state.seq = s.seq ∧ (writeBreaker m s).state.eng = s.eng
    ∧ (writeBreaker m s).state.out = s.out ∧ (writeBreaker m s).state.sup = s.sup
    ∧ (writeBreaker m s).state.scan = s.scan ∧ (writeBreaker m s).state.lines = s.lines
    ∧ (writeBreaker m s).state.timers = s.timers ∧ (writeBreaker m s).state.rep = s.rep
    ∧ (writeBreaker m s).state.reply = s.reply ∧ (writeBreaker m s).state.frame = s.frame
    ∧ (writeBreaker m s).state.answerOut = s.answerOut ∧ (writeBreaker m s).state.driveOut = s.driveOut
    ∧ (writeBreaker m s).state.choices = s.choices ∧ (writeBreaker m s).state.pending = s.pending := by
  unfold writeBreaker inPhase indexed valued done refuse
  repeat' split
  all_goals simp

@[simp] theorem writeCapture_frame (m : Msg) (s : State) :
    (writeCapture m s).state.recv = s.recv ∧ (writeCapture m s).state.clock = s.clock
    ∧ (writeCapture m s).state.seq = s.seq ∧ (writeCapture m s).state.eng = s.eng
    ∧ (writeCapture m s).state.out = s.out ∧ (writeCapture m s).state.sup = s.sup
    ∧ (writeCapture m s).state.scan = s.scan ∧ (writeCapture m s).state.brk = s.brk
    ∧ (writeCapture m s).state.lines = s.lines ∧ (writeCapture m s).state.timers = s.timers
    ∧ (writeCapture m s).state.rep = s.rep ∧ (writeCapture m s).state.reply = s.reply
    ∧ (writeCapture m s).state.frame = s.frame ∧ (writeCapture m s).state.answerOut = s.answerOut
    ∧ (writeCapture m s).state.driveOut = s.driveOut ∧ (writeCapture m s).state.choices = s.choices
    ∧ (writeCapture m s).state.pending = s.pending := by
  unfold writeCapture inPhase indexed valued done refuse
  repeat' split
  all_goals simp

@[simp] theorem writeLimit_frame (m : Msg) (s : State) :
    (writeLimit m s).state.recv = s.recv ∧ (writeLimit m s).state.clock = s.clock
    ∧ (writeLimit m s).state.plan = s.plan ∧ (writeLimit m s).state.seq = s.seq ∧ (writeLimit m s).state.eng = s.eng
    ∧ (writeLimit m s).state.sup = s.sup ∧ (writeLimit m s).state.scan = s.scan ∧ (writeLimit m s).state.brk = s.brk
    ∧ (writeLimit m s).state.lines = s.lines ∧ (writeLimit m s).state.timers = s.timers
    ∧ (writeLimit m s).state.rep = s.rep ∧ (writeLimit m s).state.reply = s.reply
    ∧ (writeLimit m s).state.frame = s.frame ∧ (writeLimit m s).state.answerOut = s.answerOut
    ∧ (writeLimit m s).state.driveOut = s.driveOut ∧ (writeLimit m s).state.choices = s.choices
    ∧ (writeLimit m s).state.pending = s.pending := by
  unfold writeLimit indexed valued done refuse
  (try dsimp only)
  and_intros <;> (repeat' split) <;> simp

@[simp] theorem writeSupervision_frame (m : Msg) (s : State) :
    (writeSupervision m s).state.recv = s.recv ∧ (writeSupervision m s).state.clock = s.clock
    ∧ (writeSupervision m s).state.plan = s.plan ∧ (writeSupervision m s).state.seq = s.seq
    ∧ (writeSupervision m s).state.eng = s.eng ∧ (writeSupervision m s).state.out = s.out
    ∧ (writeSupervision m s).state.scan = s.scan ∧ (writeSupervision m s).state.brk = s.brk
    ∧ (writeSupervision m s).state.lines = s.lines ∧ (writeSupervision m s).state.timers = s.timers
    ∧ (writeSupervision m s).state.rep = s.rep ∧ (writeSupervision m s).state.reply = s.reply
    ∧ (writeSupervision m s).state.frame = s.frame ∧ (writeSupervision m s).state.answerOut = s.answerOut
    ∧ (writeSupervision m s).state.driveOut = s.driveOut ∧ (writeSupervision m s).state.choices = s.choices
    ∧ (writeSupervision m s).state.pending = s.pending := by
  unfold writeSupervision inPhase indexed valued done refuse
  repeat' split
  all_goals simp

@[simp] theorem writeSupervisionGlobal_frame (m : Msg) (s : State) :
    (writeSupervisionGlobal m s).state.recv = s.recv ∧ (writeSupervisionGlobal m s).state.clock = s.clock
    ∧ (writeSupervisionGlobal m s).state.plan = s.plan ∧ (writeSupervisionGlobal m s).state.seq = s.seq
    ∧ (writeSupervisionGlobal m s).state.eng = s.eng ∧ (writeSupervisionGlobal m s).state.out = s.out
    ∧ (writeSupervisionGlobal m s).state.scan = s.scan ∧ (writeSupervisionGlobal m s).state.brk = s.brk
    ∧ (writeSupervisionGlobal m s).state.lines = s.lines ∧ (writeSupervisionGlobal m s).state.timers = s.timers
    ∧ (writeSupervisionGlobal m s).state.rep = s.rep ∧ (writeSupervisionGlobal m s).state.reply = s.reply
    ∧ (writeSupervisionGlobal m s).state.frame = s.frame ∧ (writeSupervisionGlobal m s).state.answerOut = s.answerOut
    ∧ (writeSupervisionGlobal m s).state.driveOut = s.driveOut
    ∧ (writeSupervisionGlobal m s).state.choices = s.choices ∧ (writeSupervisionGlobal m s).state.pending = s.pending := by
  unfold writeSupervisionGlobal inPhase indexed valued done refuse
  repeat' split
  all_goals simp

@[simp] theorem setCadence_frame (m : Msg) (s : State) :
    (setCadence m s).state.clock = s.clock ∧ (setCadence m s).state.plan = s.plan
    ∧ (setCadence m s).state.seq = s.seq ∧ (setCadence m s).state.eng = s.eng ∧ (setCadence m s).state.out = s.out
    ∧ (setCadence m s).state.sup = s.sup ∧ (setCadence m s).state.scan = s.scan ∧ (setCadence m s).state.brk = s.brk
    ∧ (setCadence m s).state.lines = s.lines ∧ (setCadence m s).state.timers = s.timers
    ∧ (setCadence m s).state.rep = s.rep ∧ (setCadence m s).state.reply = s.reply
    ∧ (setCadence m s).state.frame = s.frame ∧ (setCadence m s).state.answerOut = s.answerOut
    ∧ (setCadence m s).state.driveOut = s.driveOut ∧ (setCadence m s).state.choices = s.choices
    ∧ (setCadence m s).state.pending = s.pending := by
  unfold setCadence inPhase indexed valued done refuse
  repeat' split
  all_goals simp

@[simp] theorem resync_frame (m : Msg) (s : State) :
    (resync m s).state.clock = s.clock ∧ (resync m s).state.plan = s.plan ∧ (resync m s).state.seq = s.seq
    ∧ (resync m s).state.eng = s.eng ∧ (resync m s).state.out = s.out ∧ (resync m s).state.sup = s.sup
    ∧ (resync m s).state.scan = s.scan ∧ (resync m s).state.brk = s.brk ∧ (resync m s).state.lines = s.lines
    ∧ (resync m s).state.timers = s.timers ∧ (resync m s).state.rep = s.rep ∧ (resync m s).state.reply = s.reply
    ∧ (resync m s).state.frame = s.frame ∧ (resync m s).state.answerOut = s.answerOut
    ∧ (resync m s).state.driveOut = s.driveOut ∧ (resync m s).state.choices = s.choices
    ∧ (resync m s).state.pending = s.pending := by
  unfold resync inPhase indexed valued done refuse
  repeat' split
  all_goals simp

@[simp] theorem readRecord_frame (m : Msg) (s : State) :
    (readRecord m s).state.recv = s.recv ∧ (readRecord m s).state.clock = s.clock
    ∧ (readRecord m s).state.plan = s.plan ∧ (readRecord m s).state.seq = s.seq ∧ (readRecord m s).state.eng = s.eng
    ∧ (readRecord m s).state.out = s.out ∧ (readRecord m s).state.sup = s.sup ∧ (readRecord m s).state.scan = s.scan
    ∧ (readRecord m s).state.brk = s.brk ∧ (readRecord m s).state.lines = s.lines
    ∧ (readRecord m s).state.timers = s.timers ∧ (readRecord m s).state.rep = s.rep
    ∧ (readRecord m s).state.reply = s.reply ∧ (readRecord m s).state.frame = s.frame
    ∧ (readRecord m s).state.answerOut = s.answerOut ∧ (readRecord m s).state.driveOut = s.driveOut
    ∧ (readRecord m s).state.choices = s.choices ∧ (readRecord m s).state.pending = s.pending := by
  unfold readRecord indexed valued refuse
  (try dsimp only)
  and_intros <;> (repeat' split) <;> simp

@[simp] theorem armPlan_frame (m : Msg) (s : State) :
    (armPlan m s).state.recv = s.recv ∧ (armPlan m s).state.clock = s.clock ∧ (armPlan m s).state.eng = s.eng
    ∧ (armPlan m s).state.out = s.out ∧ (armPlan m s).state.sup = s.sup ∧ (armPlan m s).state.scan = s.scan
    ∧ (armPlan m s).state.brk = s.brk ∧ (armPlan m s).state.lines = s.lines ∧ (armPlan m s).state.timers = s.timers
    ∧ (armPlan m s).state.rep = s.rep ∧ (armPlan m s).state.reply = s.reply ∧ (armPlan m s).state.frame = s.frame
    ∧ (armPlan m s).state.answerOut = s.answerOut ∧ (armPlan m s).state.driveOut = s.driveOut
    ∧ (armPlan m s).state.choices = s.choices ∧ (armPlan m s).state.pending = s.pending := by
  unfold armPlan inPhase indexed valued done refuse
  repeat' split
  all_goals simp

@[simp] theorem startTest_frame (m : Msg) (s : State) :
    (startTest m s).state.recv = s.recv ∧ (startTest m s).state.clock = s.clock ∧ (startTest m s).state.plan = s.plan
    ∧ (startTest m s).state.eng = s.eng ∧ (startTest m s).state.out = s.out ∧ (startTest m s).state.sup = s.sup
    ∧ (startTest m s).state.scan = s.scan ∧ (startTest m s).state.brk = s.brk ∧ (startTest m s).state.lines = s.lines
    ∧ (startTest m s).state.timers = s.timers ∧ (startTest m s).state.rep = s.rep
    ∧ (startTest m s).state.reply = s.reply ∧ (startTest m s).state.frame = s.frame
    ∧ (startTest m s).state.answerOut = s.answerOut ∧ (startTest m s).state.driveOut = s.driveOut
    ∧ (startTest m s).state.choices = s.choices ∧ (startTest m s).state.pending = s.pending := by
  unfold startTest inPhase indexed valued done refuse
  repeat' split
  all_goals simp

@[simp] theorem abortTest_frame (m : Msg) (s : State) :
    (abortTest m s).state.recv = s.recv ∧ (abortTest m s).state.clock = s.clock ∧ (abortTest m s).state.eng = s.eng
    ∧ (abortTest m s).state.out = s.out ∧ (abortTest m s).state.sup = s.sup ∧ (abortTest m s).state.scan = s.scan
    ∧ (abortTest m s).state.brk = s.brk ∧ (abortTest m s).state.lines = s.lines
    ∧ (abortTest m s).state.timers = s.timers ∧ (abortTest m s).state.rep = s.rep
    ∧ (abortTest m s).state.reply = s.reply ∧ (abortTest m s).state.frame = s.frame
    ∧ (abortTest m s).state.answerOut = s.answerOut ∧ (abortTest m s).state.driveOut = s.driveOut
    ∧ (abortTest m s).state.choices = s.choices ∧ (abortTest m s).state.pending = s.pending := by
  unfold abortTest inPhase indexed valued done refuse
  repeat' split
  all_goals simp

@[simp] theorem release_frame (m : Msg) (s : State) :
    (release m s).state.recv = s.recv ∧ (release m s).state.clock = s.clock ∧ (release m s).state.plan = s.plan
    ∧ (release m s).state.seq = s.seq ∧ (release m s).state.eng = s.eng ∧ (release m s).state.out = s.out
    ∧ (release m s).state.sup = s.sup ∧ (release m s).state.scan = s.scan ∧ (release m s).state.brk = s.brk
    ∧ (release m s).state.lines = s.lines ∧ (release m s).state.timers = s.timers
    ∧ (release m s).state.reply = s.reply ∧ (release m s).state.frame = s.frame
    ∧ (release m s).state.answerOut = s.answerOut ∧ (release m s).state.driveOut = s.driveOut
    ∧ (release m s).state.choices = s.choices ∧ (release m s).state.pending = s.pending := by
  unfold release indexed valued done refuse
  (try dsimp only)
  and_intros <;> (repeat' split) <;> simp

@[simp] theorem ackAttention_frame (m : Msg) (s : State) :
    (ackAttention m s).state.recv = s.recv ∧ (ackAttention m s).state.clock = s.clock
    ∧ (ackAttention m s).state.plan = s.plan ∧ (ackAttention m s).state.seq = s.seq
    ∧ (ackAttention m s).state.eng = s.eng ∧ (ackAttention m s).state.out = s.out
    ∧ (ackAttention m s).state.sup = s.sup ∧ (ackAttention m s).state.scan = s.scan
    ∧ (ackAttention m s).state.brk = s.brk ∧ (ackAttention m s).state.lines = s.lines
    ∧ (ackAttention m s).state.timers = s.timers ∧ (ackAttention m s).state.reply = s.reply
    ∧ (ackAttention m s).state.frame = s.frame ∧ (ackAttention m s).state.answerOut = s.answerOut
    ∧ (ackAttention m s).state.driveOut = s.driveOut ∧ (ackAttention m s).state.choices = s.choices
    ∧ (ackAttention m s).state.pending = s.pending := by
  unfold ackAttention indexed valued done refuse
  (try dsimp only)
  and_intros <;> (repeat' split) <;> simp

@[simp] theorem clearAttention_frame (m : Msg) (s : State) :
    (clearAttention m s).state.recv = s.recv ∧ (clearAttention m s).state.clock = s.clock
    ∧ (clearAttention m s).state.plan = s.plan ∧ (clearAttention m s).state.seq = s.seq
    ∧ (clearAttention m s).state.eng = s.eng ∧ (clearAttention m s).state.out = s.out
    ∧ (clearAttention m s).state.sup = s.sup ∧ (clearAttention m s).state.scan = s.scan
    ∧ (clearAttention m s).state.brk = s.brk ∧ (clearAttention m s).state.lines = s.lines
    ∧ (clearAttention m s).state.timers = s.timers ∧ (clearAttention m s).state.reply = s.reply
    ∧ (clearAttention m s).state.frame = s.frame ∧ (clearAttention m s).state.answerOut = s.answerOut
    ∧ (clearAttention m s).state.driveOut = s.driveOut ∧ (clearAttention m s).state.choices = s.choices
    ∧ (clearAttention m s).state.pending = s.pending := by
  unfold clearAttention indexed valued done refuse
  (try dsimp only)
  and_intros <;> (repeat' split) <;> simp

@[simp] theorem pauseReports_frame (m : Msg) (s : State) :
    (pauseReports m s).state.recv = s.recv ∧ (pauseReports m s).state.clock = s.clock
    ∧ (pauseReports m s).state.plan = s.plan ∧ (pauseReports m s).state.seq = s.seq
    ∧ (pauseReports m s).state.eng = s.eng ∧ (pauseReports m s).state.out = s.out
    ∧ (pauseReports m s).state.sup = s.sup ∧ (pauseReports m s).state.scan = s.scan
    ∧ (pauseReports m s).state.brk = s.brk ∧ (pauseReports m s).state.lines = s.lines
    ∧ (pauseReports m s).state.timers = s.timers ∧ (pauseReports m s).state.reply = s.reply
    ∧ (pauseReports m s).state.frame = s.frame ∧ (pauseReports m s).state.answerOut = s.answerOut
    ∧ (pauseReports m s).state.driveOut = s.driveOut ∧ (pauseReports m s).state.choices = s.choices
    ∧ (pauseReports m s).state.pending = s.pending := by
  unfold pauseReports indexed valued done refuse
  (try dsimp only)
  and_intros <;> (repeat' split) <;> simp

@[simp] theorem resumeReports_frame (m : Msg) (s : State) :
    (resumeReports m s).state.recv = s.recv ∧ (resumeReports m s).state.clock = s.clock
    ∧ (resumeReports m s).state.plan = s.plan ∧ (resumeReports m s).state.seq = s.seq
    ∧ (resumeReports m s).state.eng = s.eng ∧ (resumeReports m s).state.out = s.out
    ∧ (resumeReports m s).state.sup = s.sup ∧ (resumeReports m s).state.scan = s.scan
    ∧ (resumeReports m s).state.brk = s.brk ∧ (resumeReports m s).state.lines = s.lines
    ∧ (resumeReports m s).state.timers = s.timers ∧ (resumeReports m s).state.reply = s.reply
    ∧ (resumeReports m s).state.frame = s.frame ∧ (resumeReports m s).state.answerOut = s.answerOut
    ∧ (resumeReports m s).state.driveOut = s.driveOut ∧ (resumeReports m s).state.choices = s.choices
    ∧ (resumeReports m s).state.pending = s.pending := by
  unfold resumeReports indexed valued done refuse
  (try dsimp only)
  and_intros <;> (repeat' split) <;> simp

@[simp] theorem clearChannel_frame (m : Msg) (s : State) :
    (clearChannel m s).state.recv = s.recv ∧ (clearChannel m s).state.clock = s.clock
    ∧ (clearChannel m s).state.plan = s.plan ∧ (clearChannel m s).state.seq = s.seq
    ∧ (clearChannel m s).state.eng = s.eng ∧ (clearChannel m s).state.out = s.out
    ∧ (clearChannel m s).state.scan = s.scan ∧ (clearChannel m s).state.brk = s.brk
    ∧ (clearChannel m s).state.lines = s.lines ∧ (clearChannel m s).state.timers = s.timers
    ∧ (clearChannel m s).state.rep = s.rep ∧ (clearChannel m s).state.reply = s.reply
    ∧ (clearChannel m s).state.frame = s.frame ∧ (clearChannel m s).state.answerOut = s.answerOut
    ∧ (clearChannel m s).state.driveOut = s.driveOut ∧ (clearChannel m s).state.choices = s.choices
    ∧ (clearChannel m s).state.pending = s.pending := by
  unfold clearChannel inPhase indexed valued done refuse
  repeat' split
  all_goals simp

@[simp] theorem restoreMap_frame (m : Msg) (s : State) :
    (restoreMap m s).state.recv = s.recv ∧ (restoreMap m s).state.clock = s.clock
    ∧ (restoreMap m s).state.plan = s.plan ∧ (restoreMap m s).state.seq = s.seq ∧ (restoreMap m s).state.eng = s.eng
    ∧ (restoreMap m s).state.scan = s.scan ∧ (restoreMap m s).state.brk = s.brk
    ∧ (restoreMap m s).state.lines = s.lines ∧ (restoreMap m s).state.timers = s.timers
    ∧ (restoreMap m s).state.rep = s.rep ∧ (restoreMap m s).state.reply = s.reply
    ∧ (restoreMap m s).state.frame = s.frame ∧ (restoreMap m s).state.answerOut = s.answerOut
    ∧ (restoreMap m s).state.driveOut = s.driveOut ∧ (restoreMap m s).state.choices = s.choices
    ∧ (restoreMap m s).state.pending = s.pending := by
  unfold restoreMap inPhase indexed valued done refuse
  repeat' split
  all_goals simp

@[simp] theorem queryStatus_frame (m : Msg) (s : State) :
    (queryStatus m s).state.recv = s.recv ∧ (queryStatus m s).state.clock = s.clock
    ∧ (queryStatus m s).state.plan = s.plan ∧ (queryStatus m s).state.seq = s.seq
    ∧ (queryStatus m s).state.eng = s.eng ∧ (queryStatus m s).state.out = s.out ∧ (queryStatus m s).state.sup = s.sup
    ∧ (queryStatus m s).state.scan = s.scan ∧ (queryStatus m s).state.brk = s.brk
    ∧ (queryStatus m s).state.lines = s.lines ∧ (queryStatus m s).state.timers = s.timers
    ∧ (queryStatus m s).state.rep = s.rep ∧ (queryStatus m s).state.reply = s.reply
    ∧ (queryStatus m s).state.frame = s.frame ∧ (queryStatus m s).state.answerOut = s.answerOut
    ∧ (queryStatus m s).state.driveOut = s.driveOut ∧ (queryStatus m s).state.choices = s.choices
    ∧ (queryStatus m s).state.pending = s.pending := by
  unfold queryStatus indexed valued refuse
  (try dsimp only)
  and_intros <;> (repeat' split) <;> simp

@[simp] theorem resetPart_frame (m : Msg) (s : State) :
    (resetPart m s).state.recv = s.recv ∧ (resetPart m s).state.clock = s.clock ∧ (resetPart m s).state.out = s.out
    ∧ (resetPart m s).state.reply = s.reply ∧ (resetPart m s).state.frame = s.frame
    ∧ (resetPart m s).state.answerOut = s.answerOut ∧ (resetPart m s).state.driveOut = s.driveOut
    ∧ (resetPart m s).state.choices = s.choices ∧ (resetPart m s).state.pending = s.pending := by
  unfold resetPart indexed valued done refuse
  (try dsimp only)
  and_intros <;> (repeat' split) <;> simp

@[simp] theorem handlerOf_frame (code : Byte) (m : Msg) (s : State) :
    (handlerOf code m s).state.clock = s.clock ∧ (handlerOf code m s).state.reply = s.reply
    ∧ (handlerOf code m s).state.frame = s.frame ∧ (handlerOf code m s).state.answerOut = s.answerOut
    ∧ (handlerOf code m s).state.driveOut = s.driveOut ∧ (handlerOf code m s).state.choices = s.choices
    ∧ (handlerOf code m s).state.pending = s.pending := by
  unfold handlerOf
  split
  all_goals simp [unknownMessage, refuse]

@[simp] theorem State.acceptStep_frame (s : State) (i : Fin 8) :
    (s.acceptStep i).recv = s.recv ∧ (s.acceptStep i).clock = s.clock ∧ (s.acceptStep i).plan = s.plan
    ∧ (s.acceptStep i).eng = s.eng ∧ (s.acceptStep i).out = s.out ∧ (s.acceptStep i).sup = s.sup
    ∧ (s.acceptStep i).lines = s.lines ∧ (s.acceptStep i).reply = s.reply ∧ (s.acceptStep i).frame = s.frame
    ∧ (s.acceptStep i).answerOut = s.answerOut ∧ (s.acceptStep i).driveOut = s.driveOut
    ∧ (s.acceptStep i).pending = s.pending := by
  unfold State.acceptStep
  simp

@[simp] theorem State.operationStep_frame (s : State) :
    s.operationStep.recv = s.recv ∧ s.operationStep.clock = s.clock ∧ s.operationStep.plan = s.plan
    ∧ s.operationStep.eng = s.eng ∧ s.operationStep.out = s.out ∧ s.operationStep.sup = s.sup ∧ s.operationStep.scan = s.scan
    ∧ s.operationStep.lines = s.lines ∧ s.operationStep.reply = s.reply ∧ s.operationStep.frame = s.frame
    ∧ s.operationStep.answerOut = s.answerOut ∧ s.operationStep.driveOut = s.driveOut ∧ s.operationStep.choices = s.choices
    ∧ s.operationStep.pending = s.pending := by
  unfold State.operationStep
  simp

@[simp] theorem State.perform_frame (s : State) (e : SubtickEvent) :
    (s.perform e).recv = s.recv ∧ (s.perform e).clock = s.clock ∧ (s.perform e).plan = s.plan ∧ (s.perform e).eng = s.eng
    ∧ (s.perform e).out = s.out ∧ (s.perform e).sup = s.sup ∧ (s.perform e).lines = s.lines ∧ (s.perform e).reply = s.reply
    ∧ (s.perform e).frame = s.frame ∧ (s.perform e).answerOut = s.answerOut ∧ (s.perform e).driveOut = s.driveOut
    ∧ (s.perform e).pending = s.pending := by
  unfold State.perform
  repeat' split
  all_goals simp

@[simp] theorem State.performOne_frame (s : State) (es : List SubtickEvent) :
    (s.performOne es).recv = s.recv ∧ (s.performOne es).clock = s.clock ∧ (s.performOne es).plan = s.plan
    ∧ (s.performOne es).eng = s.eng ∧ (s.performOne es).out = s.out ∧ (s.performOne es).sup = s.sup
    ∧ (s.performOne es).lines = s.lines ∧ (s.performOne es).reply = s.reply ∧ (s.performOne es).frame = s.frame
    ∧ (s.performOne es).answerOut = s.answerOut ∧ (s.performOne es).driveOut = s.driveOut
    ∧ (s.performOne es).pending = s.pending := by
  unfold State.performOne
  repeat' split
  all_goals simp

@[simp] theorem State.advance_frame (s : State) :
    s.advance.recv = s.recv ∧ s.advance.plan = s.plan ∧ s.advance.seq = s.seq ∧ s.advance.eng = s.eng ∧ s.advance.out = s.out
    ∧ s.advance.sup = s.sup ∧ s.advance.brk = s.brk ∧ s.advance.lines = s.lines ∧ s.advance.timers = s.timers
    ∧ s.advance.reply = s.reply ∧ s.advance.frame = s.frame ∧ s.advance.answerOut = s.answerOut
    ∧ s.advance.driveOut = s.driveOut ∧ s.advance.choices = s.choices ∧ s.advance.pending = s.pending := by
  unfold State.advance
  repeat' split
  all_goals simp

@[simp] theorem State.slotStep_frame (s : State) :
    s.slotStep.recv = s.recv ∧ s.slotStep.plan = s.plan ∧ s.slotStep.eng = s.eng ∧ s.slotStep.out = s.out
    ∧ s.slotStep.reply = s.reply ∧ s.slotStep.frame = s.frame ∧ s.slotStep.answerOut = s.answerOut
    ∧ s.slotStep.driveOut = s.driveOut ∧ s.slotStep.pending = s.pending := by
  unfold State.slotStep State.dueStep
  repeat' split
  all_goals simp

@[simp] theorem State.runSlot_frame (fuel : Nat) (s : State) :
    (State.runSlot fuel s).recv = s.recv ∧ (State.runSlot fuel s).plan = s.plan ∧ (State.runSlot fuel s).eng = s.eng
    ∧ (State.runSlot fuel s).out = s.out ∧ (State.runSlot fuel s).reply = s.reply
    ∧ (State.runSlot fuel s).frame = s.frame ∧ (State.runSlot fuel s).answerOut = s.answerOut
    ∧ (State.runSlot fuel s).driveOut = s.driveOut ∧ (State.runSlot fuel s).pending = s.pending := by
  induction fuel generalizing s with
  | zero => simp [State.runSlot]
  | succ n ih => unfold State.runSlot; split <;> simp [ih]

@[simp] theorem State.finishSlot_frame (s : State) :
    s.finishSlot.recv = s.recv ∧ s.finishSlot.plan = s.plan ∧ s.finishSlot.eng = s.eng ∧ s.finishSlot.out = s.out
    ∧ s.finishSlot.reply = s.reply ∧ s.finishSlot.frame = s.frame ∧ s.finishSlot.answerOut = s.answerOut
    ∧ s.finishSlot.driveOut = s.driveOut ∧ s.finishSlot.pending = s.pending := by
  unfold State.finishSlot
  simp

@[simp] theorem State.beginScan_frame (s : State) :
    s.beginScan.recv = s.recv ∧ s.beginScan.plan = s.plan ∧ s.beginScan.seq = s.seq ∧ s.beginScan.eng = s.eng
    ∧ s.beginScan.out = s.out ∧ s.beginScan.sup = s.sup ∧ s.beginScan.brk = s.brk ∧ s.beginScan.lines = s.lines
    ∧ s.beginScan.timers = s.timers ∧ s.beginScan.rep = s.rep ∧ s.beginScan.reply = s.reply ∧ s.beginScan.frame = s.frame
    ∧ s.beginScan.answerOut = s.answerOut ∧ s.beginScan.driveOut = s.driveOut ∧ s.beginScan.choices = s.choices
    ∧ s.beginScan.pending = s.pending := by
  unfold State.beginScan
  simp

@[simp] theorem State.scanZero_frame (s : State) :
    s.scanZero.recv = s.recv ∧ s.scanZero.plan = s.plan ∧ s.scanZero.seq = s.seq ∧ s.scanZero.eng = s.eng
    ∧ s.scanZero.out = s.out ∧ s.scanZero.sup = s.sup ∧ s.scanZero.brk = s.brk ∧ s.scanZero.lines = s.lines
    ∧ s.scanZero.timers = s.timers ∧ s.scanZero.rep = s.rep ∧ s.scanZero.reply = s.reply ∧ s.scanZero.frame = s.frame
    ∧ s.scanZero.answerOut = s.answerOut ∧ s.scanZero.driveOut = s.driveOut ∧ s.scanZero.choices = s.choices
    ∧ s.scanZero.pending = s.pending := by
  unfold State.scanZero
  repeat' split
  all_goals simp

@[simp] theorem State.latchZero_frame (s : State) :
    s.latchZero.recv = s.recv ∧ s.latchZero.clock = s.clock ∧ s.latchZero.plan = s.plan ∧ s.latchZero.eng = s.eng
    ∧ s.latchZero.out = s.out ∧ s.latchZero.sup = s.sup ∧ s.latchZero.scan = s.scan ∧ s.latchZero.brk = s.brk
    ∧ s.latchZero.lines = s.lines ∧ s.latchZero.timers = s.timers ∧ s.latchZero.rep = s.rep
    ∧ s.latchZero.reply = s.reply ∧ s.latchZero.frame = s.frame ∧ s.latchZero.answerOut = s.answerOut
    ∧ s.latchZero.driveOut = s.driveOut ∧ s.latchZero.choices = s.choices ∧ s.latchZero.pending = s.pending := by
  unfold State.latchZero
  simp

@[simp] theorem State.openFrame_frame (s : State) :
    s.openFrame.plan = s.plan ∧ s.openFrame.reply = s.reply ∧ s.openFrame.answerOut = s.answerOut
    ∧ s.openFrame.driveOut = s.driveOut ∧ s.openFrame.pending = s.pending := by
  unfold State.openFrame
  repeat' split
  all_goals simp

@[simp] theorem State.toStage_frame (s : State) (x : Stage) :
    (s.toStage x).recv = s.recv ∧ (s.toStage x).clock = s.clock ∧ (s.toStage x).plan = s.plan ∧ (s.toStage x).seq = s.seq
    ∧ (s.toStage x).eng = s.eng ∧ (s.toStage x).out = s.out ∧ (s.toStage x).sup = s.sup ∧ (s.toStage x).scan = s.scan
    ∧ (s.toStage x).brk = s.brk ∧ (s.toStage x).lines = s.lines ∧ (s.toStage x).timers = s.timers ∧ (s.toStage x).rep = s.rep
    ∧ (s.toStage x).reply = s.reply ∧ (s.toStage x).answerOut = s.answerOut ∧ (s.toStage x).driveOut = s.driveOut
    ∧ (s.toStage x).choices = s.choices ∧ (s.toStage x).pending = s.pending := by
  unfold State.toStage
  simp

@[simp] theorem State.settleSeq_frame (s : State) :
    s.settleSeq.recv = s.recv ∧ s.settleSeq.clock = s.clock ∧ s.settleSeq.reply = s.reply
    ∧ s.settleSeq.answerOut = s.answerOut ∧ s.settleSeq.driveOut = s.driveOut ∧ s.settleSeq.choices = s.choices
    ∧ s.settleSeq.pending = s.pending := by
  unfold State.settleSeq
  repeat' split
  all_goals simp

@[simp] theorem State.boundaryApart_frame (s : State) :
    s.boundaryApart.recv = s.recv ∧ s.boundaryApart.clock = s.clock ∧ s.boundaryApart.plan = s.plan
    ∧ s.boundaryApart.eng = s.eng ∧ s.boundaryApart.brk = s.brk ∧ s.boundaryApart.lines = s.lines
    ∧ s.boundaryApart.reply = s.reply ∧ s.boundaryApart.answerOut = s.answerOut ∧ s.boundaryApart.driveOut = s.driveOut
    ∧ s.boundaryApart.choices = s.choices ∧ s.boundaryApart.pending = s.pending := by
  unfold State.boundaryApart
  simp

@[simp] theorem State.ready_frame (s : State) :
    s.ready.recv = s.recv ∧ s.ready.clock = s.clock ∧ s.ready.plan = s.plan ∧ s.ready.eng = s.eng ∧ s.ready.brk = s.brk
    ∧ s.ready.lines = s.lines ∧ s.ready.reply = s.reply ∧ s.ready.answerOut = s.answerOut ∧ s.ready.driveOut = s.driveOut
    ∧ s.ready.pending = s.pending := by
  unfold State.ready
  repeat' split
  all_goals simp

@[simp] theorem State.handleSlot_frame (s : State) :
    s.handleSlot.clock = s.clock ∧ s.handleSlot.answerOut = s.answerOut ∧ s.handleSlot.driveOut = s.driveOut
    ∧ s.handleSlot.choices = s.choices ∧ s.handleSlot.pending = s.pending := by
  unfold State.handleSlot
  repeat' split
  all_goals simp [State.takeMessage, Handled.answer]

@[simp] theorem State.verifyState_frame (s : State) (v : Verification) (i : Nat) :
    (s.verifyState v i).recv = s.recv ∧ (s.verifyState v i).clock = s.clock ∧ (s.verifyState v i).seq = s.seq
    ∧ (s.verifyState v i).eng = s.eng ∧ (s.verifyState v i).out = s.out ∧ (s.verifyState v i).sup = s.sup
    ∧ (s.verifyState v i).scan = s.scan ∧ (s.verifyState v i).brk = s.brk ∧ (s.verifyState v i).lines = s.lines
    ∧ (s.verifyState v i).timers = s.timers ∧ (s.verifyState v i).rep = s.rep ∧ (s.verifyState v i).reply = s.reply
    ∧ (s.verifyState v i).frame = s.frame ∧ (s.verifyState v i).answerOut = s.answerOut
    ∧ (s.verifyState v i).driveOut = s.driveOut ∧ (s.verifyState v i).choices = s.choices
    ∧ (s.verifyState v i).pending = s.pending := by
  unfold State.verifyState
  simp

@[simp] theorem State.verify_frame (s : State) :
    s.verify.recv = s.recv ∧ s.verify.clock = s.clock ∧ s.verify.eng = s.eng ∧ s.verify.out = s.out ∧ s.verify.sup = s.sup
    ∧ s.verify.scan = s.scan ∧ s.verify.brk = s.brk ∧ s.verify.lines = s.lines ∧ s.verify.timers = s.timers
    ∧ s.verify.reply = s.reply ∧ s.verify.frame = s.frame ∧ s.verify.answerOut = s.answerOut ∧ s.verify.driveOut = s.driveOut
    ∧ s.verify.choices = s.choices ∧ s.verify.pending = s.pending := by
  unfold State.verify
  repeat' split
  all_goals simp

@[simp] theorem State.verifyStep_frame (s : State) :
    s.verifyStep.recv = s.recv ∧ s.verifyStep.clock = s.clock ∧ s.verifyStep.eng = s.eng ∧ s.verifyStep.out = s.out
    ∧ s.verifyStep.sup = s.sup ∧ s.verifyStep.scan = s.scan ∧ s.verifyStep.brk = s.brk ∧ s.verifyStep.lines = s.lines
    ∧ s.verifyStep.timers = s.timers ∧ s.verifyStep.reply = s.reply ∧ s.verifyStep.answerOut = s.answerOut
    ∧ s.verifyStep.driveOut = s.driveOut ∧ s.verifyStep.choices = s.choices ∧ s.verifyStep.pending = s.pending := by
  unfold State.verifyStep
  repeat' split
  all_goals simp

@[simp] theorem State.outputs_frame (s : State) :
    s.outputs.recv = s.recv ∧ s.outputs.clock = s.clock ∧ s.outputs.plan = s.plan ∧ s.outputs.seq = s.seq
    ∧ s.outputs.out = s.out ∧ s.outputs.scan = s.scan ∧ s.outputs.brk = s.brk ∧ s.outputs.lines = s.lines
    ∧ s.outputs.reply = s.reply ∧ s.outputs.answerOut = s.answerOut ∧ s.outputs.driveOut = s.driveOut
    ∧ s.outputs.choices = s.choices ∧ s.outputs.pending = s.pending := by
  unfold State.outputs
  repeat' split
  all_goals simp

@[simp] theorem State.resyncStep_frame (s : State) :
    s.resyncStep.plan = s.plan ∧ s.resyncStep.seq = s.seq ∧ s.resyncStep.eng = s.eng ∧ s.resyncStep.out = s.out
    ∧ s.resyncStep.sup = s.sup ∧ s.resyncStep.scan = s.scan ∧ s.resyncStep.brk = s.brk ∧ s.resyncStep.lines = s.lines
    ∧ s.resyncStep.timers = s.timers ∧ s.resyncStep.rep = s.rep ∧ s.resyncStep.reply = s.reply ∧ s.resyncStep.frame = s.frame
    ∧ s.resyncStep.answerOut = s.answerOut ∧ s.resyncStep.driveOut = s.driveOut ∧ s.resyncStep.choices = s.choices
    ∧ s.resyncStep.pending = s.pending := by
  unfold State.resyncStep
  repeat' split
  all_goals simp

@[simp] theorem State.outputStep_frame (s : State) :
    s.outputStep.recv = s.recv ∧ s.outputStep.clock = s.clock ∧ s.outputStep.plan = s.plan ∧ s.outputStep.scan = s.scan
    ∧ s.outputStep.brk = s.brk ∧ s.outputStep.lines = s.lines ∧ s.outputStep.reply = s.reply
    ∧ s.outputStep.answerOut = s.answerOut ∧ s.outputStep.choices = s.choices ∧ s.outputStep.pending = s.pending := by
  unfold State.outputStep
  simp

@[simp] theorem State.finish_frame (s : State) :
    s.finish.plan = s.plan ∧ s.finish.brk = s.brk ∧ s.finish.lines = s.lines ∧ s.finish.choices = s.choices
    ∧ s.finish.pending = s.pending := by
  unfold State.finish
  repeat' split
  all_goals simp

@[simp] theorem State.complete_frame (s : State) :
    s.complete.pending = s.pending := by
  unfold State.complete
  simp

@[simp] theorem State.closeEvent_frame (s : State) :
    s.closeEvent.pending = s.pending := by
  unfold State.closeEvent
  (repeat' split) <;> first | rfl | simp

@[simp] theorem State.frameWhole_frame (s : State) (first : LinkByte) (rest : List LinkByte) :
    (s.frameWhole first rest).plan = s.plan ∧ (s.frameWhole first rest).seq = s.seq ∧ (s.frameWhole first rest).sup = s.sup
    ∧ (s.frameWhole first rest).scan = s.scan ∧ (s.frameWhole first rest).brk = s.brk
    ∧ (s.frameWhole first rest).lines = s.lines ∧ (s.frameWhole first rest).timers = s.timers
    ∧ (s.frameWhole first rest).rep = s.rep ∧ (s.frameWhole first rest).reply = s.reply
    ∧ (s.frameWhole first rest).frame = s.frame ∧ (s.frameWhole first rest).answerOut = s.answerOut
    ∧ (s.frameWhole first rest).driveOut = s.driveOut ∧ (s.frameWhole first rest).choices = s.choices
    ∧ (s.frameWhole first rest).pending = s.pending := by
  unfold State.frameWhole
  simp

@[simp] theorem State.receiveByte_frame (s : State) (x : LinkByte) :
    (s.receiveByte x).pending = s.pending := by
  unfold State.receiveByte
  (repeat' split) <;> simp

@[simp] theorem State.receiveBytes_frame (s : State) (bytes : List LinkByte) :
    (s.receiveBytes bytes).pending = s.pending := by
  unfold State.receiveBytes
  induction bytes generalizing s with
  | nil => rfl
  | cons x xs ih => simp [ih]

@[simp] theorem State.windowClose_frame (s : State) :
    s.windowClose.pending = s.pending := by
  unfold State.windowClose
  (repeat' split) <;> simp

@[simp] theorem State.openPeriod_frame (s : State) :
    s.openPeriod.recv = s.recv ∧ s.openPeriod.plan = s.plan ∧ s.openPeriod.seq = s.seq ∧ s.openPeriod.eng = s.eng
    ∧ s.openPeriod.out = s.out ∧ s.openPeriod.sup = s.sup ∧ s.openPeriod.brk = s.brk ∧ s.openPeriod.lines = s.lines
    ∧ s.openPeriod.timers = s.timers ∧ s.openPeriod.reply = s.reply ∧ s.openPeriod.frame = s.frame
    ∧ s.openPeriod.answerOut = s.answerOut ∧ s.openPeriod.driveOut = s.driveOut ∧ s.openPeriod.choices = s.choices
    ∧ s.openPeriod.pending = s.pending := by
  unfold State.openPeriod
  simp

@[simp] theorem State.beginPeriod_frame (s : State) :
    s.beginPeriod.recv = s.recv ∧ s.beginPeriod.plan = s.plan ∧ s.beginPeriod.seq = s.seq ∧ s.beginPeriod.eng = s.eng
    ∧ s.beginPeriod.out = s.out ∧ s.beginPeriod.sup = s.sup ∧ s.beginPeriod.brk = s.brk ∧ s.beginPeriod.lines = s.lines
    ∧ s.beginPeriod.timers = s.timers ∧ s.beginPeriod.frame = s.frame ∧ s.beginPeriod.driveOut = s.driveOut
    ∧ s.beginPeriod.choices = s.choices ∧ s.beginPeriod.pending = s.pending := by
  unfold State.beginPeriod
  simp

@[simp] theorem State.answerPeriod_frame (s : State) :
    s.answerPeriod.recv = s.recv ∧ s.answerPeriod.plan = s.plan ∧ s.answerPeriod.eng = s.eng ∧ s.answerPeriod.out = s.out
    ∧ s.answerPeriod.frame = s.frame ∧ s.answerPeriod.driveOut = s.driveOut ∧ s.answerPeriod.pending = s.pending := by
  unfold State.answerPeriod
  repeat' split
  all_goals simp

@[simp] theorem State.atBoundary_frame (s : State) :
    s.atBoundary.reply = s.reply ∧ s.atBoundary.answerOut = s.answerOut ∧ s.atBoundary.driveOut = s.driveOut
    ∧ s.atBoundary.pending = s.pending := by
  unfold State.atBoundary
  simp

@[simp] theorem State.atVerification_frame (s : State) :
    s.atVerification.pending = s.pending := by
  unfold State.atVerification
  simp

@[simp] theorem State.latchDwell_frame (s : State) :
    s.latchDwell.recv = s.recv ∧ s.latchDwell.clock = s.clock ∧ s.latchDwell.plan = s.plan ∧ s.latchDwell.eng = s.eng
    ∧ s.latchDwell.out = s.out ∧ s.latchDwell.sup = s.sup ∧ s.latchDwell.scan = s.scan ∧ s.latchDwell.brk = s.brk
    ∧ s.latchDwell.lines = s.lines ∧ s.latchDwell.timers = s.timers ∧ s.latchDwell.rep = s.rep ∧ s.latchDwell.reply = s.reply
    ∧ s.latchDwell.frame = s.frame ∧ s.latchDwell.answerOut = s.answerOut ∧ s.latchDwell.driveOut = s.driveOut
    ∧ s.latchDwell.choices = s.choices ∧ s.latchDwell.pending = s.pending := by
  unfold State.latchDwell
  simp

@[simp] theorem State.atMessage_frame (s : State) :
    s.atMessage.reply = s.reply ∧ s.atMessage.answerOut = s.answerOut ∧ s.atMessage.driveOut = s.driveOut
    ∧ s.atMessage.pending = s.pending := by
  unfold State.atMessage
  simp

@[simp] theorem State.beforeMessage_frame (s : State) :
    s.beforeMessage.reply = s.reply ∧ s.beforeMessage.answerOut = s.answerOut ∧ s.beforeMessage.driveOut = s.driveOut
    ∧ s.beforeMessage.pending = s.pending := by
  unfold State.beforeMessage
  simp

end Sys2Proof.Machine
end

