-- ==== Sys2Proof/Laws/Operands.lean ====
section
/-! SUPPORT. What the fields of a payload are, byte by byte, and when a field is in its range. -/

namespace Sys2Proof.Machine

theorem Payload.u8_eq (p : Payload) (i : Nat) (h : i < 20) : Payload.u8 p i = p[i].toNat := by
  simp [Payload.u8, at1, List.getD_eq_getElem?_getD, h]

theorem Payload.u16_eq (p : Payload) (i : Nat) (h : i + 1 < 20) :
    Payload.u16 p i = 256 * p[i].toNat + p[i + 1].toNat := by
  have ha := Payload.u8_eq p i (by omega)
  have hb := Payload.u8_eq p (i + 1) h
  simp only [Payload.u16, at2, Payload.u8] at *
  omega

theorem Payload.u32_eq (p : Payload) (i : Nat) (h : i + 3 < 20) :
    Payload.u32 p i =
      65536 * (256 * p[i].toNat + p[i + 1].toNat) + (256 * p[i + 2].toNat + p[i + 3].toNat) := by
  have ha := Payload.u16_eq p i (by omega)
  have hb := Payload.u16_eq p (i + 2) (by omega)
  have e : i + 2 + 1 = i + 3 := rfl
  simp only [e, Payload.u32, at4, Payload.u16] at *
  omega

@[simp] theorem within_iff (a b x : Nat) : within a b x = true ↔ a ≤ x ∧ x ≤ b := by simp [within]

theorem Payload.clearFrom_iff (m : Msg) (n : Nat) : Payload.clearFrom m.payload n = true ↔ UnusedZero m n := by
  unfold Payload.clearFrom UnusedZero
  rw [List.all_eq_true]
  constructor
  · intro h k hk
    have hx := h m.payload[k] (by
      rw [List.mem_drop_iff_getElem]
      exact ⟨k.val - n, by simp; omega, by simp; congr 1; omega⟩)
    simpa using hx
  · intro h x hx
    rw [List.mem_drop_iff_getElem] at hx
    obtain ⟨j, hj, rfl⟩ := hx
    have hz := h ⟨n + j, by simp at hj; omega⟩ (by simp)
    simpa using hz

/-- An index of a message below `n` is itself; any other is none. -/
theorem indexBelow_eq (n : Nat) [NeZero n] (b : Byte) :
    indexBelow n b = if n ≤ b.toNat then none else some (Fin.ofNat n b.toNat) := by
  unfold indexBelow
  split
  · next h =>
    rw [if_neg (by omega)]
    congr 1; ext; simp [Nat.mod_eq_of_lt h]
  · next h => rw [if_pos (by omega)]

theorem condOk_eq (legal : Kind → Bool) (p : Payload) (i : Nat) (h : i + 1 < 20) :
    condOk legal p i = match Kind.ofCode p[i].toNat with
      | some k => legal k && decide (p[i + 1].toNat ≤ k.maxArg)
      | none => false := by
  have h0 := Payload.u8_eq p i (by omega)
  have h1 := Payload.u8_eq p (i + 1) h
  cases hk : Kind.ofCode p[i].toNat <;> simp [condOk, h0, h1, hk]

theorem Kind.ofCode_eq_none {n : Nat} (h : 10 ≤ n) : Kind.ofCode n = Option.none := by
  unfold Kind.ofCode
  split <;> first | rfl | omega

end Sys2Proof.Machine
end

