-- ==== Sys2Proof/Laws/Boundary.lean ====
section
/-! SUPPORT. What the boundary of a frame makes of inputs, timer slots and the records made there. -/

namespace Sys2Proof.Machine

/-! ### Sub-ticks -/

theorem State.scanned_scannedTo (s : State) (i : Fin 8) (x : InputScan) (hx : s.scan.inputs[i] = { x with acted := false })
    (afresh : Prop) (hp : afresh ↔ s.rereads i = true) :
    x.ScannedTo (s.scanned i) s.plan.inputs[i] s.scan.pos afresh := by
  have hd := Payload.u8_eq x.cfg 1 (by omega)
  unfold InputScan.ScannedTo State.scanned
  rw [hp, hx]
  refine ⟨fun hr => ?_, fun hr hc hl => ?_, fun hr hc hl => ?_, fun k hr hc hl => ?_, fun hr hc hl => ?_⟩
  · simp [hr, InputScan.reread, InputScan.cleared]
  · simp [hr, InputScan.scan, hc, InputScan.level] at *; simp [hl]
  · simp [hr, InputScan.scan, hc, InputScan.level] at *; simp [hl]
  · simp [hr, InputScan.scan, hc, InputScan.level, InputScan.due, Input.debounce, hd] at *; simp [hl]
  · rcases hcc : x.cand with _ | k
    · exact absurd hcc hc
    · simp [hr, InputScan.scan, hcc, InputScan.level, satInc] at *; simp [hl]

/-- R94, R95: what the scan of every input leaves of input `i`. -/
theorem State.scanAll_scannedTo (s : State) (i : Fin 8) (afresh : Prop) (hp : afresh ↔ s.rereads i = true) :
    (s.scan.inputs[i]).ScannedTo s.scanAll.scan.inputs[i] s.plan.inputs[i] s.scan.pos afresh := by
  have e : s.scanAll.scan.inputs[i] =
      (s.withScan { s.scan with inputs := tab fun i => { s.scan.inputs[i] with acted := false } }).scanned i := by
    simp [State.scanAll]
  rw [e]
  refine State.scanned_scannedTo _ i s.scan.inputs[i] (by simp) afresh ?_
  simpa [State.rereads] using hp

/-- R94: sub-tick 0. -/
theorem State.beginScan_scannedTo (s : State) (i : Fin 8) :
    (s.scan.inputs[i]).ScannedTo s.beginScan.scan.inputs[i] s.plan.inputs[i] (s.scan.pos + 1)
      (s.scan.inputs[i].reload = .now) := by
  refine State.scanAll_scannedTo ((s.withClock { s.clock with subtick := 0, slotDone := false }).withScan
    { s.scan with pos := s.scan.pos + 1 }) i _ ?_
  simp only [State.rereads, State.withScan_scan, State.withScan_clock, State.withClock_clock]
  rcases s.scan.inputs[i].reload <;> simp

/-! ### Chatter windows -/

/-- R100, R102: the step of one window. -/
theorem State.windowStep_input (n : Nat) (s : State) (i j : Fin 8) :
    (State.windowStep n s i).scan.inputs[j] = if i = j then (s.scan.inputs[j]).afterWindow n else s.scan.inputs[j] := by
  unfold State.windowStep InputScan.afterWindow InputScan.windowOver State.chatterEnds State.normalWindowEnds State.windowEnds
  by_cases h : i = j
  · subst h
    rcases hw : s.scan.inputs[i].window with _ | w <;> cases hc : s.scan.inputs[i].chatter <;>
      simp [State.endChatter, State.closeWindowOf, State.setInput] <;> split <;> simp_all
  · have hv : (i : Nat) ≠ j := fun e => h (Fin.ext e)
    simp only [h, if_false]
    repeat' split
    all_goals simp [State.endChatter, State.closeWindowOf, State.setInput, hv]

theorem State.windowStep_scan (n : Nat) (s : State) (i : Fin 8) :
    (State.windowStep n s i).scan = { s.scan with inputs := (State.windowStep n s i).scan.inputs } := by
  unfold State.windowStep
  repeat' split
  all_goals simp [State.endChatter, State.closeWindowOf, State.setInput]

theorem State.windowEnds_eq (s : State) (n : Nat) (i : Fin 8) : s.windowEnds n i = (s.scan.inputs[i]).windowOver n := by
  unfold State.windowEnds InputScan.windowOver
  rcases s.scan.inputs[i].window with _ | w <;> rfl

/-- R102: the record of a CHATTER window that is over. -/
def State.chatterRecord (s : State) (n : Nat) (i : Fin 8) : Option Made :=
  let x := s.scan.inputs[i]
  if x.chatter = true ∧ x.windowOver n = true then
    some ⟨s.stamp.1, s.stamp.2, .chatterEnd i x.suppressed x.settled (Input.window x.cfg), true⟩
  else none

theorem State.windowStep_made (n : Nat) (s : State) (i : Fin 8) :
    (State.windowStep n s i).rep = { s.rep with made := s.rep.made ++ (s.chatterRecord n i).toList } := by
  unfold State.windowStep State.chatterRecord
  simp only [State.chatterEnds, State.normalWindowEnds, State.windowEnds_eq, Fin.getElem_fin]
  by_cases hw : (s.scan.inputs[i.val]).windowOver n = true <;> by_cases hc : s.scan.inputs[i.val].chatter = true <;>
    simp [hw, hc, State.endChatter, State.closeWindowOf, State.makeApart, State.setInput, State.stamp, State.outTime]

/-- R100, R102: what the windows `l` that may be over make of scanner and records. -/
theorem State.windowSteps_fold (n : Nat) (l : List (Fin 8)) (hl : l.Nodup) (s : State) :
    (l.foldl (State.windowStep n) s).scan = { s.scan with inputs := (l.foldl (State.windowStep n) s).scan.inputs }
    ∧ (∀ j : Fin 8, (l.foldl (State.windowStep n) s).scan.inputs[j] =
        if j ∈ l then (s.scan.inputs[j]).afterWindow n else s.scan.inputs[j])
    ∧ (l.foldl (State.windowStep n) s).rep = { s.rep with made := s.rep.made ++ l.filterMap (s.chatterRecord n) } := by
  induction l generalizing s with
  | nil => simp
  | cons i l ih =>
    obtain ⟨hi, hl⟩ := List.nodup_cons.1 hl
    obtain ⟨h1, h2, h3⟩ := ih hl (State.windowStep n s i)
    have hin := State.windowStep_input n s i
    refine ⟨?_, fun j => ?_, ?_⟩
    · rw [List.foldl_cons, h1, State.windowStep_scan]
    · rw [List.foldl_cons, h2 j, hin j]
      by_cases hj : j ∈ l
      · have : i ≠ j := fun e => hi (e ▸ hj)
        simp [hj, this]
      · by_cases hij : i = j
        · subst hij; simp [hj]
        · have : j ≠ i := fun e => hij e.symm
          simp [hj, hij, this]
    · have hm : l.filterMap ((State.windowStep n s i).chatterRecord n) = l.filterMap (s.chatterRecord n) := by
        apply List.filterMap_congr
        intro j hj
        have : i ≠ j := fun e => hi (e ▸ hj)
        have hx := hin j
        rw [if_neg this] at hx
        simp [State.chatterRecord, hx, State.stamp, State.outTime]
      rw [List.foldl_cons, h3, hm, State.windowStep_made, List.filterMap_cons]
      rcases s.chatterRecord n i with _ | m <;> simp only [Option.toList, List.append_nil, List.append_assoc, List.singleton_append]

/-- R100, R102: the windows at the beginning of frame `n` of the scan. -/
theorem State.windowSteps_spec (s : State) (n : Nat) :
    (s.windowSteps n).scan = { s.scan with inputs := (s.windowSteps n).scan.inputs }
    ∧ (∀ j : Fin 8, (s.windowSteps n).scan.inputs[j] = (s.scan.inputs[j]).afterWindow n)
    ∧ (s.windowSteps n).rep = { s.rep with made := s.rep.made ++ (allFin 8).filterMap (s.chatterRecord n) } := by
  have hn : (allFin 8).Nodup := by decide
  have hm : ∀ j : Fin 8, j ∈ allFin 8 := mem_allFin
  unfold State.windowSteps
  generalize allFin 8 = l at hn hm ⊢
  obtain ⟨h1, h2, h3⟩ := State.windowSteps_fold n l hn s
  exact ⟨h1, fun j => (h2 j).trans (if_pos (hm j)), h3⟩

/-! ### Timer slots -/

/-- R122: what the check at a boundary makes of slot `k`. -/
def State.checkedSlot (s : State) (k : Fin 8) : Slot :=
  let x := s.timers.slots[k]
  if s.timers.gate = true ∧ x.state = .running then
    if x.expiry.getD 0 + s.hold k ≤ 16 * s.seq.testFrame then
      { x with state := .expired, held := true, outcome := some .timeout }
    else { x with held := x.held || decide (x.expiry.getD 0 ≤ 16 * s.seq.testFrame) }
  else x

/-- R122, R127: the result of a slot that expires at a boundary. -/
def State.expiryRecord (s : State) (k : Fin 8) : Option Made :=
  let x := s.timers.slots[k]
  if s.timers.gate = true ∧ x.state = .running ∧ x.expiry.getD 0 + s.hold k ≤ 16 * s.seq.testFrame then
    some ⟨s.seq.testNumber, x.expiry.getD 0, s.timerBody k .timeout (16 * Timer.timeout s.plan.timers[k]) false 0, true⟩
  else none

theorem State.setSlot_self (s : State) (k : Fin 8) : s.setSlot k s.timers.slots[k] = s := by
  have h : upd s.timers.slots k s.timers.slots[k] = s.timers.slots := by
    ext i hi; simp only [upd_getElem, Fin.getElem_fin]; split <;> simp_all
  unfold State.setSlot; rw [h]; rfl

theorem State.setSlot_setSlot (s : State) (k : Fin 8) (x y : Slot) : (s.setSlot k x).setSlot k y = s.setSlot k y := by
  have h : upd (upd s.timers.slots k x) k y = upd s.timers.slots k y := by
    ext i hi; simp only [upd_getElem]; split <;> simp_all
  unfold State.setSlot; simp only [State.withTimers_timers, h]; rfl

theorem State.setSlot_slot (s : State) (k : Fin 8) (x : Slot) : (s.setSlot k x).timers.slots[k] = x := by
  simp [State.setSlot]

/-- R122: what the check makes of slot `k`: expiry held is set, and it expires; its result is made apart. -/
theorem State.checkSlot_spec (s : State) (k : Fin 8) :
    s.checkSlot k =
      (s.setSlot k (s.checkedSlot k)).withRep { s.rep with made := s.rep.made ++ (s.expiryRecord k).toList } := by
  have hd : (if s.timeoutIsDue k = true then s.holdExpiry k else s) =
      s.setSlot k { s.timers.slots[k] with held := s.timers.slots[k].held || s.timeoutIsDue k } := by
    cases h : s.timeoutIsDue k
    · simp only [Bool.or_false]; exact (State.setSlot_self s k).symm
    · simp [State.holdExpiry]
  unfold State.checkSlot
  dsimp only
  rw [hd, State.expire, State.expires, State.setSlot_slot, State.setSlot_setSlot]
  have hb : ∀ (h : Bool) (e : Nat), (s.setSlot k { s.timers.slots[k] with held := h }).timerBody k .timeout e false 0
      = s.timerBody k .timeout e false 0 := by
    intro h e
    simp only [State.timerBody, State.setSlot_slot]; rfl
  rw [hb]
  unfold State.checkedSlot State.expiryRecord State.timeoutIsDue
  generalize s.timers.slots[k] = x
  have hh : ∀ y, (s.setSlot k y).hold k = s.hold k := fun _ => rfl
  have hg : ∀ y, (s.setSlot k y).timers.gate = s.timers.gate := fun _ => rfl
  have hq : ∀ y, (s.setSlot k y).seq = s.seq := fun _ => rfl
  have hp : ∀ y, (s.setSlot k y).plan = s.plan := fun _ => rfl
  have hr : ∀ y, ((s.setSlot k y).withRep s.rep) = s.setSlot k y := fun _ => rfl
  have hm : ∀ y t e b, ((s.setSlot k y).makeApart t e b) =
      (s.setSlot k y).withRep { s.rep with made := s.rep.made ++ [⟨t, e, b, true⟩] } := fun _ _ _ _ => rfl
  simp only [hh, hg, hq, hp, hm]
  obtain ⟨state, start, expiry, held, early, disturbed, startBo, outcome⟩ := x
  cases g : s.timers.gate <;> cases state <;> cases held <;>
    by_cases d : expiry.getD 0 + s.hold k ≤ 16 * s.seq.testFrame <;> simp [d, hr, beq_eq_decide]

/-- R122: what the checks of the slots `l` make of timers and records. -/
theorem State.checkSlots_fold (l : List (Fin 8)) (hl : l.Nodup) (s : State) :
    (l.foldl State.checkSlot s).timers.gate = s.timers.gate
    ∧ (∀ j : Fin 8, (l.foldl State.checkSlot s).timers.slots[j] = if j ∈ l then s.checkedSlot j else s.timers.slots[j])
    ∧ (l.foldl State.checkSlot s).rep = { s.rep with made := s.rep.made ++ l.filterMap s.expiryRecord } := by
  induction l generalizing s with
  | nil => simp
  | cons i l ih =>
    obtain ⟨hi, hl⟩ := List.nodup_cons.1 hl
    obtain ⟨h1, h2, h3⟩ := ih hl (s.checkSlot i)
    have hs := s.checkSlot_spec i
    have ht : (s.checkSlot i).timers = { s.timers with slots := upd s.timers.slots i (s.checkedSlot i) } := by rw [hs]; rfl
    have hr : (s.checkSlot i).rep = { s.rep with made := s.rep.made ++ (s.expiryRecord i).toList } := by rw [hs]; rfl
    have hg : (s.checkSlot i).timers.gate = s.timers.gate := by rw [ht]
    have hh : ∀ j : Fin 8, (s.checkSlot i).hold j = s.hold j := by intro j; simp [State.hold, State.lat]
    have hn : ∀ j : Fin 8, i ≠ j → (s.checkSlot i).timers.slots[j] = s.timers.slots[j] := by
      intro j h
      have hv : (i : Nat) ≠ j := fun e => h (Fin.ext e)
      simp [ht, hv]
    have hc : ∀ j : Fin 8, i ≠ j → (s.checkSlot i).checkedSlot j = s.checkedSlot j := by
      intro j h
      simp only [State.checkedSlot, hn j h, hh, hg, State.checkSlot_frame]
    have he : ∀ j : Fin 8, i ≠ j → (s.checkSlot i).expiryRecord j = s.expiryRecord j := by
      intro j h
      simp only [State.expiryRecord, State.timerBody, State.probeGain, hn j h, hh, hg, State.checkSlot_frame]
    refine ⟨by rw [List.foldl_cons, h1, ht], fun j => ?_, ?_⟩
    · rw [List.foldl_cons, h2 j]
      by_cases hij : i = j
      · subst hij; simp [hi, ht]
      · have : j ≠ i := fun e => hij e.symm
        simp only [List.mem_cons, this, false_or]
        split
        · exact hc j hij
        · exact hn j hij
    · have hm : l.filterMap (s.checkSlot i).expiryRecord = l.filterMap s.expiryRecord :=
        List.filterMap_congr fun j hj => he j fun e => hi (e ▸ hj)
      rw [List.foldl_cons, h3, hm, hr, List.filterMap_cons]
      rcases s.expiryRecord i with _ | m <;>
        simp only [Option.toList, List.append_nil, List.append_assoc, List.singleton_append]

/-- R122: what the check at a boundary makes of every slot. -/
theorem State.checkSlots_spec (s : State) :
    s.checkSlots.timers.gate = s.timers.gate
    ∧ (∀ j : Fin 8, s.checkSlots.timers.slots[j] = s.checkedSlot j)
    ∧ s.checkSlots.rep = { s.rep with made := s.rep.made ++ (allFin 8).filterMap s.expiryRecord } := by
  have hn : (allFin 8).Nodup := by decide
  have hm : ∀ j : Fin 8, j ∈ allFin 8 := mem_allFin
  unfold State.checkSlots
  generalize allFin 8 = l at hn hm ⊢
  obtain ⟨h1, h2, h3⟩ := State.checkSlots_fold l hn s
  exact ⟨h1, fun j => (h2 j).trans (if_pos (hm j)), h3⟩

/-! ### Records made apart -/

/-- From `s` to `t` records have been made apart, and nothing else is changed in the Report Unit. -/
def State.OnlyApart (s t : State) : Prop :=
  ∃ later : List Made, t.rep = { s.rep with made := s.rep.made ++ later } ∧ ∀ m ∈ later, m.apart = true

theorem State.OnlyApart.refl (s : State) : s.OnlyApart s := ⟨[], by simp, by simp⟩

theorem State.OnlyApart.of_rep {s t : State} (h : t.rep = s.rep) : s.OnlyApart t := ⟨[], by simp [h], by simp⟩

theorem State.OnlyApart.trans {s t u : State} (h : s.OnlyApart t) (k : t.OnlyApart u) : s.OnlyApart u := by
  obtain ⟨a, ha, pa⟩ := h
  obtain ⟨b, hb, pb⟩ := k
  refine ⟨a ++ b, by rw [hb, ha]; simp, fun m hm => ?_⟩
  rcases List.mem_append.1 hm with h | h
  · exact pa m h
  · exact pb m h

theorem State.makeFailover_onlyApart (s : State) (c : Fin 12) (o : FailoverOutcome) (src dst : Option (Fin 14)) (w sw : Nat) :
    s.OnlyApart (s.makeFailover c o src dst w sw) := ⟨[_], rfl, by simp⟩

theorem State.serveChannel_onlyApart (s : State) (c : Fin 12) : s.OnlyApart (s.serveChannel c) := by
  unfold State.serveChannel
  split
  · exact .of_rep rfl
  · split
    · exact (s.makeFailover_onlyApart c .noSpareAbort s.out.map[c] none 0 0).trans (.of_rep (by simp))
    · have h : s.OnlyApart (s.setMap c none) := .of_rep (by simp)
      exact h.trans (State.makeFailover_onlyApart ..)

theorem State.serve_onlyApart (s : State) : s.OnlyApart s.serve := by
  unfold State.serve
  split
  · exact .trans (.of_rep (by simp)) (State.serveChannel_onlyApart ..)
  · exact .refl s

theorem State.completeFailover_onlyApart (s : State) : s.OnlyApart s.completeFailover := by
  unfold State.completeFailover
  repeat' split
  · next x _ _ =>
    have h : s.OnlyApart (s.moveMap x) := .of_rep (by simp)
    exact (h.trans (State.makeFailover_onlyApart ..)).trans (State.serve_onlyApart (State.setEngine _ .quiet))
  all_goals exact .refl s

theorem State.switchOver_rep (s : State) : s.switchOver.rep = s.rep := by
  unfold State.switchOver
  repeat' split
  all_goals simp

/-- R168: what the boundary makes beside the Sequencer's records is made apart. -/
theorem State.boundaryApart_onlyApart (s : State) : s.OnlyApart s.boundaryApart := by
  refine ((s.completeFailover_onlyApart.trans (.of_rep (State.switchOver_rep _))).trans (State.serve_onlyApart _)).trans ?_
  refine .trans ⟨_, (State.checkSlots_spec _).2.2, fun m hm => ?_⟩ ⟨_, (State.windowSteps_spec _ _).2.2, fun m hm => ?_⟩
  · obtain ⟨k, -, hk⟩ := List.mem_filterMap.1 hm
    unfold State.expiryRecord at hk
    dsimp only at hk
    split at hk <;> simp_all
    rw [← hk]
  · obtain ⟨k, -, hk⟩ := List.mem_filterMap.1 hm
    unfold State.chatterRecord at hk
    dsimp only at hk
    split at hk <;> simp_all
    rw [← hk]

/-! ### The records of a boundary are offered (R168) -/

theorem putIn_perm (i : Nat) (m : Made) (ms : List Made) : (putIn i m ms).Perm (m :: ms) := by
  have h : (ms.take i ++ m :: ms.drop i).Perm (m :: (ms.take i ++ ms.drop i)) := List.perm_middle
  rwa [List.take_append_drop] at h

theorem putIn_filter (p : Made → Bool) (i : Nat) (m : Made) (ms : List Made) (h : p m = false) :
    (putIn i m ms).filter p = ms.filter p := by
  unfold putIn
  rw [List.filter_append, List.filter_cons_of_neg (by simp [h]), ← List.filter_append, List.take_append_drop]

theorem splitFailovers_append (k : Nat) (ms : List Made) : (splitFailovers k ms).1 ++ (splitFailovers k ms).2 = ms := by
  induction ms generalizing k with
  | nil => rfl
  | cons m ms ih =>
    unfold splitFailovers
    split
    · rfl
    · simp [ih]

theorem placeFreely_spec (p : Made → Bool) (k : Nat) (before after ms : List Made) (h : ∀ m ∈ ms, p m = false) :
    ((placeFreely k before after ms).1 ++ (placeFreely k before after ms).2).Perm (before ++ after ++ ms)
    ∧ ((placeFreely k before after ms).1 ++ (placeFreely k before after ms).2).filter p = (before ++ after).filter p := by
  induction ms generalizing k before after with
  | nil => simp [placeFreely]
  | cons m ms ih =>
    have hm : p m = false := h m (by simp)
    have hms : ∀ x ∈ ms, p x = false := fun x hx => h x (by simp [hx])
    unfold placeFreely
    dsimp only
    split
    · obtain ⟨h1, h2⟩ := ih (k + 1) (putIn (Config.choice k % (before.length + after.length + 2)) m before) after hms
      refine ⟨h1.trans ?_, by rw [h2, List.filter_append, putIn_filter p _ _ _ hm, List.filter_append]⟩
      refine ((((putIn_perm _ m before).append_right after)).append_right ms).trans ?_
      simpa using (List.perm_middle (a := m) (l₁ := before ++ after) (l₂ := ms)).symm
    · obtain ⟨h1, h2⟩ := ih (k + 1) before
        (putIn (Config.choice k % (before.length + after.length + 2) - before.length - 1) m after) hms
      refine ⟨h1.trans ?_, by rw [h2, List.filter_append, putIn_filter p _ _ _ hm, List.filter_append]⟩
      refine ((((putIn_perm _ m after).append_left before)).append_right ms).trans ?_
      have e : before ++ m :: after ++ ms = before ++ m :: (after ++ ms) := by simp
      rw [e]
      refine List.perm_middle.trans ?_
      simpa using (List.perm_middle (a := m) (l₁ := before ++ after) (l₂ := ms)).symm

/-- R168: the records made apart are placed, each once, and the FAILOVERs keep their order. -/
theorem splitApart_spec (k : Nat) (ms : List Made) :
    ((splitApart k ms).1 ++ (splitApart k ms).2).Perm ms
    ∧ ((splitApart k ms).1 ++ (splitApart k ms).2).filter (fun m => m.body.isFailover) = ms.filter fun m => m.body.isFailover := by
  have h := placeFreely_spec (fun m => m.body.isFailover) (k + (ms.filter fun m => m.body.isFailover).length)
    (splitFailovers k (ms.filter fun m => m.body.isFailover)).1 (splitFailovers k (ms.filter fun m => m.body.isFailover)).2
    (ms.filter fun m => !m.body.isFailover) (by simp)
  rw [splitFailovers_append] at h
  refine ⟨h.1.trans ?_, h.2.trans (by simp)⟩
  exact List.filter_append_perm _ ms

/-- R168: what is offered at a boundary, and in which order. -/
theorem State.flushBoundary_spec (s : State) :
    (madeApart s.rep.made = [] → s.flushBoundary = s.flush)
    ∧ ∃ before after : List Made,
        s.flushBoundary.rep = ({ s.rep with made := [] } : Report).admitAll (before ++ madeOwn s.rep.made ++ after)
        ∧ (before ++ after).Perm (madeApart s.rep.made)
        ∧ (before ++ after).filter (fun m => m.body.isFailover) = (madeApart s.rep.made).filter fun m => m.body.isFailover := by
  refine ⟨fun h => by simp [State.flushBoundary, h], ?_⟩
  by_cases h : madeApart s.rep.made = []
  · refine ⟨[], [], ?_, by simp [h], by simp [h]⟩
    have ho : madeOwn s.rep.made = s.rep.made := by
      refine List.filter_eq_self.2 fun m hm => ?_
      have := List.filter_eq_nil_iff.1 h m hm
      simpa using this
    simp [State.flushBoundary, h, State.flush, ho]
  · refine ⟨_, _, ?_, splitApart_spec s.choices (madeApart s.rep.made)⟩
    simp [State.flushBoundary, h]

end Sys2Proof.Machine
end

