-- ==== Sys2Proof/Laws/Lines.lean ====
section
/-! SUPPORT. What entries, the return to IDLE and the ends of a test make of the breaker and the output lines. -/

namespace Sys2Proof.Machine

/-- R3: the FINAL flag of a state, byte by byte. -/
theorem Part0.final_iff (p : Payload) : Part0.final p = true ↔ p[16] = 1 := by
  have h := Payload.u8_eq p 16 (by omega)
  simp only [Part0.final, h, beq_iff_eq]
  constructor
  · intro e; exact BitVec.eq_of_toNat_eq (by simpa using e)
  · intro e; simp [e]

/-- R107: the initial state of the breaker, byte by byte. -/
theorem Brk.initial_eq (p : Payload) : Brk.initial p = if p[7] = 1 then .opened else .closed := by
  have h := Payload.u8_eq p 7 (by omega)
  simp only [Brk.initial, h]
  by_cases hh : p[7] = 1
  · simp [hh]
  · have : p[7].toNat ≠ 1 := fun e => hh (BitVec.eq_of_toNat_eq (by simpa using e))
    rw [if_neg hh]; simp [this]

/-- R114 to R117: the level of an output line. -/
theorem State.lineLevel_eq (s : State) (k : Fin 4) :
    lineLevel s.seq.phase s.brk.state s.lines[k] = decide (s.LineHigh k) := by
  unfold lineLevel State.LineHigh
  simp only [Fin.getElem_fin]
  obtain ⟨mode, high, deadline⟩ := s.lines[k.val]
  cases s.seq.phase <;> cases mode <;> cases high <;> cases s.brk.state <;> simp [Phase.inTest, beq_eq_decide]

theorem State.AtHome.congr {s t : State} {n : Nat} (h : s.AtHome n) (hb : t.brk = s.brk) (hl : t.lines = s.lines) (hp : t.plan.breaker = s.plan.breaker) :
    t.AtHome n := by
  unfold State.AtHome at *; rw [hb, hl, hp]; exact h

theorem State.LinesEntered.congr {s s' t t' : State} {n : Fin 32} {f : Nat} (h : s.LinesEntered t n f) (hs : s'.plan.part1 = s.plan.part1)
   (ht : t'.lines = t.lines) : s'.LinesEntered t' n f := by
  unfold State.LinesEntered at *; rw [hs, ht]; exact h

/-- R115, R116: the entry to a state sets the lines. -/
theorem State.linesEnter_entered (s : State) (st : Fin 32) :
    s.LinesEntered (s.linesEnter st) st s.seq.testFrame := by
  intro k
  have h0 := Payload.u8_eq s.plan.part1[st] (5 * k.val) (by omega)
  have h1 := Payload.u8_eq s.plan.part1[st] (5 * k.val + 1) (by omega)
  have h2 := Payload.u8_eq s.plan.part1[st] (5 * k.val + 2) (by omega)
  have hm : Part1.mode s.plan.part1[st] k
      = [LineMode.low, .high, .breakerA, .breakerB, .pulse].getD (Payload.u8 s.plan.part1[st] (5 * k.val)) .low := by
    unfold Part1.mode
    split <;> simp_all
    next a b c d => 
      rcases h : Payload.u8 s.plan.part1[st] (5 * k.val) with _ | _ | _ | _ | _ | n <;> simp_all
  simp only [State.linesEnter, State.withLines, Fin.getElem_fin, tab_getElem] at *
  refine ⟨?_, ?_, ?_⟩
  · rw [← h0]; exact hm
  · intro h; simp [h, Part1.high, delayCode, h1, h2]
  · intro h; simp [h]

/-- R40: the return to IDLE brings breaker and lines home. -/
theorem State.returnToIdle_atHome (s : State) : s.returnToIdle.AtHome s.brk.count := by
  have h := Payload.u8_eq s.plan.breaker 7 (by omega)
  refine ⟨?_, fun k => ?_⟩
  · simp only [State.returnToIdle, State.breakerHome, State.linesHome, State.dropVerification, State.withBrk, State.withLines, State.withPlan, State.withSeq, Brk.initial, h]
    congr 1
    by_cases hh : s.plan.breaker[7] = 1
    · simp [hh]
    · have : s.plan.breaker[7].toNat ≠ 1 := fun e => hh (BitVec.eq_of_toNat_eq (by simpa using e))
      rw [if_neg hh]; simp [this]
  · simp [State.returnToIdle, State.breakerHome, State.linesHome, State.dropVerification, State.withBrk, State.withLines, State.withPlan, State.withSeq]

/-- R36, R40: the end of a test brings breaker and lines home. -/
theorem State.closeTest_atHome (s : State) (r : EndReason) (last : Fin 32) (run : Nat) :
    (s.closeTest r last run).AtHome s.brk.count := by
  have := State.returnToIdle_atHome ((s.summary 255 run).testEnd r last run)
  simp only [State.testEnd_frame, State.summary_frame] at this
  exact this.congr rfl rfl rfl

/-- R34, R40: the entry to ENDING leaves breaker and lines alone; with F = 0 they are home. -/
theorem State.beginEnding_lines (s : State) (r : EndReason) (own : Nat) (last : Fin 32) :
    (s.fade ≠ 0 → (s.beginEnding r own last).brk = s.brk ∧ (s.beginEnding r own last).lines = s.lines)
    ∧ (s.fade = 0 → (s.beginEnding r own last).AtHome s.brk.count) := by
  unfold State.beginEnding
  refine ⟨fun h => ?_, fun h => ?_⟩
  · simp [h]
  · simp only [h, if_true]
    have := State.closeTest_atHome (((s.withSeq { s.seq with
      phase := .ending, request := .none, latches := Vector.replicate 4 false, countdown := 1, endReason := some r }).closeBlocks s.seq.testFrame).withSeq
        { ((s.withSeq { s.seq with
      phase := .ending, request := .none, latches := Vector.replicate 4 false, countdown := 1, endReason := some r }).closeBlocks s.seq.testFrame).seq with framesInState := own }) r last s.seq.testFrame
    simpa using this

/-- R27, R34, R40, R115, R116: the entry to a state, FINAL or not. -/
theorem State.enterState_lines (s : State) (st : Fin 32) (prev exit : Nat) :
    let final := Part0.final s.plan.part0[st]
    (final = false ∨ s.fade ≠ 0 → (s.enterState st prev exit).brk = s.brk ∧ s.LinesEntered (s.enterState st prev exit) st s.seq.testFrame)
    ∧ (final = true → s.fade = 0 → (s.enterState st prev exit).AtHome s.brk.count) := by
  intro final
  unfold State.enterState
  extract_lets n s1 count final' sq s2 s3
  have p1 : s1.plan = s.plan ∧ s1.brk = s.brk ∧ s1.seq.testFrame = s.seq.testFrame := by
    dsimp only [s1]; split <;> simp
  have p2 : s2.plan = s.plan ∧ s2.brk = s.brk ∧ s2.seq.testFrame = s.seq.testFrame := by
    dsimp only [s2, sq]; simp [p1]
  have p3 : s3.plan = s.plan ∧ s3.brk = s.brk ∧ s3.lines = ((s2.engineEnter st (prev == 255)).linesEnter st).lines := by
    dsimp only [s3]; simp [p2]
  have hf : final' = final := by dsimp only [final', final]; simp [p1]
  have hL : s.LinesEntered s3 st s.seq.testFrame := by
    have := State.linesEnter_entered (s2.engineEnter st (prev == 255)) st
    have e : (s2.engineEnter st (prev == 255)).seq.testFrame = s.seq.testFrame := by simp [p2]
    rw [e] at this
    exact this.congr (by simp [p2]) p3.2.2
  have hfade : s3.fade = s.fade := by simp [State.fade, p3]
  rw [hf]
  refine ⟨fun h => ?_, fun h h' => ?_⟩
  · by_cases hh : final = true
    · rw [if_pos hh]
      have hb := (State.beginEnding_lines s3 .finalState 0 (if prev = 255 then st else s.seq.stateInForce)).1 (by
        rw [hfade]; rcases h with h | h
        · simp [hh] at h
        · exact h)
      exact ⟨hb.1.trans p3.2.1, hL.congr rfl hb.2⟩
    · rw [if_neg hh]; exact ⟨p3.2.1, hL⟩
  · rw [if_pos h]
    have hb := (State.beginEnding_lines s3 .finalState 0 (if prev = 255 then st else s.seq.stateInForce)).2 (by rw [hfade]; exact h')
    rw [p3.2.1] at hb; exact hb

/-- R37, R40: stream loss ends a test and brings breaker and lines home. -/
theorem State.lossSequencer_atHome (s : State) (hp : s.seq.phase = .running ∨ s.seq.phase = .ending) :
    s.lossSequencer.AtHome s.brk.count := by
  unfold State.lossSequencer
  extract_lets x
  rcases hp with hp | hp <;> rw [hp] <;> dsimp only
  · have hb : (s.closeBlocks x).brk = s.brk := by simp
    have := State.closeTest_atHome ((s.closeBlocks x).withSeq { s.seq with endReason := some .streamLost }) .streamLost s.seq.stateInForce x
    rw [State.withSeq_brk, hb] at this
    simpa [hp] using this
  · have := State.closeTest_atHome (s.withSeq { s.seq with endReason := some .streamLost }) .streamLost s.seq.stateInForce x
    rw [State.withSeq_brk] at this
    simpa [hp] using this

end Sys2Proof.Machine
end

