-- ==== Sys2Proof/Laws/Messages.lean ====
section
/-! SUPPORT. What a message comes to, check by check, and what a command that is a step of the boundary comes to. -/

namespace Sys2Proof.Machine

/-! ### The stages of a frame-taken event -/

theorem State.openFrame_of_stage {s : State} (h : s.frame.stage ≠ .closed) : s.openFrame = s := by
  simp [State.openFrame, State.canOpen, h]

theorem State.openFrame_of_state {s : State} (h : s.recv.state ≠ .locked) : s.openFrame = s := by
  simp [State.openFrame, State.canOpen, h]

theorem State.settleSeq_of_stage {s : State} (h : s.frame.stage ≠ .taken) : s.settleSeq = s := if_neg h

theorem State.ready_of_stage {s : State} (h : s.frame.stage ≠ .settled) : s.ready = s := if_neg h

theorem State.handleSlot_of_stage {s : State} (h : s.frame.stage ≠ .ready) : s.handleSlot = s := if_neg h

theorem State.verifyStep_of_stage {s : State} (h : s.frame.stage ≠ .handled) : s.verifyStep = s := if_neg h

theorem State.finish_of_stage {s : State} (h : s.frame.stage ≠ .stepped) : s.finish = s := if_neg h

theorem State.closeEvent_of_closed {s : State} (h : s.frame.stage = .closed) : s.closeEvent = s := if_pos h

theorem State.complete_of_closed {s : State} (h : s.frame.stage = .closed) : s.complete = s := by
  simp [State.complete, State.settleSeq, State.ready, State.handleSlot, State.verifyStep, State.finish, h]

theorem State.atBoundary_of_settled {s : State} (h : s.frame.stage = .settled) : s.atBoundary = s := by
  simp [State.atBoundary, State.openFrame, State.canOpen, State.settleSeq, h]

theorem State.atMessage_of_ready {s : State} (h : s.frame.stage = .ready) : s.atMessage = s := by
  simp [State.atMessage, State.atBoundary, State.openFrame, State.canOpen, State.settleSeq, State.ready, h]

/-! ### Steps of the boundary -/

/-- A step of the boundary comes about at the settled boundary, or changes nothing. -/
theorem State.boundaryStep_cases (s : State) (due : State → Bool) (act : State → State) :
    (s.atBoundary.frame.stage = .settled ∧ due s.atBoundary = true ∧ s.boundaryStep due act = act s.atBoundary)
      ∨ s.boundaryStep due act = s := by
  unfold State.boundaryStep
  split
  · next h =>
    simp at h
    exact .inl ⟨h.1, h.2, rfl⟩
  · exact .inr rfl

/-- A step of the Sequencer comes about where the frame is taken, or changes nothing. -/
theorem State.sequencerStep_cases (s : State) (due : Decision → Bool) :
    (s.openFrame.frame.stage = .taken ∧ due s.openFrame.frame.decision = true
        ∧ s.sequencerStep due = s.openFrame.settleSeq)
      ∨ s.sequencerStep due = s := by
  unfold State.sequencerStep
  split
  · next h =>
    simp at h
    exact .inl ⟨h.1, h.2, rfl⟩
  · exact .inr rfl

/-- A thing at a sub-tick comes about at sub-tick 0 of the frame being taken, before its message, or at the present sub-tick with
no event in progress, or changes nothing. -/
theorem State.subtickCommand_cases (s : State) (due : State → Bool) (act : State → State) :
    (s.beforeMessage.frame.stage = .ready ∧ due s.beforeMessage = true ∧ s.subtickCommand due act = act s.beforeMessage)
      ∨ (due s.closeEvent = true ∧ s.subtickCommand due act = act s.closeEvent)
      ∨ s.subtickCommand due act = s := by
  unfold State.subtickCommand State.comesFirst
  split
  · next h =>
    simp at h
    exact .inl ⟨h.1.2, h.2, rfl⟩
  · split
    · next h => exact .inr (.inl ⟨h, rfl⟩)
    · exact .inr (.inr rfl)

/-- With no event in progress and the slot not over, a thing at a sub-tick comes about there if it is due. -/
theorem State.subtickCommand_of_closed {s : State} (h : s.frame.stage = .closed) (h' : s.clock.slotDone = false)
    (due : State → Bool) (act : State → State) : s.subtickCommand due act = if due s then act s else s := by
  simp [State.subtickCommand, State.comesFirst, State.closeEvent_of_closed, h, h']

/-! ### Messages -/

theorem State.messageStep_of_hears {s : State} {m : Msg} (h : s.Hears m) (code : Byte) (k : Msg → State → Handled) :
    s.messageStep m code k = s.takeMessage m code k := by
  obtain ⟨h1, h2, h3⟩ := h
  have h4 : m.tag ≠ 0#8 := h3
  simp [State.messageStep, State.hearsMessage, State.atMessage_of_ready h1, h1, h2, h4]

/-- A message is handled where messages are handled, or changes nothing. -/
theorem State.messageStep_cases (s : State) (m : Msg) (code : Byte) (k : Msg → State → Handled) :
    (s.atMessage.Hears m ∧ s.messageStep m code k = s.atMessage.takeMessage m code k)
      ∨ (¬ s.atMessage.Hears m ∧ s.messageStep m code k = s) := by
  by_cases h : s.hearsMessage m = true
  · refine .inl ⟨?_, by rw [State.messageStep, if_pos h]⟩
    have h' := h
    simp only [State.hearsMessage, Bool.and_eq_true, beq_iff_eq, bne_iff_ne] at h'
    exact ⟨h'.1.1, h'.1.2, h'.2⟩
  · refine .inr ⟨fun ⟨h1, h2, h3⟩ => h ?_, by rw [State.messageStep, if_neg h]⟩
    simp only [State.hearsMessage, Bool.and_eq_true, beq_iff_eq, bne_iff_ne]
    exact ⟨⟨h1, h2⟩, h3⟩

/-- What a message comes to whose handler answers state `t`, status and payload, and leaves the frame event alone. -/
theorem State.takeMessage_eq {m : Msg} {s t : State} {code : Byte} {k : Msg → State → Handled} {st : Status}
    {bytes : List Byte} (h : k m s = ⟨t, st, bytes⟩) :
    s.takeMessage m code k = t.answered m code st (padTo 28 bytes) := by
  simp [State.takeMessage, h, Handled.answer, State.answered, State.toStage]

theorem State.takeMessage_refuse {m : Msg} {s : State} {code : Byte} {k : Msg → State → Handled} {st : Status}
    (h : k m s = refuse s st) : s.takeMessage m code k = s.answered m code st zeros28 := State.takeMessage_eq h

theorem State.takeMessage_done {m : Msg} {s t : State} {code : Byte} {k : Msg → State → Handled}
    (h : k m s = done t) : s.takeMessage m code k = t.answered m code .done zeros28 := State.takeMessage_eq h

theorem inPhase_yes {ok : Phase → Bool} {s : State} {k : Handled} (h : ok s.seq.phase = true) : inPhase ok s k = k :=
  if_pos h

theorem inPhase_no {ok : Phase → Bool} {s : State} {k : Handled} (h : ok s.seq.phase = false) :
    inPhase ok s k = refuse s .wrongPhase := by simp [inPhase, h]

@[simp] theorem indexed_some {α : Type} (s : State) (x : α) (k : α → Handled) : indexed s (some x) k = k x := rfl

@[simp] theorem indexed_none {α : Type} (s : State) (k : α → Handled) : indexed s none k = refuse s .noEntry := rfl

@[simp] theorem valued_true (s : State) (k : Handled) : valued true s k = k := rfl

@[simp] theorem valued_false (s : State) (k : Handled) : valued false s k = refuse s .badValue := rfl

theorem bothZero_some {m : Msg} (h : ¬ (m.indexA ≠ 0 ∨ m.indexB ≠ 0)) : bothZero m = some () := by
  unfold bothZero; rw [if_pos]; tauto

theorem bothZero_none {m : Msg} (h : m.indexA ≠ 0 ∨ m.indexB ≠ 0) : bothZero m = none := by
  unfold bothZero; rw [if_neg]; tauto

theorem indexA_eq (n : Nat) [NeZero n] (m : Msg) :
    indexA n m = if n ≤ m.indexA.toNat ∨ m.indexB ≠ 0 then none else some (Fin.ofNat n m.indexA.toNat) := by
  unfold indexA
  by_cases hb : m.indexB = 0
  · rw [if_pos hb, indexBelow_eq]; simp [hb]
  · rw [if_neg hb, if_pos (.inr hb)]

/-! ### A thing at a sub-tick, commanded once the slot is over -/

/-- The stages that a frame-taken event goes through. -/
theorem State.ready_stage (s : State) (h : s.frame.stage = .settled) : s.ready.frame.stage = .ready := by
  simp [State.ready, h, State.toStage]

theorem State.settleSeq_stage (s : State) (h : s.frame.stage = .taken) : s.settleSeq.frame.stage = .settled := by
  simp [State.settleSeq, h, State.toStage]

theorem State.take_stage (s : State) : s.take.frame.stage = .taken := by
  simp only [State.take]
  split <;> simp [State.openEvent]
  split <;> simp

/-- With no event in progress, a frame is taken in LOCKED if one is held or the gap run allows a gap frame (R151, R157). -/
theorem State.openFrame_stage {s : State} (h : s.frame.stage = .closed) :
    (s.recv.state = .locked ∧ (s.recv.held ≠ none ∨ s.recv.gapRun < s.recv.gapLimit) ∧ s.openFrame.frame.stage = .taken)
    ∨ (¬ (s.recv.state = .locked ∧ (s.recv.held ≠ none ∨ s.recv.gapRun < s.recv.gapLimit)) ∧ s.openFrame = s) := by
  have hd : s.recv.frameDue = true ↔ (s.recv.held ≠ none ∨ s.recv.gapRun < s.recv.gapLimit) := by
    simp [Receiver.frameDue, Option.isSome_iff_ne_none]
  by_cases hl : s.recv.state = .locked
  · by_cases hf : s.recv.frameDue = true
    · refine .inl ⟨hl, hd.1 hf, ?_⟩
      simp [State.openFrame, State.canOpen, h, hl, hf, State.take_stage]
    · refine .inr ⟨fun x => hf (hd.2 x.2), ?_⟩
      simp [State.openFrame, State.canOpen, hf]
  · exact .inr ⟨fun x => hl x.1, State.openFrame_of_state hl⟩

/-- With no event in progress, the message of the next frame is reached where that frame is due; its slot has then begun, at
sub-tick 0. -/
theorem State.beforeMessage_of_closed {s : State} (h : s.frame.stage = .closed) :
    (s.beforeMessage.frame.stage = .ready ↔
      s.recv.state = .locked ∧ (s.recv.held ≠ none ∨ s.recv.gapRun < s.recv.gapLimit))
    ∧ (s.beforeMessage.frame.stage = .ready → s.beforeMessage.clock.slotDone = false ∧ s.beforeMessage.clock.subtick = 0) := by
  have hz : ∀ u : State, u.scanZero.frame = u.frame := by intro u; simp
  rcases State.openFrame_stage h with ⟨hl, hf, ho⟩ | ⟨hn, ho⟩
  · have hr : s.atMessage.frame.stage = .ready := State.ready_stage _ (State.settleSeq_stage _ ho)
    refine ⟨⟨fun _ => ⟨hl, hf⟩, fun _ => by rw [State.beforeMessage, hz]; exact hr⟩, fun _ => ?_⟩
    have hc : s.atMessage.clock.slotDone = true := by
      have : s.atMessage.clock = s.openFrame.clock := by simp [State.atMessage, State.atBoundary]
      rw [this]
      have hd : s.recv.frameDue = true := by simpa [Receiver.frameDue, Option.isSome_iff_ne_none] using hf
      have ht : s.openFrame = s.finishSlot.take := by simp [State.openFrame, State.canOpen, h, hl, hd]
      rw [ht]
      simp only [State.take]
      split <;> simp [State.openEvent, State.slotClock]
      split <;> simp
    simp [State.beforeMessage, State.scanZero, hc, State.beginScan]
  · have : s.beforeMessage.frame.stage = .closed := by
      rw [State.beforeMessage, hz, State.atMessage, State.atBoundary, ho, State.settleSeq_of_stage (by simp [h]),
        State.ready_of_stage (by simp [h]), h]
    exact ⟨⟨fun x => by simp [this] at x, fun x => absurd x hn⟩, fun x => by simp [this] at x⟩

/-- With no event in progress and the slot over, a thing at a sub-tick is that of sub-tick 0 of the frame taken next, before its
message. -/
theorem State.subtickCommand_of_slotDone {s : State} (h : s.frame.stage = .closed) (h' : s.clock.slotDone = true)
    (due : State → Bool) (act : State → State) (hdue : due s = false) :
    s.subtickCommand due act =
      if s.beforeMessage.frame.stage = .ready ∧ due s.beforeMessage = true then s.beforeMessage.subtickCommand due act
      else s := by
  have hb : s.beforeMessage.frame.stage = .ready → s.beforeMessage.beforeMessage = s.beforeMessage := by
    intro hr
    have := (State.beforeMessage_of_closed h).2 hr
    conv => lhs; rw [State.beforeMessage, State.atMessage_of_ready hr, State.scanZero]
    simp [this.1]
  by_cases hr : s.beforeMessage.frame.stage = .ready ∧ due s.beforeMessage = true
  · simp [State.subtickCommand, State.comesFirst, h, h', hr.1, hr.2, hb hr.1]
  · rw [if_neg hr]
    simp only [State.subtickCommand, State.comesFirst, State.closeEvent_of_closed h, h', hdue]
    simp; intro a b; exact absurd ⟨a, b⟩ hr

end Sys2Proof.Machine
end

