-- ==== Sys2Proof/Laws/Reports.lean ====
section
/-! SUPPORT. What the event queue makes of the records offered to it, and what a change of the buffers makes of CAPTURE_WAITING. -/

namespace Sys2Proof.Machine

/-- R131: one record offered is admitted at the newest end, or counted as discarded. -/
theorem Report.admit_cases (r : Report) (m : Made) :
    (r.queue.length < (if m.body.reserved then 128 else 104)
        ∧ (r.admitOne m).queue = r.queue ++ [⟨r.discard, m.testNo, m.time, m.body⟩] ∧ (r.admitOne m).discard = 0
        ∧ (r.admitOne m).attention = r.attention)
      ∨ (¬ r.queue.length < (if m.body.reserved then 128 else 104) ∧ (r.admitOne m).queue = r.queue
        ∧ (r.admitOne m).discard = min 255 (r.discard + 1) ∧ (r.admitOne m).gateOpen = r.gateOpen) := by
  unfold Report.admitOne
  by_cases h : r.queue.length < (if m.body.reserved then 128 else 104)
  · rw [if_pos h]; exact .inl ⟨h, rfl, rfl, rfl⟩
  · rw [if_neg h]; exact .inr ⟨h, rfl, rfl, rfl⟩

/-- What an admission or a discard leaves alone. -/
@[simp] theorem Report.admit_frame (r : Report) (m : Made) :
    (r.admitOne m).buffers = r.buffers ∧ (r.admitOne m).activity = r.activity ∧ (r.admitOne m).sendList = r.sendList
      ∧ (r.admitOne m).lastItem = r.lastItem ∧ (r.admitOne m).pause = r.pause ∧ (r.admitOne m).made = r.made := by
  unfold Report.admitOne
  by_cases h : r.queue.length < (if m.body.reserved then 128 else 104)
  · rw [if_pos h]; simp
  · rw [if_neg h]; simp [Report.raise]

@[simp] theorem Report.admitAll_frame (ms : List Made) (r : Report) :
    (r.admitAll ms).buffers = r.buffers ∧ (r.admitAll ms).activity = r.activity
      ∧ (r.admitAll ms).sendList = r.sendList ∧ (r.admitAll ms).lastItem = r.lastItem
      ∧ (r.admitAll ms).pause = r.pause ∧ (r.admitAll ms).made = r.made := by
  induction ms generalizing r with
  | nil => simp [Report.admitAll]
  | cons m ms ih =>
    have h := ih (r.admitOne m)
    simpa [Report.admitAll] using h

/-- Records offered never push one that waits out of the queue, nor change their order. -/
theorem Report.admitAll_prefix (ms : List Made) (r : Report) : r.queue <+: (r.admitAll ms).queue := by
  induction ms generalizing r with
  | nil => simp [Report.admitAll]
  | cons m ms ih =>
    have h := ih (r.admitOne m)
    refine List.IsPrefix.trans ?_ h
    rcases r.admit_cases m with ⟨-, hq, -, -⟩ | ⟨-, hq, -, -⟩
    · rw [hq]; exact List.prefix_append _ _
    · rw [hq]

/-- R148: the level that the model reads is the level of the rule. -/
theorem Report.waitingLevel_iff (r : Report) : waitingLevel r.buffers = true ↔ r.WaitingNow := by
  simp [waitingLevel, Report.WaitingNow]

/-- R148: what replacing the buffers does: nothing but the buffers and CAPTURE_WAITING changes, and this follows its level. -/
theorem Report.setBuffers_spec (r : Report) (b : Vector Buffer 4) :
    r.setBuffers b = { r with buffers := b, attention := (r.setBuffers b).attention }
      ∧ r.AttentionFollows (r.setBuffers b) := by
  have hb : (r.setBuffers b).buffers = b := by
    unfold Report.setBuffers Report.raise Report.lower; split_ifs <;> rfl
  unfold Report.AttentionFollows
  rw [← Report.waitingLevel_iff r, ← Report.waitingLevel_iff (r.setBuffers b), hb]
  unfold Report.setBuffers Report.raise Report.lower upd Attn.idx
  cases hn : waitingLevel b <;> cases ho : waitingLevel r.buffers <;>
    simp [Vector.getElem_set] <;> omega

end Sys2Proof.Machine
end

