-- ==== Sys2Proof/Laws/Stream.lean ====
section
/-! SUPPORT. What the search for the sync word keeps of the downstream stream, and what bytes that arrive come to. -/

namespace Sys2Proof.Machine

/-! ### The search (R150) -/

theorem seekSync_suffix (l : List LinkByte) : seekSync l <:+ l := by
  induction l with
  | nil => exact List.suffix_refl _
  | cons x xs ih =>
    unfold seekSync
    split
    · exact List.suffix_refl _
    · exact ih.trans (List.suffix_cons x xs)

theorem seekSync_fits (l : List LinkByte) : fitsSync (seekSync l) = true := by
  induction l with
  | nil => rfl
  | cons x xs ih =>
    unfold seekSync
    split
    · assumption
    · exact ih

theorem seekSync_of_fits {l : List LinkByte} (h : fitsSync l = true) : seekSync l = l := by
  cases l with
  | nil => rfl
  | cons x xs => rw [seekSync, if_pos h]

theorem fitsSync_of_prefix {l k : List LinkByte} (h : l <+: k) (hk : fitsSync k = true) : fitsSync l = true := by
  obtain ⟨r, rfl⟩ := h
  match l with
  | [] => rfl
  | [a] =>
    cases r with
    | nil => exact hk
    | cons b r =>
      simp only [List.cons_append, List.nil_append, fitsSync, Bool.and_eq_true] at hk
      exact hk.1
  | a :: b :: l => exact hk

theorem mayBeginFrame_iff (l : List LinkByte) : MayBeginFrame l ↔ fitsSync l = true := by
  match l with
  | [] => simp [MayBeginFrame, fitsSync]
  | [a] => simp [MayBeginFrame, fitsSync, List.cons_prefix_cons]
  | a :: b :: l => simp [MayBeginFrame, fitsSync, List.cons_prefix_cons]

/-- R150: the search keeps the bytes from the first place where a frame may begin. -/
theorem keptBySearch_seekSync (l : List LinkByte) : KeptBySearch l (seekSync l) := by
  refine ⟨seekSync_suffix l, (mayBeginFrame_iff _).mpr (seekSync_fits l), fun k hk hm => ?_⟩
  induction l with
  | nil => rw [List.suffix_nil.mp hk]; simp
  | cons x xs ih =>
    unfold seekSync
    split
    · exact hk.length_le
    · next h =>
      rcases List.suffix_cons_iff.mp hk with rfl | hk'
      · exact absurd ((mayBeginFrame_iff _).mp hm) h
      · exact ih hk'

/-- Nothing else is kept. -/
theorem KeptBySearch.eq {l kept : List LinkByte} (h : KeptBySearch l kept) : kept = seekSync l := by
  have hs := keptBySearch_seekSync l
  have hl : kept.length = (seekSync l).length := Nat.le_antisymm (hs.2.2 _ h.1 h.2.1) (h.2.2 _ hs.1 hs.2.1)
  exact (List.suffix_of_suffix_length_le h.1 hs.1 hl.le).eq_of_length hl

/-! ### Bytes that arrive -/

@[simp] theorem State.receiveBytes_nil (s : State) : s.receiveBytes [] = s := rfl

@[simp] theorem State.receiveBytes_cons (s : State) (x : LinkByte) (xs : List LinkByte) :
    s.receiveBytes (x :: xs) = (s.receiveByte x).receiveBytes xs := rfl

theorem State.receiveBytes_append (s : State) (xs ys : List LinkByte) :
    s.receiveBytes (xs ++ ys) = (s.receiveBytes xs).receiveBytes ys := by
  simp [State.receiveBytes]

@[simp] theorem State.setStream_setStream (s : State) (xs ys : List LinkByte) :
    (s.setStream xs).setStream ys = s.setStream ys := by
  simp [State.setStream, State.withRecv]

@[simp] theorem State.setStream_stream (s : State) (xs : List LinkByte) : (s.setStream xs).recv.stream = xs := rfl

/-- A byte that makes no frame whole changes nothing but the bytes in hand. -/
theorem State.receiveByte_short {s : State} {x : LinkByte} (h : (seekSync (s.recv.stream ++ [x])).length < 56) :
    s.receiveByte x = s.setStream (seekSync (s.recv.stream ++ [x])) := by
  unfold State.receiveByte
  split
  · next h' => rw [h']
  · next first rest h' =>
    rw [if_neg (by rw [h'] at h; simp at h; omega), h']

/-- The byte that makes a frame whole, once what is in progress is at its end. -/
theorem State.receiveByte_whole {s : State} {x first : LinkByte} {rest : List LinkByte}
    (h : seekSync (s.recv.stream ++ [x]) = first :: rest) (hl : 55 ≤ rest.length) :
    s.receiveByte x = s.closeEvent.frameWhole first rest := by
  unfold State.receiveByte
  rw [h]
  exact if_pos hl

/-- Fewer than 56 bytes that may begin a frame are all kept. -/
theorem State.receiveBytes_begin {s : State} (hs : s.recv.stream = []) {l : List LinkByte} (h : fitsSync l = true)
    (hl : l.length < 56) (hne : l ≠ []) : s.receiveBytes l = s.setStream l := by
  induction l using List.reverseRecOn with
  | nil => exact absurd rfl hne
  | append_singleton xs x ih =>
    have hx : fitsSync xs = true := fitsSync_of_prefix (List.prefix_append _ _) h
    rw [State.receiveBytes_append, State.receiveBytes_cons, State.receiveBytes_nil]
    by_cases he : xs = []
    · subst he
      rw [State.receiveBytes_nil, State.receiveByte_short (by rw [hs, seekSync_of_fits h]; exact hl), hs, seekSync_of_fits h]
    · rw [ih hx (by simp at hl; omega) he, State.receiveByte_short
        (by rw [State.setStream_stream, seekSync_of_fits h]; exact hl), State.setStream_stream, seekSync_of_fits h,
        State.setStream_setStream]

/-- A whole frame that arrives with no byte in hand is judged. -/
theorem State.receiveBytes_whole {s : State} (hs : s.recv.stream = []) {first : LinkByte} {rest : List LinkByte}
    (h : fitsSync (first :: rest) = true) (hl : rest.length = 55) :
    s.receiveBytes (first :: rest) = (s.setStream ((first :: rest).take 55)).closeEvent.frameWhole first rest := by
  obtain ⟨last, hlast⟩ := List.length_eq_one_iff.mp (show ((first :: rest).drop 55).length = 1 by
    rw [List.length_drop, List.length_cons, hl])
  have hsplit : (first :: rest).take 55 ++ [last] = first :: rest := by rw [← hlast, List.take_append_drop]
  have hlen : ((first :: rest).take 55).length < 56 := by rw [List.length_take]; omega
  have hf : fitsSync ((first :: rest).take 55) = true := fitsSync_of_prefix (List.take_prefix _ _) h
  conv_lhs => rw [← hsplit]
  rw [State.receiveBytes_append, State.receiveBytes_begin hs hf hlen (by rw [List.take_succ_cons]; exact List.cons_ne_nil _ _),
    State.receiveBytes_cons, State.receiveBytes_nil]
  exact State.receiveByte_whole (by rw [State.setStream_stream, hsplit, seekSync_of_fits h]) (by omega)

end Sys2Proof.Machine
end

