-- ==== Sys2Proof/Laws/Supervision.lean ====
section
/-! SUPPORT. What the counting of a readback outcome makes of runs, fault, attention and records (R81, R82). -/

namespace Sys2Proof.Machine

theorem State.setFault_sup (s : State) (c : FaultCause) : (s.setFault c).sup = { s.sup with fault := some c } := by
  simp [State.setFault]

theorem State.setFault_attention (s : State) (c : FaultCause) :
    (s.setFault c).rep.attention = s.rep.attention.set 2 true := by
  simp [State.setFault, State.make, State.raise, Report.raise, Attn.idx, upd]

theorem State.clearFault_sup (s : State) (c : FaultCause) : (s.clearFault c).sup = { s.sup with fault := none } := by
  simp [State.clearFault]

/-- R81: a dormant supervisor counts nothing. -/
theorem State.countOutcome_dormant (s : State) (outcome : Option Nat) (h : s.sup.latency = 0) : s.countOutcome outcome = s := by
  simp [State.countOutcome, Supervisor.dormant, h]

/-- R81: a bad or missing readback that sets the fault, with its cause, or sets none. -/
theorem State.countOutcome_none_eq (s : State) (h0 : s.sup.latency ≠ 0) (h1 : 1 ≤ s.sup.confirm) :
    let v := s.withSup { s.sup with linkRun := min 16 (s.sup.linkRun + 1), recRun := 0 }
    s.countOutcome none =
      if s.sup.fault ≠ none then v
      else if 16 ≤ s.sup.linkRun + 1 then v.setFault .link
      else if s.sup.confirm ≤ s.sup.refRun then v.setFault .reference else v := by
  intro v
  have hd : s.sup.dormant = false := by simp [Supervisor.dormant, h0]
  have hc : s.withSup (s.sup.count none) = v := rfl
  cases hf : s.sup.fault with
  | some c =>
    have : ¬ s.sup.confirm ≤ 0 := by omega
    simp [State.countOutcome, hd, hc, v, hf, this]
  | none =>
    simp only [State.countOutcome, hd, hc, v, State.withSup_sup, hf, Supervisor.faultCause]
    by_cases hl : 16 ≤ s.sup.linkRun + 1
    · simp [hl]
    · by_cases hr : s.sup.confirm ≤ s.sup.refRun <;> simp [hl, hr]

/-- R81, R82: the runs, the fault and the attention after a bad or missing readback. -/
theorem State.countOutcome_none (s : State) (h0 : s.sup.latency ≠ 0) (h1 : 1 ≤ s.sup.confirm) :
    let t := s.countOutcome none
    t.sup.refRun = s.sup.refRun ∧ t.sup.linkRun = min 16 (s.sup.linkRun + 1) ∧ t.sup.recRun = 0
    ∧ (s.sup.fault ≠ none → t.sup.fault = s.sup.fault)
    ∧ (s.sup.fault = none → 16 ≤ s.sup.linkRun + 1 → t.sup.fault = some .link ∧ t.rep.attention[2] = true)
    ∧ (s.sup.fault = none → s.sup.linkRun + 1 < 16 → s.sup.confirm ≤ s.sup.refRun →
        t.sup.fault = some .reference ∧ t.rep.attention[2] = true)
    ∧ (s.sup.fault = none → s.sup.linkRun + 1 < 16 → s.sup.refRun < s.sup.confirm → t.sup.fault = none) := by
  intro t
  have ht := s.countOutcome_none_eq h0 h1
  change t = _ at ht
  rw [ht]
  repeat' split
  all_goals simp_all [State.setFault_sup, State.setFault_attention]

/-- R81, R82: what a valid readback with this reference word makes of the supervisor: where the fault is clear after it, runs
and last reference word; where it is set, channels and request list stay. It makes READBACK records alone, and leaves
CHANNEL_FAILED's attention. -/
theorem State.countOutcome_some (s : State) (ref : Nat) (h0 : s.sup.latency ≠ 0) :
    let inBand := 16384 ≤ ref + s.sup.refTol ∧ ref ≤ 16384 + s.sup.refTol
    let refRun := if inBand then 0 else min 15 (s.sup.refRun + 1)
    let recRun := if inBand ∧ s.sup.fault ≠ none then min 15 (s.sup.recRun + 1) else 0
    let clear := (s.sup.fault = none ∧ refRun < s.sup.confirm) ∨ (s.sup.fault ≠ none ∧ s.sup.confirm ≤ recRun)
    let t := s.countOutcome (some ref)
    (clear → t.sup = { s.sup with refRun := refRun, linkRun := 0, recRun := recRun, lastRef := ref, fault := none })
    ∧ (¬ clear → t.sup.fault ≠ none ∧ t.sup.chan = s.sup.chan ∧ t.sup.requests = s.sup.requests)
    ∧ (∃ later : List Made, t.rep.made = s.rep.made ++ later ∧ ∀ m ∈ later, recordType m.body = 12)
    ∧ t.rep.attention[1] = s.rep.attention[1] ∧ t.rep.queue = s.rep.queue := by
  intro inBand refRun recRun clear t
  have hd : s.sup.dormant = false := by simp [Supervisor.dormant, h0]
  have hb : s.sup.inBand ref = true ↔ inBand := by simp [Supervisor.inBand, inBand]
  have hc : s.sup.count (some ref) = { s.sup with refRun := refRun, linkRun := 0, recRun := recRun, lastRef := ref } := by
    by_cases h : inBand
    · simp only [Supervisor.count, hb.2 h, if_true, refRun, recRun, h, true_and]
      cases s.sup.fault <;> simp [satInc]
    · have : s.sup.inBand ref = false := by rw [← Bool.not_eq_true, hb]; exact h
      simp [Supervisor.count, this, refRun, recRun, h, satInc]
  -- nothing is set and nothing is cleared
  have still : t = s.withSup (s.sup.count (some ref)) →
      (∃ later : List Made, t.rep.made = s.rep.made ++ later ∧ ∀ m ∈ later, recordType m.body = 12)
      ∧ t.rep.attention[1] = s.rep.attention[1] ∧ t.rep.queue = s.rep.queue := fun ht =>
    ⟨⟨[], by simp [ht]⟩, by simp [ht], by simp [ht]⟩
  cases hf : s.sup.fault with
  | none =>
    by_cases hr : s.sup.confirm ≤ refRun
    · have ht : t = (s.withSup (s.sup.count (some ref))).setFault .reference := by
        simp [t, State.countOutcome, hd, hc, hf, Supervisor.faultCause, hr]
      have hcl : ¬ clear := by simp [clear, hf]; exact hr
      refine ⟨fun h => absurd h hcl, fun _ => by simp [ht, State.setFault_sup, hc], ?_⟩
      simp [ht, State.setFault, State.make, State.raise, Report.raise, Attn.idx, upd, recordType]
    · have ht : t = s.withSup (s.sup.count (some ref)) := by
        simp [t, State.countOutcome, hd, hc, hf, Supervisor.faultCause, hr]
      have hcl : clear := .inl ⟨hf, by omega⟩
      exact ⟨fun _ => by simp [ht, hc, hf], fun h => absurd hcl h, still ht⟩
  | some c =>
    by_cases hr : s.sup.confirm ≤ recRun
    · have ht : t = (s.withSup (s.sup.count (some ref))).clearFault c := by
        simp [t, State.countOutcome, hd, hc, hf, hr]
      have hcl : clear := .inr ⟨by simp [hf], hr⟩
      refine ⟨fun _ => by simp [ht, State.clearFault_sup, hc], fun h => absurd hcl h, ?_⟩
      simp [ht, State.clearFault, State.make, recordType]
    · have ht : t = s.withSup (s.sup.count (some ref)) := by
        simp [t, State.countOutcome, hd, hc, hf, hr]
      have hcl : ¬ clear := by simp [clear, hf]; omega
      exact ⟨fun h => absurd h hcl, fun _ => by simp [ht, hc, hf], still ht⟩

end Sys2Proof.Machine
end

