-- ==== Sys2Proof/Tests/Slice0.lean ====
section
/-! SUPPORT. Tests: values worked out in the spec, one step on small states, and states that meet the hypotheses of the
statements. -/

-- One test after another: evaluated side by side they would take a thread each.
set_option Elab.async false

namespace Sys2Proof.Tests

open Sys2Proof.Machine

/-! ### Small states -/

/-- A message with tag 7. -/
def msg (a b : Byte) (bytes : List Byte) : Msg := ⟨7, a, b, payloadAt bytes 0⟩

/-- The payload that begins with these bytes. -/
def record (bytes : List Byte) : Payload := payloadAt bytes 0

/-- `s` at a stage of a frame-taken event, with a message in its control slot. -/
def atStage (x : Stage) (s : State) : State :=
  s.withFrame { s.frame with stage := x, slot := some ⟨0x18, msg 0 0 []⟩ }

/-- `s` in a phase. -/
def inPhase (p : Phase) (s : State) : State := s.withSeq { s.seq with phase := p }

/-- `s` with a decision taken for the boundary. -/
def deciding (d : Decision) (s : State) : State := s.withFrame { s.frame with decision := d }

/-- A frame that can hear a message, in IDLE. -/
def ready : State := atStage .ready State.reset

/-- LOCKED, a frame expected at 1 ms, the last sequence 5. -/
def locked : State :=
  State.reset.withRecv { Receiver.reset with state := .locked, expected := 1000000, lastSeq := 5, checkCount := 2 }

/-- `s` with a gap run. -/
def gapRun (n : Nat) (s : State) : State := s.withRecv { s.recv with gapRun := n }

/-- What a command leaves of a state. -/
def after (c : Instr) (s : State) : State :=
  match exec c s with
  | .next t => t
  | _ => s

/-- The status of the pending reply. -/
def replyStatus (s : State) : Option Status := s.reply.map fun r => r.status

/-- A good sample frame: sequence 6, channel 0 at 1234, channel 11 at −32768, QUERY_STATUS with tag 7 (R161). -/
def frame6 : Vector Byte 56 :=
  ⟨#[229, 167, 0, 6, 1, 0, 4, 210, 0, 0, 0, 0, 0, 0, 0, 0, 0, 0, 0, 0, 0, 0, 0, 0, 0, 0, 0, 0, 128, 0, 7, 24, 1, 2, 9, 0, 0, 0,
    0, 0, 0, 0, 0, 0, 0, 0, 0, 0, 0, 0, 0, 0, 0, 0, 168, 110], rfl⟩

/-- Bytes of the downstream stream that reach the part at one instant. -/
def bytesAt (a : Nat) (bs : List Byte) : List LinkByte := bs.map fun b => ⟨a, b⟩

/-- These bytes arrive together. -/
def arriving (l : List LinkByte) : Instr := .sampleFrameArrival (l.headD ⟨0, 0⟩) l.tail

/-- The arrival of `frame6` at `a`. -/
def arrival6 (a : Nat) : Instr := arriving (bytesAt a frame6.toList)

/-- `frame6` with another last byte. -/
def badFrame : Vector Byte 56 := frame6.set 55 111

/-- A good readback of drive frame 2: channel 3 at 5200 with OVERLOAD, and a reference word (R161). -/
def readback (refLow crcHigh crcLow : Byte) : Vector Byte 40 :=
  ⟨#[76, 45, 0, 2, 0, 0, 0, 0, 0, 0, 20, 80, 0, 0, 0, 0, 0, 0, 0, 0, 0, 0, 0, 0, 0, 0, 0, 0, 0, 0, 0, 0, 0, 8, 0, 0, 64, refLow,
    crcHigh, crcLow], rfl⟩

/-- Reference 16384, in the middle of the band. -/
def readbackMid : Vector Byte 40 := readback 0 244 136
/-- Reference 16584, the band's end where the tolerance is 200. -/
def readbackEdge : Vector Byte 40 := readback 200 172 204
/-- Reference 16585. -/
def readbackOut : Vector Byte 40 := readback 201 188 237

/-! ### Values of the spec -/

/-- 0.6.8: (0, 0) is 1 sub-tick and (255, 7) is 32768. -/
theorem test_delay_code : delayCode 0 0 = 1 ∧ delayCode 255 7 = 32768 := by decide

/-- R64: the fade of eight frames (4.3). -/
theorem test_fade : [1, 2, 3, 4, 5, 6, 7, 8].map (faded 14200 8) = [12425, 10650, 8875, 7100, 5325, 3550, 1775, 0]
    ∧ [1, 2, 3, 4, 5, 6, 7, 8].map (faded (-3) 8) = [-3, -2, -2, -2, -1, -1, 0, 0] := by decide

/-- R50 to R55: Case 1 of 3.7. -/
theorem test_case1 : delayedBase [0, 1000, 1040] 24 = 1020 ∧ gainTerm 1020 10240 = 10200 ∧ dcTerm 262144000 = 4000
    ∧ nextAcc 262144000 65128 = 260512000 ∧ dcTerm 260512000 = 3975 ∧ nextAcc 260512000 65128 = 258890160 := by decide

/-- R50: Case 3 of 3.7. -/
theorem test_case3 : delayedBase [0, -1000, -1010] 21 = -1003 := by decide

/-- R53: Case 2 of 3.7. -/
theorem test_case2 : (Bound.limit 30000).apply 40000 = 30000 ∧ (Bound.limit 30000).clips 40000 = true
    ∧ Bound.unwritten.apply 40000 = 0 ∧ Bound.unwritten.clips 40000 = true ∧ Bound.unrouted.clips 40000 = false := by decide

/-- R56: Case 4 of 3.7. -/
theorem test_case4 : nextGacc 67108864 (-1048576) = 66060288 ∧ rampClamps 1048576 (-1048576) = false
    ∧ rampClamps 0 (-1048576) = true ∧ gainTerm 20000 1008 = 19688 ∧ gainTerm 20000 16 = 313 := by decide

/-- R127: Case 1 of 8.7. -/
theorem test_micros : micros 3843 250000 = 60047 ∧ micros 903 250000 = 14109 ∧ micros 1024 250000 = 16000
    ∧ micros 146 250000 = 2281 ∧ micros 1 250000 = 16 := by decide

/-- R97: 1606 with Lat 24 is 1582; −5 is 0 with BEFORE_ORIGIN (6.7, 6.8). -/
theorem test_stamps : stampOf (1606 - 24) = (1582, false) ∧ stampOf (-5 - 24) = (0, true) := by decide

/-- R22: after 255 comes 1. -/
theorem test_test_number : nextTestNumber 0 = 1 ∧ nextTestNumber 255 = 1 := by decide

/-- R77: OVERLOAD and THERMAL weigh 6 (5.9). -/
theorem test_weight : weight false true true = 6 ∧ weight true true true = 7 := by decide

/-- R9: the vocabulary ends at code 9. -/
theorem test_kinds : Kind.ofCode 9 = some .testStart ∧ Kind.ofCode 10 = none ∧ Kind.ofCode 255 = none := by decide

/-! ### Ill-formed commands -/

/-- Bytes arrive one after another. -/
theorem test_wf_stream : (Instr.sampleFrameArrival ⟨5, 0⟩ [⟨4, 0⟩]).wf = false := by decide

theorem test_wf_readback_sync : (Instr.readbackFrameReceived (readbackMid.set 1 0)).wf = false := by decide

theorem test_wf_frames : (arrival6 0).wf = true ∧ (Instr.readbackFrameReceived readbackMid).wf = true := by
  decide

/-- R162: a message with tag 0 is in an empty slot. -/
theorem test_wf_tag :
    let m : Msg := ⟨0, 0, 0, Payload.zero⟩
    ([Instr.writeGlobals m, .writeState m, .writeChannel m, .writeTimer m, .writeInput m, .writeBreaker m, .writeCapture m,
      .writeLimit m, .writeSupervision m, .writeSupervisionGlobal m, .setCadence m, .resync m, .read m, .arm m, .start m,
      .abort m, .release m, .ackAttention m, .clearAttention m, .pauseReports m, .resumeReports m, .clearChannel m,
      .restoreMap m, .queryStatus m, .resetPart m, .unknownMessage 0 m].map Instr.wf).all (· == false) = true := by decide

/-- R163: 19h is a code of the part, 1Ah and 00h are not. -/
theorem test_wf_unknown : (Instr.unknownMessage 0x19 (msg 0 0 [])).wf = false ∧ (Instr.unknownMessage 0x1A (msg 0 0 [])).wf = true
    ∧ (Instr.unknownMessage 0 (msg 0 0 [])).wf = true := by decide

/-- The table gives bits to no row. -/
theorem test_no_words : decodeTableWord 8 1 = none ∧ State.reset.withFetchWord 8 1 = State.reset := ⟨rfl, rfl⟩

/-! ### One step of each command -/

/-- `s` with the other scan position and origin of a test, while sub-ticks are scanned. -/
def scanningAt (pos origin : Nat) (s : State) : State :=
  (s.withScan { s.scan with pos := pos, origin := origin }).withClock { s.clock with slotDone := false }

/-- `s` with one input replaced. -/
def withInput (i : Fin 8) (x : InputScan) (s : State) : State := s.setInput i x

/-- An input with nothing going on. -/
def restInput : InputScan := { InputScan.reset false with reload := .no }

/-- Globals of N = 6, duration 40000, F = 8, Lat = 24 (12.1). -/
def globals12 : Payload := record [6, 0, 0, 0, 0, 156, 64, 8, 24]

/-- `s` with these globals. -/
def withGlobals (g : Payload) (s : State) : State := s.withPlan { s.plan with globals := g }

/-- `s` in test 1, test frame `n`. -/
def inTest (p : Phase) (n : Nat) (s : State) : State := s.withSeq { s.seq with phase := p, testNumber := 1, testFrame := n }

theorem test_powerUpReset : after .powerUpReset locked = State.reset := by decide +kernel

/-- R150: the frame is found behind bytes that begin none, in two pieces; its arrival is that of its own first byte. -/
theorem test_sampleFrameArrival :
    let s := after (arriving (bytesAt 70 [229, 1, 229, 229] ++ bytesAt 100 (frame6.toList.take 9))) State.reset
    s.recv.stream.length = 9 ∧ (after (arriving (bytesAt 120 (frame6.toList.drop 9))) s).recv.state = .check
    ∧ (after (arriving (bytesAt 120 (frame6.toList.drop 9))) s).recv.reference = 100 := by decide +kernel

/-- R150: in HUNT the search goes on inside a bad frame, which here ends with the first byte of a sync word. -/
theorem test_badFrame :
    let s := after (arriving (bytesAt 100 (badFrame.set 55 229).toList)) State.reset
    s.recv.crcDiscards = 1 ∧ s.recv.stream = [⟨100, 229⟩]
    ∧ (after (arriving (bytesAt 100 (badFrame.set 55 229).toList)) locked).recv.stream = [] := by decide +kernel

/-- R151: the window is T ± P div 8, its ends included. -/
theorem test_window : (after (arrival6 968750) locked).recv.held.isSome = true
    ∧ (after (arrival6 968749) locked).recv.windowDiscards = 1 := by decide +kernel

theorem test_checkTimeout :
    (after .checkTimeout (State.reset.withRecv { Receiver.reset with state := .check })).recv.state = .hunt := by decide

theorem test_arrivalWindowClose : (after .arrivalWindowClose locked).recv.gapRun = 1
    ∧ (after .arrivalWindowClose locked).recv.expected = 1250000 := by decide +kernel

/-- R154: the fifth empty window in a row, with a gap limit of 4. -/
theorem test_streamLoss : (after .arrivalWindowClose (gapRun 4 locked)).recv.state = .hunt
    ∧ (after .arrivalWindowClose (gapRun 4 locked)).rep.attentionCode = 1 := by decide +kernel

theorem test_answerFrameClockPeriod : (after .answerFrameClockPeriod State.reset).clock.slotLen = 250000
    ∧ (after .answerFrameClockPeriod State.reset).answerOut.take 5 = [0x5A, 0x7E, 0, 0, 0] := by decide +kernel

theorem test_readbackFrameReceived :
    (after (.readbackFrameReceived readbackMid)
      (State.reset.withOut { OutputStage.reset with lastSeq := some 2, judgment := .openNone })).out.valid = 1 := by
  decide +kernel

theorem test_leakStep :
    (after (.leakStep 3) (State.reset.setChan 3 ⟨.mapped, 500, 6, 40, 3, 0⟩)).sup.chan[3] = ⟨.mapped, 500, 6, 40, 2, 40⟩ := by
  decide

/-- 5.9: logical 3 has failed on physical 3; the written spare is 12. -/
def failing : State :=
  ((inTest .running 402 (atStage .settled State.reset)).withOut
    { OutputStage.reset with written := Vector.replicate 14 true }).withSup
    { Supervisor.reset with requests := [3], operate := 3 }

theorem test_failoverService : (after .failoverService failing).sup.engine = .awaitZero ⟨3, 3, 12, 0, 0, 0⟩ := by decide +kernel

theorem test_zeroFound :
    (after .zeroFound ((failing.setEngine (.awaitZero ⟨3, 3, 12, 4, 0, 300⟩)).withEng
      (tab fun _ => { Channel.reset with y := -250 }))).sup.engine = .switching ⟨3, 3, 12, 4, 0, 300⟩ := by decide +kernel

theorem test_failoverComplete :
    (after .failoverComplete (failing.setEngine (.switching ⟨3, 3, 12, 4, 3, 0⟩))).out.map[3] = some 12 := by decide +kernel

/-- 6.7: the first change at line time 1603. -/
theorem test_inputLineChange :
    (after (.inputLineChange 4 true) (scanningAt 1603 0 (withInput 4 restInput State.reset))).scan.inputs[4].cand
      = some ⟨true, 1603⟩ := by decide +kernel

/-- 6.7: the edge accepted at 1614 is stamped 1582, with one bounce. -/
theorem test_acceptedEdge :
    (after (.acceptedEdge 4) (withGlobals globals12 (scanningAt 1614 0 (withInput 4
      { restInput with cfg := record [1, 8, 3, 0, 20], cand := some ⟨true, 1606⟩, bounce := 1 }
      (inTest .running 100 State.reset))))).rep.queue = [⟨0, 1, 1582, .inputEdge 4 true 1 false 100⟩] := by decide +kernel

/-- 6.7: at the boundary into frame 130. -/
theorem test_chatterEnd :
    (after (.chatterEnd 4) (withInput 4
      { restInput with cfg := record [1, 8, 3, 0, 20], settled := true, chatter := true, window := some 110, suppressed := 2 }
      ((atStage .settled (inTest .running 130 locked)).withClock { Clock.reset with scanFrame := 130 }))).rep.made
      = [⟨1, 2080, .chatterEnd 4 2 true 20, true⟩] := by decide +kernel

theorem test_chatterWindowClose :
    (after (.chatterWindowClose 4) (withInput 4
      { restInput with cfg := record [1, 8, 3, 0, 20], window := some 100, edges := 3 }
      ((atStage .settled locked).withClock { Clock.reset with scanFrame := 120 }))).scan.inputs[4].window = none := by
  decide +kernel

theorem test_breakerOperationComplete :
    (after .breakerOperationComplete (withGlobals globals12 (scanningAt 11556 0 ((inTest .running 722 State.reset).withBrk
      ⟨.opening, some 11556, some ⟨8356, 0, 8316, false⟩, 0⟩)))).rep.queue
      = [⟨0, 1, 11532, .breaker true false 0 8316 3200 1 false false⟩] := by decide +kernel

/-- 7.7: line 2 in PULSE with codes 15, 2 and 15, 3: the entry for frame 500 and the self-entry for frame 513. -/
theorem test_pulseEntry :
    let lines (n : Nat) (l : Line) := (((inTest .running n State.reset).withPlan
      { Plan.reset with part1 := tab fun _ => record [0, 0, 0, 0, 0, 0, 0, 0, 0, 0, 4, 15, 2, 15, 3] }).withLines
        (tab fun _ => l)).linesEnter 3 |>.lines
    (lines 500 ⟨.low, false, none⟩)[2] = ⟨.pulse, true, some 8064⟩
      ∧ (lines 513 ⟨.pulse, true, some 8256⟩)[2] = ⟨.pulse, true, some 8272⟩ := by decide +kernel

theorem test_pulsePeriodEnd :
    (after (.pulsePeriodEnd 0) ((scanningAt 100 0 ((inTest .running 6 State.reset).withPlan
      { Plan.reset with part1 := tab fun _ => record [4, 9, 0, 19, 0] })).withLines
      (tab fun _ => ⟨.pulse, true, some 100⟩))).lines[0] = ⟨.pulse, false, some 120⟩ := by decide +kernel

/-- A slot running since 48, with the timeout of 800 frames: E = 12848. -/
def timing (n : Nat) : State :=
  (atStage .settled (inTest .running n State.reset)).withTimers
    ⟨true, tab fun _ => { Slot.reset with state := .running, start := some 48, expiry := some 12848 }⟩

theorem test_timeoutDue : (after (.timeoutDue 2) (timing 803)).timers.slots[2].held = true
    ∧ (after (.timeoutDue 2) (timing 802)).timers.slots[2].held = false := by decide +kernel

theorem test_timerExpired : (after (.timerExpired 2) (timing 803)).timers.slots[2].outcome = some .timeout := by decide +kernel

/-- R14: a failure found on the way rejects the plan, and IDLE is asked for. -/
theorem test_verificationOutcome :
    (after .verificationOutcome (atStage .handled (inPhase .verifying (State.reset.withPlan
      { Plan.reset with verification := some ⟨0, .remaining, 0xFFFF, some (3, .nextState)⟩ })))).seq.next = some .idle := by
  decide +kernel

theorem test_armCancel : (after .armCancel (deciding .cancel (atStage .taken (inPhase .armed State.reset)))).seq.phase = .idle := by
  decide +kernel

/-- A start decided on, with the globals of 12.1. -/
def starting : State := deciding (.start ⟨.message, 0, 0⟩) (atStage .taken (inPhase .armed (withGlobals globals12 State.reset)))

theorem test_testStart : (after .testStart starting).seq.phase = .running ∧ (after .testStart starting).seq.testNumber = 1
    ∧ ((after .testStart starting).rep.made.map fun m => m.body.code) = [1, 2] := by decide +kernel

/-- R22: a slot that starts on TEST_START and stops on STATE_ENTRY(0) is stopped with an elapsed time of 0. -/
theorem test_testStart_events :
    let t := after .testStart (starting.withPlan { starting.plan with timers := tab fun _ => record [1, 9, 0, 8, 0, 0, 1] })
    t.timers.slots[5].outcome = some .stopped ∧ t.timers.slots[5].start = some 0 ∧ t.rep.made.length = 10 := by decide +kernel

theorem test_dwellDone :
    (after .dwellDone (atStage .settled ((inTest .running 9 State.reset).withPlan
      { Plan.reset with part0 := tab fun _ => record [0, 0, 0, 3, 1] }
      |> fun s => s.withSeq { s.seq with framesInState := 3 }))).seq.latches[0] = true := by decide +kernel

/-- An exit 0 to state 2 decided on after ten frames. -/
def exiting : State :=
  deciding (.exit 0) (atStage .taken (withGlobals globals12 ((inTest .running 9 State.reset).withPlan
    { Plan.reset with part0 := tab fun _ => record [0, 0, 0, 0, 1, 0, 2] })))

theorem test_stateExit : (after .stateExit exiting).seq.stateInForce = 2
    ∧ ((after .stateExit exiting).rep.made.map fun m => (m.body.code, m.time)) = [(3, 160), (2, 160)] := by decide +kernel

/-- R34, R36: with F = 0 a FINAL state is in force for no frame; the last frame was in state 1. -/
theorem test_stateExit_final :
    ((after .stateExit ((exiting.withSeq { exiting.seq with stateInForce := 1 }).withPlan { Plan.reset with
      part0 := tab fun k => record [0, 0, 0, 0, 1, 0, 2, 0, 0, 0, 0, 0, 0, 0, 0, 0, if k = 2 then 1 else 0] })).rep.made.map
        fun m => m.body).getLast? = some (.testEnd .finalState 1 10 1) := by decide +kernel

theorem test_durationLimit :
    (after .durationLimit (deciding .duration (atStage .taken (withGlobals globals12 (inTest .running 39999 State.reset))))).seq.endReason
      = some .duration := by decide +kernel

/-- R34: with F = 8 ENDING begins. -/
theorem test_endRequest :
    (after .endRequest (deciding (.stop .aborted) (atStage .taken (withGlobals globals12 (inTest .running 9 State.reset))))).seq.phase
      = .ending := by decide +kernel

theorem test_testComplete :
    ((after .testComplete (deciding .complete (atStage .taken ((inTest .ending 9 State.reset).withSeq
      { Sequencer.reset with phase := .ending, testFrame := 9, endReason := some .aborted })))).rep.made.map fun m =>
        (m.body.code, m.time)) = [(3, 160), (4, 160)] := by decide +kernel

/-! Messages. -/

theorem test_writeGlobals : (after (.writeGlobals ⟨7, 0, 0, globals12⟩) ready).plan.globals = globals12
    ∧ replyStatus (after (.writeGlobals (msg 0 0 [33, 0, 0, 0, 0, 156, 64])) ready) = some .badValue := by decide

theorem test_writeState :
    replyStatus (after (.writeState (msg 1 0 [0, 0, 1, 144, 8, 0, 1])) ready) = some .badValue
    ∧ (after (.writeState (msg 31 1 [4, 9, 7])) ready).plan.part1[31] = record [4, 9, 7] := by decide

theorem test_writeChannel : replyStatus (after (.writeChannel (msg 0 12 [])) ready) = some .noEntry
    ∧ replyStatus (after (.writeChannel (msg 0 11 [2, 0, 0, 0, 0, 0, 0, 15, 241])) ready) = some .badValue := by decide

theorem test_writeTimer : replyStatus (after (.writeTimer (msg 7 0 [1, 9, 0, 2, 7, 0, 0])) ready) = some .badValue
    ∧ (after (.writeTimer (msg 7 0 [1, 9, 0, 2, 7, 0, 1])) ready).plan.timers[7] = record [1, 9, 0, 2, 7, 0, 1] := by decide

theorem test_writeInput : (after (.writeInput (msg 4 0 [1, 8, 3, 0, 20])) ready).scan.inputs[4].reload = .afterZero := by decide

theorem test_writeBreaker : (after (.writeBreaker (msg 0 0 [1, 0, 1, 99, 5, 159, 5, 1])) ready).brk.state = .opened := by decide

theorem test_writeCapture : replyStatus (after (.writeCapture (msg 0 0 [1, 8, 1, 4, 0])) ready) = some .badValue := by decide

/-- R62: a written limit is locked. -/
theorem test_writeLimit :
    let s := after (.writeLimit (msg 13 0 [117, 48])) ready
    s.out.limit[13] = 30000 ∧ replyStatus (after (.writeLimit (msg 13 0 [0, 1])) (atStage .ready s)) = some .locked := by decide

theorem test_writeSupervision : replyStatus (after (.writeSupervision (msg 3 0 [1, 244, 6, 0, 40])) ready) = some .done
    ∧ replyStatus (after (.writeSupervision (msg 3 0 [1, 244, 0, 0, 40])) ready) = some .badValue := by decide

theorem test_writeSupervisionGlobal :
    (after (.writeSupervisionGlobal (msg 0 0 [2, 0, 200, 3, 3, 1, 0])) ready).sup.refTol = 200 := by decide

theorem test_setCadence : (after (.setCadence (msg 0 0 [0, 3, 208, 144, 0, 80, 4])) ready).recv.cadenceNext = 250000 := by decide

theorem test_resync : (after (.resync (msg 0 0 [])) ready).recv.resync = true := by decide

theorem test_read : ((after (.read (msg 10 0 [])) ready).reply.map fun r => r.payload) =
    some (10 :: List.replicate 27 0) := by decide

/-- R12: a plan without globals is not armed. -/
theorem test_arm : replyStatus (after (.arm (msg 0 0 [])) ready) = some .badValue
    ∧ (after (.arm (msg 0 0 [18, 52])) (withGlobals globals12 ready)).seq.next = some .verifying := by decide

theorem test_start : replyStatus (after (.start (msg 0 0 [])) ready) = some .wrongPhase
    ∧ (after (.start (msg 0 0 [])) (inPhase .armed ready)).seq.request = .start ⟨.message, 0, 0⟩ := by decide

theorem test_abort : (after (.abort (msg 0 0 [])) (inPhase .running ready)).seq.request = .stop .aborted := by decide

theorem test_release : replyStatus (after (.release (msg 0 0 [])) ready) = some .wrongState
    ∧ (after (.release (msg 2 0 [])) (ready.withRep { Report.reset with
        buffers := tab fun _ => { Buffer.reset with state := .sent } })).rep.buffers[2].state = .free := by decide

theorem test_ackAttention : replyStatus (after (.ackAttention (msg 1 0 [])) ready) = some .noEntry
    ∧ (after (.ackAttention (msg 1 0 [])) (ready.raise .streamLost)).rep.attention[0] = false := by decide

/-- R163: the code is judged at step 3, the payload at step 4. -/
theorem test_ackAttention_order : replyStatus (after (.ackAttention (msg 1 0 [1])) ready) = some .noEntry
    ∧ replyStatus (after (.ackAttention (msg 1 0 [1])) (ready.raise .streamLost)) = some .badValue := by decide

theorem test_clearAttention : (after (.clearAttention (msg 0 0 [])) (ready.raise .readbackFault)).rep.attentionCode = 0 := by decide

theorem test_pauseReports : (after (.pauseReports (msg 0 0 [])) ready).rep.pause = true := by decide

theorem test_resumeReports :
    (after (.resumeReports (msg 0 0 [])) (ready.withRep { Report.reset with pause := true })).rep.pause = false := by decide

theorem test_clearChannel :
    (after (.clearChannel (msg 3 0 [])) (ready.setChan 3 ⟨.failed, 500, 6, 40, 6, 12⟩)).sup.chan[3] = ⟨.mapped, 500, 6, 40, 0, 40⟩ := by
  decide

theorem test_restoreMap : (after (.restoreMap (msg 0 0 [])) (ready.setMap 3 (some 12))).out.map[3] = some 3
    ∧ replyStatus (after (.restoreMap (msg 0 0 [])) (ready.setChan 3 ⟨.failed, 0, 0, 0, 0, 0⟩)) = some .wrongState := by decide +kernel

theorem test_queryStatus : replyStatus (after (.queryStatus (msg 0 1 [])) ready) = some .noEntry
    ∧ ((after (.queryStatus (msg 1 1 [])) ready).reply.map fun r => r.payload) = some (List.replicate 28 0)
    ∧ ((after (.queryStatus (msg 0 0 [])) ready).reply.map fun r => (r.payload.drop 15).take 5) = some [255, 255, 255, 255, 255] := by
  decide

/-- R167: the test number is kept. -/
theorem test_resetPart : (after (.resetPart (msg 0 0 [])) (inTest .running 9 ready)).seq
    = { Sequencer.reset with testNumber := 1 } := by decide +kernel

theorem test_unknownMessage : replyStatus (after (.unknownMessage 0x1A (msg 0 0 [])) ready) = some .unknown := by decide

/-! ### States and operands that meet the hypotheses of the statements

One theorem for each statement that has hypotheses, one line for each of its clauses. -/

theorem witness_StepTakesFrontCommand :
    (ready.pending = [] ∧ ready.frame.stage ≠ .closed)
    ∧ (locked.pending = [] ∧ locked.frame.stage = .closed ∧ locked.dueStep = none ∧ locked.checkIsLate = false
        ∧ locked.clock.slotDone = true ∧ locked.recv.state = .locked)
    ∧ (State.reset.dueStep = none ∧ State.reset.checkIsLate = false ∧ State.reset.clock.slotDone = true
        ∧ State.reset.recv.state ≠ .locked) := by decide +kernel

/-- The frame-taken event in ARMED, with an input whose candidate has persisted at sub-tick 0 of the frame. -/
def early4 (c : Option Candidate) : State :=
  (withInput 4 { restInput with cfg := record [1, 8, 3, 0, 20], cand := c }
    (inTest .armed 0 (atStage .taken (locked.withScan { locked.scan with pos := 1615 })))).withPlan
    { Plan.reset with globals := record [6, 1, 4, 0, 0, 156, 64, 8, 24] }

/-- The same with no event in progress and the slot over: a gap frame is due, or at the gap limit none. -/
def over4 (gaps : Nat) (c : Option Candidate) : State :=
  let s := gapRun gaps (early4 c)
  s.withFrame { s.frame with stage := .closed }

theorem witness_CommandsMeetTheFrameEvent_over :
    (∀ g ∈ [0, 4], (over4 g (some ⟨true, 1600⟩)).frame.stage = .closed ∧ (over4 g (some ⟨true, 1600⟩)).clock.slotDone = true
      ∧ (over4 g (some ⟨true, 1600⟩)).recv.state = .locked)
    ∧ (let b := (over4 0 (some ⟨true, 1600⟩)).beforeMessage
       b.frame.stage = .ready ∧ b.edgeDue 4 = true ∧ b.seq.phase = .armed)
    ∧ (let b := (over4 0 none).beforeMessage
       b.frame.stage = .ready ∧ b.edgeDue 4 = false ∧ b.operationDue = false ∧ b.pulseEnds 0 = false)
    ∧ (over4 4 (some ⟨true, 1600⟩)).beforeMessage.frame.stage = .closed := by decide +kernel

theorem witness_CommandsMeetTheFrameEvent :
    ((atStage .taken locked).frame.stage ≠ .closed ∧ (atStage .taken locked).recv.state = .locked)
    ∧ ((early4 (some ⟨true, 1600⟩)).frame.stage ≠ .closed ∧ (early4 (some ⟨true, 1600⟩)).beforeMessage.frame.stage = .ready
        ∧ (early4 (some ⟨true, 1600⟩)).beforeMessage.edgeDue 4 = true)
    ∧ ((early4 none).beforeMessage.edgeDue 4 = false ∧ (early4 none).complete.edgeDue 4 = false) := by decide +kernel

/-- R21: an acceptance at sub-tick 0 of the frame and the frame's ABORT, in either order: CANCEL. -/
theorem test_edgeAndAbortInOneFrame :
    let s := early4 (some ⟨true, 1600⟩)
    let abort := Instr.abort (msg 0 0 [])
    ((after (.acceptedEdge 4) s).seq.request ≠ .none ∧ (after (.acceptedEdge 4) s).seq.request ≠ .cancel)
    ∧ (after abort (after (.acceptedEdge 4) s)).seq.request = .cancel
    ∧ (after (.acceptedEdge 4) (after abort s)).seq.request = .cancel := by decide +kernel

/-- Bytes in hand with which `frame6` is whole, and with which it is one byte short. -/
theorem witness_bytes_in_hand :
    let l := bytesAt 1000000 frame6.toList
    (KeptBySearch (l.take 55 ++ l.drop 55) l ∧ 56 ≤ l.length)
    ∧ (KeptBySearch (l.take 54 ++ (l.drop 54).take 1) (l.take 55) ∧ (l.take 55).length < 56)
    ∧ KeptBySearch ((atStage .taken State.reset).recv.stream ++ [⟨0, 0⟩]) [] :=
  ⟨⟨keptBySearch_seekSync _, by decide⟩, ⟨keptBySearch_seekSync _, by decide⟩, keptBySearch_seekSync _⟩

theorem ready_hears (a b : Byte) (bytes : List Byte) : ready.Hears (msg a b bytes) :=
  ⟨rfl, rfl, by show (7 : Byte) ≠ 0; decide⟩

theorem witness_MessagesInTheirFrame :
    (messageOf (.read (msg 1 0 [])) = some (0x0D, msg 1 0 []) ∧ ready.atMessage.frame.stage = .ready
      ∧ ready.atMessage.frame.slot.isSome = true)
    ∧ (messageOf (.resetPart (msg 0 0 [])) = some (0x19, msg 0 0 []) ∧ State.reset.atMessage.frame.stage ≠ .ready)
    ∧ (0x19 < (0x1A : Byte).toNat ∧ 0x19 < (0xFF : Byte).toNat)
    ∧ (1 ≤ (0x01 : Byte).toNat ∧ (0x19 : Byte).toNat ≤ 0x19) := by decide +kernel

/-- In CHECK with the last good frame at 800000, sequence 5: the next fits from 1018750 to 1081250. -/
def checking (n : Nat) : State :=
  State.reset.withRecv { Receiver.reset with state := .check, reference := 800000, lastSeq := 5, checkCount := n }

theorem witness_good_frames : GoodFrame frame6 ∧ BadFrame badFrame ∧ frameSequence frame6 = 6 ∧ ¬ ((frame6.set 0 0)[0] = 0xE5) := by
  unfold GoodFrame BadFrame GoodFrame frameSequence; decide +kernel

theorem witness_SearchForStream :
    State.reset.frame.stage = .closed ∧ State.reset.recv.state = .hunt
    ∧ (checking 0).recv.state = .check ∧ (checking 0).recv.checkCount = 0 ∧ (checking 1).recv.checkCount ≠ 0
    ∧ (∀ a ∈ [1018750, 1081250], 800000 + 250000 ≤ a + 250000 / 8 ∧ a ≤ 800000 + 250000 + 250000 / 8)
    ∧ (∀ a ∈ [1018749, 1081251], ¬ (800000 + 250000 ≤ a + 250000 / 8 ∧ a ≤ 800000 + 250000 + 250000 / 8))
    ∧ frameSequence frame6 = ((checking 0).recv.lastSeq + 1) % 65536
    ∧ locked.recv.state ≠ .check := by unfold frameSequence; decide +kernel

/-- The bytes of `frame6`, and of a bad frame whose last byte is the first of a sync word. -/
theorem witness_SearchForStream_bytes :
    CarriesFrame (⟨1018750, 229⟩ :: bytesAt 1018750 (frame6.toList.drop 1)) 1018750 frame6 ∧ State.reset.recv.stream = []
    ∧ (checking 0).recv.stream = []
    ∧ CarriesFrame (⟨100, 229⟩ :: bytesAt 100 ((badFrame.set 55 229).toList.drop 1)) 100 (badFrame.set 55 229)
    ∧ BadFrame (badFrame.set 55 229)
    ∧ KeptBySearch (bytesAt 100 ((badFrame.set 55 229).toList.drop 1)) [⟨100, 229⟩] := by
  refine ⟨⟨by decide, rfl⟩, rfl, rfl, ⟨by decide, rfl⟩, ?_, keptBySearch_seekSync _⟩
  unfold BadFrame GoodFrame
  decide +kernel

theorem witness_ArrivalInLocked :
    locked.frame.stage = .closed ∧ locked.recv.state = .locked ∧ locked.recv.held = none
    ∧ frameSequence frame6 ≠ locked.recv.lastSeq
    ∧ (∀ a ∈ [968750, 1031250], 1000000 ≤ a + 250000 / 8 ∧ a ≤ 1000000 + 250000 / 8)
    ∧ (∀ a ∈ [968749, 1031251], ¬ (1000000 ≤ a + 250000 / 8 ∧ a ≤ 1000000 + 250000 / 8)) := by
  unfold frameSequence; decide +kernel

/-- LOCKED with a held frame. -/
def holding : State := locked.withRecv { locked.recv with held := some (heldOf 1000000 frame6.toList) }

theorem witness_FrameTaken :
    (holding.frame.stage = .closed ∧ holding.recv.state = .locked ∧ holding.recv.resync = false ∧ holding.recv.held.isSome = true)
    ∧ (locked.recv.resync = false ∧ locked.recv.held = none ∧ locked.recv.gapRun = 0 ∧ 0 < locked.recv.gapLimit)
    ∧ ((gapRun 3 locked).recv.gapRun ≠ 0 ∧ (gapRun 3 locked).recv.gapRun < (gapRun 3 locked).recv.gapLimit) := by decide +kernel

/-- A gap run that ends, a sequence that is skipped, in a test and outside one. -/
theorem witness_FrameTaken_records :
    ∀ p ∈ [Phase.idle, .running], ∀ g ∈ [0, 4], ∀ q ∈ [4, 5],
      let s := inPhase p (gapRun g (holding.withRecv { holding.recv with lastSeq := q }))
      (s.recv.state = .locked ∧ s.frame.stage = .closed ∧ s.recv.resync = false ∧ s.seq.next = none)
      ∧ s.recv.gapRun = g ∧ (s.recv.held.map fun h => h.sequence) = some 6 ∧ s.recv.lastSeq = q
      ∧ s.openFrame.settleSeq.seq.phase = p := by decide +kernel

/-- Sub-tick 0 of the slot that a frame taken begins: an input at rest, one that a message has had re-read, one with a candidate;
the receiver stays LOCKED, or leaves by a RESYNC. -/
theorem witness_FrameTaken_scan :
    let u (s : State) : State := s.openFrame.settleSeq.ready.handleSlot.verifyStep
    let with4 (x : InputScan) : State := withInput 4 x holding
    (∀ r ∈ [Reload.no, .now, .afterZero], ((u (with4 { restInput with reload := r })).scan.inputs[4]).reload = r)
    ∧ ((u (with4 { restInput with raw := true, cand := some ⟨0, 2⟩ })).scan.inputs[4]).cand = some ⟨0, 2⟩
    ∧ (u holding).recv.state = .locked ∧ (after .arrivalWindowClose holding).recv.state = .locked
    ∧ (holding.recv.held ≠ none ∧ locked.recv.held = none ∧ locked.recv.gapRun < locked.recv.gapLimit) := by decide +kernel

theorem witness_StreamLoss :
    ∀ p ∈ [Phase.idle, .running, .ending], let s := inPhase p (gapRun 4 locked)
      s.frame.stage = .closed ∧ s.recv.state = .locked ∧ s.recv.held = none ∧ s.recv.gapLimit ≤ s.recv.gapRun
        ∧ s.seq.phase = p := by decide +kernel

/-- `s` with `n` records in its queue. -/
def queued (n : Nat) (s : State) : State :=
  s.withRep { s.rep with queue := List.replicate n ⟨0, 1, 0, .planVerified 0 1⟩ }

theorem witness_StreamLoss_records :
    let s := (queued 64 (inPhase .running (gapRun 4 locked))).withSup { Supervisor.reset with requests := List.finRange 12 }
    s.RequestInv ∧ s.finishSlot.rep.made = [] ∧ s.finishSlot.rep.queue.length = 64 := by
  refine ⟨⟨by decide, by decide, fun x h => ?_⟩, by decide +kernel⟩
  rcases h with h | h <;> exact absurd h (by simp [Supervisor.reset, State.withSup])

theorem witness_DriveAndAnswerFrames_test :
    ∀ p ∈ [Phase.running, .ending], let t := after .arrivalWindowClose ((inTest p 5 holding).withPlan
        { Plan.reset with globals := globals12 })
      t.seq.phase = p ∧ t.routeEntry 11 = some 11 ∧ ∀ c : Fin 12, t.routeEntry c ≠ some 13 := by decide +kernel

/-- Frame counts of the failover engine (R86, R87) in a frame taken; what stands after message and verification step. -/
def counting (e : FailoverEngine) : State :=
  ((inTest .running 5 holding).withPlan { Plan.reset with globals := globals12 }).withSup { Supervisor.reset with
    engine := e, operate := 9 } |>.withEng (tab fun _ => { Channel.reset with mode := .scale, y := 250 })

theorem witness_DriveAndAnswerFrames_failover :
    let u (e : FailoverEngine) : State := (counting e).openFrame.settleSeq.ready.handleSlot.verifyStep
    (∀ e ∈ [FailoverEngine.quiet, .awaitZero ⟨3, 3, 12, 4, 0, 300⟩, .switching ⟨3, 3, 12, 4, 1, 0⟩],
        (u e).sup.engine = e ∧ (after .arrivalWindowClose (counting e)).seq.phase = .running)
    ∧ (u (.awaitZero ⟨3, 3, 12, 4, 0, 300⟩)).eng[3].y = 250 := by decide +kernel

/-- R86: a frame in AWAIT_ZERO counts as a wait frame, and the output of the frame before is kept. -/
theorem test_waitFrame :
    (after .arrivalWindowClose (counting (.awaitZero ⟨3, 3, 12, 4, 0, 300⟩))).sup.engine = .awaitZero ⟨3, 3, 12, 5, 0, 250⟩ := by
  decide +kernel

theorem witness_DriveAndAnswerFrames :
    (holding.frame.stage = .closed ∧ holding.recv.state = .locked ∧ holding.recv.held ≠ none ∧ holding.out.lastSeq = none
      ∧ (after .arrivalWindowClose holding).seq.phase = .idle)
    ∧ ((holding.withOut { OutputStage.reset with lastSeq := some 65535 }).out.lastSeq = some 65535) := by decide +kernel

theorem witness_LinkInv : locked.LinkInv ∧ (atStage .stepped locked).LinkInv := by
  unfold State.LinkInv; decide +kernel

theorem witness_SamplesWithinLimits :
    locked.LinkInv ∧ locked.frame.stage = .closed ∧ locked.recv.state = .locked ∧ locked.recv.gapRun < locked.recv.gapLimit :=
  ⟨witness_LinkInv.1, by decide +kernel⟩

theorem witness_AnswerFramePeriod : State.reset.recv.state ≠ .locked ∧ locked.recv.state = .locked := by decide

/-- The supervisor at work: reference tolerance 200, confirm count 3, judgment of drive frame 2 open. -/
def supervised (j : Judgment) : State :=
  (locked.withOut { OutputStage.reset with lastSeq := some 2, judgment := j, nextSeq := 3 }).withSup
    { Supervisor.reset with latency := 2, refTol := 200, confirm := 3, operate := 3 }

theorem witness_good_readbacks :
    GoodReadback readbackMid ∧ GoodReadback readbackEdge ∧ GoodReadback readbackOut ∧ BadReadback (readbackMid.set 39 0)
      ∧ readbackEcho readbackMid = 2 ∧ readbackReference readbackEdge = 16584 ∧ readbackReference readbackOut = 16585 := by
  unfold GoodReadback BadReadback GoodReadback readbackEcho readbackReference; decide +kernel

theorem witness_ReadbackJudged :
    (supervised .openNone).frame.stage = .closed ∧ (supervised .openNone).out.lastSeq = some 2
    ∧ State.reset.out.lastSeq ≠ some 2 ∧ (supervised .settled).out.judgment = .settled
    ∧ (supervised .openBad).out.judgment ≠ .settled ∧ ¬ ((readbackMid.set 0 0)[0] = 0x4C) := by decide +kernel

/-- The runs and the fault of the supervisor at work. -/
def runs (f : Option FaultCause) (ref link rec' : Nat) : State :=
  (supervised .openNone).withSup { (supervised .openNone).sup with fault := f, refRun := ref, linkRun := link, recRun := rec' }

theorem witness_ReadbackFault :
    (locked.frame.stage = .closed ∧ locked.sup.latency = 0)
    ∧ ((runs none 2 0 0).sup.latency ≠ 0 ∧ 1 ≤ (runs none 2 0 0).sup.confirm ∧ (runs none 2 0 0).out.judgment ≠ .settled)
    ∧ (16384 ≤ 16584 + (runs none 2 0 0).sup.refTol ∧ 16584 ≤ 16384 + (runs none 2 0 0).sup.refTol)
    ∧ ¬ (16384 ≤ 16585 + (runs none 2 0 0).sup.refTol ∧ 16585 ≤ 16384 + (runs none 2 0 0).sup.refTol)
    ∧ ((runs none 2 0 0).sup.fault = none ∧ (runs none 2 0 0).sup.confirm ≤ min 15 ((runs none 2 0 0).sup.refRun + 1))
    ∧ (min 15 ((runs none 1 0 0).sup.refRun + 1) < (runs none 1 0 0).sup.confirm)
    ∧ ((runs (some .link) 0 0 2).sup.fault ≠ none)
    ∧ ((runs none 0 15 0).recv.state = .locked ∧ 16 ≤ (runs none 0 15 0).sup.linkRun + 1)
    ∧ ((runs none 3 14 0).sup.linkRun + 1 < 16 ∧ (runs none 3 14 0).sup.confirm ≤ (runs none 3 14 0).sup.refRun)
    ∧ ((runs none 2 14 0).sup.linkRun + 1 < 16 ∧ (runs none 2 14 0).sup.refRun < (runs none 2 14 0).sup.confirm)
    ∧ (supervised .settled).out.judgment = .settled
    ∧ ((runs none 2 0 0).rep.made = [] ∧ (runs none 2 0 0).rep.queue.length < 104) := by decide +kernel

/-- LOCKED with a held frame whose control slot is empty. -/
def silent (s : State) : State :=
  s.withRecv { s.recv with held := some ⟨1000000, 6, Vector.replicate 12 0, ⟨0, { msg 0 0 [] with tag := 0 }⟩⟩ }

/-- R70, R81: a frame that closes the judgment: a gap frame, one with an empty control slot, one with a message; and what
stands in each of them once message and verification step are over. -/
theorem witness_ReadbackFault_frames :
    ((runs none 0 15 0).TakesSilentFrame ∧ (silent (runs none 0 15 0)).TakesSilentFrame)
    ∧ (∀ s ∈ [runs none 0 15 0, silent (runs none 0 15 0), (runs none 0 15 0).withRecv holding.recv],
        let u := s.openFrame.settleSeq.ready.handleSlot.verifyStep
        (s.frame.stage = .closed ∧ s.recv.state = .locked ∧ (s.recv.held ≠ none ∨ s.recv.gapRun < s.recv.gapLimit))
        ∧ u.sup.latency ≠ 0 ∧ 1 ≤ u.sup.confirm ∧ u.sup.fault = none ∧ u.sup.linkRun = 15) := by
  refine ⟨⟨.inr (by decide), .inl ⟨_, rfl, by decide⟩⟩, by decide +kernel⟩

/-- R70: the drive frame of a received frame counts an unanswered one as missing. -/
theorem test_missing_in_received_frame :
    let t := after .arrivalWindowClose (silent (runs none 0 15 2))
    t.out.missing = 1 ∧ t.sup.linkRun = 16 ∧ t.sup.recRun = 0 ∧ t.sup.fault = some .link := by decide +kernel

/-- A test in which channel 3 was commanded 6600 in the drive frame that readback 2 is paired with (chapter 12). -/
def comparing (bucket : Nat) : State :=
  let s := inTest .running 451 (supervised .openNone)
  (s.withOut { s.out with history := [(0, (Vector.replicate 14 0).set 3 6600)] }).withSup
    { s.sup with
      enable := true
      chan := tab fun p =>
        ⟨if p.val < 12 then .mapped else .spare, 500, if p.val < 10 then 6 else 0, 40, if p = 3 then bucket else 0, 30⟩ }

theorem witness_ReadbackEvidence :
    let s := comparing 3
    let x := s.sup.chan[3]
    (s.frame.stage = .closed ∧ s.out.lastSeq = some 2 ∧ s.out.judgment ≠ .settled ∧ s.sup.latency ≠ 0 ∧ 1 ≤ s.sup.confirm
      ∧ s.sup.fault = none ∧ s.seq.phase = .running ∧ (∀ q : Fin 14, s.leakDue q = false))
    ∧ (s.out.history.find? fun e => e.1 == (2 + 65536 - s.sup.latency) % 65536).isSome = true
    ∧ (State.reset.out.history.find? fun e => e.1 == 0) = none
    ∧ (s.sup.chan[11].threshold = 0 ∧ s.sup.chan[12].state = .spare)
    ∧ (x.state = .mapped ∧ x.threshold ≠ 0 ∧ x.threshold ≤ x.bucket + 3)
    ∧ ¬ ((comparing 2).sup.chan[3].threshold ≤ (comparing 2).sup.chan[3].bucket + 3)
    ∧ (s.out.carriedBy 3 = some 3 ∧ s.sup.enable = true ∧ s.sup.serving = none ∧ (3 : Fin 12) ∉ s.sup.requests) := by
  decide +kernel

/-- Channels 3 to 5 are three short of their threshold. -/
def threeFail (p : Phase) (enable : Bool) (engine : FailoverEngine) (requests : List (Fin 12)) : State :=
  let s := comparing 3
  (inPhase p s).withSup { s.sup with
    enable := enable, engine := engine, requests := requests
    chan := tab fun q => { s.sup.chan[q] with bucket := if 3 ≤ q.val ∧ q.val ≤ 5 then 3 else 0 } }

/-- R80, R84: channels 3 to 5 fail together: each joins once, but for the one that is being served. -/
theorem test_requestsJoin :
    let after' (s : State) : List (Fin 12) := (s.takeReadback
      ⟨tab fun _ => 0, tab fun _ => some 6600, tab fun _ => true, tab fun _ => false, 16384⟩).sup.requests
    after' (threeFail .running true (.awaitZero ⟨5, 5, 12, 9, 4, 0⟩) [7, 3]) = [7, 3, 4]
      ∧ after' (threeFail .running true .quiet []) = [3, 4, 5] ∧ after' (threeFail .running false .quiet [7]) = [7]
      ∧ after' (threeFail .ending true .quiet [7]) = [7] := by decide +kernel

theorem witness_ReadbackEvidence_requests :
    (let s := threeFail .running true (.awaitZero ⟨5, 5, 12, 9, 4, 0⟩) [7, 3]
     s.sup.serving = some 5 ∧ s.out.carriedBy 4 = some 4 ∧ s.sup.chan[4].threshold ≤ s.sup.chan[4].bucket + 3
       ∧ (4 : Fin 12) ∉ s.sup.requests ∧ (3 : Fin 12) ∈ s.sup.requests ∧ s.out.carriedBy 13 = none)
    ∧ (threeFail .ending true .quiet []).seq.phase = .ending
    ∧ (threeFail .running false .quiet []).sup.enable = false := by decide +kernel

/-- `comparing` with a readback fault and runs. -/
def faulted (f : Option FaultCause) (ref rec' : Nat) : State :=
  let s := comparing 3
  s.withSup { s.sup with fault := f, refRun := ref, recRun := rec' }

/-- R76, R82: readbacks after whose counting the fault is clear, each at a bound of its run: none set, in band; none set, out of
band; cleared. And set: it stays; it is set now; it is set and the word is out of band. Or there is no test, or the supervisor
is dormant. -/
theorem witness_ReadbackEvidence_clear :
    let clear (f : Vector Byte 40) (s : State) : Bool :=
      let inBand := 16384 ≤ readbackReference f + s.sup.refTol ∧ readbackReference f ≤ 16384 + s.sup.refTol
      let refRun := if inBand then 0 else min 15 (s.sup.refRun + 1)
      let recRun := if inBand ∧ s.sup.fault ≠ none then min 15 (s.sup.recRun + 1) else 0
      decide ((s.sup.fault = none ∧ refRun < s.sup.confirm) ∨ (s.sup.fault ≠ none ∧ s.sup.confirm ≤ recRun))
    (clear readbackEdge (faulted none 2 0) = true ∧ clear readbackOut (faulted none 1 0) = true
      ∧ clear readbackEdge (faulted (some .link) 0 2) = true)
    ∧ (clear readbackEdge (faulted (some .link) 0 1) = false ∧ clear readbackOut (faulted none 2 0) = false
      ∧ clear readbackOut (faulted (some .link) 0 2) = false)
    ∧ ((faulted none 2 0).frame.stage = .closed ∧ (faulted none 2 0).out.lastSeq = some 2 ∧ 1 ≤ (faulted none 2 0).sup.confirm
      ∧ (∀ q : Fin 14, (faulted none 2 0).leakDue q = false) ∧ (faulted none 2 0).rep.made = [])
    ∧ ((inPhase .armed (comparing 3)).seq.phase = .armed ∧ (supervised .openNone).seq.phase = .idle
      ∧ (locked.sup.latency = 0)) := by
  unfold readbackReference; decide +kernel

/-- R76, R82: the readback that clears the fault is compared in the same event; one that leaves it set is not, nor one that sets
it. -/
theorem test_compared_as_cleared :
    let bucket (f : Vector Byte 40) (s : State) : Nat := (after (.readbackFrameReceived f) s).sup.chan[3].bucket
    bucket readbackEdge (faulted (some .link) 0 2) = 6 ∧ bucket readbackEdge (faulted (some .link) 0 1) = 3
      ∧ bucket readbackOut (faulted none 2 0) = 3 ∧ bucket readbackOut (faulted none 1 0) = 6 := by decide +kernel

theorem witness_MapInjective : (comparing 3).MapInjective := by unfold State.MapInjective; decide +kernel

/-- The boundary with a failover in flight. -/
def inFlight (e : FailoverEngine) (y : Int) : State :=
  (failing.setEngine e).withEng (tab fun _ => { Channel.reset with y := y })

theorem witness_Failover :
    (failing.frame.stage = .settled ∧ failing.seq.phase = .running ∧ failing.sup.engine = .quiet ∧ failing.sup.requests = [3]
      ∧ failing.frame.served = false ∧ failing.out.map[3] = some 3
      ∧ (failing.sup.chan[12].state = .spare ∧ failing.out.written[12] = true)
      ∧ ∀ q : Fin 14, q < 12 → ¬ (failing.sup.chan[q].state = .spare ∧ failing.out.written[q] = true))
    ∧ (∀ policy : Bool, let s := (failing.withOut OutputStage.reset).withSup { failing.sup with abortPolicy := policy }
        s.frame.stage = .settled ∧ s.sup.abortPolicy = policy
          ∧ ∀ q : Fin 14, ¬ (s.sup.chan[q].state = .spare ∧ s.out.written[q] = true))
    ∧ (atStage .settled State.reset).seq.phase ≠ .running
    ∧ ((inFlight (.awaitZero ⟨3, 3, 12, 1, 0, 0⟩) 0).eng[3].y = 0
        ∧ (inFlight (.awaitZero ⟨3, 3, 12, 160, 0, 5⟩) 5).recv.cycle * 2 ≤ 160
        ∧ (inFlight (.awaitZero ⟨3, 3, 12, 159, 0, 5⟩) 5).eng[3].y = 5)
    ∧ (inFlight (.switching ⟨3, 3, 12, 4, 3, 0⟩) 0).sup.operate ≤ 3
    ∧ ¬ (inFlight (.switching ⟨3, 3, 12, 4, 2, 0⟩) 0).sup.operate ≤ 2 := by decide +kernel

/-- Input 4 of 6.7 while sub-ticks are scanned. -/
def input4 (x : InputScan) : State := scanningAt 1614 0 (withInput 4 x State.reset)

theorem witness_InputLineChange :
    ((input4 restInput).frame.stage = .closed ∧ (input4 restInput).clock.slotDone = false
      ∧ (input4 restInput).scan.inputs[4].acted = false ∧ (input4 restInput).scan.inputs[4].reload = .no
      ∧ (input4 restInput).scan.inputs[4].cand = none)
    ∧ (input4 { restInput with acted := true }).scan.inputs[4].acted = true
    ∧ ((input4 restInput).recv.state ≠ .locked
        ∧ (let s := scanningAt 1614 0 (withInput 4 restInput locked)
           s.recv.state = .locked ∧ s.clock.subtick = 15 ∧ (s.withClock { s.clock with subtick := 0 }).clock.subtick = 0))
    ∧ (input4 { restInput with cand := some ⟨true, 1606⟩ }).scan.inputs[4].cand = some ⟨true, 1606⟩
    ∧ ((input4 { restInput with reload := .afterZero }).scan.inputs[4].reload = .afterZero
        ∧ (input4 restInput).clock.subtick ≠ 0)
    ∧ (∀ settled : Bool, (input4 { restInput with settled := settled }).scan.inputs[4].settled = settled) := by decide +kernel

/-- Input 4 with a candidate that has persisted for exactly its debounce of 8. -/
def due4 (x : InputScan) (p : Phase) : State :=
  (inTest p 100 (input4 { x with cfg := record [1, 8, 3, 0, 20], cand := some ⟨true, 1606⟩ })).withPlan
    { Plan.reset with globals := record [6, 1, 4, 0, 0, 156, 64, 8, 24], breaker := record [1, 4, 1, 99, 5, 159, 5, 0] }

theorem witness_AcceptedEdge :
    let s := due4 restInput .running
    (s.frame.stage = .closed ∧ s.clock.slotDone = false ∧ s.scan.inputs[4].cand = some ⟨true, 1606⟩
      ∧ Input.debounce s.scan.inputs[4].cfg + 1606 = s.scan.pos)
    ∧ (Input.limit (input4 restInput).scan.inputs[4].cfg = 0 ∧ Input.limit s.scan.inputs[4].cfg = 3)
    ∧ (due4 { restInput with chatter := true, window := some 0 } .running).scan.inputs[4].chatter = true
    ∧ (due4 { restInput with window := some 0, edges := 2 } .running).scan.inputs[4].edges + 1 ≤ 3
    ∧ 3 < (due4 { restInput with window := some 0, edges := 3 } .running).scan.inputs[4].edges + 1
    ∧ (let a := due4 restInput .armed
       a.seq.phase = .armed ∧ Globals.startInputMode a.plan.globals = true ∧ Globals.startInput a.plan.globals = 4
        ∧ a.seq.request = .none ∧ a.testEndQueued = false)
    ∧ ((queued 64 s).rep.made = [] ∧ (queued 64 s).rep.queue.length ≤ 64) ∧ s.brk.state ≠ .closing ∧ (due4 restInput .idle).seq.phase = .idle
    ∧ ((atStage .ready s).frame.stage = .ready ∧ (atStage .ready s).clock.slotDone = false)
    ∧ ((input4 restInput).edgeDue 4 = false ∧ (input4 restInput).frame.stage = .closed
      ∧ (input4 restInput).clock.slotDone = false)
    ∧ (∀ p ∈ [Phase.idle, .running, .ending], let s := due4 { restInput with chatter := true, window := some 0 } p
        s.rep.made = [] ∧ s.seq.phase = p)
    ∧ ((over4 0 (some ⟨true, 1600⟩)).recv.state = .locked ∧ (over4 0 (some ⟨true, 1600⟩)).clock.slotDone = true) := by
  decide +kernel

/-- R99, R101: in a test an edge of an input in CHATTER makes no record, and the edge that enters CHATTER no INPUT_EDGE. -/
theorem test_suppressedEdges :
    (after (.acceptedEdge 4) (due4 { restInput with chatter := true, window := some 90 } .running)).rep.queue = []
      ∧ (after (.acceptedEdge 4) (due4 { restInput with window := some 90, edges := 3 } .running)).rep.queue.map
          (fun r => recordType r.body) = [6] := by decide +kernel

/-- A boundary at which the window of input 4 ends exactly, and one frame before. -/
def window4 (chatter : Bool) (p : Phase) (n : Nat) (base : State) : State :=
  (withInput 4 { restInput with cfg := record [1, 8, 3, 0, 20], chatter := chatter, window := some 110, suppressed := 2 }
    (inTest p 130 base)).withClock { Clock.reset with scanFrame := n }

theorem witness_ChatterWindows :
    (∀ p ∈ [Phase.running, .idle], ∀ c : Bool, let s := window4 c p 130 (atStage .settled locked)
      s.recv.state = .locked ∧ s.frame.stage = .settled ∧ s.scan.inputs[4].window = some 110 ∧ s.scan.inputs[4].chatter = c
        ∧ 110 + Input.window s.scan.inputs[4].cfg = s.clock.scanFrame ∧ s.seq.phase = p)
    ∧ (window4 true .running 129 (atStage .settled locked)).clock.scanFrame
        < 110 + Input.window (window4 true .running 129 (atStage .settled locked)).scan.inputs[4].cfg
    ∧ (atStage .settled locked).scan.inputs[4].window = none
    ∧ (∀ c : Bool, let s := window4 c .idle 129 State.reset
        s.recv.state ≠ .locked ∧ s.clock.slotDone = true ∧ (∀ p : Fin 14, s.leakDue p = false) ∧ s.rep.made = []
          ∧ s.seq.phase = .idle ∧ s.scan.inputs[4].chatter = c
          ∧ 110 + Input.window s.scan.inputs[4].cfg = s.clock.scanFrame + 1 ∧ s.rep.queue.length < 104)
    ∧ (let s := window4 true .idle 128 State.reset
       s.recv.state ≠ .locked ∧ s.clock.slotDone = true ∧ s.scan.inputs[4].window = some 110
        ∧ s.clock.scanFrame + 1 < 110 + Input.window s.scan.inputs[4].cfg) := by decide +kernel

/-- R100, R102: windows that the boundary of a frame, or the end of a period outside LOCKED, brings to their end. -/
theorem witness_windows_over :
    (∀ p ∈ [Phase.running, .idle], ∀ c : Bool, let s := window4 c p 130 (atStage .settled locked)
      s.frame.stage = .settled ∧ s.seq.phase = p ∧ s.scan.inputs[4].chatter = c
        ∧ s.scan.inputs[4].windowOver s.clock.scanFrame = true)
    ∧ (window4 true .running 129 (atStage .settled locked)).scan.inputs[4].windowOver 129 = false
    ∧ (∀ p ∈ [Phase.running, .idle], ∀ c : Bool, let s := window4 c p 129 State.reset
        s.recv.state ≠ .locked ∧ s.seq.phase = p ∧ s.finishSlot.scan.inputs[4].chatter = c
          ∧ s.finishSlot.scan.inputs[4].windowOver (s.clock.scanFrame + 1) = true) := by decide +kernel

theorem witness_BreakerEdges :
    ∀ b ∈ [BreakerState.closed, .opening, .opened, .closing],
      let s := (due4 restInput .running).withBrk ⟨b, some 5, some ⟨3, 4, 2, false⟩, 65535⟩
      s.frame.stage = .closed ∧ s.clock.slotDone = false ∧ s.scan.inputs[4].cand = some ⟨true, 1606⟩
        ∧ Input.debounce s.scan.inputs[4].cfg + 1606 ≤ s.scan.pos ∧ s.plan.breaker[0] = 1 ∧ s.plan.breaker[1].toNat = 4
        ∧ s.plan.breaker[2].toNat ≠ 4 ∧ s.seq.phase = .running ∧ s.brk.state = b ∧ s.brk.operation = some ⟨3, 4, 2, false⟩
        ∧ (queued 64 s).rep.made = [] ∧ (queued 64 s).rep.queue.length ≤ 64
        ∧ (atStage .ready s).frame.stage = .ready ∧ (atStage .ready s).clock.slotDone = false := by decide +kernel

/-- `input4` with 14 sub-ticks of the slot scanned, and with `s` in CHECK since the reference arrival 0 at slot start `n`. -/
def subtick14 (x : InputScan) : State := (input4 x).withClock ⟨0, 250000, 14, false, 1⟩
def checkAt (n : Nat) : State :=
  (State.reset.withRecv { Receiver.reset with state := .check }).withClock ⟨n, 250000, 0, false, 1⟩

theorem witness_OwnClock :
    (let s := State.reset.setChan 3 ⟨.mapped, 500, 6, 40, 3, 0⟩
     s.pending = [] ∧ s.frame.stage = .closed ∧ s.leakDue 3 = true ∧ ∀ q : Fin 14, q < 3 → s.leakDue q = false)
    ∧ (let one := due4 restInput .running
       let two := one.withBrk ⟨.closing, some 1, some ⟨0, 1, 0, false⟩, 0⟩
       ∀ s ∈ [one, two], s.pending = [] ∧ s.frame.stage = .closed ∧ (∀ p : Fin 14, s.leakDue p = false)
        ∧ (∀ k : Fin 4, s.pulseEnds k = false) ∧ (∀ i : Fin 8, s.edgeDue i = decide (i = 4))
        ∧ s.operationDue = decide (s.brk.state = .closing))
    ∧ ((checkAt 281251).checkIsLate = true ∧ (checkAt 281250).checkIsLate = false)
    ∧ (∀ x ∈ [restInput, { restInput with reload := .now }, { restInput with reload := .afterZero },
          { restInput with cfg := record [0, 8], cand := some ⟨true, 1614⟩ }], ∀ high : Bool,
        let s := subtick14 { x with raw := high }
        s.pending = [] ∧ s.frame.stage = .closed ∧ s.dueStep.isNone = true ∧ s.checkIsLate = false
          ∧ s.clock.slotDone = false ∧ s.clock.subtick < 15) := by decide +kernel

/-- A line and the breaker with deadlines exactly at the sub-tick scanned. -/
def deadlines (high : Bool) : State :=
  ((inTest .running 6 (scanningAt 100 0 State.reset)).withLines (tab fun _ => ⟨.pulse, high, some 100⟩)).withBrk
    ⟨.closing, some 100, some ⟨20, 1, 18, false⟩, 65535⟩

/-- The slot of frame 6 of the test is over in LOCKED; both deadlines fall at sub-tick 0 of the frame taken next. -/
def deadlinesOver : State :=
  ((inTest .running 6 (withGlobals globals12 (locked.withScan { locked.scan with pos := 99 }))).withLines
    (tab fun _ => ⟨.pulse, true, some 100⟩)).withBrk ⟨.closing, some 100, some ⟨20, 1, 18, false⟩, 65535⟩

theorem witness_BreakerAndPulseDeadlines :
    (∀ h : Bool, let s := deadlines h
      s.frame.stage = .closed ∧ s.clock.slotDone = false ∧ s.seq.phase = .running ∧ s.brk.deadline = some 100
        ∧ s.brk.operation ≠ none ∧ (100 : Int) ≤ (s.scan.pos : Int) - s.scan.origin ∧ s.rep.made = []
        ∧ s.rep.queue.length < 104 ∧ s.lines[3].mode = .pulse ∧ s.lines[3].deadline = some 100
        ∧ (atStage .ready s).frame.stage = .ready ∧ (atStage .ready s).clock.slotDone = false)
    ∧ (State.reset.frame.stage = .closed ∧ State.reset.recv.state ≠ .locked ∧ State.reset.operationDue = false
      ∧ State.reset.pulseEnds 3 = false)
    ∧ ((deadlines true).pending = [] ∧ (deadlines true).pulseEnds 0 = true)
    ∧ (let s := deadlinesOver
       s.frame.stage = .closed ∧ s.clock.slotDone = true ∧ s.recv.state = .locked ∧ s.beforeMessage.frame.stage = .ready
         ∧ s.beforeMessage.operationDue = true ∧ s.beforeMessage.pulseEnds 3 = true) := by decide +kernel

theorem witness_TimerDueAndExpired :
    (∀ n ∈ [802, 803], (timing n).frame.stage = .settled ∧ (timing n).timers.gate = true
      ∧ (timing n).timers.slots[7].state = .running ∧ (timing n).timers.slots[7].expiry = some 12848
      ∧ (timing n).timers.slots[7].held = false)
    ∧ (12848 ≤ 16 * (timing 803).seq.testFrame ∧ 16 * (timing 802).seq.testFrame < 12848)
    ∧ ((timing 803).setSlot 7 { (timing 803).timers.slots[7] with held := true }).timers.slots[7].held = true
    ∧ (atStage .settled State.reset).timers.gate = false
    ∧ ((timing 803).ready.timers.slots[7].held = true ∧ (timing 802).ready.timers.slots[7].held = false) := by decide +kernel

/-- The array with a slot in a state; it starts on INPUT_ACTIVE(0) and stops on TEST_START. -/
def slot7 (st : SlotState) : State :=
  (State.reset.withTimers ⟨true, tab fun _ => { Slot.reset with state := st, start := some 48, expiry := some 951 }⟩).withPlan
    { Plan.reset with timers := tab fun _ => record [1, 2, 0, 9, 0, 3, 32, 3] }

theorem witness_EventsAtTimers :
    State.reset.timers.gate = false
    ∧ (∀ st ∈ [SlotState.disabled, .waiting, .running, .stopped, .expired],
        (slot7 st).timers.gate = true ∧ (slot7 st).timers.slots[7].state = st)
    ∧ (Timer.start (slot7 .waiting).plan.timers[7] = ⟨.inputActive, 0⟩ ∧ Timer.stop (slot7 .waiting).plan.timers[7] = ⟨.testStart, 0⟩)
    ∧ (Timer.start (slot7 .waiting).plan.timers[7] ≠ ⟨.testStart, 0⟩ ∧ Timer.stop (slot7 .waiting).plan.timers[7] ≠ ⟨.inputActive, 0⟩)
    ∧ ((slot7 .running).timers.slots[7].start = some 48 ∧ (slot7 .running).timers.slots[7].expiry = some 951)
    ∧ (47 < 48 ∧ 48 ≤ 950 ∧ 950 < 951 ∧ 951 ≤ 951) := by decide +kernel

/-- A frame that is due in phase `p`, with a slot that runs: the readback fault is set or not, a failover in flight or not. -/
def dueFrame (p : Phase) (base : State) (f : Option FaultCause) (e : FailoverEngine) : State :=
  ((inTest p 9 base).withSup { Supervisor.reset with operate := 3, fault := f, engine := e }).withTimers
    ⟨true, tab fun _ => { Slot.reset with state := .running, start := some 48, expiry := some 951 }⟩

theorem witness_Disturbed :
    (∀ p ∈ [Phase.running, .ending, .idle], ∀ s ∈ [dueFrame p holding none .quiet, dueFrame p holding (some .link) .quiet,
        dueFrame p locked none .quiet], s.frame.stage = .closed ∧ s.recv.state = .locked
        ∧ s.recv.gapRun < s.recv.gapLimit ∧ s.seq.phase = p ∧ s.finishSlot.timers.slots[7].state = .running)
    ∧ (let s := dueFrame .running holding none (.switching ⟨3, 3, 12, 4, 2, 0⟩)
       s.openFrame.settleSeq.ready.sup.engine = .switching ⟨3, 3, 12, 4, 2, 0⟩)
    ∧ (holding.recv.held ≠ none ∧ (dueFrame .running holding (some .link) .quiet).finishSlot.sup.fault ≠ none)
    ∧ ((runs none 2 0 0).sup.fault = none ∧ (after (.readbackFrameReceived readbackOut) (runs none 2 0 0)).sup.fault ≠ none
        ∧ (after (.readbackFrameReceived readbackMid) (runs none 2 0 0)).sup.fault = none) := by decide +kernel

/-- The frame's own drive frame closes the judgment of the one before and brings the link run to its mark, or one short of it. -/
theorem witness_Disturbed_drive :
    (∀ n ∈ [14, 15], let s := dueFrame .running holding none .quiet
      let u := (s.withSup { s.sup with latency := 2, confirm := 3, linkRun := n }).withOut { s.out with judgment := .openNone }
      let w := u.openFrame.settleSeq.ready.handleSlot.verifyStep
      u.frame.stage = .closed ∧ u.recv.state = .locked ∧ w.sup.fault = none ∧ w.seq.phase = .running
        ∧ ((after .arrivalWindowClose u).sup.fault ≠ none ↔ n = 15)
        ∧ (after .arrivalWindowClose u).timers.slots[7].disturbed = decide (n = 15))
    ∧ (let s := dueFrame .running holding none (.switching ⟨3, 3, 12, 4, 0, 0⟩)
       (s.withSup { s.sup with operate := 0 }).openFrame.frame.disturbed = true) := by decide +kernel

theorem witness_Disturbed_map : (dueFrame .running holding none (.switching ⟨3, 3, 12, 4, 2, 0⟩)).MapInv := by
  refine ⟨?_, ?_, ⟨rfl, rfl⟩, fun h => absurd h (by decide +kernel)⟩
  · unfold State.MapInjective; decide +kernel
  · unfold State.NoSpareTarget; decide +kernel

/-- R124: a slot that the entry to ENDING left RUNNING is DISTURBED by a gap frame of ENDING. -/
theorem test_disturbed_in_ending :
    (dueFrame .ending locked none .quiet).openFrame.timers.slots[7].disturbed = true := by decide +kernel

/-- A plan under verification. -/
def verifying (pos : Position) (f : Option (Nat × PlanCause)) (base : State) : State :=
  inPhase .verifying (base.withPlan { Plan.reset with globals := globals12, verification := some ⟨7, pos, 0xFFFF, f⟩ })

theorem witness_VerificationSteps :
    ((∀ s : State, (verifying (.state 4) none (silent s)).TakesSilentFrame)
      ∧ (verifying (.state 4) none locked).TakesSilentFrame)
    ∧ (∀ f ∈ [none, some (3, PlanCause.nextState)], ∀ i ∈ [4, 5], ∀ base ∈ [locked, silent locked],
      let s := verifying (.state i) f base
      s.frame.stage = .closed ∧ s.recv.state = .locked
        ∧ s.seq.phase = .verifying ∧ s.seq.next = none ∧ s.plan.verification = some ⟨7, .state i, 0xFFFF, f⟩
        ∧ s.plan.globals[0].toNat = 6)
    ∧ (let s := verifying (.state 4) none holding
       let u := s.openFrame.settleSeq.ready.handleSlot
       s.recv.held ≠ none ∧ u.reply ≠ none ∧ u.seq.phase = .verifying ∧ u.plan.verification = some ⟨7, .state 4, 0xFFFF, none⟩)
    ∧ (∀ f ∈ [none, some (3, PlanCause.nextState)], let s := verifying .remaining f (atStage .handled locked)
        s.frame.stage = .handled ∧ s.seq.phase = .verifying ∧ s.plan.verification = some ⟨7, .remaining, 0xFFFF, f⟩)
    ∧ (atStage .handled State.reset).outcomeDue = false := by
  refine ⟨⟨fun _ => .inl ⟨_, rfl, by decide⟩, .inr (by decide)⟩, by decide +kernel⟩

/-- R13: a received frame with an empty control slot checks a state. -/
theorem test_verifying_received_frame :
    ((after .arrivalWindowClose (verifying (.state 4) none (silent locked))).plan.verification.map fun v => v.position)
      = some (.state 5) := by decide +kernel

/-- `s` with a request pending. -/
def requesting (r : Request) (s : State) : State := s.withSeq { s.seq with request := r }

theorem witness_BoundaryDecision :
    ((requesting (.stop .aborted) (inPhase .running State.reset)).seq.request = .stop .aborted
      ∧ (requesting (.stop .aborted) (inPhase .running State.reset)).seq.phase = .running)
    ∧ ((withGlobals globals12 (inTest .running 39999 State.reset)).seq.testFrame + 1 = Globals.duration globals12)
    ∧ ((withGlobals globals12 (inTest .running 39998 State.reset)).seq.testFrame + 1 ≠ Globals.duration globals12)
    ∧ (∀ j : Fin 4, (inTest .running 9 State.reset).seq.latches[j] = false)
    ∧ ((requesting .cancel (inPhase .armed State.reset)).seq.request = .cancel
        ∧ (inPhase .armed State.reset).seq.phase = .armed ∧ (inPhase .armed State.reset).seq.request = .none)
    ∧ (inPhase .ending State.reset).seq.phase = .ending
    ∧ ((inPhase .verifying State.reset).seq.next = none
        ∧ (State.reset.withSeq { Sequencer.reset with next := some .verifying }).seq.next = some .verifying)
    ∧ (locked.frame.stage = .closed ∧ locked.recv.state = .locked ∧ locked.recv.gapRun < locked.recv.gapLimit)
    ∧ (∀ p ∈ [Phase.running, .ending, .idle, .armed], ∀ d ∈ [Decision.stay, .change .verifying, .change .armed, .change .idle],
        let s := deciding d (atStage .taken (inTest p 9 State.reset))
        s.frame.stage = .taken ∧ s.frame.decision = d ∧ s.seq.phase = p) := by decide +kernel

/-- `s` with state records whose FINAL flag is set or not, exit 0 to state 2, and fade length `f`. -/
def finals (final f : Byte) (s : State) : State :=
  s.withPlan { s.plan with
    globals := record [6, 0, 0, 0, 0, 156, 64, f, 24]
    part0 := tab fun _ => record [0, 0, 0, 0, 1, 0, 2, 0, 0, 0, 0, 0, 0, 0, 0, 0, final] }

theorem witness_TestStart :
    ∀ final ∈ [(0 : Byte), 1], ∀ f ∈ [(0 : Byte), 8],
      (finals final f starting).frame.stage = .taken
        ∧ (finals final f starting).frame.decision = .start ⟨.message, 0, 0⟩
        ∧ (finals final f starting).plan.part0[0][16] = final
        ∧ Globals.fade (finals final f starting).plan.globals = f.toNat := by decide +kernel

theorem witness_StateExit :
    ∀ final ∈ [(0 : Byte), 1], ∀ f ∈ [(0 : Byte), 8],
      (finals final f exiting).frame.stage = .taken ∧ (finals final f exiting).frame.decision = .exit 0
        ∧ (finals final f exiting).seq.phase = .running
        ∧ (finals final f exiting).plan.part0[2][16] = final
        ∧ Globals.fade (finals final f exiting).plan.globals = f.toNat := by decide +kernel

theorem witness_StateEntryLoadsChannels :
    ∀ mode ∈ [(0 : Byte), 1, 2, 3],
      (State.reset.withPlan { Plan.reset with channels := tab fun _ => tab fun _ => record [mode, 40, 0] }).plan.channels[31][11][0]
        = mode := by decide +kernel

/-- A RUNNING frame with the end of the test decided on. -/
def stopping (d : Decision) (f : Byte) : State := deciding d (atStage .taken (finals 0 f (inTest .running 9 State.reset)))

theorem witness_EndOfRunning :
    ∀ f ∈ [(0 : Byte), 8],
      (stopping (.stop .aborted) f).frame.stage = .taken ∧ (stopping (.stop .aborted) f).seq.phase = .running
        ∧ (stopping (.stop .aborted) f).frame.decision = .stop .aborted
        ∧ (stopping .duration f).frame.decision = .duration
        ∧ Globals.fade (stopping .duration f).plan.globals = f.toNat := by decide +kernel

/-- The slots that are finalised: WAITING, RUNNING with expiry at and after the measuring frame 10. -/
theorem witness_EndOfRunning_slots :
    ∀ e ∈ [160, 161], let s := (stopping (.stop .aborted) 8).withTimers ⟨true, tab fun k =>
        { Slot.reset with state := if k = 7 then .waiting else .running, start := some 48, expiry := some e }⟩
      s.frame.decision = .stop .aborted ∧ s.seq.phase = .running ∧ 16 * (s.seq.testFrame + 1) = 160
        ∧ s.timers.slots[7].state = .waiting ∧ s.timers.slots[0].state = .running ∧ s.timers.slots[0].expiry = some e := by
  decide +kernel

theorem witness_TestComplete :
    ∀ r ∈ [EndReason.finalState, .aborted],
      let s := deciding .complete (atStage .taken (State.reset.withSeq
        { Sequencer.reset with phase := .ending, testFrame := 9, endReason := some r }))
      s.frame.stage = .taken ∧ s.seq.phase = .ending ∧ s.frame.decision = .complete ∧ s.seq.endReason = some r := by
  decide +kernel

/-- A RUNNING frame in its third step: `n` frames in state 0, whose dwell is three frames. -/
def dwelling (n : Nat) : State :=
  (atStage .settled ((inTest .running 9 State.reset).withPlan
    { Plan.reset with part0 := tab fun _ => record [0, 0, 0, 3, 1] })).withSeq
      { Sequencer.reset with phase := .running, framesInState := n }

/-- State 0 with these two bytes as the condition of exit 3. -/
def exit3 (kind arg : Byte) : State :=
  (inPhase .running State.reset).withPlan
    { Plan.reset with part0 := tab fun _ => record [0, 0, 0, 3, 0, 0, 0, 0, 0, 0, 0, 0, 0, kind, arg] }

theorem witness_ExitLatches :
    (∀ kind ∈ [(0 : Byte), 1, 2, 3, 4, 5, 6, 7], ∀ arg ∈ [(0 : Byte), 7, 11], let s := atStage .settled (exit3 kind arg)
      s.frame.stage = .settled ∧ s.clock.slotDone = true ∧ s.seq.phase = .running
        ∧ s.plan.part0[s.seq.stateInForce][13] = kind ∧ s.plan.part0[s.seq.stateInForce][14] = arg)
    ∧ (atStage .settled State.reset).seq.phase ≠ .running := by decide +kernel

/-- The boundary into an entry frame of a state whose exit 3 is on `kind` of input 4, which is ACTIVE, with a candidate to
INACTIVE of debounce 2 that began at `start`; the next sub-tick lies at position 100. -/
def atEntry (kind : Byte) (start : Nat) : State :=
  atStage .settled (withInput 4 { restInput with settled := true, cfg := record [0, 2], cand := some ⟨false, start⟩ }
    ((exit3 kind 4).withScan { (exit3 kind 4).scan with pos := 99 }))

/-- R24, R96: an edge accepted at sub-tick 0 ends INPUT_ACTIVE there and makes INPUT_INACTIVE true; one sub-tick later it does
not yet. -/
theorem test_latches_of_inputs_at_zero :
    ((atEntry 2 98).ready.seq.latches[3] = false ∧ (atEntry 3 98).ready.seq.latches[3] = true)
    ∧ ((atEntry 2 99).ready.seq.latches[3] = true ∧ (atEntry 3 99).ready.seq.latches[3] = false)
    ∧ (after (.acceptedEdge 4) (atEntry 2 98)).seq.latches[3] = false
    ∧ (after (.acceptedEdge 4) (atEntry 2 98)).scan.inputs[4].settled = false := by decide +kernel

/-- The same boundary with input 4, INACTIVE, about to be accepted ACTIVE at sub-tick 0: the trip input and the close input. -/
def atEntryBreaker (kind : Byte) (brk : BreakerState) (start : Nat) : State :=
  ((withInput 4 { restInput with raw := true, cfg := record [0, 2], cand := some ⟨true, start⟩ } (atEntry kind start)).withBrk
    ⟨brk, none, none, 0⟩).withPlan { (exit3 kind 0).plan with breaker := record [1, 4, 4, 99, 5, 159, 5, 0] }

/-- R24, R108: a trip edge accepted at sub-tick 0 ends BREAKER_CLOSED there, a close edge BREAKER_OPEN; one sub-tick later they
do not yet. -/
theorem test_latches_of_breaker_at_zero :
    ((atEntryBreaker 5 .closed 98).ready.seq.latches[3] = false ∧ (atEntryBreaker 4 .opened 98).ready.seq.latches[3] = false)
    ∧ ((atEntryBreaker 5 .closed 99).ready.seq.latches[3] = true ∧ (atEntryBreaker 4 .opened 99).ready.seq.latches[3] = true)
    ∧ (after (.acceptedEdge 4) (atEntryBreaker 5 .closed 98)).brk.state = .opening := by decide +kernel

theorem witness_ExitLatches_dwell :
    ∀ n ∈ [2, 3], (dwelling n).frame.stage = .settled ∧ (dwelling n).seq.phase = .running
      ∧ (dwelling n).plan.part0[0][3].toNat = 3 ∧ (dwelling n).seq.framesInState = n := by decide +kernel

/-- The messages of WRITE_GLOBALS, WRITE_STATE, WRITE_CHANNEL, WRITE_CONFIGURATION and of every statement whose only hypothesis
is that the message is heard. -/
theorem witness_message_statements : ready.Hears (msg 0 0 []) ∧ ready.Hears ⟨7, 0, 0, globals12⟩ :=
  ⟨ready_hears 0 0 [], ⟨rfl, rfl, by show (7 : Byte) ≠ 0; decide⟩⟩

theorem witness_WriteLimit :
    (∀ i ∈ [(0 : Byte), 13], (msg 8 0 [i]).indexA = 0x08 ∧ (msg 8 0 [i]).indexB = 0 ∧ (msg 8 0 [i]).payload[0] = i
      ∧ (msg 8 0 [i]).payload[1] = 0 ∧ UnusedZero (msg 8 0 [i]) 2)
    ∧ (let s := after (.writeLimit (msg 13 0 [117, 48])) ready
       s.out.written[13] = true ∧ s.pending = []) := by decide +kernel

theorem witness_WriteSupervision :
    ∀ i ∈ [(0 : Byte), 13], (msg 9 0 [i]).indexA = 0x09 ∧ (msg 9 0 [i]).indexB = 0 ∧ (msg 9 0 [i]).payload[0] = i
      ∧ (msg 9 0 [i]).payload[1] = 0 ∧ UnusedZero (msg 9 0 [i]) 2 := by decide +kernel

theorem witness_CadenceAndResync :
    let s := (atStage .handled locked).withRecv { locked.recv with resync := true }
    s.frame.stage = .handled ∧ s.recv.resync = true ∧ s.seq.phase = .idle := by decide +kernel

theorem witness_ReadAndQuery :
    ((msg 0 0 []).indexA = 0 ∧ 0x0A < (msg 11 0 []).indexA.toNat ∧ (msg 1 1 []).indexB ≠ 0)
    ∧ (1 ≤ (msg 10 0 [0, 0, 1]).indexA.toNat ∧ (msg 10 0 [0, 0, 1]).indexA.toNat ≤ 0x0A ∧ ¬ UnusedZero (msg 10 0 [0, 0, 1]) 2)
    ∧ (∀ t ∈ [(1 : Byte), 2, 3, 4, 5, 6, 7, 8, 9, 10], (msg t 0 [31, 11]).indexA = t ∧ (msg t 0 [31, 11]).indexB = 0
        ∧ UnusedZero (msg t 0 [31, 11]) 2 ∧ (msg t 0 [31, 11]).payload[0].toNat = 31 ∧ (msg t 0 [31, 11]).payload[1].toNat = 11)
    ∧ (31 < (msg 2 0 [32, 12]).payload[0].toNat ∧ 11 < (msg 3 0 [32, 12]).payload[1].toNat ∧ 7 < (msg 4 0 [8]).payload[0].toNat
        ∧ 13 < (msg 8 0 [14]).payload[0].toNat ∧ (msg 10 0 [0, 1]).payload[1] ≠ 0)
    ∧ (3 < (msg 4 0 []).indexA.toNat ∧ 0 < (msg 0 1 []).indexB.toNat ∧ 1 < (msg 3 2 []).indexB.toNat)
    ∧ (UnusedZero (msg 3 1 []) 0 ∧ ¬ UnusedZero (msg 3 1 [1]) 0) := by decide +kernel

theorem witness_StatusPages :
    State.reset.seq.startRecord = none ∧ (after .testStart starting).seq.startRecord = some ⟨.message, 0, 0⟩
    ∧ (State.reset.sup.engine = .quiet ∧ (dueFrame .running locked none (.switching ⟨3, 3, 12, 4, 2, 0⟩)).sup.engine
        = .switching ⟨3, 3, 12, 4, 2, 0⟩)
    ∧ (State.reset.timers.slots[7].start = none ∧ (timing 803).timers.slots[7].start = some 48) := by decide +kernel

theorem witness_ArmStartAbortCancel :
    let s := deciding .cancel (atStage .taken (inPhase .armed State.reset))
    s.frame.stage = .taken ∧ s.frame.decision = .cancel := by decide

/-- All four buffers SENT, with an activity. -/
def sent (a : Activity) : State :=
  ready.withRep { Report.reset with buffers := tab fun _ => { Buffer.reset with state := .sent }, activity := a }

theorem witness_Release :
    (3 < (msg 4 0 []).indexA.toNat ∧ (msg 3 1 []).indexB ≠ 0)
    ∧ ((msg 3 0 [1]).indexA.toNat ≤ 3 ∧ ¬ UnusedZero (msg 3 0 [1]) 0) ∧ UnusedZero (msg 3 0 []) 0
    ∧ ready.rep.buffers[3].state ≠ .sent
    ∧ (∀ a ∈ [Activity.off, .waiting, .on], (sent a).rep.buffers[3].state = .sent ∧ (sent a).rep.activity = a)
    ∧ waitingLevel (sent .on).rep.buffers = true ∧ waitingLevel ready.rep.buffers = false := by decide +kernel

theorem witness_AttentionAndPause :
    ((msg 1 0 []).indexA.toNat = (0 : Fin 6).val + 1 ∧ (msg 6 0 []).indexA.toNat = (5 : Fin 6).val + 1 ∧ UnusedZero (msg 6 0 []) 0)
    ∧ (ready.rep.attention[0] = false ∧ (ready.raise .streamLost).rep.attention[0] = true)
    ∧ (msg 1 1 []).indexB ≠ 0 ∧ ((msg 0 0 []).indexA = 0 ∧ 6 < (msg 7 0 []).indexA.toNat ∧ ¬ UnusedZero (msg 1 0 [1]) 0) := by
  decide +kernel

theorem witness_ResetPart :
    (msg 1 0 []).indexA ≠ 0 ∧ ((msg 0 0 [1]).indexA = 0 ∧ ¬ UnusedZero (msg 0 0 [1]) 0)
    ∧ ((msg 0 0 []).indexB = 0 ∧ UnusedZero (msg 0 0 []) 0) := by decide +kernel

theorem witness_ScaleStages :
    (∀ v ∈ (Channel.reset.ring), -32767 ≤ v ∧ v ≤ 32767) ∧ Channel.reset.ring.length = 256
    ∧ (4080 % 16 = 0 ∧ 4079 % 16 ≠ 0) ∧ ({ Channel.reset with mode := .scale } : Channel).mode = .scale := by decide +kernel

theorem witness_OutputClampAndFade :
    (let s := failing.setEngine (.switching ⟨3, 3, 12, 4, 1, 0⟩)
     s.bound 3 = .unwritten ∧ (s.setMap 5 none).bound 5 = .unrouted ∧ s.silent 3 = true ∧ s.silent 4 = false)
    ∧ ((failing.withOut { OutputStage.reset with limitPrev := Vector.replicate 14 30000 }).bound 3 = .limit 30000)
    ∧ (-30001 < -(30000 : Int) ∧ (30000 : Int) < 30001)
    ∧ (inPhase .ending State.reset).seq.phase = .ending ∧ (inPhase .armed State.reset).seq.phase ≠ .running := by decide +kernel

theorem witness_DcAccumulator :
    nextAcc 32768 65535 = 32768 ∧ nextAcc 98304 65535 ≠ 98304 ∧ nextAcc (-16384) 40000 ≠ -16384 ∧ nextAcc 1 32768 = 1
    ∧ nextAcc 0 32767 = 0 ∧ nextAcc (-32768) 65535 ≠ -32768 := by decide

theorem witness_RampAdvance :
    (let s := State.reset.withEng (tab fun _ => { Channel.reset with mode := .scale, gacc := 0, step := -1 })
     s.eng[11].mode = .scale ∧ s.eng[11].rampEnd = false ∧ (s.eng[11].gacc : Int) + s.eng[11].step < 0)
    ∧ (0 : Int) + -1 < 0 ∧ (4294967295 : Int) < 4294967295 + 1 ∧ ¬ (4294967295 : Int) < 4294967294 + 1
    ∧ ({ Channel.reset with mode := .scale, rampEnd := true } : Channel).rampEnd = true := by decide +kernel

/-- R115: 7.6 with the breaker CLOSED and OPEN: line 0 is BREAKER_A, line 1 BREAKER_B; in no test every line is LOW. -/
theorem test_lineLevels :
    let s (p : Phase) (b : BreakerState) : State := ((inPhase p State.reset).withBrk { Breaker.reset with state := b }).withLines
      (tab fun k => { Line.reset with mode := if k = 0 then .breakerA else if k = 1 then .breakerB else .high })
    (s .running .closed).lineLevels.toList = [true, false, true, true]
      ∧ (s .ending .opened).lineLevels.toList = [false, true, true, true]
      ∧ (s .running .opening).lineLevels.toList = [false, false, true, true]
      ∧ (s .idle .closed).lineLevels.toList = [false, false, false, false] := by decide +kernel

theorem witness_QueueAndReturnSlot :
    let r : Report := { Report.reset with sendList := [2], buffers := tab fun _ =>
      { Buffer.reset with state := .full, rows := [⟨false, Vector.replicate 12 0, Vector.replicate 8 false, Vector.replicate 4 false⟩] } }
    (∀ n ∈ [103, 104, 127, 128], (List.replicate n (0 : Nat)).length = n)
    ∧ Body.reserved (.testEnd .aborted 0 1 1) = true ∧ Body.reserved (.planVerified 0 1) = false
    ∧ (r.pause = false ∧ r.sendList = [2] ∧ r.gateOpen = true ∧ r.queue = []
        ∧ (r.buffers[2].rows[r.buffers[2].sentRows]?).isSome = true)
    ∧ (waitingLevel r.buffers = false ∧ waitingLevel (r.arbiter none).1.buffers = true
        ∧ (r.arbiter none).1.attention[5] = true)
    ∧ (Report.reset.sendList = [] ∧ Report.reset.queue = []) := by decide +kernel

/-- A settled boundary with no record made apart, and one with two records of the Sequencer and three made apart: a result of
slot 7, a FAILOVER, a CHATTER_END. -/
theorem witness_QueueAndReturnSlot_boundary :
    let made : List Made := [⟨1, 2080, .stateSummary 0 1 9 (Vector.replicate 12 0), false⟩,
      ⟨1, 2080, .stateEntered 2 0 1 false false 2, false⟩]
    let base : State := (atStage .settled (inTest .running 130 locked)).plusMade made
    let s : State := ((window4 true .running 130 base).withSup failing.sup).withTimers
      ⟨true, tab fun k => { Slot.reset with state := if k = 7 then .running else .stopped, start := some 48, expiry := some 951 }⟩
    (base.frame.stage = .settled ∧ s.frame.stage = .settled)
    ∧ base.boundaryApart.rep.made = made
    ∧ (s.boundaryApart.rep.made.map fun m => (recordType m.body, m.apart))
        = [(3, false), (2, false), (11, true), (9, true), (7, true)] := by decide +kernel

/-- Buffer 1 in state `st` with two rows, the others in state `other`; the capture triggers on TEST_START with `pre` rows kept. -/
def capturing (st other : BufState) (pre : Byte) : State :=
  let r : Row := ⟨false, Vector.replicate 12 0, Vector.replicate 8 false, Vector.replicate 4 false⟩
  (State.reset.withPlan { Plan.reset with capture := record [1, 9, 0, 3, pre] }).withRep { Report.reset with
    activity := .on
    buffers := tab fun i => if i = 1 then { Buffer.reset with state := st, rows := [r, r], trigRow := 2 } else
      { Buffer.reset with state := other } }

theorem witness_CaptureRows :
    (State.reset.plan.capture[0] ≠ 1 ∧ (capturing .recording .sent 254).plan.capture[0] = 1)
    ∧ (∀ st ∈ [BufState.recording, .triggered], ∀ other ∈ [BufState.free, .sent],
        (capturing st other 254).rep.buffers[1].state = st ∧ (capturing st other 254).rep.buffers[0].state = other
          ∧ (capturing st other 254).rep.activity = .on)
    ∧ ((⟨Kind.ofCode (capturing .recording .sent 254).plan.capture[1].toNat |>.getD .none, 0⟩ : Cond) = ⟨.testStart, 0⟩)
    ∧ (2 + 1 ≠ 2 + 1024 - (256 * 3 + 254) ∧ 2 + 1 = 2 + 1024 - (256 * 3 + 255))
    ∧ (capturing .triggered .sent 255).rep.buffers[1].rows ≠ []
    ∧ (waitingLevel (capturing .free .sent 254).rep.buffers = false
        ∧ waitingLevel (capturing .free .sent 254).captureStart.rep.buffers = true
        ∧ (capturing .free .sent 254).captureStart.rep.attention[5] = true)
    ∧ (waitingLevel (capturing .recording .sent 254).rep.buffers = true
        ∧ waitingLevel ((capturing .recording .sent 254).captureClose 0).rep.buffers = false)
    ∧ (let s := State.reset.withClock ⟨0, 250000, 15, false, 1⟩
       s.pending = [] ∧ s.frame.stage = .closed ∧ s.dueStep.isNone = true ∧ s.checkIsLate = false ∧ s.clock.slotDone = false
        ∧ s.clock.subtick = 15) := by decide +kernel

theorem witness_FrameEncoding :
    (65535 < 65536) ∧ (∀ c : Fin 12, -32768 ≤ (Vector.replicate 12 (-32768 : Int))[c] ∧ (Vector.replicate 12 (-32768 : Int))[c] ≤ 32767)
    ∧ emptyItem.length = 32 ∧ zeros28.length = 28 := by decide +kernel

theorem witness_QueueInv : State.reset.QueueInv := by unfold State.QueueInv; decide +kernel

theorem witness_MapInv : failing.MapInv := by
  refine ⟨?_, ?_, trivial, fun h => absurd h (by decide +kernel)⟩
  · unfold State.MapInjective; decide +kernel
  · unfold State.NoSpareTarget; decide +kernel

theorem witness_RequestInv : failing.RequestInv :=
  ⟨by decide +kernel, by decide +kernel, fun _ h => by
    rcases h with h | h <;> exact absurd h (by simp [failing, Supervisor.reset, State.withSup])⟩

theorem witness_RecordsLeaveByBeingSent : ¬ (queued 2 locked).TakesReset ∧ ¬ (queued 2 holding).TakesReset := by
  refine ⟨?_, ?_⟩ <;> rintro (⟨c, h, -⟩ | ⟨h, hh, hc⟩ | ⟨c, hh, -⟩)
  · exact nomatch show none = some c from h
  · exact nomatch show none = some h from hh
  · exact nomatch show none = some c from hh
  · exact nomatch show none = some c from h
  · obtain rfl := Option.some.inj (show some (heldOf 1000000 frame6.toList) = some h from hh)
    exact absurd hc (by decide +kernel)
  · exact nomatch show none = some c from hh

theorem witness_CaptureInv : (sent .off).CaptureInv := by
  refine ⟨?_, ?_, ?_, fun h => absurd h (by decide +kernel)⟩
  · unfold Buffer.Live; decide +kernel
  · unfold Buffer.Live; decide +kernel
  · decide +kernel

theorem witness_EngineInv : locked.EngineInv := by
  have none_held : locked.recv.held = none := rfl
  refine ⟨?_, ?_, ?_, fun h c hh => absurd (none_held.symm.trans hh) (by simp)⟩
  · unfold Channel.InRange; decide +kernel
  · decide +kernel
  · unfold ChannelRecordOk; decide +kernel

theorem witness_DefinitionStandsOutsideIdle :
    (after .armCancel (inPhase .running State.reset)).seq.phase ≠ .idle ∧ State.reset.pending = [] := by decide +kernel

theorem witness_PartsOfTheFrame :
    messageOf (.queryStatus (heldOf 1000000 frame6.toList).slot.msg) = some (0x18, (heldOf 1000000 frame6.toList).slot.msg)
    ∧ (heldOf 1000000 frame6.toList).slot = ⟨0x18, (heldOf 1000000 frame6.toList).slot.msg⟩
    ∧ holding.frame.stage = .closed ∧ holding.recv.state = .locked ∧ holding.recv.held ≠ none := by decide +kernel

end Sys2Proof.Tests
end

