-- ==== Sys2Proof/Proofs/TestDefinition.lean ====
section
/-! SUPPORT. The records of the test definition stand under every step that leaves the part outside IDLE (R2). -/

namespace Sys2Proof.Machine

/-! ### Plans with the same records -/

theorem Plan.SameDefinition.refl (p : Plan) : p.SameDefinition p := ⟨rfl, rfl, rfl, rfl, rfl, rfl, rfl, rfl⟩

theorem Plan.SameDefinition.of_eq {p q : Plan} (h : q = p) : p.SameDefinition q := h ▸ .refl p

theorem Plan.SameDefinition.trans {p q r : Plan} (h : p.SameDefinition q) (h' : q.SameDefinition r) :
    p.SameDefinition r := by
  unfold Plan.SameDefinition at *
  simp [h, h']

theorem Plan.sameDefinition_verification (p : Plan) (v : Option Verification) :
    p.SameDefinition { p with verification := v } := .refl p

/-! ### The Sequencer and the Plan Store write no record -/

theorem State.returnToIdle_definition (s : State) : s.plan.SameDefinition s.returnToIdle.plan :=
  s.plan.sameDefinition_verification none

theorem State.closeTest_definition (s : State) (r : EndReason) (last : Fin 32) (run : Nat) :
    s.plan.SameDefinition (s.closeTest r last run).plan := by
  simpa [State.closeTest] using State.returnToIdle_definition ((s.summary 255 run).testEnd r last run)

theorem State.beginEnding_definition (s : State) (r : EndReason) (own : Nat) (last : Fin 32) :
    s.plan.SameDefinition (s.beginEnding r own last).plan := by
  unfold State.beginEnding
  extract_lets e sq s' sq'
  have hs : s'.plan = s.plan := by simp [s']
  split
  · exact (Plan.SameDefinition.of_eq (by simpa using hs)).trans (State.closeTest_definition _ r last e)
  · exact .of_eq hs

theorem State.enterState_definition (s : State) (st : Fin 32) (prev exit : Nat) :
    s.plan.SameDefinition (s.enterState st prev exit).plan := by
  unfold State.enterState
  extract_lets n s1 count final sq s2 s3
  have h1 : s1.plan = s.plan := by dsimp only [s1]; split <;> simp
  have h3 : s3.plan = s.plan := by simp [s3, s2, h1]
  split
  · exact (Plan.SameDefinition.of_eq h3).trans (s3.beginEnding_definition _ _ _)
  · exact .of_eq h3

theorem State.startTest_definition (s : State) (r : StartRecord) : s.plan.SameDefinition (s.startTest r).plan := by
  unfold State.startTest
  extract_lets number sq s1 sc s2
  have h : (s2.offer ⟨.testStart, 0⟩ 0 false).plan = s.plan := by simp [s2, s1]
  exact (Plan.SameDefinition.of_eq h).trans (State.enterState_definition _ _ _ _)

theorem State.endRunning_definition (s : State) (r : EndReason) : s.plan.SameDefinition (s.endRunning r).plan :=
  (s.withSeq s.seq.count).beginEnding_definition r s.seq.framesInState s.seq.stateInForce

/-- R18: whatever the boundary decides, the records stay as they are. -/
theorem State.settle_definition (s : State) (d : Decision) : s.plan.SameDefinition (s.settle d).plan := by
  cases d with
  | stay => dsimp only [State.settle]; split <;> exact .refl _
  | change p => dsimp only [State.settle]; split <;> exact .refl _
  | cancel => exact s.plan.sameDefinition_verification none
  | start r => exact s.startTest_definition r
  | stop r => exact s.endRunning_definition r
  | duration => exact s.endRunning_definition .duration
  | exit k => exact s.nextFrame.enterState_definition (s.exitTarget k) s.seq.stateInForce k
  | complete => exact s.closeTest_definition _ _ _

theorem State.lossSequencer_definition (s : State) : s.plan.SameDefinition s.lossSequencer.plan := by
  unfold State.lossSequencer
  extract_lets x
  split
  · have h : ((s.closeBlocks x).withSeq { s.seq with endReason := some .streamLost }).plan = s.plan := by simp
    exact (Plan.SameDefinition.of_eq h).trans (State.closeTest_definition _ _ _ _)
  · exact State.closeTest_definition (s.withSeq { s.seq with endReason := some .streamLost }) _ _ _
  all_goals exact s.plan.sameDefinition_verification none

theorem State.settleSeq_definition (s : State) : s.plan.SameDefinition s.settleSeq.plan := by
  unfold State.settleSeq
  split
  · simpa using s.settle_definition s.frame.decision
  · exact .refl _

theorem State.atBoundary_definition (s : State) : s.plan.SameDefinition s.atBoundary.plan := by
  simpa [State.atBoundary] using s.openFrame.settleSeq_definition

theorem State.atMessage_definition (s : State) : s.plan.SameDefinition s.atMessage.plan := by
  simpa [State.atMessage] using s.atBoundary_definition

theorem State.streamLoss_definition (s : State) : s.plan.SameDefinition s.streamLoss.plan := by
  unfold State.streamLoss
  extract_lets rc s1
  have h : s1.leaveLocked.plan = s.plan := by simp [s1]
  simpa using (Plan.SameDefinition.of_eq h).trans s1.leaveLocked.lossSequencer_definition

theorem State.verifyOutcome_definition (s : State) (v : Verification) :
    s.plan.SameDefinition (s.verifyOutcome v).plan := by
  unfold State.verifyOutcome
  extract_lets v'
  split
  · simpa using s.plan.sameDefinition_verification (some v')
  · simpa using s.plan.sameDefinition_verification none

theorem State.verify_definition (s : State) : s.plan.SameDefinition s.verify.plan := by
  unfold State.verify
  split
  · split
    · exact s.plan.sameDefinition_verification _
    · exact s.verifyOutcome_definition _
  · exact .refl _

theorem State.verifyStep_definition (s : State) : s.plan.SameDefinition s.verifyStep.plan := by
  unfold State.verifyStep
  split
  · simpa using s.verify_definition
  · exact .refl _

/-! ### Steps that leave phase and next phase alone -/

@[simp] theorem State.latchBy_life (s : State) (now : Cond → Bool) :
    (s.latchBy now).seq.phase = s.seq.phase ∧ (s.latchBy now).seq.next = s.seq.next := ⟨rfl, rfl⟩

@[simp] theorem State.latchRisen_life (s before : State) :
    (s.latchRisen before).seq.phase = s.seq.phase ∧ (s.latchRisen before).seq.next = s.seq.next := ⟨rfl, rfl⟩

@[simp] theorem State.startTrigger_life (s : State) (i : Fin 8) (start : Nat) :
    (s.startTrigger i start).seq.phase = s.seq.phase ∧ (s.startTrigger i start).seq.next = s.seq.next := by
  unfold State.startTrigger
  extract_lets g
  split <;> exact ⟨rfl, rfl⟩

@[simp] theorem State.breakerReached_seq (s : State) (opened tripFree : Bool) (input edgeStamp : Nat) (edgeBo : Bool)
    (operating : Nat) (t : Int) :
    (s.breakerReached opened tripFree input edgeStamp edgeBo operating t).seq = s.seq := by
  simp [State.breakerReached]

@[simp] theorem State.completeOperation_seq (s : State) : s.completeOperation.seq = s.seq := by
  unfold State.completeOperation
  split <;> simp

@[simp] theorem State.tripFree_seq (s : State) (input stamp : Nat) (bo : Bool) :
    (s.tripFree input stamp bo).seq = s.seq := by
  unfold State.tripFree
  split <;> simp

@[simp] theorem State.breakerEdge_seq (s : State) (i : Fin 8) (stamp : Nat) (bo : Bool) :
    (s.breakerEdge i stamp bo).seq = s.seq := by
  unfold State.breakerEdge
  extract_lets r
  (repeat' split) <;> simp

@[simp] theorem State.deliver_life (s : State) (i : Fin 8) (active : Bool) (start stamp : Nat) (bo : Bool) :
    (s.deliver i active start stamp bo).seq.phase = s.seq.phase
    ∧ (s.deliver i active start stamp bo).seq.next = s.seq.next := by
  unfold State.deliver
  cases active <;> split <;> simp

@[simp] theorem State.acceptEdge_life (s : State) (i : Fin 8) :
    (s.acceptEdge i).seq.phase = s.seq.phase ∧ (s.acceptEdge i).seq.next = s.seq.next := by
  unfold State.acceptEdge
  extract_lets x
  split <;> simp

@[simp] theorem State.acceptStep_life (s : State) (i : Fin 8) :
    (s.acceptStep i).seq.phase = s.seq.phase ∧ (s.acceptStep i).seq.next = s.seq.next := by
  simp [State.acceptStep]

@[simp] theorem State.operationStep_life (s : State) :
    s.operationStep.seq.phase = s.seq.phase ∧ s.operationStep.seq.next = s.seq.next := by
  simp [State.operationStep]

@[simp] theorem State.outputStep_life (s : State) :
    s.outputStep.seq.phase = s.seq.phase ∧ s.outputStep.seq.next = s.seq.next := by
  simp [State.outputStep]

@[simp] theorem State.finish_life (s : State) :
    s.finish.seq.phase = s.seq.phase ∧ s.finish.seq.next = s.seq.next := by
  unfold State.finish
  split <;> simp

/-- R14: an outcome asks for the next phase, and leaves the present one. -/
@[simp] theorem State.verifyOutcome_phase (s : State) (v : Verification) :
    (s.verifyOutcome v).seq.phase = s.seq.phase := by
  dsimp only [State.verifyOutcome]
  split <;> simp

@[simp] theorem State.verify_phase (s : State) : s.verify.seq.phase = s.seq.phase := by
  unfold State.verify
  (repeat' split) <;> simp

@[simp] theorem State.verifyStep_phase (s : State) : s.verifyStep.seq.phase = s.seq.phase := by
  unfold State.verifyStep
  split <;> simp

/-! ### The definition stands -/

/-- R2: from `s` to `t` no record of the test definition has changed, unless `t` is in IDLE. -/
def State.DefinitionStands (s t : State) : Prop := t.seq.phase ≠ .idle → s.plan.SameDefinition t.plan

theorem State.DefinitionStands.of_same {s t : State} (h : s.plan.SameDefinition t.plan) : s.DefinitionStands t :=
  fun _ => h

theorem State.DefinitionStands.of_plan {s t : State} (h : t.plan = s.plan) : s.DefinitionStands t := .of_same (.of_eq h)

/-- What writes no record may come before. -/
theorem State.DefinitionStands.after {s u t : State} (h : u.DefinitionStands t) (hs : s.plan.SameDefinition u.plan) :
    s.DefinitionStands t := fun ht => hs.trans (h ht)

/-- What writes no record and leaves the phase alone may follow. -/
theorem State.DefinitionStands.andThen {s u t : State} (h : s.DefinitionStands u) (hp : u.plan.SameDefinition t.plan)
    (ht : t.seq.phase = u.seq.phase) : s.DefinitionStands t := fun hi => (h (ht ▸ hi)).trans hp

/-! ### Messages -/

theorem inPhase_isIdle_state {s : State} (h : s.seq.phase ≠ .idle) (k : Handled) :
    (inPhase Phase.isIdle s k).state = s := by
  rw [inPhase_no (by simp [Phase.isIdle, h])]
  rfl

/-- R2: outside IDLE a message that writes a record of the test definition changes nothing. -/
theorem definitionWrites_state {s : State} (h : s.seq.phase ≠ .idle) (m : Msg) :
    (writeGlobals m s).state = s ∧ (writeState m s).state = s ∧ (writeChannel m s).state = s
    ∧ (writeTimer m s).state = s ∧ (writeInput m s).state = s ∧ (writeBreaker m s).state = s
    ∧ (writeCapture m s).state = s := by
  unfold writeGlobals writeState writeChannel writeTimer writeInput writeBreaker writeCapture
  simp only [inPhase_isIdle_state h, and_self]

/-- A message that leaves the Sequencer alone and that only IDLE takes. -/
theorem State.DefinitionStands.of_refused {s t : State} (hseq : t.seq = s.seq) (h : s.seq.phase ≠ .idle → t = s) :
    s.DefinitionStands t := fun hi => .of_eq (by rw [h (hseq ▸ hi)])

theorem armPlan_definition (m : Msg) (s : State) : s.plan.SameDefinition (armPlan m s).state.plan := by
  unfold armPlan inPhase indexed valued
  (repeat' split) <;> exact .refl _

theorem State.abort_definition (s : State) : s.plan.SameDefinition s.abort.plan := by
  unfold State.abort
  split
  · exact s.plan.sameDefinition_verification none
  · exact .refl _
  · exact .of_eq (by simp)
  all_goals exact .refl _

theorem abortTest_definition (m : Msg) (s : State) : s.plan.SameDefinition (abortTest m s).state.plan := by
  unfold abortTest inPhase indexed valued
  repeat' split
  · exact s.abort_definition
  all_goals exact .refl _

theorem State.sequencerReset_definition (s : State) : s.plan.SameDefinition s.sequencerReset.plan :=
  s.plan.sameDefinition_verification none

theorem State.resetBlocks_definition (s : State) : s.plan.SameDefinition s.resetBlocks.plan := by
  simpa [State.resetBlocks] using s.sequencerReset_definition

theorem resetPart_definition (m : Msg) (s : State) : s.plan.SameDefinition (resetPart m s).state.plan := by
  unfold resetPart indexed valued
  repeat' split
  · exact s.resetBlocks_definition
  all_goals exact .refl _

/-- R2: a message writes a record of the test definition in IDLE alone, and stays there; any other writes none. -/
theorem handlerOf_stands (code : Byte) (m : Msg) (s : State) : s.DefinitionStands (handlerOf code m s).state := by
  unfold handlerOf
  split
  iterate 7 next => exact .of_refused (by simp) fun h => by simp [definitionWrites_state h]
  case h_14 => exact .of_same (armPlan_definition m s)
  case h_16 => exact .of_same (abortTest_definition m s)
  case h_25 => exact .of_same (resetPart_definition m s)
  all_goals exact .of_plan (by simp [unknownMessage, refuse])

theorem State.takeMessage_stands {m : Msg} {s : State} {code : Byte} {k : Msg → State → Handled}
    (h : s.DefinitionStands (k m s).state) : s.DefinitionStands (s.takeMessage m code k) := by
  refine h.andThen (.of_eq ?_) ?_ <;> simp [State.takeMessage, Handled.answer]

theorem State.messageStep_stands {m : Msg} {k : Msg → State → Handled}
    (h : ∀ u : State, u.DefinitionStands (k m u).state) (s : State) (code : Byte) :
    s.DefinitionStands (s.messageStep m code k) := by
  rcases s.messageStep_cases m code k with ⟨-, e⟩ | ⟨-, e⟩ <;> rw [e]
  · exact (State.takeMessage_stands (h s.atMessage)).after s.atMessage_definition
  · exact .of_plan rfl

theorem State.handleSlot_stands (s : State) : s.DefinitionStands s.handleSlot := by
  unfold State.handleSlot
  split
  · split
    · next c _ =>
      split
      · exact .of_plan (by simp)
      · exact State.takeMessage_stands (handlerOf_stands c.code c.msg s)
    · exact .of_plan (by simp)
  · exact .of_plan rfl

/-! ### The frame-taken event comes to its end -/

/-- R162: the message is handled once in an event; what comes before it and after it writes no record. -/
theorem State.complete_stands (s : State) : s.DefinitionStands s.complete := by
  have before : s.plan.SameDefinition s.settleSeq.ready.plan := s.settleSeq_definition.trans (.of_eq (by simp))
  have message : s.DefinitionStands s.settleSeq.ready.handleSlot := (State.handleSlot_stands _).after before
  have verified := message.andThen (State.verifyStep_definition _) (State.verifyStep_phase _)
  exact verified.andThen (.of_eq (State.finish_frame _).1) (State.finish_life _).1

theorem State.closeEvent_stands (s : State) : s.DefinitionStands s.closeEvent := by
  unfold State.closeEvent
  split
  · exact .of_plan rfl
  · exact s.complete_stands

theorem State.handleSlot_stage (s : State) (h : s.frame.stage = .ready) : s.handleSlot.frame.stage = .handled := by
  unfold State.handleSlot
  rw [if_pos h]
  (repeat' split) <;> simp [State.toStage, State.takeMessage]

theorem State.verifyStep_stage (s : State) (h : s.frame.stage = .handled) : s.verifyStep.frame.stage = .stepped := by
  simp [State.verifyStep, h, State.toStage]

theorem State.finish_stage (s : State) (h : s.frame.stage = .stepped) : s.finish.frame.stage = .closed := by
  simp [State.finish, h, State.toStage]

/-- R162: from every stage the event comes to its end. -/
theorem State.complete_stage (s : State) : s.complete.frame.stage = .closed := by
  have fromHandled {u : State} (h : u.frame.stage = .handled) : u.verifyStep.finish.frame.stage = .closed :=
    State.finish_stage _ (State.verifyStep_stage u h)
  have fromSettled {u : State} (h : u.frame.stage = .settled) :
      u.ready.handleSlot.verifyStep.finish.frame.stage = .closed :=
    fromHandled (State.handleSlot_stage _ (State.ready_stage u h))
  cases h : s.frame.stage with
  | closed => rw [State.complete_of_closed h, h]
  | taken => exact fromSettled (State.settleSeq_stage s h)
  | settled =>
    rw [State.complete, State.settleSeq_of_stage (by simp [h])]
    exact fromSettled h
  | ready =>
    rw [State.complete, State.settleSeq_of_stage (by simp [h]), State.ready_of_stage (by simp [h])]
    exact fromHandled (State.handleSlot_stage s h)
  | handled =>
    rw [State.complete, State.settleSeq_of_stage (by simp [h]), State.ready_of_stage (by simp [h]),
      State.handleSlot_of_stage (by simp [h])]
    exact fromHandled h
  | stepped =>
    rw [State.complete, State.settleSeq_of_stage (by simp [h]), State.ready_of_stage (by simp [h]),
      State.handleSlot_of_stage (by simp [h]), State.verifyStep_of_stage (by simp [h])]
    exact State.finish_stage s h

theorem State.closeEvent_stage (s : State) : s.closeEvent.frame.stage = .closed := by
  unfold State.closeEvent
  split
  · assumption
  · exact s.complete_stage

/-! ### Commands -/

/-- With no event in progress, bytes that arrive write no record and leave the Sequencer alone. -/
theorem State.receiveBytes_of_closed (bytes : List LinkByte) (s : State) (h : s.frame.stage = .closed) :
    (s.receiveBytes bytes).plan = s.plan ∧ (s.receiveBytes bytes).seq = s.seq := by
  induction bytes generalizing s with
  | nil => exact ⟨rfl, rfl⟩
  | cons x xs ih =>
    have hx : (s.receiveByte x).plan = s.plan ∧ (s.receiveByte x).seq = s.seq
        ∧ (s.receiveByte x).frame = s.frame := by
      unfold State.receiveByte
      rw [State.closeEvent_of_closed h]
      (repeat' split) <;> simp
    obtain ⟨hp, hq, hf⟩ := hx
    rw [State.receiveBytes_cons, ← hp, ← hq]
    exact ih _ (hf ▸ h)

/-- A byte that arrives leaves plan and Sequencer alone, or brings the event in progress to its end. -/
theorem State.receiveByte_cases (s : State) (x : LinkByte) :
    ((s.receiveByte x).plan = s.plan)
      ∨ ((s.receiveByte x).frame.stage = .closed ∧ s.DefinitionStands (s.receiveByte x)) := by
  unfold State.receiveByte
  split
  · exact .inl (by simp)
  · split
    · exact .inr ⟨by simp [State.closeEvent_stage], s.closeEvent_stands.andThen (.of_eq (by simp)) (by simp)⟩
    · exact .inl (by simp)

theorem State.receiveBytes_stands (bytes : List LinkByte) (s : State) : s.DefinitionStands (s.receiveBytes bytes) := by
  induction bytes generalizing s with
  | nil => exact .of_plan rfl
  | cons x xs ih =>
    rw [State.receiveBytes_cons]
    rcases s.receiveByte_cases x with hp | ⟨hc, hs⟩
    · exact (ih _).after (.of_eq hp)
    · obtain ⟨hp, hq⟩ := State.receiveBytes_of_closed xs _ hc
      exact hs.andThen (.of_eq hp) (by rw [hq])

theorem State.windowClose_stands (s : State) : s.DefinitionStands s.windowClose := by
  unfold State.windowClose
  split
  · split
    · exact s.openFrame.complete_stands.after (.of_eq (by simp))
    · exact .of_same (by simpa using s.finishSlot.streamLoss_definition)
  · exact s.complete_stands

theorem State.boundaryStep_stands {act : State → State} (h : ∀ u : State, (act u).plan = u.plan) (s : State)
    (due : State → Bool) : s.DefinitionStands (s.boundaryStep due act) := by
  rcases s.boundaryStep_cases due act with ⟨-, -, e⟩ | e <;> rw [e]
  · exact .of_same (h s.atBoundary ▸ s.atBoundary_definition)
  · exact .of_plan rfl

theorem State.sequencerStep_stands (s : State) (due : Decision → Bool) : s.DefinitionStands (s.sequencerStep due) := by
  rcases s.sequencerStep_cases due with ⟨-, -, e⟩ | e <;> rw [e]
  · exact .of_same s.atBoundary_definition
  · exact .of_plan rfl

theorem State.subtickCommand_stands {act : State → State} (hp : ∀ u : State, (act u).plan = u.plan)
    (hq : ∀ u : State, (act u).seq.phase = u.seq.phase) (s : State) (due : State → Bool) :
    s.DefinitionStands (s.subtickCommand due act) := by
  rcases s.subtickCommand_cases due act with ⟨-, -, e⟩ | ⟨-, e⟩ | e <;> rw [e]
  · have h : s.plan.SameDefinition s.beforeMessage.plan := by simpa [State.beforeMessage] using s.atMessage_definition
    exact .of_same (hp s.beforeMessage ▸ h)
  · exact s.closeEvent_stands.andThen (.of_eq (hp _)) (hq _)
  · exact .of_plan rfl

theorem State.windowCommand_stands {act : State → State} (h : ∀ u : State, (act u).plan = u.plan) (s : State)
    (ends : State → Nat → Bool) : s.DefinitionStands (s.windowCommand ends act) := by
  unfold State.windowCommand
  repeat' split
  · exact s.boundaryStep_stands h _
  · exact .of_plan (by simp [h])
  · exact .of_plan rfl

theorem execReadback_stands (frame : Vector Byte 40) (s : State) :
    s.DefinitionStands (if hasSync 0x4C 0x2D frame then s.closeEvent.readback frame.toList else s) := by
  split
  · exact s.closeEvent_stands.andThen (.of_eq (by simp [State.readback])) (by simp [State.readback])
  · exact .of_plan rfl

theorem execVerificationOutcome_stands (s : State) :
    s.DefinitionStands (if s.atVerification.outcomeDue then s.atVerification.verifyStep else s) := by
  split
  · have h : s.DefinitionStands s.atVerification :=
      (State.handleSlot_stands s.atBoundary.ready).after (by simpa using s.atBoundary_definition)
    exact h.andThen (State.verifyStep_definition _) (State.verifyStep_phase _)
  · exact .of_plan rfl

theorem State.dueStep_plan {s t : State} (h : s.dueStep = some t) : t.plan = s.plan := by
  have e : s.slotStep = t := by rw [State.slotStep, h, Option.getD_some]
  rw [← e]
  simp

/-- Log 2: the part's own clock. -/
theorem State.tick_stands (s : State) : s.DefinitionStands s.tick := by
  unfold State.tick
  split
  · split
    · next h => exact .of_plan (State.dueStep_plan h)
    · repeat' split
      · exact .of_plan (by simp)
      · exact s.windowClose_stands
      · exact .of_plan (by simp)
      · exact .of_plan (by simp)
  · exact s.complete_stands

theorem unknownCode_iff (code : Byte) : unknownCode code = true ↔ code = 0 ∨ 0x19 < code.toNat := by
  simp [unknownCode]

theorem handlerOf_unknown {code : Byte} (h : code = 0 ∨ 0x19 < code.toNat) :
    handlerOf code = fun _ => unknownMessage := by
  have hn : code.toNat = 0 ∨ 0x19 < code.toNat := h.imp_left fun e => by rw [e]; rfl
  funext m s
  unfold handlerOf
  split
  case h_26 => rfl
  all_goals omega

/-- R162: a command that is a message is handled by the handler of its code. -/
theorem exec_message {c : Instr} {code : Byte} {m : Msg} (h : messageOf c = some (code, m)) (s : State) :
    exec c s = .next (s.messageStep m code (handlerOf code)) := by
  cases c with
  | unknownMessage code' m' =>
    by_cases hc : code' = 0 ∨ 0x19 < code'.toNat
    · rw [messageOf, if_pos hc] at h
      obtain ⟨rfl, rfl⟩ := Prod.mk.inj (Option.some.inj h)
      rw [handlerOf_unknown hc]
      exact congrArg Host.Outcome.next (if_pos ((unknownCode_iff code').2 hc))
    · rw [messageOf, if_neg hc] at h
      cases h
  | _ => cases h <;> rfl

/-- R2, command by command. -/
theorem exec_stands (c : Instr) (s : State) : ∃ t : State, exec c s = .next t ∧ s.DefinitionStands t := by
  rcases hm : messageOf c with _ | ⟨code, m⟩
  case some => exact ⟨_, exec_message hm s, State.messageStep_stands (handlerOf_stands code m) s code⟩
  cases c with
  | powerUpReset => exact ⟨_, rfl, fun h => absurd rfl h⟩
  | sampleFrameArrival first rest => exact ⟨_, rfl, State.receiveBytes_stands _ s⟩
  | checkTimeout => exact ⟨_, rfl, .of_plan (by simp)⟩
  | arrivalWindowClose => exact ⟨_, rfl, s.windowClose_stands⟩
  | answerFrameClockPeriod => exact ⟨_, rfl, .of_plan (by simp)⟩
  | readbackFrameReceived frame => exact ⟨_, rfl, execReadback_stands frame s⟩
  | leakStep p => exact ⟨_, rfl, .of_plan (by simp)⟩
  | failoverService => exact ⟨_, rfl, State.boundaryStep_stands (by simp) s _⟩
  | zeroFound => exact ⟨_, rfl, State.boundaryStep_stands (by simp) s _⟩
  | failoverComplete => exact ⟨_, rfl, State.boundaryStep_stands (by simp) s _⟩
  | inputLineChange i high => exact ⟨_, rfl, s.closeEvent_stands.andThen (.of_eq (by simp)) (by simp)⟩
  | acceptedEdge i => exact ⟨_, rfl, State.subtickCommand_stands (by simp) (by simp) s _⟩
  | chatterEnd i => exact ⟨_, rfl, State.windowCommand_stands (by simp) s _⟩
  | chatterWindowClose i => exact ⟨_, rfl, State.windowCommand_stands (by simp) s _⟩
  | breakerOperationComplete => exact ⟨_, rfl, State.subtickCommand_stands (by simp) (by simp) s _⟩
  | pulsePeriodEnd k => exact ⟨_, rfl, State.subtickCommand_stands (by simp) (by simp) s _⟩
  | timeoutDue k => exact ⟨_, rfl, State.boundaryStep_stands (by simp) s _⟩
  | timerExpired k => exact ⟨_, rfl, State.boundaryStep_stands (by simp) s _⟩
  | verificationOutcome => exact ⟨_, rfl, execVerificationOutcome_stands s⟩
  | dwellDone => exact ⟨_, rfl, State.boundaryStep_stands (by simp) s _⟩
  | armCancel | testStart | stateExit | durationLimit | endRequest | testComplete =>
    exact ⟨_, rfl, s.sequencerStep_stands _⟩
  | unknownMessage code m =>
    by_cases hc : code = 0 ∨ 0x19 < code.toNat
    · rw [messageOf, if_pos hc] at hm
      cases hm
    · exact ⟨s, congrArg Host.Outcome.next (if_neg (mt (unknownCode_iff code).1 hc)), .of_plan rfl⟩
  | _ => cases hm

/-- Settles O59: a message is all that writes a record, it does so in IDLE alone (`handlerOf_stands`), and nothing that follows
it within a step leaves IDLE (`State.complete_stands`, `State.receiveBytes_stands`). -/
theorem definitionStandsOutsideIdle : Obligations.DefinitionStandsOutsideIdle := by
  intro s t h
  unfold step at h
  split at h
  · obtain rfl := Host.Outcome.next.inj h
    exact s.tick_stands
  · next c rest _ =>
    obtain ⟨u, hu, hs⟩ := exec_stands c (s.withPending rest)
    obtain rfl := Host.Outcome.next.inj (hu.symm.trans h)
    exact hs

end Sys2Proof.Machine
end

