-- ==== Sys2Proof/Proofs/DefinitionWrites.lean ====
section
/-! SUPPORT. The messages that write the test definition, and those of the life of a test: what is refused, in order, and what
is stored (R2 to R10, R12, R19, R31, R163). -/

namespace Sys2Proof.Machine

/-! ### The fields of a payload -/

theorem toNat_append_byte {n : Nat} (a : BitVec n) (b : Byte) : (a ++ b).toNat = 256 * a.toNat + b.toNat := by
  rw [BitVec.toNat_append, ← Nat.shiftLeft_add_eq_or_of_lt b.isLt, Nat.shiftLeft_eq]
  omega

/-- 0.6.2: the two's complement reading of a number's unsigned reading. -/
theorem signedOf_toNat {n : Nat} (x : BitVec n) : signedOf (2 ^ n) x.toNat = x.toInt := by
  rw [BitVec.toInt_eq_toNat_cond, signedOf]
  by_cases h : 2 ^ n ≤ 2 * x.toNat
  · rw [if_pos h, if_neg (by omega)]
  · rw [if_neg h, if_pos (by omega)]

theorem Payload.i16_eq (p : Payload) (i : Nat) (h : i + 1 < 20) :
    Payload.i16 p i = (p[i] ++ p[i + 1] : BitVec 16).toInt := by
  have e : Payload.u16 p i = (p[i] ++ p[i + 1] : BitVec 16).toNat := by
    rw [Payload.u16_eq p i h, toNat_append_byte]
  rw [Payload.i16, e]
  exact signedOf_toNat (n := 16) _

theorem Payload.i32_eq (p : Payload) (i : Nat) (h : i + 3 < 20) :
    Payload.i32 p i = (p[i] ++ p[i + 1] ++ p[i + 2] ++ p[i + 3] : BitVec 32).toInt := by
  have e : Payload.u32 p i = (p[i] ++ p[i + 1] ++ p[i + 2] ++ p[i + 3] : BitVec 32).toNat := by
    rw [Payload.u32_eq p i h, toNat_append_byte, toNat_append_byte, toNat_append_byte]
    omega
  rw [Payload.i32, e]
  exact signedOf_toNat (n := 32) _

/-- R9, R10: the conditions that a state exit may use. -/
theorem condOk_exitLegal_iff (p : Payload) (i : Nat) :
    condOk Kind.exitLegal p i = true ↔ ExitCondition (Payload.u8 p i) (Payload.u8 p (i + 1)) := by
  unfold condOk
  generalize Payload.u8 p i = kind, Payload.u8 p (i + 1) = arg
  by_cases h : kind < 10
  · interval_cases kind <;> simp only [Kind.ofCode, Bool.and_eq_true, decide_eq_true_eq] <;>
      simp [Kind.exitLegal, Kind.maxArg, ExitCondition]
  · rw [Kind.ofCode_eq_none (by omega)]
    simp
    omega

/-- R9, R10: the conditions that a timer or the capture may use. -/
theorem condOk_eventLegal_iff (p : Payload) (i : Nat) :
    condOk Kind.eventLegal p i = true ↔ EventCondition (Payload.u8 p i) (Payload.u8 p (i + 1)) := by
  unfold condOk
  generalize Payload.u8 p i = kind, Payload.u8 p (i + 1) = arg
  by_cases h : kind < 10
  · interval_cases kind <;> simp only [Kind.ofCode, Bool.and_eq_true, decide_eq_true_eq] <;>
      simp [Kind.eventLegal, Kind.maxArg, EventCondition]
  · rw [Kind.ofCode_eq_none (by omega)]
    simp
    omega

/-! ### The ranges of the records (R2 to R10) -/

theorem Globals.ok_iff (m : Msg) :
    Globals.ok m.payload = true ↔ 1 ≤ byteOf m 0 ∧ byteOf m 0 ≤ 32 ∧ byteOf m 1 ≤ 1 ∧ byteOf m 2 ≤ 7
      ∧ 1 ≤ longOf m 3 4 5 6 ∧ longOf m 3 4 5 6 ≤ 16777215 ∧ byteOf m 7 ≤ 64 ∧ UnusedZero m 9 := by
  simp [Globals.ok, Globals.stateCount, Globals.startInput, Globals.duration, Globals.fade, Payload.clearFrom_iff,
    Payload.u8_eq, Payload.u32_eq, byteOf, wordOf, longOf, and_assoc]

theorem Part0.ok_iff (m : Msg) :
    Part0.ok m.payload = true ↔ longOf m 0 1 2 3 ≤ 16777215
      ∧ (ExitCondition (byteOf m 4) (byteOf m 5) ∧ byteOf m 6 ≤ 31)
      ∧ (ExitCondition (byteOf m 7) (byteOf m 8) ∧ byteOf m 9 ≤ 31)
      ∧ (ExitCondition (byteOf m 10) (byteOf m 11) ∧ byteOf m 12 ≤ 31)
      ∧ (ExitCondition (byteOf m 13) (byteOf m 14) ∧ byteOf m 15 ≤ 31)
      ∧ byteOf m 16 ≤ 1 ∧ UnusedZero m 17 := by
  simp only [Part0.ok, Part0.dwell, Part0.exitNext, Bool.and_eq_true, decide_eq_true_eq, List.all_eq_true, mem_allFin,
    forall_const, Fin.forall_fin_succ, condOk_exitLegal_iff, Payload.clearFrom_iff]
  simp [Payload.u8_eq, Payload.u32_eq, byteOf, wordOf, longOf, and_assoc]

theorem Part1.ok_iff (m : Msg) :
    Part1.ok m.payload = true ↔ (byteOf m 0 ≤ 4 ∧ byteOf m 2 ≤ 7 ∧ byteOf m 4 ≤ 7)
      ∧ (byteOf m 5 ≤ 4 ∧ byteOf m 7 ≤ 7 ∧ byteOf m 9 ≤ 7)
      ∧ (byteOf m 10 ≤ 4 ∧ byteOf m 12 ≤ 7 ∧ byteOf m 14 ≤ 7)
      ∧ (byteOf m 15 ≤ 4 ∧ byteOf m 17 ≤ 7 ∧ byteOf m 19 ≤ 7) := by
  simp [Part1.ok, List.all_eq_true, Fin.forall_fin_succ, Payload.u8_eq, byteOf, and_assoc]

theorem Chan.ok_iff (m : Msg) :
    Chan.ok m.payload = true ↔ byteOf m 0 ≤ 3
      ∧ (-8388608 : Int) ≤ (m.payload[3] ++ m.payload[4] ++ m.payload[5] ++ m.payload[6] : BitVec 32).toInt
      ∧ (m.payload[3] ++ m.payload[4] ++ m.payload[5] ++ m.payload[6] : BitVec 32).toInt ≤ 8388607
      ∧ wordOf m 7 8 ≤ 4080 ∧ (m.payload[9] ++ m.payload[10] : BitVec 16).toInt ≠ -32768 ∧ UnusedZero m 13 := by
  simp only [Chan.ok, Chan.mode, Chan.step, Chan.d16, Chan.dc0, Payload.i32_eq _ 3 (by omega),
    Payload.i16_eq _ 9 (by omega), Payload.u8_eq _ 0 (by omega), Payload.u16_eq _ 7 (by omega), Payload.clearFrom_iff,
    Bool.and_eq_true, decide_eq_true_eq, and_assoc]
  rfl

theorem Timer.ok_iff (m : Msg) :
    Timer.ok m.payload = true ↔ byteOf m 0 ≤ 1 ∧ EventCondition (byteOf m 1) (byteOf m 2)
      ∧ EventCondition (byteOf m 3) (byteOf m 4) ∧ (byteOf m 0 = 1 → 1 ≤ wordOf m 5 6) ∧ byteOf m 7 ≤ 11
      ∧ UnusedZero m 8 := by
  simp only [Timer.ok, Timer.enable, Timer.timeout, Bool.and_eq_true, decide_eq_true_eq, condOk_eventLegal_iff,
    Payload.clearFrom_iff]
  simp [Payload.u8_eq, Payload.u16_eq, byteOf, wordOf, and_assoc, imp_iff_not_or]

theorem Capture.ok_iff (m : Msg) :
    Capture.ok m.payload = true ↔ byteOf m 0 ≤ 1 ∧ EventCondition (byteOf m 1) (byteOf m 2) ∧ wordOf m 3 4 ≤ 1023
      ∧ UnusedZero m 5 := by
  simp only [Capture.ok, Capture.pre, Bool.and_eq_true, decide_eq_true_eq, condOk_eventLegal_iff, Payload.clearFrom_iff]
  simp [Payload.u8_eq, Payload.u16_eq, byteOf, wordOf, and_assoc]

theorem Input.ok_iff (m : Msg) :
    Input.ok m.payload = true ↔ byteOf m 0 ≤ 1 ∧ (byteOf m 2 ≠ 0 → 1 ≤ wordOf m 3 4) ∧ UnusedZero m 5 := by
  simp [Input.ok, Input.limit, Input.window, Payload.clearFrom_iff, Payload.u8_eq, Payload.u16_eq, byteOf, wordOf,
    and_assoc, imp_iff_not_or]

theorem Brk.ok_iff (m : Msg) :
    Brk.ok m.payload = true ↔ byteOf m 0 ≤ 1 ∧ byteOf m 1 ≤ 7 ∧ byteOf m 2 ≤ 7 ∧ byteOf m 4 ≤ 7 ∧ byteOf m 6 ≤ 7
      ∧ byteOf m 7 ≤ 1 ∧ UnusedZero m 8 := by
  simp [Brk.ok, Brk.trip, Brk.close, Payload.clearFrom_iff, Payload.u8_eq, byteOf, and_assoc]

/-! ### The order of refusals (R163) -/

theorem inPhase_eq {ok : Phase → Bool} {s : State} {p : Prop} [Decidable p] (h : ok s.seq.phase = false ↔ p)
    (k : Handled) : inPhase ok s k = if p then refuse s .wrongPhase else k := by
  split
  · next hp => exact inPhase_no (h.2 hp)
  · next hp => exact inPhase_yes (by simpa [hp] using h)

theorem inPhase_isIdle_eq (s : State) (k : Handled) :
    inPhase Phase.isIdle s k = if s.seq.phase ≠ .idle then refuse s .wrongPhase else k :=
  inPhase_eq (by simp [Phase.isIdle]) k

theorem indexed_bothZero_eq (s : State) (m : Msg) (k : Unit → Handled) :
    indexed s (bothZero m) k = if m.indexA ≠ 0 ∨ m.indexB ≠ 0 then refuse s .noEntry else k () := by
  split
  · next h => rw [bothZero_none h, indexed_none]
  · next h => rw [bothZero_some h, indexed_some]

theorem indexed_indexA_eq (n : Nat) [NeZero n] (s : State) (m : Msg) (k : Fin n → Handled) :
    indexed s (indexA n m) k =
      if n ≤ m.indexA.toNat ∨ m.indexB ≠ 0 then refuse s .noEntry else k (Fin.ofNat n m.indexA.toNat) := by
  rw [indexA_eq]
  split <;> rfl

theorem indexed_indexBelow_eq (n : Nat) [NeZero n] (s : State) (b : Byte) (k : Fin n → Handled) :
    indexed s (indexBelow n b) k = if n ≤ b.toNat then refuse s .noEntry else k (Fin.ofNat n b.toNat) := by
  rw [indexBelow_eq]
  split <;> rfl

theorem indexed_both_eq (n k : Nat) [NeZero n] [NeZero k] (s : State) (a b : Byte) (f : Fin n → Fin k → Handled) :
    (indexed s (indexBelow n a) fun i => indexed s (indexBelow k b) (f i)) =
      if n ≤ a.toNat ∨ k ≤ b.toNat then refuse s .noEntry else f (Fin.ofNat n a.toNat) (Fin.ofNat k b.toNat) := by
  rw [indexed_indexBelow_eq, indexed_indexBelow_eq]
  by_cases ha : n ≤ a.toNat <;> simp [ha]

theorem valued_eq (ok : Bool) (s : State) (k : Handled) :
    valued ok s k = if ok = true then k else refuse s .badValue := rfl

/-- R164: the state once a message that was handled so has been answered. -/
def Handled.answered (h : Handled) (m : Msg) (code : Byte) : State := (h.answer m.tag code).toStage .handled

theorem refuse_answered (s : State) (st : Status) (m : Msg) (code : Byte) :
    (refuse s st).answered m code = s.answered m code st zeros28 :=
  State.takeMessage_refuse (k := fun _ s => refuse s st) rfl

theorem done_answered (s : State) (m : Msg) (code : Byte) :
    (done s).answered m code = s.answered m code .done zeros28 :=
  State.takeMessage_done (k := fun _ s => done s) rfl

theorem ite_answered {p : Prop} [Decidable p] (h k : Handled) (m : Msg) (code : Byte) :
    (if p then h else k).answered m code = if p then h.answered m code else k.answered m code :=
  apply_ite (fun x : Handled => x.answered m code) p h k

/-- R162: a message that is heard is answered as its handler says. -/
theorem exec_of_hears {m : Msg} {s : State} (hs : s.Hears m) {c : Instr} {code : Byte} (hc : messageOf c = some (code, m)) :
    exec c s = .next ((handlerOf code m s).answered m code) := by
  rw [exec_message hc, State.messageStep_of_hears hs]
  rfl

/-! ### What each message does -/

theorem writeGlobals_eq (m : Msg) (s : State) :
    writeGlobals m s =
      if s.seq.phase ≠ .idle then refuse s .wrongPhase
      else if m.indexA ≠ 0 ∨ m.indexB ≠ 0 then refuse s .noEntry
      else if Globals.ok m.payload = true then done (s.withPlan { s.plan with globals := m.payload })
      else refuse s .badValue := by
  rw [writeGlobals, inPhase_isIdle_eq, indexed_bothZero_eq, valued_eq]

theorem writeState_eq (m : Msg) (s : State) :
    writeState m s =
      if s.seq.phase ≠ .idle then refuse s .wrongPhase
      else if 31 < m.indexA.toNat ∨ 1 < m.indexB.toNat then refuse s .noEntry
      else if m.indexB = 0 then
        if Part0.ok m.payload = true then
          done (s.withPlan { s.plan with part0 := s.plan.part0.set (Fin.ofNat 32 m.indexA.toNat) m.payload })
        else refuse s .badValue
      else if Part1.ok m.payload = true then
        done (s.withPlan { s.plan with part1 := s.plan.part1.set (Fin.ofNat 32 m.indexA.toNat) m.payload })
      else refuse s .badValue := by
  have hpart (hb : ¬ 2 ≤ m.indexB.toNat) : Fin.ofNat 2 m.indexB.toNat = 0 ↔ m.indexB = 0 := by
    rw [Fin.ext_iff, Fin.val_ofNat, Nat.mod_eq_of_lt (by omega)]
    exact (BitVec.toNat_eq (x := m.indexB) (y := 0)).symm
  rw [writeState, inPhase_isIdle_eq, indexed_both_eq]
  refine ite_congr rfl (fun _ => rfl) fun _ => ite_congr rfl (fun _ => rfl) fun hi => ?_
  exact ite_congr (propext (hpart fun hb => hi (.inr hb))) (fun _ => rfl) fun _ => rfl

theorem writeChannel_eq (m : Msg) (s : State) :
    writeChannel m s =
      let i := Fin.ofNat 32 m.indexA.toNat
      if s.seq.phase ≠ .idle then refuse s .wrongPhase
      else if 31 < m.indexA.toNat ∨ 11 < m.indexB.toNat then refuse s .noEntry
      else if Chan.ok m.payload = true then
        done (s.withPlan { s.plan with
          channels := s.plan.channels.set i (s.plan.channels[i].set (Fin.ofNat 12 m.indexB.toNat) m.payload) })
      else refuse s .badValue := by
  rw [writeChannel, inPhase_isIdle_eq, indexed_both_eq, valued_eq]
  rfl

theorem writeTimer_eq (m : Msg) (s : State) :
    writeTimer m s =
      if s.seq.phase ≠ .idle then refuse s .wrongPhase
      else if 7 < m.indexA.toNat ∨ m.indexB ≠ 0 then refuse s .noEntry
      else if Timer.ok m.payload = true then
        done (s.withPlan { s.plan with timers := s.plan.timers.set (Fin.ofNat 8 m.indexA.toNat) m.payload })
      else refuse s .badValue := by
  rw [writeTimer, inPhase_isIdle_eq, indexed_indexA_eq, valued_eq]
  rfl

theorem writeCapture_eq (m : Msg) (s : State) :
    writeCapture m s =
      if s.seq.phase ≠ .idle then refuse s .wrongPhase
      else if m.indexA ≠ 0 ∨ m.indexB ≠ 0 then refuse s .noEntry
      else if Capture.ok m.payload = true then done (s.withPlan { s.plan with capture := m.payload })
      else refuse s .badValue := by
  rw [writeCapture, inPhase_isIdle_eq, indexed_bothZero_eq, valued_eq]

theorem writeInput_eq (m : Msg) (s : State) :
    writeInput m s =
      let i := Fin.ofNat 8 m.indexA.toNat
      if s.seq.phase ≠ .idle then refuse s .wrongPhase
      else if 7 < m.indexA.toNat ∨ m.indexB ≠ 0 then refuse s .noEntry
      else if Input.ok m.payload = true then
        done ((s.withPlan { s.plan with inputs := s.plan.inputs.set i m.payload }).withScan { s.scan with
          inputs := s.scan.inputs.set i { s.scan.inputs[i] with reload := .afterZero } })
      else refuse s .badValue := by
  rw [writeInput, inPhase_isIdle_eq, indexed_indexA_eq, valued_eq]
  rfl

theorem breakerHome_withPlan (s : State) (m : Msg) :
    (s.withPlan { s.plan with breaker := m.payload }).breakerHome =
      (s.withPlan { s.plan with breaker := m.payload }).withBrk { s.brk with
        state := if byteOf m 7 = 1 then .opened else .closed, deadline := none, operation := none } := by
  have h7 : (Payload.u8 m.payload 7 == 1) = decide (byteOf m 7 = 1) := by
    rw [Payload.u8_eq _ 7 (by omega)]
    rfl
  simp [State.breakerHome, Brk.initial, h7]

theorem writeBreaker_eq (m : Msg) (s : State) :
    writeBreaker m s =
      if s.seq.phase ≠ .idle then refuse s .wrongPhase
      else if m.indexA ≠ 0 ∨ m.indexB ≠ 0 then refuse s .noEntry
      else if Brk.ok m.payload = true then
        done ((s.withPlan { s.plan with breaker := m.payload }).withBrk { s.brk with
          state := if byteOf m 7 = 1 then .opened else .closed, deadline := none, operation := none })
      else refuse s .badValue := by
  rw [writeBreaker, inPhase_isIdle_eq, indexed_bothZero_eq, valued_eq, breakerHome_withPlan]

/-- Settles O34, each message by its equation (`writeGlobals_eq`, …) and the ranges of its payload (`Globals.ok_iff`, …). -/
theorem writeGlobalsStateAndChannel : Obligations.WriteGlobalsStateAndChannel := by
  refine ⟨fun m s h => ?_, fun m s h => ?_, fun m s h => ?_⟩
  · rw [exec_of_hears h (c := .writeGlobals m) rfl, show handlerOf 0x01 m s = _ from writeGlobals_eq m s]
    simp only [ite_answered, refuse_answered, done_answered, Globals.ok_iff]
  · rw [exec_of_hears h (c := .writeState m) rfl, show handlerOf 0x02 m s = _ from writeState_eq m s]
    simp only [ite_answered, refuse_answered, done_answered, Part0.ok_iff, Part1.ok_iff]
  · rw [exec_of_hears h (c := .writeChannel m) rfl, show handlerOf 0x03 m s = _ from writeChannel_eq m s]
    simp only [ite_answered, refuse_answered, done_answered, Chan.ok_iff]

/-- Settles O35, each message by its equation (`writeTimer_eq`, …) and the ranges of its payload (`Timer.ok_iff`, …). -/
theorem writeConfiguration : Obligations.WriteConfiguration := by
  refine ⟨fun m s h => ⟨?_, ?_⟩, fun m s h => ⟨?_, ?_⟩⟩
  · rw [exec_of_hears h (c := .writeTimer m) rfl, show handlerOf 0x04 m s = _ from writeTimer_eq m s]
    simp only [ite_answered, refuse_answered, done_answered, Timer.ok_iff]
  · rw [exec_of_hears h (c := .writeCapture m) rfl, show handlerOf 0x07 m s = _ from writeCapture_eq m s]
    simp only [ite_answered, refuse_answered, done_answered, Capture.ok_iff]
  · rw [exec_of_hears h (c := .writeInput m) rfl, show handlerOf 0x05 m s = _ from writeInput_eq m s]
    simp only [ite_answered, refuse_answered, done_answered, Input.ok_iff]
  · rw [exec_of_hears h (c := .writeBreaker m) rfl, show handlerOf 0x06 m s = _ from writeBreaker_eq m s]
    simp only [ite_answered, refuse_answered, done_answered, Brk.ok_iff]

end Sys2Proof.Machine
end

