-- ==== Sys2Proof/Proofs/LifeOfATest.lean ====
section
/-! SUPPORT. ARM, START, ABORT and ARM_CANCEL (R12, R16, R19, R31). -/

namespace Sys2Proof.Machine

theorem stateCount_eq_zero (p : Plan) : p.stateCount = 0 ↔ p.globals[0] = 0 := by
  rw [Plan.stateCount, Globals.stateCount, Payload.u8_eq _ 0 (by omega)]
  exact (BitVec.toNat_eq (x := p.globals[0]) (y := 0)).symm

theorem noPayload_iff (m : Msg) : noPayload m = true ↔ UnusedZero m 0 := Payload.clearFrom_iff m 0

theorem armPlan_eq (m : Msg) (s : State) :
    armPlan m s =
      if s.seq.phase ≠ .idle then refuse s .wrongPhase
      else if m.indexA ≠ 0 ∨ m.indexB ≠ 0 then refuse s .noEntry
      else if UnusedZero m 2 ∧ s.plan.globals[0] ≠ 0 then
        done ((s.withPlan { s.plan with verification := some ⟨wordOf m 0 1, .state 0, 0xFFFF#16, none⟩ }).withSeq
          { s.seq with next := some .verifying })
      else refuse s .badValue := by
  have hok : (Payload.clearFrom m.payload 2 && s.plan.stateCount != 0) = true ↔
      UnusedZero m 2 ∧ s.plan.globals[0] ≠ 0 := by
    rw [Bool.and_eq_true, Payload.clearFrom_iff, bne_iff_ne, Ne, stateCount_eq_zero]
  have hword : Payload.u16 m.payload 0 = wordOf m 0 1 := Payload.u16_eq m.payload 0 (by omega)
  rw [armPlan, inPhase_isIdle_eq, indexed_bothZero_eq, valued_eq, hword]
  simp only [hok]
  rfl

theorem startTest_eq (m : Msg) (s : State) :
    startTest m s =
      if s.seq.phase ≠ .armed then refuse s .wrongPhase
      else if m.indexA ≠ 0 ∨ m.indexB ≠ 0 then refuse s .noEntry
      else if UnusedZero m 0 then
        if s.seq.request.blocksStart = true then refuse s .wrongPhase
        else if s.testEndQueued = true then refuse s .reportsPending
        else done (s.withSeq { s.seq with request := .start ⟨.message, 0, 0⟩ })
      else refuse s .badValue := by
  rw [startTest, inPhase_eq (p := s.seq.phase ≠ .armed) (by simp), indexed_bothZero_eq, valued_eq]
  simp only [noPayload_iff]

theorem State.abort_eq (s : State) (h : s.seq.phase ≠ .idle) :
    s.abort =
      if s.seq.phase = .verifying then
        (s.withSeq { s.seq with next := some .idle }).withPlan { s.plan with verification := none }
      else if s.seq.phase = .armed then s.withSeq { s.seq with request := .cancel }
      else if s.seq.phase = .running ∧ s.seq.request = .none then s.withSeq { s.seq with request := .stop .aborted }
      else s := by
  unfold State.abort
  split <;> simp_all [State.requestEnd, State.dropVerification]

theorem abortTest_eq (m : Msg) (s : State) :
    abortTest m s =
      if s.seq.phase = .idle then refuse s .wrongPhase
      else if m.indexA ≠ 0 ∨ m.indexB ≠ 0 then refuse s .noEntry
      else if UnusedZero m 0 then done s.abort
      else refuse s .badValue := by
  rw [abortTest, inPhase_eq (p := s.seq.phase = .idle) (by simp), indexed_bothZero_eq, valued_eq]
  simp only [noPayload_iff]

/-- R31: a pending CANCEL takes effect at the boundary. -/
theorem exec_armCancel {s : State} (hs : s.frame.stage = .taken) (hd : s.frame.decision = .cancel) :
    exec .armCancel s = .next { s with
      seq := { s.seq with phase := .idle, request := .none }
      plan := { s.plan with verification := none }
      frame := { s.frame with stage := .settled } } := by
  have ho : s.openFrame = s := State.openFrame_of_stage (by simp [hs])
  have hstep : s.sequencerStep Decision.isCancel = s.settleSeq := by
    simp [State.sequencerStep, ho, hs, hd, Decision.isCancel]
  have hsettle : s.settleSeq = (s.settle .cancel).toStage .settled := by rw [State.settleSeq, if_pos hs, hd]
  show Host.Outcome.next (s.sequencerStep Decision.isCancel) = _
  rw [hstep, hsettle]
  rfl

/-- Settles O41, from the equations of the three messages and `exec_armCancel`. -/
theorem armStartAbortCancel : Obligations.ArmStartAbortCancel := by
  refine ⟨fun m s h => ⟨?_, ?_, ?_⟩, fun s => exec_armCancel⟩
  · rw [exec_of_hears h (c := .arm m) rfl, show handlerOf 0x0E m s = _ from armPlan_eq m s]
    simp only [ite_answered, refuse_answered, done_answered, not_and_or, ne_eq]
  · rw [exec_of_hears h (c := .start m) rfl, show handlerOf 0x0F m s = _ from startTest_eq m s]
    simp only [ite_answered, refuse_answered, done_answered, not_and_or, ne_eq, ite_not]
  · rw [exec_of_hears h (c := .abort m) rfl, show handlerOf 0x10 m s = _ from abortTest_eq m s]
    by_cases hp : s.seq.phase = .idle
    · simp only [hp, if_true, refuse_answered]
    · rw [s.abort_eq hp]
      simp only [ite_answered, refuse_answered, done_answered, not_and_or, ne_eq, ite_not,
        apply_ite (fun t : State => t.answered m 0x10 .done zeros28)]

end Sys2Proof.Machine
end

