-- ==== Sys2Proof/Proofs/PlanVerification.lean ====
section
/-! SUPPORT. The verification step of a frame and its outcome (R13, R14, R15), and what a frame without a message brings to that
step. -/

namespace Sys2Proof.Machine

/-! ### The structural checks, byte by byte -/

theorem Plan.stateCount_eq (p : Plan) : p.stateCount = p.globals[0].toNat := Payload.u8_eq p.globals 0 (by omega)

theorem Payload.u8_eq_ofNat_iff (p : Payload) (i : Nat) (h : i < 20) (n : Nat) (hn : n < 256) :
    Payload.u8 p i = n ↔ p[i] = BitVec.ofNat 8 n := by
  rw [Payload.u8_eq p i h, BitVec.toNat_eq, BitVec.toNat_ofNat, Nat.mod_eq_of_lt hn]

/-- R9: a code of the vocabulary other than 0 is a condition in use. -/
theorem condAt_kind_ne_none (p : Payload) (i : Nat) :
    (condAt p i).kind ≠ .none ↔ Payload.u8 p i ≠ 0 ∧ Payload.u8 p i ≤ 9 := by
  unfold condAt
  generalize Payload.u8 p i = kind
  by_cases h : kind < 10
  · interval_cases kind <;> simp [Kind.ofCode]
  · rw [Kind.ofCode_eq_none (by omega)]
    simp
    omega

theorem condAt_kind_eq_stateEntry (p : Payload) (i : Nat) :
    (condAt p i).kind = .stateEntry ↔ Payload.u8 p i = 8 := by
  unfold condAt
  generalize Payload.u8 p i = kind
  by_cases h : kind < 10
  · interval_cases kind <;> simp [Kind.ofCode]
  · rw [Kind.ofCode_eq_none (by omega)]
    simp
    omega

/-- R13: an exit in use of state `i` names a state that is not in the plan. -/
theorem Plan.badExit_iff (p : Plan) (i : Fin 32) :
    p.badExit i = true ↔ ∃ k : Fin 4, (p.part0[i])[4 + 3 * k.val] ≠ 0 ∧ (p.part0[i])[4 + 3 * k.val].toNat ≤ 9
      ∧ p.globals[0].toNat ≤ (p.part0[i])[6 + 3 * k.val].toNat := by
  simp only [Plan.badExit, List.any_eq_true, mem_allFin, true_and, Bool.and_eq_true, bne_iff_ne, decide_eq_true_eq,
    Part0.exitCond, Part0.exitNext, condAt_kind_ne_none, Plan.stateCount_eq, and_assoc]
  refine exists_congr fun k => and_congr ?_ (and_congr ?_ ?_)
  · rw [Ne, Payload.u8_eq_ofNat_iff _ _ (by omega) 0 (by omega)]
    rfl
  · rw [Payload.u8_eq _ _ (by omega)]
  · rw [Payload.u8_eq _ _ (by omega)]

/-- R14: the condition at `i` of a record names the entry to a state that is not in the plan. -/
theorem Plan.badEntry_iff (p : Plan) (r : Payload) (i : Nat) (h : i + 1 < 20) :
    p.badEntry (condAt r i) = true ↔ r[i] = 8 ∧ p.globals[0].toNat ≤ r[i + 1].toNat := by
  rw [Plan.badEntry, Bool.and_eq_true, beq_iff_eq, condAt_kind_eq_stateEntry, decide_eq_true_eq, Plan.stateCount_eq,
    Payload.u8_eq_ofNat_iff _ _ (by omega) 8 (by omega)]
  simp only [condAt, Payload.u8_eq r (i + 1) h]
  rfl

/-- R14: the structural checks of what comes after the states. -/
theorem Plan.badRemaining_iff (p : Plan) :
    p.badRemaining = true ↔
      (∃ k : Fin 8, (p.timers[k])[0] = 1
          ∧ (((p.timers[k])[1] = 8 ∧ p.globals[0].toNat ≤ (p.timers[k])[2].toNat)
            ∨ ((p.timers[k])[3] = 8 ∧ p.globals[0].toNat ≤ (p.timers[k])[4].toNat)))
        ∨ (p.capture[0] = 1 ∧ p.capture[1] = 8 ∧ p.globals[0].toNat ≤ p.capture[2].toNat) := by
  have enabled (r : Payload) : (Payload.u8 r 0 == 1) = true ↔ r[0] = 1 := by
    rw [beq_iff_eq]
    exact Payload.u8_eq_ofNat_iff r 0 (by omega) 1 (by omega)
  have inTimers (f : Payload → Bool) : p.timers.toList.any f = true ↔ ∃ k : Fin 8, f p.timers[k] = true := by
    rw [List.any_eq_true]
    constructor
    · rintro ⟨r, hr, hf⟩
      obtain ⟨k, hk, rfl⟩ := Vector.mem_iff_getElem.1 (Vector.mem_toList_iff.1 hr)
      exact ⟨⟨k, hk⟩, hf⟩
    · rintro ⟨k, hf⟩
      exact ⟨_, Vector.mem_toList_iff.2 (Vector.getElem_mem k.isLt), hf⟩
  simp only [Plan.badRemaining, Bool.or_eq_true, Bool.and_eq_true, inTimers, Timer.enable, Capture.enable, enabled,
    Timer.start, Timer.stop, Capture.trigger, Plan.badEntry_iff p _ 1 (by omega), Plan.badEntry_iff p _ 3 (by omega)]

/-! ### The step for one state (R13) -/

/-- R13: what the step for state `i` makes of a verification. -/
theorem Verification.stepState_spec (v : Verification) (p : Plan) (i : Fin 32) :
    let w := v.stepState p i
    let n := p.globals[0].toNat
    let records : List Payload := p.part0[i] :: p.part1[i] :: p.channels[i].toList
    let bytes := ((if i = 0 then [p.globals] else []) ++ records).flatMap fun r => r.toList
    let bad := ∃ k : Fin 4, (p.part0[i])[4 + 3 * k.val] ≠ 0 ∧ (p.part0[i])[4 + 3 * k.val].toNat ≤ 9
      ∧ n ≤ (p.part0[i])[6 + 3 * k.val].toNat
    w.expected = v.expected ∧ w.crc = crcFrom v.crc bytes
      ∧ (i.val + 1 < n → w.position = .state (i.val + 1)) ∧ (n ≤ i.val + 1 → w.position = .remaining)
      ∧ (v.failure = none → bad → w.failure = some (i.val, .nextState))
      ∧ (v.failure = none → ¬ bad → w.failure = none)
      ∧ (v.failure ≠ none → w.failure = v.failure) := by
  intro w n records bytes bad
  have hb : p.badExit i = true ↔ bad := p.badExit_iff i
  have hn : p.stateCount = n := p.stateCount_eq
  refine ⟨rfl, rfl, fun h => ?_, fun h => ?_, fun h b => ?_, fun h b => ?_, fun h => ?_⟩
  · exact if_pos (hn ▸ h)
  · exact if_neg (by omega)
  · simp [w, Verification.stepState, h, hb.2 b]
  · simp [w, Verification.stepState, h, mt hb.1 b]
  · obtain ⟨f, hf⟩ := Option.ne_none_iff_exists'.1 h
    simp [w, Verification.stepState, hf]

/-- R13, R162: once the message has been handled, the rest of the event makes the step for state `i` and no other change of
plan, phase and next phase. -/
theorem State.verifyStep_finish {u : State} {v : Verification} {i : Fin 32} (hu : u.frame.stage = .handled)
    (hp : u.seq.phase = .verifying) (hv : u.plan.verification = some v) (hi : v.position = .state i) :
    u.verifyStep.finish.seq.phase = .verifying ∧ u.verifyStep.finish.seq.next = u.seq.next
      ∧ u.verifyStep.finish.plan = { u.plan with verification := some (v.stepState u.plan i) } := by
  have hstep : u.verifyStep = (u.verifyState v i).toStage .stepped := by
    simp [State.verifyStep, State.verify, hu, hp, hv, hi]
  rw [hstep]
  simp [hp, State.verifyState]

/-! ### A frame without a message -/

@[simp] theorem State.requestEnd_life (s : State) (r : EndReason) :
    (s.requestEnd r).seq.phase = s.seq.phase ∧ (s.requestEnd r).seq.next = s.seq.next := by
  unfold State.requestEnd
  split <;> exact ⟨rfl, rfl⟩

@[simp] theorem State.serveChannel_life (s : State) (c : Fin 12) :
    (s.serveChannel c).seq.phase = s.seq.phase ∧ (s.serveChannel c).seq.next = s.seq.next := by
  unfold State.serveChannel
  (repeat' split) <;> simp

@[simp] theorem State.serve_life (s : State) :
    s.serve.seq.phase = s.seq.phase ∧ s.serve.seq.next = s.seq.next := by
  unfold State.serve
  split <;> simp

@[simp] theorem State.completeFailover_life (s : State) :
    s.completeFailover.seq.phase = s.seq.phase ∧ s.completeFailover.seq.next = s.seq.next := by
  unfold State.completeFailover
  (repeat' split) <;> simp

@[simp] theorem State.ready_life (s : State) :
    s.ready.seq.phase = s.seq.phase ∧ s.ready.seq.next = s.seq.next := by
  unfold State.ready State.latchZero State.boundaryApart
  split <;> simp

@[simp] theorem State.serve_slot (s : State) : s.serve.frame.slot = s.frame.slot := by
  unfold State.serve
  split <;> simp

@[simp] theorem State.completeFailover_slot (s : State) : s.completeFailover.frame.slot = s.frame.slot := by
  unfold State.completeFailover
  (repeat' split) <;> simp

@[simp] theorem State.ready_slot (s : State) : s.ready.frame.slot = s.frame.slot := by
  unfold State.ready State.boundaryApart
  split <;> simp [State.toStage]

@[simp] theorem State.perform_life (s : State) (e : SubtickEvent) :
    (s.perform e).seq.phase = s.seq.phase ∧ (s.perform e).seq.next = s.seq.next := by
  cases e <;> simp [State.perform]

@[simp] theorem State.slotStep_life (s : State) :
    s.slotStep.seq.phase = s.seq.phase ∧ s.slotStep.seq.next = s.seq.next := by
  unfold State.slotStep State.dueStep State.performOne
  (repeat' split) <;> simp

@[simp] theorem State.runSlot_life (fuel : Nat) (s : State) :
    (State.runSlot fuel s).seq.phase = s.seq.phase ∧ (State.runSlot fuel s).seq.next = s.seq.next := by
  induction fuel generalizing s with
  | zero => exact ⟨rfl, rfl⟩
  | succ n ih => unfold State.runSlot; split <;> simp [ih]

@[simp] theorem State.finishSlot_life (s : State) :
    s.finishSlot.seq.phase = s.seq.phase ∧ s.finishSlot.seq.next = s.seq.next := by
  simp [State.finishSlot]

/-- R33, R162: the frame taken carries the decision of the frame it closes, and the control slot of the held frame. -/
theorem State.take_event (s : State) :
    s.take.frame.decision = s.decision ∧ s.take.frame.slot = s.recv.held.map HeldFrame.slot := by
  unfold State.take State.openEvent
  cases h : s.recv.held with
  | none => dsimp only; split <;> simp
  | some x => dsimp only; split <;> simp

/-- R18: a VERIFYING frame that asks for no phase is followed by another. -/
theorem State.decision_verifying {s : State} (hp : s.seq.phase = .verifying) (hn : s.seq.next = none) :
    s.decision = .stay := by
  simp [State.decision, hp, hn]

theorem State.handleSlot_silent {s : State} (hs : s.frame.stage = .ready)
    (h : ∀ c : ControlSlot, s.frame.slot = some c → c.msg.tag = 0) : s.handleSlot = s.toStage .handled := by
  rw [State.handleSlot, if_pos hs]
  split
  · next c hc => rw [if_pos (h c hc)]
  · rfl

theorem State.TakesSilentFrame.due {s : State} (h : s.TakesSilentFrame) :
    s.recv.held ≠ none ∨ s.recv.gapRun < s.recv.gapLimit := by
  rcases h with ⟨x, hx, -⟩ | ⟨-, hg⟩
  · exact .inl (by simp [hx])
  · exact .inr hg

/-- R151, R152, R162: the window closes on a frame that is due: its message is handled, then comes its verification step. -/
theorem State.windowClose_of_due {s : State} (hc : s.frame.stage = .closed) (hl : s.recv.state = .locked)
    (hd : s.recv.held ≠ none ∨ s.recv.gapRun < s.recv.gapLimit) :
    s.atVerification.frame.stage = .handled ∧ s.windowClose = s.atVerification.verifyStep.finish := by
  have hdue : s.recv.frameDue = true := by simpa [Receiver.frameDue, Option.isSome_iff_ne_none] using hd
  have hopen : s.canOpen = true := by simp [State.canOpen, hc, hl]
  rcases State.openFrame_stage hc with ⟨-, -, ht⟩ | ⟨hn, -⟩
  · refine ⟨State.handleSlot_stage _ (State.ready_stage _ (State.settleSeq_stage _ ht)), ?_⟩
    rw [State.windowClose, if_pos hopen, if_pos hdue]
    rfl
  · exact absurd ⟨hl, hd⟩ hn

/-- R151, R152, R162: a VERIFYING frame without a message comes to its verification step as it was. -/
theorem State.atVerification_silent {s : State} (hc : s.frame.stage = .closed) (hl : s.recv.state = .locked)
    (hs : s.TakesSilentFrame) (hp : s.seq.phase = .verifying) (hn : s.seq.next = none) :
    s.atVerification.seq.phase = .verifying ∧ s.atVerification.seq.next = none
      ∧ s.atVerification.plan = s.plan := by
  have hopen : s.openFrame = s.finishSlot.take := by
    have hdue : s.recv.frameDue = true := by simpa [Receiver.frameDue, Option.isSome_iff_ne_none] using hs.due
    simp [State.openFrame, State.canOpen, hc, hl, hdue]
  have hdec : s.openFrame.frame.decision = .stay := by
    rw [hopen, (State.take_event _).1]
    exact State.decision_verifying (by simp [hp]) (by simp [hn])
  have hslot : s.openFrame.frame.slot = s.recv.held.map HeldFrame.slot := by
    rw [hopen, (State.take_event _).2]
    simp
  have hstage : s.openFrame.frame.stage = .taken := by rw [hopen, State.take_stage]
  have hsettle : s.openFrame.settleSeq = s.openFrame.toStage .settled := by
    have hphase : s.openFrame.seq.phase = .verifying := by simp [hopen, hp]
    rw [State.settleSeq, if_pos hstage, hdec]
    simp [State.settle, hphase, Phase.inTest]
  have hhandle : s.atVerification = s.openFrame.settleSeq.ready.toStage .handled := by
    refine State.handleSlot_silent (State.ready_stage _ (State.settleSeq_stage _ hstage)) fun c hcs => ?_
    have hheld : s.recv.held.map HeldFrame.slot = some c := by
      rw [← hslot, ← hcs, State.atBoundary, hsettle]
      simp [State.toStage]
    rcases hs with ⟨x, hx, htag⟩ | ⟨hx, -⟩
    · rw [hx] at hheld
      rw [← Option.some.inj hheld]
      exact htag
    · simp [hx] at hheld
  rw [hhandle, hsettle]
  simp [hopen, hp, hn]

/-! ### The outcome (R14, R15) -/

/-- R14: where the message has been handled, VERIFICATION_OUTCOME decides at once, if the outcome is due. -/
theorem exec_verificationOutcome {s : State} (hs : s.frame.stage = .handled) :
    exec .verificationOutcome s = .next (if s.outcomeDue then s.verifyStep else s) := by
  have h : s.atVerification = s := by
    rw [State.atVerification, State.atBoundary, State.openFrame_of_stage (by simp [hs]),
      State.settleSeq_of_stage (by simp [hs]), State.ready_of_stage (by simp [hs]),
      State.handleSlot_of_stage (by simp [hs])]
  show Host.Outcome.next (if s.atVerification.outcomeDue then s.atVerification.verifyStep else s) = _
  rw [h]

theorem exec_verificationOutcome_due {s : State} {v : Verification} (hs : s.frame.stage = .handled)
    (hp : s.seq.phase = .verifying) (hv : s.plan.verification = some v) (hr : v.position = .remaining) :
    exec .verificationOutcome s = .next ((s.verifyOutcome v).toStage .stepped) := by
  have hdue : s.outcomeDue = true := by simp [State.outcomeDue, hs, hp, hv, hr]
  rw [exec_verificationOutcome hs, if_pos hdue]
  simp [State.verifyStep, State.verify, hs, hp, hv, hr]

/-- R15: verification fails: PLAN_REJECTED, and the phase IDLE is asked for. -/
theorem State.verifyOutcome_rejected {s : State} {v : Verification} {item : Nat} {cause : PlanCause}
    (h : (v.complete s.plan).verdict s.plan = some (item, cause)) :
    (s.verifyOutcome v).toStage .stepped =
      { (s.plusMade [⟨0, 16 * s.recv.frameCounter % 4294967296,
          .planRejected (v.complete s.plan).crc.toNat v.expected item cause, false⟩]) with
        plan := { s.plan with verification := none }
        seq := { s.seq with next := some .idle }
        frame := { s.frame with stage := .stepped } } := by
  simp only [State.verifyOutcome, h]
  rfl

/-- R15: verification passes: PLAN_VERIFIED, and the phase ARMED is asked for. -/
theorem State.verifyOutcome_verified {s : State} {v : Verification}
    (h : (v.complete s.plan).verdict s.plan = none) :
    (s.verifyOutcome v).toStage .stepped =
      { (s.plusMade [⟨0, 16 * s.recv.frameCounter % 4294967296,
          .planVerified (v.complete s.plan).crc.toNat s.plan.globals[0].toNat, false⟩]) with
        plan := { s.plan with verification := some (v.complete s.plan) }
        seq := { s.seq with next := some .armed }
        frame := { s.frame with stage := .stepped } } := by
  simp only [State.verifyOutcome, h, Plan.stateCount_eq]
  rfl

/-- R13, R14: the first failure of the states decides, then the structural checks of the rest, then the CRC. -/
theorem Verification.verdict_cases (v : Verification) (p : Plan) :
    (∀ f : Nat × PlanCause, v.failure = some f → v.verdict p = some f)
      ∧ (v.failure = none → p.badRemaining = true → v.verdict p = some (255, .remaining))
      ∧ (v.failure = none → ¬ p.badRemaining = true → v.crc.toNat ≠ v.expected → v.verdict p = some (255, .crc))
      ∧ (v.failure = none → ¬ p.badRemaining = true → v.crc.toNat = v.expected → v.verdict p = none) := by
  refine ⟨fun f hf => ?_, fun hf hb => ?_, fun hf hb hc => ?_, fun hf hb hc => ?_⟩
  · simp [Verification.verdict, hf]
  · simp [Verification.verdict, hf, hb]
  · simp [Verification.verdict, hf, hb, hc]
  · simp [Verification.verdict, hf, hb, hc]

/-- Settles O26: the step for one state by `Verification.stepState_spec`, at the place in the event that
`State.windowClose_of_due` gives; the outcome by the four cases of `Verification.verdict_cases`. -/
theorem verificationSteps : Obligations.VerificationSteps := by
  refine ⟨fun s v i hc hl hi => ?_, fun s hs => ⟨fun v hp hv hr => ?_, fun hd => ?_⟩⟩
  · intro checked
    have rest (hd : s.recv.held ≠ none ∨ s.recv.gapRun < s.recv.gapLimit)
        (hp : s.atVerification.seq.phase = .verifying) (hv : s.atVerification.plan.verification = some v) :
        ∃ t : State, exec .arrivalWindowClose s = .next t
          ∧ checked s.atVerification.plan s.atVerification.seq.next t := by
      obtain ⟨hstage, hclose⟩ := State.windowClose_of_due hc hl hd
      obtain ⟨hphase, hnext, hplan⟩ := State.verifyStep_finish hstage hp hv hi
      have hsame : s.atVerification.plan.SameDefinition s.atVerification.verifyStep.finish.plan := by
        rw [hplan]
        exact Plan.sameDefinition_verification _ _
      have hsome : s.atVerification.verifyStep.finish.plan.verification
          = some (v.stepState s.atVerification.plan i) := by rw [hplan]
      exact ⟨_, congrArg Host.Outcome.next hclose, hphase, hnext, hsame, _, hsome, v.stepState_spec _ i⟩
    refine ⟨fun ht hp hn hv => ?_, rest⟩
    obtain ⟨hphase, hnext, hplan⟩ := State.atVerification_silent hc hl ht hp hn
    have := rest ht.due hphase (hplan ▸ hv)
    rwa [hnext, hplan] at this
  · obtain ⟨first, remaining, crc, verified⟩ := (v.complete s.plan).verdict_cases s.plan
    have hbad := s.plan.badRemaining_iff
    rw [exec_verificationOutcome_due hs hp hv hr]
    intro n records crc' time bad failed
    refine ⟨fun hf hb he => ?_, fun item cause hf => ?_, fun hf hb => ?_, fun hf hb he => ?_⟩
    · exact congrArg _ (State.verifyOutcome_verified (verified hf (mt hbad.1 hb) he))
    · exact congrArg _ (State.verifyOutcome_rejected (first (item, cause) hf))
    · exact congrArg _ (State.verifyOutcome_rejected (remaining hf (hbad.2 hb)))
    · exact congrArg _ (State.verifyOutcome_rejected (crc hf (mt hbad.1 hb) he))
  · rw [exec_verificationOutcome hs, hd]
    rfl

end Sys2Proof.Machine
end

