-- ==== Sys2Proof/Proofs/Reset.lean ====
section
/-! SUPPORT. The state after reset (R1, R17, R41, R61, R72, R93, R106, R114, R118, R129, R149). -/

namespace Sys2Proof.Machine

/-- R41. -/
theorem reset_eng (c : Fin 12) : State.reset.eng[c] = Channel.reset := Vector.getElem_replicate c.isLt

theorem reset_powerUpValues : PowerUpValues State.reset := by
  refine ⟨?seq, ?recv, ?plan, ?eng, ?out, ?sup, ?scan, ?lines, ?timers, ?rep, rfl⟩
  case eng => exact reset_eng
  all_goals decide

/-! ### The invariants hold -/

theorem reset_queueInv : State.reset.QueueInv := by
  unfold State.QueueInv
  decide

theorem reset_linkInv : State.reset.LinkInv := by
  unfold State.LinkInv
  decide

theorem reset_decisionFits : State.reset.DecisionFits := fun h => by cases h

/-- R75: the identity map. -/
theorem reset_mapInv : State.reset.MapInv := by
  refine ⟨?_, ?_, trivial, reset_decisionFits⟩
  · unfold State.MapInjective
    decide
  · unfold State.NoSpareTarget
    decide

theorem reset_requestInv : State.reset.RequestInv := by
  refine ⟨List.nodup_nil, by decide, fun x _ => List.not_mem_nil⟩

theorem reset_captureInv : State.reset.CaptureInv := by
  refine ⟨?_, ?_, fun _ => rfl, reset_decisionFits⟩
  · unfold Buffer.Live
    decide
  · unfold Buffer.Live
    decide

theorem Channel.reset_inRange : Channel.reset.InRange := by
  have hring (v : Int) (hv : v ∈ Channel.reset.ring) : v = 0 := List.eq_of_mem_replicate hv
  refine ⟨List.length_replicate, fun v hv => ?_, ?_⟩
  · rw [hring v hv]
    decide
  · decide

theorem reset_channelRecord (i : Fin 32) (c : Fin 12) : State.reset.plan.channels[i][c] = Payload.zero := by
  simp [State.reset, State.resetWith, Plan.reset]

theorem reset_engineInv : State.reset.EngineInv := by
  refine ⟨fun c => ?_, ?_, fun i c => ?_, fun h c hh => ?_⟩
  · rw [reset_eng]
    exact Channel.reset_inRange
  · decide
  · rw [reset_channelRecord]
    unfold ChannelRecordOk
    decide
  · cases hh

/-- Settles O5, the power-up values block by block and each invariant by its own lemma. -/
theorem resetState : Obligations.ResetState :=
  ⟨reset_powerUpValues, reset_queueInv, reset_linkInv, reset_mapInv, reset_requestInv, reset_captureInv,
    reset_engineInv⟩

end Sys2Proof.Machine
end

