-- ==== Sys2Proof/Proofs/BoundaryDecision.lean ====
section
/-! SUPPORT. What a boundary decides, and what it makes of a decision to stay, to change the phase or to complete the test (R18,
R22, R25, R26, R30, R31, R33 to R36, R40). -/

namespace Sys2Proof.Machine

/-! ### The decision (R18, R26, R30, R33) -/

theorem Sequencer.latched_eq_some {q : Sequencer} {k : Fin 4} :
    q.latched = some k ↔ q.latches[k] = true ∧ ∀ j : Fin 4, j < k → q.latches[j] = false := find_allFin_eq_some

theorem Sequencer.latched_eq_none {q : Sequencer} : q.latched = none ↔ ∀ k : Fin 4, q.latches[k] = false :=
  find_allFin_eq_none

theorem State.decision_running {s : State} (hp : s.seq.phase = .running) : s.decision = s.decideRunning := by
  simp [State.decision, hp]

theorem State.decideRunning_of_stop {s : State} {r : EndReason} (h : s.seq.request = .stop r) :
    s.decideRunning = .stop r := by simp [State.decideRunning, h]

/-- R30, R26: without a pending END the duration limit decides, then the lowest latched exit. -/
theorem State.decideRunning_of_no_stop {s : State} (h : ∀ r : EndReason, s.seq.request ≠ .stop r) :
    s.decideRunning =
      if s.seq.testFrame + 1 = Globals.duration s.plan.globals then .duration
      else (s.seq.latched).elim .stay .exit := by
  unfold State.decideRunning
  split
  · next r hr => exact absurd hr (h r)
  all_goals split <;> [rfl; (cases s.seq.latched <;> rfl)]

/-! ### A boundary carried out -/

theorem State.settleSeq_of_taken {s : State} (h : s.frame.stage = .taken) {d : Decision} (hd : s.frame.decision = d) :
    s.settleSeq = (s.settle d).toStage .settled := by
  rw [State.settleSeq, if_pos h, hd]

/-- R151, R152, R33: the frame that is due is taken with the decision of the frame it closes. -/
theorem State.openFrame_of_due {s : State} (hc : s.frame.stage = .closed) (hl : s.recv.state = .locked)
    (hd : s.recv.held ≠ none ∨ s.recv.gapRun < s.recv.gapLimit) : s.openFrame = s.finishSlot.take := by
  have hdue : s.recv.frameDue = true := by simpa [Receiver.frameDue, Option.isSome_iff_ne_none] using hd
  simp [State.openFrame, State.canOpen, hc, hl, hdue]

/-- R25, R34: where a frame of a test stays, the Sequencer's counts alone go on. -/
theorem State.settle_stay_inTest {s : State} (h : s.seq.phase.inTest = true) : s.settle .stay = s.withSeq s.seq.count :=
  if_pos h

theorem State.settle_stay_outside {s : State} (h : s.seq.phase.inTest = false) : s.settle .stay = s := by
  simp [State.settle, h]

theorem Phase.inTest_iff (p : Phase) : p.inTest = true ↔ p = .running ∨ p = .ending := by
  cases p <;> simp [Phase.inTest]

theorem State.settle_change (s : State) (p : Phase) :
    s.settle (.change p) = { s with
      seq := { s.seq with phase := p, next := none }
      plan := if p = .idle then { s.plan with verification := none } else s.plan } := by
  unfold State.settle
  dsimp only
  split <;> rfl

/-- Settles O27, phase by phase, with `State.decideRunning_of_no_stop` for RUNNING; the boundary's outcome by the lemmas
about `State.settle`. -/
theorem boundaryDecision : Obligations.BoundaryDecision := by
  refine fun s => ⟨fun hp r hr => ?_, fun hp hr => ⟨fun hd => ?_, fun hd => ⟨fun k hk hj => ?_, fun hk => ?_⟩⟩,
    fun hp r hr => ?_, fun hp hr => ?_, fun hp hr => ?_, fun hp => ?_, fun hp => ?_, fun hc hl hd => ?_,
    fun ht => ⟨fun hd hp => ?_, fun hd hr he => ?_, fun p hd => ?_⟩⟩
  · rw [State.decision_running hp, State.decideRunning_of_stop hr]
  · rw [State.decision_running hp, State.decideRunning_of_no_stop hr, if_pos hd]
  · rw [State.decision_running hp, State.decideRunning_of_no_stop hr, if_neg hd, Sequencer.latched_eq_some.2 ⟨hk, hj⟩]
    rfl
  · rw [State.decision_running hp, State.decideRunning_of_no_stop hr, if_neg hd, Sequencer.latched_eq_none.2 hk]
    rfl
  · simp [State.decision, hp, hr]
  · simp [State.decision, hp, hr]
  · simp [State.decision, hp, hr]
  · rw [State.decision, hp]
    rfl
  · rcases hp with hp | hp <;> exact ⟨fun hn => by simp [State.decision, hp, hn],
      fun p hn => by simp [State.decision, hp, hn]⟩
  · rw [State.openFrame_of_due hc hl hd]
    exact ⟨State.take_stage _, (State.take_event _).1⟩
  · rw [State.settleSeq_of_taken ht hd, State.settle_stay_inTest ((Phase.inTest_iff _).2 hp)]
    rfl
  · have hout : s.seq.phase.inTest = false := by
      rw [← Bool.not_eq_true, Phase.inTest_iff]
      exact not_or.2 ⟨hr, he⟩
    rw [State.settleSeq_of_taken ht hd, State.settle_stay_outside hout]
    rfl
  · rw [State.settleSeq_of_taken ht hd, State.settle_change]
    rfl

/-! ### The end of a test (R35, R36, R40) -/

/-- A decision of the boundary that is the Sequencer's to carry out is carried out where the frame is taken. -/
theorem State.sequencerStep_of_taken {s : State} (h : s.frame.stage = .taken) {d : Decision} (hd : s.frame.decision = d)
    {due : Decision → Bool} (hdue : due d = true) : s.sequencerStep due = (s.settle d).toStage .settled := by
  rw [State.sequencerStep, State.openFrame_of_stage (by simp [h]), if_pos (by simp [h, hd, hdue])]
  exact State.settleSeq_of_taken h hd

/-- R28, R36: the two records that close a test, `last` being the state in force in the last frame and `run` the frames
run. -/
def State.closingRecords (s : State) (r : EndReason) (last : Fin 32) (run : Nat) : List Made :=
  [⟨s.seq.testNumber, 16 * run, .stateSummary s.seq.stateInForce 255 s.seq.framesInState
      (Vector.ofFn fun c => s.eng[c].clip), false⟩,
    ⟨s.seq.testNumber, 16 * run, .testEnd r last run s.seq.entryCount, false⟩]

/-- R28, R36: what making the closing records does: the records, and TEST_ABNORMAL_END where the reason asks for it. -/
theorem State.summary_testEnd (s : State) (r : EndReason) (last : Fin 32) (run : Nat) :
    (s.summary 255 run).testEnd r last run = s.withRep { s.rep with
      made := s.rep.made ++ s.closingRecords r last run
      attention := if r.abnormal then upd s.rep.attention 3 true else s.rep.attention } := by
  have hmade : s.rep.made ++ s.closingRecords r last run = (s.summary 255 run).rep.made
      ++ [⟨s.seq.testNumber, 16 * run, .testEnd r last run s.seq.entryCount, false⟩] := by
    simp [State.closingRecords, State.summary, State.make, tab_eq_ofFn]
  rw [hmade]
  unfold State.testEnd
  cases r.abnormal <;> rfl

/-- R40: all that the return to IDLE does. -/
theorem State.returnToIdle_eq (s : State) : s.returnToIdle = { s with
    seq := { s.seq with phase := .idle, next := none, request := .none, latches := Vector.replicate 4 false }
    plan := { s.plan with verification := none }
    brk := ⟨Brk.initial s.plan.breaker, none, none, s.brk.count⟩
    lines := tab fun k => { s.lines[k] with mode := .low, deadline := none } } := rfl

/-- R35, R36, R40: all that the end of a test does. -/
theorem State.closeTest_eq (s : State) (r : EndReason) (last : Fin 32) (run : Nat) :
    s.closeTest r last run = { s with
      seq := { s.seq with
        phase := .idle, next := none, request := .none, latches := Vector.replicate 4 false, testFrame := run - 1 }
      plan := { s.plan with verification := none }
      brk := ⟨Brk.initial s.plan.breaker, none, none, s.brk.count⟩
      lines := tab fun k => { s.lines[k] with mode := .low, deadline := none }
      rep := { s.rep with
        made := s.rep.made ++ s.closingRecords r last run
        attention := if r.abnormal then upd s.rep.attention 3 true else s.rep.attention } } := by
  rw [State.closeTest, State.summary_testEnd, State.returnToIdle_eq]
  rfl

theorem EndReason.abnormal_iff (r : EndReason) :
    r.abnormal = true ↔ r = .aborted ∨ r = .channelFailed ∨ r = .streamLost := by
  cases r <;> simp [EndReason.abnormal]

/-- Settles O32, by `State.closeTest_eq`. -/
theorem testComplete : Obligations.TestComplete := by
  intro r s ht hp hd hr run abnormal
  have hsettle : s.settle .complete = s.closeTest r s.seq.stateInForce run := by simp [State.settle, hr, run]
  have hab : r.abnormal = true ↔ abnormal := EndReason.abnormal_iff r
  refine ⟨(s.settle .complete).toStage .settled, ?_, rfl, ?_⟩
  · exact congrArg Host.Outcome.next (State.sequencerStep_of_taken ht hd rfl)
  rw [hsettle, State.closeTest_eq]
  refine ⟨rfl, rfl, ?_, fun k => ?_, rfl, fun ha => ?_, fun ha => ?_, rfl, rfl, rfl, rfl, rfl,
    ⟨rfl, rfl, rfl, rfl, rfl, rfl⟩, rfl, rfl, fun a ha => ?_⟩
  · simp [State.toStage, Brk.initial_eq]
  · simp [State.toStage]
  · simp [State.toStage, hab.2 ha, upd]
  · simp [State.toStage, mt hab.1 ha]
  · have h3 : (3 : Nat) ≠ a := fun e => ha (Fin.ext e.symm)
    simp only [State.toStage, State.withFrame, Fin.getElem_fin]
    split
    · exact (upd_getElem _ _ _ _ _).trans (if_neg h3)
    · rfl

end Sys2Proof.Machine
end

