-- ==== Sys2Proof/Proofs/OfferAndClose.lean ====
section
/-! SUPPORT. What offering an event and closing the blocks (R34, R120, R126, R135, R136, R138) leave alone in the Report Unit,
and that they come to the same in two states that are alike in what they read. -/

namespace Sys2Proof.Machine

/-! ### What goes on in the Report Unit -/

/-- From `r` to `q` records have been made and the capture store has worked, and no more. -/
def Report.GoesOn (r q : Report) : Prop :=
  q.queue = r.queue ∧ q.discard = r.discard ∧ q.pause = r.pause ∧ q.lastItem = r.lastItem ∧ q.gateOpen = r.gateOpen

theorem Report.GoesOn.refl (r : Report) : r.GoesOn r := ⟨rfl, rfl, rfl, rfl, rfl⟩

theorem Report.GoesOn.trans {r q p : Report} (h : r.GoesOn q) (h' : q.GoesOn p) : r.GoesOn p := by
  unfold Report.GoesOn at *
  simp [h, h']

theorem State.foldl_goesOn {α : Type} {f : State → α → State} (hf : ∀ (s : State) (x : α), s.rep.GoesOn (f s x).rep)
    (l : List α) (s : State) : s.rep.GoesOn (l.foldl f s).rep := by
  induction l generalizing s with
  | nil => exact .refl _
  | cons x l ih => exact (hf s x).trans (ih _)

theorem State.make_goesOn (s : State) (n time : Nat) (b : Body) : s.rep.GoesOn (s.make n time b).rep := .refl _

theorem State.setActivity_goesOn (s : State) (a : Activity) : s.rep.GoesOn (s.setActivity a).rep := .refl _

theorem State.listBuffer_goesOn (s : State) (i : Fin 4) : s.rep.GoesOn (s.listBuffer i).rep := .refl _

theorem State.setBuffers_rep (s : State) (b : Vector Buffer 4) :
    (s.setBuffers b).rep = { s.rep with buffers := b, attention := (s.setBuffers b).rep.attention } :=
  (Report.setBuffers_spec s.rep b).1

theorem State.setBuffers_goesOn (s : State) (b : Vector Buffer 4) : s.rep.GoesOn (s.setBuffers b).rep := by
  rw [State.setBuffers_rep]
  exact .refl _

theorem State.captureStart_goesOn (s : State) : s.rep.GoesOn s.captureStart.rep := by
  unfold State.captureStart
  split
  · split
    · exact s.setBuffers_goesOn _
    · exact .refl _
  · exact .refl _

theorem State.stopSlot_goesOn (s : State) (k : Fin 8) (t : Nat) (bo : Bool) : s.rep.GoesOn (s.stopSlot k t bo).rep := by
  unfold State.stopSlot
  dsimp only
  (repeat' split) <;> exact .refl _

theorem State.offerSlot_goesOn (ev : Cond) (stamp : Nat) (bo : Bool) (s : State) (k : Fin 8) :
    s.rep.GoesOn (State.offerSlot ev stamp bo s k).rep := by
  unfold State.offerSlot
  dsimp only
  split
  case h_2 =>
    split
    · exact s.stopSlot_goesOn k stamp bo
    · exact .refl _
  all_goals (repeat' split) <;> exact .refl _

theorem State.offerTimers_goesOn (s : State) (ev : Cond) (stamp : Nat) (bo : Bool) :
    s.rep.GoesOn (s.offerTimers ev stamp bo).rep := by
  unfold State.offerTimers
  split
  · exact State.foldl_goesOn (State.offerSlot_goesOn ev stamp bo) _ s
  · exact .refl _

theorem State.offerCapture_rep (s : State) (ev : Cond) (stamp : Nat) :
    (s.offerCapture ev stamp).rep.made = s.rep.made ∧ s.rep.GoesOn (s.offerCapture ev stamp).rep := by
  unfold State.offerCapture
  dsimp only
  split
  · split
    · split
      · exact ⟨by rw [State.setBuffers_rep], s.setBuffers_goesOn _⟩
      · exact ⟨rfl, .refl _⟩
    · exact ⟨rfl, .refl _⟩
  · exact ⟨rfl, .refl _⟩

theorem State.offer_goesOn (s : State) (ev : Cond) (stamp : Nat) (bo : Bool) :
    s.rep.GoesOn (s.offer ev stamp bo).rep :=
  (s.offerTimers_goesOn ev stamp bo).trans ((s.offerTimers ev stamp bo).offerCapture_rep ev stamp).2

/-- R120, R136: what an event offered leaves alone. -/
theorem State.offered_kept (s : State) (ev : Cond) (stamp : Nat) :
    s.rep.GoesOn (s.offered ev stamp).rep ∧ (s.offered ev stamp).eng = s.eng ∧ (s.offered ev stamp).sup = s.sup
      ∧ (s.offered ev stamp).out = s.out :=
  ⟨s.offer_goesOn ev stamp false, by simp [State.offered], by simp [State.offered], by simp [State.offered]⟩

/-! ### The outcome of a slot at the closing (R126) -/

/-- R126: outcome, stamp and elapsed time with which slot `x` with record `r` is finalised, measuring to frame `e`, if it is. -/
def Slot.finalOutcome (x : Slot) (r : Payload) (e : Nat) : Option (TimerOutcome × Nat × Nat) :=
  match x.state with
  | .waiting => some (.notStarted, 16 * e, 0)
  | .running =>
    if x.expiry.getD 0 ≤ 16 * e then some (.timeout, x.expiry.getD 0, 16 * Timer.timeout r)
    else some (.cutShort, 16 * e, 16 * e - x.start.getD 0)
  | .disabled | .stopped | .expired => none

/-- R126, for slot `k`. -/
def State.finalOutcome (s : State) (e : Nat) (k : Fin 8) : Option (TimerOutcome × Nat × Nat) :=
  (s.timers.slots[k]).finalOutcome s.plan.timers[k] e

theorem State.finaliseSlot_eq (e : Nat) (s : State) (k : Fin 8) :
    State.finaliseSlot e s k = match s.finalOutcome e k with
      | some (o, time, elapsed) => (s.setSlot k { s.timers.slots[k] with outcome := some o }).make s.seq.testNumber time
          (s.timerBody k o elapsed false 0)
      | none => s := by
  unfold State.finaliseSlot State.finalOutcome Slot.finalOutcome
  dsimp only
  cases s.timers.slots[k].state with
  | running => dsimp only; split <;> rfl
  | _ => rfl

theorem State.finaliseSlot_goesOn (e : Nat) (s : State) (k : Fin 8) : s.rep.GoesOn (State.finaliseSlot e s k).rep := by
  rw [State.finaliseSlot_eq]
  split <;> exact .refl _

theorem State.finaliseTimers_goesOn (s : State) (e : Nat) : s.rep.GoesOn (s.finaliseTimers e).rep := by
  unfold State.finaliseTimers
  rw [State.withTimers_rep]
  exact State.foldl_goesOn (State.finaliseSlot_goesOn e) _ s

theorem State.captureClose_goesOn (s : State) (e : Nat) : s.rep.GoesOn (s.captureClose e).rep := by
  unfold State.captureClose
  refine .trans ?_ (State.setActivity_goesOn _ .off)
  split
  · dsimp only
    split
    · exact s.setBuffers_goesOn _
    · refine .trans ?_ (State.make_goesOn _ _ _ _)
      split
      · exact s.setBuffers_goesOn _
      · exact (s.setBuffers_goesOn _).trans (State.listBuffer_goesOn _ _)
  · exact .refl _

theorem State.closeEngine_goesOn (s : State) (e : Nat) : s.rep.GoesOn (s.closeEngine e).rep := by
  unfold State.closeEngine
  split <;> exact .refl _

theorem State.closeFailover_goesOn (s : State) (e : Nat) : s.rep.GoesOn (s.closeFailover e).rep := by
  unfold State.closeFailover
  rw [State.withSup_rep]
  exact (s.closeEngine_goesOn e).trans (State.foldl_goesOn (fun u c => u.make_goesOn _ _ _) _ _)

theorem State.closeBlocks_goesOn (s : State) (e : Nat) : s.rep.GoesOn (s.closeBlocks e).rep :=
  ((s.finaliseTimers_goesOn e).trans (State.captureClose_goesOn _ e)).trans (State.closeFailover_goesOn _ e)

/-! ### One slot at a time -/

theorem nodup_allFin {n : Nat} : (allFin n).Nodup := by
  unfold allFin
  exact List.nodup_ofFn.2 fun _ _ h => h

theorem State.setSlot_other {s : State} {j k : Fin 8} (h : j ≠ k) (x : Slot) :
    (s.setSlot k x).timers.slots[j] = s.timers.slots[j] := by
  have hv : (k : Nat) ≠ j := fun e => h (Fin.ext e.symm)
  simp [State.setSlot, hv]

theorem State.offerSlot_other {ev : Cond} {stamp : Nat} {bo : Bool} {s : State} {j k : Fin 8} (h : j ≠ k) :
    (State.offerSlot ev stamp bo s k).timers.slots[j] = s.timers.slots[j] := by
  unfold State.offerSlot State.stopSlot
  dsimp only
  (repeat' split) <;> simp [State.setSlot_other h]

/-! ### States that are alike in what offering and closing read -/

/-- `s` and `t` are alike in what the timers and the capture store read; the records made are `a` in `s` and `b` in `t`, then
the same ones. What replaces records, slots and buffers alike in both keeps the likeness. -/
structure State.Twin (a b : List Made) (s t : State) : Prop where
  recv : t.recv = s.recv
  plan : t.plan = s.plan
  timers : t.timers = s.timers
  frame : t.frame = s.frame
  testNumber : t.seq.testNumber = s.seq.testNumber
  testFrame : t.seq.testFrame = s.seq.testFrame
  rep : ∃ later : List Made, s.rep.made = a ++ later ∧ t.rep = { s.rep with made := b ++ later }

namespace State.Twin

variable {a b : List Made} {s t : State}

theorem buffers (h : Twin a b s t) : t.rep.buffers = s.rep.buffers := by
  obtain ⟨later, -, hr⟩ := h.rep
  rw [hr]

theorem sendList (h : Twin a b s t) : t.rep.sendList = s.rep.sendList := by
  obtain ⟨later, -, hr⟩ := h.rep
  rw [hr]

theorem activity (h : Twin a b s t) : t.rep.activity = s.rep.activity := by
  obtain ⟨later, -, hr⟩ := h.rep
  rw [hr]

theorem make (h : Twin a b s t) (n time : Nat) (x : Body) : Twin a b (s.make n time x) (t.make n time x) := by
  obtain ⟨later, hs, ht⟩ := h.rep
  exact ⟨h.recv, h.plan, h.timers, h.frame, h.testNumber, h.testFrame, later ++ [⟨n, time, x, false⟩],
    by simp [State.make, hs], by simp [State.make, ht]⟩

theorem withTimers (h : Twin a b s t) (x : TimerArray) : Twin a b (s.withTimers x) (t.withTimers x) :=
  ⟨h.recv, h.plan, rfl, h.frame, h.testNumber, h.testFrame, h.rep⟩

theorem setSlot (h : Twin a b s t) (k : Fin 8) (x : Slot) : Twin a b (s.setSlot k x) (t.setSlot k x) := by
  unfold State.setSlot
  rw [h.timers]
  exact h.withTimers _

/-- A change of the Report Unit that neither reads nor changes the records made. -/
theorem withRep (h : Twin a b s t) (f : Report → Report)
    (hf : ∀ (r : Report) (m : List Made), f { r with made := m } = { f r with made := m }) :
    Twin a b (s.withRep (f s.rep)) (t.withRep (f t.rep)) := by
  obtain ⟨later, hs, ht⟩ := h.rep
  exact ⟨h.recv, h.plan, h.timers, h.frame, h.testNumber, h.testFrame, later,
    (congrArg Report.made (hf s.rep s.rep.made)).trans hs, (congrArg f ht).trans (hf s.rep (b ++ later))⟩

theorem setActivity (h : Twin a b s t) (x : Activity) : Twin a b (s.setActivity x) (t.setActivity x) :=
  h.withRep (fun r => { r with activity := x }) fun _ _ => rfl

theorem listBuffer (h : Twin a b s t) (i : Fin 4) : Twin a b (s.listBuffer i) (t.listBuffer i) :=
  h.withRep (fun r => { r with sendList := r.sendList ++ [i] }) fun _ _ => rfl

theorem setBuffers (h : Twin a b s t) (x : Vector Buffer 4) : Twin a b (s.setBuffers x) (t.setBuffers x) := by
  refine h.withRep (fun r => r.setBuffers x) fun r m => ?_
  unfold Report.setBuffers
  dsimp only
  (repeat' split) <;> rfl

theorem captureStart (h : Twin a b s t) : Twin a b s.captureStart t.captureStart := by
  unfold State.captureStart
  rw [h.plan, h.buffers, h.sendList, h.testNumber, h.testFrame]
  split
  · split
    · exact (h.setBuffers _).setActivity _
    · exact (h.setActivity _).make _ _ _
  · exact h.setActivity _

theorem timerBody (h : Twin a b s t) (he : t.eng = s.eng) (k : Fin 8) (o : TimerOutcome) (elapsed : Nat) (bo : Bool)
    (lag : Nat) : t.timerBody k o elapsed bo lag = s.timerBody k o elapsed bo lag := by
  simp only [State.timerBody, State.probeGain, h.timers, h.plan, h.recv, h.frame, he]

theorem stopSlot (h : Twin a b s t) (he : t.eng = s.eng) (k : Fin 8) (time : Nat) (bo : Bool) :
    Twin a b (s.stopSlot k time bo) (t.stopSlot k time bo) := by
  unfold State.stopSlot
  dsimp only
  rw [h.timers, h.timerBody he, h.testNumber, h.testFrame]
  split
  · exact h.setSlot _ _
  · split
    · exact (h.setSlot _ _).make _ _ _
    · exact h

/-- R120: an event is offered alike; the channels are read where it stops a slot, so by a RUNNING one alone. -/
theorem offerSlot (h : Twin a b s t) (ev : Cond) (stamp : Nat) (bo : Bool) (k : Fin 8)
    (he : t.eng = s.eng ∨ s.timers.slots[k].state ≠ .running) :
    Twin a b (State.offerSlot ev stamp bo s k) (State.offerSlot ev stamp bo t k) := by
  unfold State.offerSlot
  dsimp only
  rw [h.timers, h.plan, h.frame]
  split
  · split
    · exact h.setSlot _ _
    · split
      · exact h.setSlot _ _
      · exact h
  · next hx =>
    split
    · exact h.stopSlot (he.resolve_right (not_not_intro hx)) k stamp bo
    · exact h
  all_goals exact h

theorem offerSlots (h : Twin a b s t) (ev : Cond) (stamp : Nat) (bo : Bool) (l : List (Fin 8)) (hl : l.Nodup)
    (he : t.eng = s.eng ∨ ∀ k ∈ l, s.timers.slots[k].state ≠ .running) :
    Twin a b (l.foldl (State.offerSlot ev stamp bo) s) (l.foldl (State.offerSlot ev stamp bo) t) := by
  induction l generalizing s t with
  | nil => exact h
  | cons k l ih =>
    obtain ⟨hk, hl⟩ := List.nodup_cons.1 hl
    refine ih (h.offerSlot ev stamp bo k (he.imp_right fun hn => hn k (by simp))) hl (he.imp (by simp) fun hn j hj => ?_)
    rw [State.offerSlot_other (ne_of_mem_of_not_mem hj hk)]
    exact hn j (by simp [hj])

theorem offerTimers (h : Twin a b s t) (ev : Cond) (stamp : Nat) (bo : Bool)
    (he : t.eng = s.eng ∨ ∀ k : Fin 8, s.timers.slots[k].state ≠ .running) :
    Twin a b (s.offerTimers ev stamp bo) (t.offerTimers ev stamp bo) := by
  unfold State.offerTimers
  rw [h.timers]
  split
  · exact h.offerSlots ev stamp bo _ nodup_allFin (he.imp_right fun hn k _ => hn k)
  · exact h

theorem offerCapture (h : Twin a b s t) (ev : Cond) (stamp : Nat) :
    Twin a b (s.offerCapture ev stamp) (t.offerCapture ev stamp) := by
  unfold State.offerCapture
  rw [h.plan, h.buffers, h.activity, h.testFrame]
  split
  · split
    · dsimp only
      split
      · exact h.setBuffers _
      · exact h
    · exact h
  · exact h

/-- R120, R136. -/
theorem offer (h : Twin a b s t) (ev : Cond) (stamp : Nat) (bo : Bool)
    (he : t.eng = s.eng ∨ ∀ k : Fin 8, s.timers.slots[k].state ≠ .running) :
    Twin a b (s.offer ev stamp bo) (t.offer ev stamp bo) :=
  (h.offerTimers ev stamp bo he).offerCapture ev stamp

theorem finaliseSlot (h : Twin a b s t) (he : t.eng = s.eng) (e : Nat) (k : Fin 8) :
    Twin a b (State.finaliseSlot e s k) (State.finaliseSlot e t k) := by
  have ho : t.finalOutcome e k = s.finalOutcome e k := by simp only [State.finalOutcome, h.timers, h.plan]
  rw [State.finaliseSlot_eq, State.finaliseSlot_eq, ho]
  split
  · rw [h.timers, h.testNumber, h.timerBody he]
    exact (h.setSlot _ _).make _ _ _
  · exact h

theorem finaliseSlots (h : Twin a b s t) (he : t.eng = s.eng) (e : Nat) (l : List (Fin 8)) :
    Twin a b (l.foldl (State.finaliseSlot e) s) (l.foldl (State.finaliseSlot e) t) := by
  induction l generalizing s t with
  | nil => exact h
  | cons k l ih => exact ih (h.finaliseSlot he e k) (by simp [he])

theorem finaliseTimers (h : Twin a b s t) (he : t.eng = s.eng) (e : Nat) :
    Twin a b (s.finaliseTimers e) (t.finaliseTimers e) := by
  have hs := h.finaliseSlots he e (allFin 8)
  unfold State.finaliseTimers
  dsimp only
  rw [hs.timers]
  exact hs.withTimers _

theorem captureClose (h : Twin a b s t) (e : Nat) : Twin a b (s.captureClose e) (t.captureClose e) := by
  unfold State.captureClose
  refine setActivity ?_ .off
  rw [h.buffers, h.testNumber]
  split
  · dsimp only
    split
    · exact h.setBuffers _
    · refine make ?_ _ _ _
      split
      · exact h.setBuffers _
      · exact (h.setBuffers _).listBuffer _
  · exact h

end State.Twin

/-- `s` and `t` are alike in what the supervisor reads too. -/
structure State.FullTwin (a b : List Made) (s t : State) : Prop extends State.Twin a b s t where
  out : t.out = s.out
  sup : t.sup = s.sup

namespace State.FullTwin

variable {a b : List Made} {s t : State}

theorem make (h : FullTwin a b s t) (n time : Nat) (x : Body) : FullTwin a b (s.make n time x) (t.make n time x) :=
  ⟨h.toTwin.make n time x, h.out, h.sup⟩

theorem withSup (h : FullTwin a b s t) (x : Supervisor) : FullTwin a b (s.withSup x) (t.withSup x) :=
  ⟨⟨h.recv, h.plan, h.timers, h.frame, h.testNumber, h.testFrame, h.rep⟩, h.out, rfl⟩

theorem withOut (h : FullTwin a b s t) (x : OutputStage) : FullTwin a b (s.withOut x) (t.withOut x) :=
  ⟨⟨h.recv, h.plan, h.timers, h.frame, h.testNumber, h.testFrame, h.rep⟩, rfl, h.sup⟩

theorem setEngine (h : FullTwin a b s t) (x : FailoverEngine) : FullTwin a b (s.setEngine x) (t.setEngine x) := by
  unfold State.setEngine
  rw [h.sup]
  exact h.withSup _

theorem moveMap (h : FullTwin a b s t) (x : FailoverCtx) : FullTwin a b (s.moveMap x) (t.moveMap x) := by
  unfold State.moveMap State.setMap State.setChan
  simp only [State.withOut_sup, h.sup, h.out]
  exact (h.withOut _).withSup _

theorem closeEngine (h : FullTwin a b s t) (e : Nat) : FullTwin a b (s.closeEngine e) (t.closeEngine e) := by
  unfold State.closeEngine
  rw [h.sup, h.testNumber]
  split
  · exact h
  · exact (h.make _ _ _).setEngine _
  · exact ((h.moveMap _).make _ _ _).setEngine _

theorem abandonRequests (h : FullTwin a b s t) (e : Nat) (l : List (Fin 12)) :
    FullTwin a b (l.foldl (State.abandonRequest e) s) (l.foldl (State.abandonRequest e) t) := by
  induction l generalizing s t with
  | nil => exact h
  | cons c l ih =>
    refine ih ?_
    unfold State.abandonRequest
    rw [h.testNumber, h.out]
    exact h.make _ _ _

/-- R88. -/
theorem closeFailover (h : FullTwin a b s t) (e : Nat) : FullTwin a b (s.closeFailover e) (t.closeFailover e) := by
  unfold State.closeFailover
  dsimp only
  rw [(h.closeEngine e).sup]
  have hl := (h.closeEngine e).abandonRequests e (s.closeEngine e).sup.requests
  rw [hl.sup]
  exact hl.withSup _

/-- R34, R168. -/
theorem closeBlocks (h : FullTwin a b s t) (he : t.eng = s.eng) (e : Nat) :
    FullTwin a b (s.closeBlocks e) (t.closeBlocks e) := by
  have hc : FullTwin a b ((s.finaliseTimers e).captureClose e) ((t.finaliseTimers e).captureClose e) :=
    ⟨(h.toTwin.finaliseTimers he e).captureClose e, by simpa using h.out, by simpa using h.sup⟩
  exact hc.closeFailover e

end State.FullTwin

end Sys2Proof.Machine
end

