-- ==== Sys2Proof/Proofs/EndOfATest.lean ====
section
/-! SUPPORT. What the entry to ENDING makes of the blocks, with F = 0 too (R33 to R36, R40, R88, R126, R138). -/

namespace Sys2Proof.Machine

/-! ### The closing of the blocks -/

/-- From `s` to `t` records have been made, and nothing else is changed in the Report Unit. -/
def State.OnlyMakes (s t : State) : Prop := ∃ later : List Made, t.rep = { s.rep with made := s.rep.made ++ later }

theorem State.OnlyMakes.of_rep {s t : State} (h : t.rep = s.rep) : s.OnlyMakes t := ⟨[], by simp [h]⟩

theorem State.OnlyMakes.trans {s t u : State} (h : s.OnlyMakes t) (h' : t.OnlyMakes u) : s.OnlyMakes u := by
  obtain ⟨x, hx⟩ := h
  obtain ⟨y, hy⟩ := h'
  exact ⟨x ++ y, by simp [hy, hx]⟩

theorem State.OnlyMakes.made {s t : State} (h : s.OnlyMakes t) : s.rep.made <+: t.rep.made := by
  obtain ⟨x, hx⟩ := h
  exact ⟨x, by rw [hx]⟩

theorem State.foldl_onlyMakes {α : Type} {f : State → α → State} (hf : ∀ (s : State) (x : α), s.OnlyMakes (f s x))
    (l : List α) (s : State) : s.OnlyMakes (l.foldl f s) := by
  induction l generalizing s with
  | nil => exact .of_rep rfl
  | cons x l ih => exact (hf s x).trans (ih _)

theorem State.make_onlyMakes (s : State) (n time : Nat) (b : Body) : s.OnlyMakes (s.make n time b) := ⟨[_], rfl⟩

theorem State.closeEngine_onlyMakes (s : State) (e : Nat) : s.OnlyMakes (s.closeEngine e) := by
  unfold State.closeEngine
  split
  · exact .of_rep rfl
  · exact s.make_onlyMakes _ _ _
  · next x _ => exact (s.moveMap x).make_onlyMakes _ _ _

theorem State.closeFailover_onlyMakes (s : State) (e : Nat) : s.OnlyMakes (s.closeFailover e) := by
  have hl := State.foldl_onlyMakes (f := State.abandonRequest e) (fun u c => u.make_onlyMakes _ _ _)
    (s.closeEngine e).sup.requests (s.closeEngine e)
  exact ((s.closeEngine_onlyMakes e).trans hl).trans (.of_rep rfl)

theorem State.captureClose_made (s : State) (e : Nat) : s.rep.made <+: (s.captureClose e).rep.made := by
  have hb (x : Vector Buffer 4) : (s.setBuffers x).rep.made = s.rep.made := by rw [State.setBuffers_rep]
  have hset (v : State) (x : Activity) : (v.setActivity x).rep.made = v.rep.made := rfl
  unfold State.captureClose
  rw [hset]
  split
  · dsimp only
    split
    · rw [hb]
    · refine .trans ?_ (State.make_onlyMakes _ _ _ _).made
      split
      · rw [hb]
      · rw [State.listBuffer, State.withRep_rep, hb]
  · exact List.prefix_refl _

/-- R88: the failover engine is QUIET, the list empty; of the output stage the map alone may be another. -/
theorem State.closeFailover_spec (s : State) (e : Nat) :
    (s.closeFailover e).sup.engine = .quiet ∧ (s.closeFailover e).sup.requests = []
      ∧ (s.closeFailover e).out = { s.out with map := (s.closeFailover e).out.map } := by
  have hsup : (s.closeFailover e).sup = { (s.closeEngine e).sup with requests := [] } := by
    simp [State.closeFailover]
  have hout : (s.closeFailover e).out = (s.closeEngine e).out := by simp [State.closeFailover]
  rw [hsup, hout]
  unfold State.closeEngine
  split
  · next h => exact ⟨h, rfl, rfl⟩
  · exact ⟨rfl, rfl, rfl⟩
  · exact ⟨rfl, rfl, rfl⟩

/-- R34, R88, R126, R138: what stands once the blocks are closed. -/
theorem State.closeBlocks_spec (s : State) (e : Nat) :
    (s.closeBlocks e).timers.gate = false ∧ (s.closeBlocks e).rep.activity = .off
      ∧ (s.closeBlocks e).sup.engine = .quiet ∧ (s.closeBlocks e).sup.requests = []
      ∧ (s.closeBlocks e).out = { s.out with map := (s.closeBlocks e).out.map } := by
  obtain ⟨later, hrep⟩ := ((s.finaliseTimers e).captureClose e).closeFailover_onlyMakes e
  obtain ⟨hengine, hrequests, hout⟩ := ((s.finaliseTimers e).captureClose e).closeFailover_spec e
  refine ⟨by simp [State.closeBlocks, State.finaliseTimers], ?_, hengine, hrequests, ?_⟩
  · rw [State.closeBlocks, hrep]
    rfl
  · simpa [State.closeBlocks] using hout

/-! ### The slots finalised (R126) -/

theorem State.finaliseSlot_other {e : Nat} {s : State} {j k : Fin 8} (h : j ≠ k) :
    (State.finaliseSlot e s k).timers.slots[j] = s.timers.slots[j] := by
  rw [State.finaliseSlot_eq]
  split
  · exact State.setSlot_other h _
  · rfl

/-- R126: slot `k` as it is finalised. -/
def State.finalSlot (s : State) (e : Nat) (k : Fin 8) : Slot :=
  match s.finalOutcome e k with
  | some (o, _, _) => { s.timers.slots[k] with outcome := some o }
  | none => s.timers.slots[k]

/-- R126, R127: the result of slot `k` as it is finalised. -/
def State.finalRecord (s : State) (e : Nat) (k : Fin 8) : Option Made :=
  (s.finalOutcome e k).map fun o => ⟨s.seq.testNumber, o.2.1, s.timerBody k o.1 o.2.2 false 0, false⟩

theorem State.finaliseSlot_self (s : State) (e : Nat) (k : Fin 8) :
    (State.finaliseSlot e s k).timers.slots[k] = s.finalSlot e k
      ∧ (State.finaliseSlot e s k).rep.made = s.rep.made ++ (s.finalRecord e k).toList := by
  rw [State.finaliseSlot_eq]
  unfold State.finalSlot State.finalRecord
  rcases s.finalOutcome e k with _ | ⟨o, time, elapsed⟩
  · simp
  · exact ⟨State.setSlot_slot s k _, rfl⟩

theorem State.finaliseSlots_spec (e : Nat) (l : List (Fin 8)) (hl : l.Nodup) (s : State) :
    (∀ j : Fin 8, (l.foldl (State.finaliseSlot e) s).timers.slots[j] =
        if j ∈ l then s.finalSlot e j else s.timers.slots[j])
      ∧ (l.foldl (State.finaliseSlot e) s).rep.made = s.rep.made ++ l.filterMap (s.finalRecord e) := by
  induction l generalizing s with
  | nil => simp
  | cons k l ih =>
    obtain ⟨hk, hl⟩ := List.nodup_cons.1 hl
    obtain ⟨hslots, hmade⟩ := ih hl (State.finaliseSlot e s k)
    obtain ⟨hself, hrecord⟩ := s.finaliseSlot_self e k
    have houtcome (j : Fin 8) (h : j ≠ k) : (State.finaliseSlot e s k).finalOutcome e j = s.finalOutcome e j := by
      simp only [State.finalOutcome, State.finaliseSlot_other h, State.finaliseSlot_frame]
    refine ⟨fun j => ?_, ?_⟩
    · rw [List.foldl_cons, hslots j]
      by_cases hjk : j = k
      · subst hjk
        simp [hk, hself]
      · simp only [List.mem_cons, hjk, false_or, State.finalSlot, houtcome j hjk, State.finaliseSlot_other hjk]
    · have hl' : l.filterMap ((State.finaliseSlot e s k).finalRecord e) = l.filterMap (s.finalRecord e) := by
        refine List.filterMap_congr fun j hj => ?_
        have hjk : j ≠ k := ne_of_mem_of_not_mem hj hk
        simp only [State.finalRecord, houtcome j hjk, State.timerBody, State.probeGain, State.finaliseSlot_other hjk,
          State.finaliseSlot_frame]
      rw [List.foldl_cons, hmade, hl', hrecord, List.filterMap_cons]
      cases s.finalRecord e k <;> simp

/-- R126: every slot is finalised, and the results stand among the records made in the closing. -/
theorem State.closeBlocks_slot (s : State) (e : Nat) (k : Fin 8) :
    (s.closeBlocks e).timers.slots[k] = s.finalSlot e k
      ∧ ∀ m : Made, s.finalRecord e k = some m → m ∈ (s.closeBlocks e).rep.made := by
  obtain ⟨hslots, hmade⟩ := State.finaliseSlots_spec e (allFin 8) nodup_allFin s
  have htimers : (s.closeBlocks e).timers.slots = ((allFin 8).foldl (State.finaliseSlot e) s).timers.slots := by
    simp [State.closeBlocks, State.finaliseTimers]
  refine ⟨?_, fun m hm => ?_⟩
  · simp only [htimers]
    exact (hslots k).trans (if_pos (mem_allFin k))
  · have hfinal : m ∈ (s.finaliseTimers e).rep.made := by
      rw [State.finaliseTimers, State.withTimers_rep, hmade]
      exact List.mem_append_right _ (List.mem_filterMap.2 ⟨k, mem_allFin k, hm⟩)
    exact (State.closeFailover_onlyMakes _ e).made.subset ((State.captureClose_made _ e).subset hfinal)

/-! ### The entry to ENDING (R34) -/

/-- R34: the Sequencer as ENDING begins. -/
def Sequencer.toEnding (q : Sequencer) (r : EndReason) : Sequencer :=
  { q with phase := .ending, request := .none, latches := Vector.replicate 4 false, countdown := 1, endReason := some r }

/-- R34: the state as ENDING begins, the blocks closed. -/
def State.toEnding (s : State) (r : EndReason) : State := (s.withSeq (s.seq.toEnding r)).closeBlocks s.seq.testFrame

theorem State.toEnding_seq (s : State) (r : EndReason) : (s.toEnding r).seq = s.seq.toEnding r := by
  simp [State.toEnding]

theorem State.beginEnding_of_fade {s : State} (h : s.fade ≠ 0) (r : EndReason) (own : Nat) (last : Fin 32) :
    s.beginEnding r own last = s.toEnding r := if_neg h

theorem State.beginEnding_of_no_fade {s : State} (h : s.fade = 0) (r : EndReason) (own : Nat) (last : Fin 32) :
    s.beginEnding r own last = ((s.toEnding r).withSeq { s.seq.toEnding r with framesInState := own }).closeTest r last
      s.seq.testFrame := by
  rw [← State.toEnding_seq]
  unfold State.beginEnding State.toEnding Sequencer.toEnding
  rw [if_pos h]

theorem State.FullTwin.withSeq {a b : List Made} {s t : State} (h : State.FullTwin a b s t) {q : Sequencer}
    (hn : q.testNumber = t.seq.testNumber) (hf : q.testFrame = t.seq.testFrame) : State.FullTwin a b s (t.withSeq q) :=
  ⟨⟨h.recv, h.plan, h.timers, h.frame, hn.trans h.testNumber, hf.trans h.testFrame, h.rep⟩, h.out, h.sup⟩

theorem State.FullTwin.toEnding {a b : List Made} {u s : State} (h : State.FullTwin a b u s) (he : s.eng = u.eng)
    (r : EndReason) : State.FullTwin a b (u.closedAt s.seq.testFrame) (s.toEnding r) :=
  (h.withSeq (q := s.seq.toEnding r) rfl rfl).closeBlocks (by simpa using he) s.seq.testFrame

/-- R34, R35: all that the entry to ENDING does, once the blocks are closed as in `ended`. -/
theorem State.beginEnding_spec {a b : List Made} {ended s t : State} {r : EndReason} {own : Nat} {last : Fin 32}
    (h : State.FullTwin a b ended (s.toEnding r)) (ht : s.beginEnding r own last = t) :
    t.timers = ended.timers ∧ t.sup = ended.sup ∧ t.out = ended.out
    ∧ t.seq = { s.seq.toEnding r with
        phase := t.seq.phase, next := t.seq.next, framesInState := t.seq.framesInState, testFrame := t.seq.testFrame }
    ∧ t.rep = { ended.rep with made := t.rep.made, attention := t.rep.attention }
    ∧ ∃ later : List Made, ended.rep.made = a ++ later
      ∧ (s.fade ≠ 0 → t.seq = s.seq.toEnding r ∧ t.plan = s.plan ∧ t.rep = { ended.rep with made := b ++ later })
      ∧ (s.fade = 0 → t.plan = { s.plan with verification := none }
          ∧ t.seq = { s.seq.toEnding r with
              phase := .idle, next := none, framesInState := own, testFrame := s.seq.testFrame - 1 }
          ∧ t.rep = { ended.rep with
              made := b ++ later ++ (s.withSeq { s.seq with framesInState := own }).closingRecords r last s.seq.testFrame
              attention := if r.abnormal then upd ended.rep.attention 3 true else ended.rep.attention }) := by
  have hplan : (s.toEnding r).plan = s.plan := by simp [State.toEnding]
  have heng : (s.toEnding r).eng = s.eng := by simp [State.toEnding]
  have hseq := s.toEnding_seq r
  obtain ⟨later, hmade, hrep⟩ := h.rep
  by_cases hfade : s.fade = 0
  · rw [State.beginEnding_of_no_fade hfade, State.closeTest_eq] at ht
    generalize s.toEnding r = v at *
    subst ht
    refine ⟨h.timers, h.sup, h.out, rfl, ?_, later, hmade, fun h => absurd hfade h, fun _ => ⟨?_, rfl, ?_⟩⟩
    · rw [State.withSeq_rep, hrep]
    · rw [State.withSeq_plan, hplan]
    · simp [hrep, State.closingRecords, Sequencer.toEnding, heng]
  · rw [State.beginEnding_of_fade hfade] at ht
    rw [ht] at h hrep hseq hplan
    exact ⟨h.timers, h.sup, h.out, by rw [hseq], by rw [hrep], later, hmade, fun _ => ⟨hseq, hplan, hrep⟩,
      fun h => absurd h hfade⟩

/-! ### Results in the words of the rules (R125, R127, R128) -/

theorem micros_eq (elapsed cadence : Nat) : micros elapsed cadence = elapsedMicros elapsed cadence := by
  simp only [micros, elapsedMicros, max32, roundHalfUp]
  omega

theorem State.probeGain_eq (s : State) (c : Fin 12) : s.probeGain c = s.frameGain c := by
  simp [State.probeGain, State.frameGain]

theorem Timer.timeout_eq (p : Payload) : Timer.timeout p = 256 * p[5].toNat + p[6].toNat := Payload.u16_eq p 5 (by omega)

theorem Timer.probe_eq (p : Payload) : Timer.probe p = Fin.ofNat 12 p[7].toNat := by
  rw [Timer.probe, Payload.u8_eq p 7 (by omega)]

/-- R126 to R128: slot `k` is finalised with outcome `o`; its result stands in `made`. -/
def State.Finalised (s t : State) (k : Fin 8) (o : TimerOutcome) (time elapsed start : Nat) : Prop :=
  t.timers.slots[k] = { s.timers.slots[k] with outcome := some o }
    ∧ ⟨s.seq.testNumber, time, .timerResult k o start elapsed (elapsedMicros elapsed s.recv.cadenceNow)
        s.timers.slots[k].early s.timers.slots[k].disturbed s.timers.slots[k].startBo false
        (Fin.ofNat 12 (s.plan.timers[k])[7].toNat) (s.frameGain (Fin.ofNat 12 (s.plan.timers[k])[7].toNat)) 0, false⟩
      ∈ t.rep.made

theorem State.Finalised.of_outcome {s t : State} {e : Nat} {k : Fin 8} (hslot : t.timers.slots[k] = s.finalSlot e k)
    (hmade : ∀ m : Made, s.finalRecord e k = some m → m ∈ t.rep.made) {o : TimerOutcome} {time elapsed : Nat}
    (h : s.finalOutcome e k = some (o, time, elapsed)) :
    s.Finalised t k o time elapsed (if o = .notStarted then 0 else s.timers.slots[k].start.getD 0) := by
  refine ⟨by rw [hslot, State.finalSlot, h], hmade _ ?_⟩
  rw [State.finalRecord, h]
  simp only [Option.map_some, State.timerBody, micros_eq, State.probeGain_eq, Timer.probe_eq]

theorem Slot.finalOutcome_waiting {x : Slot} (h : x.state = .waiting) (r : Payload) (e : Nat) :
    x.finalOutcome r e = some (.notStarted, 16 * e, 0) := by simp [Slot.finalOutcome, h]

theorem Slot.finalOutcome_running {x : Slot} {d : Nat} (h : x.state = .running) (hd : x.expiry = some d) (r : Payload)
    (e : Nat) : x.finalOutcome r e =
      if d ≤ 16 * e then some (.timeout, d, 16 * (256 * r[5].toNat + r[6].toNat))
      else some (.cutShort, 16 * e, 16 * e - x.start.getD 0) := by
  simp [Slot.finalOutcome, h, hd, Timer.timeout_eq]

theorem Slot.finalOutcome_other {x : Slot} (h : x.state = .disabled ∨ x.state = .stopped ∨ x.state = .expired) (r : Payload)
    (e : Nat) : x.finalOutcome r e = none := by
  rcases h with h | h | h <;> simp [Slot.finalOutcome, h]

/-- R126: a WAITING, a RUNNING and any other slot, as they are finalised. -/
theorem State.finalised_cases {s t : State} {e : Nat} {k : Fin 8} (hslot : t.timers.slots[k] = s.finalSlot e k)
    (hmade : ∀ m : Made, s.finalRecord e k = some m → m ∈ t.rep.made) :
    let x := s.timers.slots[k]
    (x.state = .waiting → s.Finalised t k .notStarted (16 * e) 0 0)
    ∧ (∀ a d : Nat, x.state = .running → x.start = some a → x.expiry = some d →
        (d ≤ 16 * e → s.Finalised t k .timeout d
          (16 * (256 * (s.plan.timers[k])[5].toNat + (s.plan.timers[k])[6].toNat)) a)
        ∧ (16 * e < d → s.Finalised t k .cutShort (16 * e) (16 * e - a) a))
    ∧ ((x.state = .disabled ∨ x.state = .stopped ∨ x.state = .expired) → t.timers.slots[k] = x) := by
  intro x
  have started {o : TimerOutcome} {time elapsed a : Nat} (hn : o ≠ .notStarted) (ha : x.start = some a)
      (h : s.finalOutcome e k = some (o, time, elapsed)) : s.Finalised t k o time elapsed a := by
    have hf := State.Finalised.of_outcome hslot hmade h
    rwa [if_neg hn, show s.timers.slots[k].start = some a from ha] at hf
  refine ⟨fun hx => ?_, fun a d hx ha hd => ⟨fun h => ?_, fun h => ?_⟩, fun hx => ?_⟩
  · exact State.Finalised.of_outcome hslot hmade (o := .notStarted) (Slot.finalOutcome_waiting hx _ e)
  · exact started (by decide) ha ((Slot.finalOutcome_running hx hd _ e).trans (if_pos h))
  · refine started (by decide) ha ((Slot.finalOutcome_running hx hd _ e).trans ?_)
    rw [if_neg (Nat.not_le.2 h), ha]
    rfl
  · have ho : s.finalOutcome e k = none := Slot.finalOutcome_other hx _ e
    rw [hslot, State.finalSlot, ho]

/-! ### END_REQUEST and DURATION_LIMIT (R30, R33) -/

/-- The Sequencer's test frame moved on to `n`, and nothing else. -/
def State.atFrame (s : State) (n : Nat) : State := { s with seq := { s.seq with testFrame := n } }

/-- R36: the end of a test touches no attention condition but TEST_ABNORMAL_END. -/
theorem attention_closed (r : EndReason) (v : Vector Bool 6) {a : Fin 6} (ha : a ≠ 3) :
    (if r.abnormal then upd v 3 true else v)[a] = v[a] := by
  have h3 : (3 : Nat) ≠ a := fun e => ha (Fin.ext e.symm)
  cases r.abnormal
  · rfl
  · exact (upd_getElem _ _ _ _ _).trans (if_neg h3)

theorem State.withSeq_fade (s : State) (q : Sequencer) : (s.withSeq q).fade = s.fade := by
  rw [State.fade, State.withSeq_plan, State.fade]

theorem State.endRunning_eq (s : State) (r : EndReason) :
    (s.withSeq s.seq.count).beginEnding r s.seq.framesInState s.seq.stateInForce = s.endRunning r := rfl

/-- R34: at the end of RUNNING the blocks are closed as they stand, measuring to the frame that begins. -/
theorem State.endRunning_twin (s : State) (r : EndReason) :
    State.FullTwin s.rep.made s.rep.made ((s.atFrame (s.seq.testFrame + 1)).closedAt (s.seq.testFrame + 1))
      ((s.withSeq s.seq.count).toEnding r) := by
  have h : State.FullTwin s.rep.made s.rep.made (s.atFrame (s.seq.testFrame + 1)) (s.withSeq s.seq.count) :=
    ⟨⟨rfl, rfl, rfl, rfl, rfl, rfl, [], by simp [State.atFrame], by simp [State.atFrame]⟩, rfl, rfl⟩
  exact h.toEnding rfl r

theorem State.endRunning_lines (s : State) (r : EndReason) :
    (s.fade ≠ 0 → (s.endRunning r).brk = s.brk ∧ (s.endRunning r).lines = s.lines)
      ∧ (s.fade = 0 → (s.endRunning r).AtHome s.brk.count) := by
  have h := (s.withSeq s.seq.count).beginEnding_lines r s.seq.framesInState s.seq.stateInForce
  rw [State.endRunning_eq, State.withSeq_fade] at h
  exact h

theorem exec_endOfRunning {c : Instr} {r : EndReason} {s : State} (ht : s.frame.stage = .taken)
    (hc : (c = .endRequest ∧ s.frame.decision = .stop r)
      ∨ (c = .durationLimit ∧ s.frame.decision = .duration ∧ r = .duration)) :
    exec c s = .next ((s.endRunning r).toStage .settled) := by
  rcases hc with ⟨rfl, hd⟩ | ⟨rfl, hd, rfl⟩
  · exact congrArg Host.Outcome.next (State.sequencerStep_of_taken ht hd rfl)
  · exact congrArg Host.Outcome.next (State.sequencerStep_of_taken ht hd rfl)

/-- Settles O31: what the entry to ENDING does by `State.beginEnding_spec`, the slots by `State.finalised_cases`. -/
theorem endOfRunning : Obligations.EndOfRunning := by
  intro c r s ht hp hc frame abnormal ended
  have hexec := exec_endOfRunning ht hc
  have hab : r.abnormal = true ↔ abnormal := r.abnormal_iff
  have hlines := s.endRunning_lines r
  have hplan := s.endRunning_definition r
  obtain ⟨hrecv, hclock, heng, hscan, hreply, hevent, hanswer, hdrive, hchoices, hpending⟩ := s.endRunning_frame r
  have hclosed : (s.atFrame frame).closeBlocks frame = ended := rfl
  have hblocks := (s.atFrame frame).closeBlocks_spec frame
  have hgoes := (s.atFrame frame).closeBlocks_goesOn frame
  have hslots (k : Fin 8) := (s.atFrame frame).closeBlocks_slot frame k
  have hend := State.beginEnding_spec (s.endRunning_twin r) (s.endRunning_eq r)
  have hended : (s.atFrame (s.seq.testFrame + 1)).closedAt (s.seq.testFrame + 1) = ended := rfl
  rw [hended] at hend
  simp only [hclosed] at hblocks hgoes hslots
  clear_value ended
  generalize s.endRunning r = w at *
  obtain ⟨hgate, hactivity, hengine, hrequests, hmap⟩ := hblocks
  obtain ⟨hqueue, hdiscard, hpause, hlast, hgateOpen⟩ := hgoes
  obtain ⟨htimers, hsup, hout, hseq, hrep, later, hmade, hfade, hnofade⟩ := hend
  have hattention (a : Fin 6) (ha : a ≠ 3) : w.rep.attention[a] = ended.rep.attention[a] := by
    by_cases hf : s.fade = 0
    · rw [(hnofade hf).2.2]
      exact attention_closed r _ ha
    · rw [(hfade hf).2.2]
  have hprefix : ended.rep.made <+: w.rep.made := by
    rw [hmade]
    by_cases hf : s.fade = 0
    · rw [(hnofade hf).2.2]
      exact List.prefix_append _ _
    · rw [(hfade hf).2.2]
  have hstate := congrArg Sequencer.stateInForce hseq
  have hcount := congrArg Sequencer.entryCount hseq
  have hnumber := congrArg Sequencer.testNumber hseq
  refine ⟨w.toStage .settled, hexec, rfl, congrArg Sequencer.endReason hseq, congrArg Sequencer.request hseq,
    congrArg Sequencer.latches hseq, hstate, hcount, hnumber, htimers ▸ hgate,
    (congrArg Report.activity hrep).trans hactivity, hsup ▸ hengine, hsup ▸ hrequests, hscan,
    ⟨hrecv, hclock, hreply, hanswer, hdrive, hpending⟩, heng, hchoices, ?_, hout, hsup, htimers, hrep, hattention, hplan,
    (congrArg Report.queue hrep).trans hqueue, (congrArg Report.discard hrep).trans hdiscard,
    (congrArg Report.pause hrep).trans hpause, (congrArg Report.lastItem hrep).trans hlast,
    (congrArg Report.gateOpen hrep).trans hgateOpen, fun k => ?_, fun hf => ?_, fun hf => ?_⟩
  · show w.out = { s.out with map := w.out.map }
    rw [hout]
    exact hmap
  · obtain ⟨hslot, hrecord⟩ := hslots k
    have hslot' : (w.toStage .settled).timers.slots[k] = (s.atFrame frame).finalSlot frame k := by
      rw [← hslot]
      simp [State.toStage, htimers]
    exact State.finalised_cases (s := s.atFrame frame) hslot' fun m hm => hprefix.subset (hrecord m hm)
  · obtain ⟨hq, -, hr⟩ := hfade hf
    obtain ⟨hbrk, hlns⟩ := hlines.1 hf
    exact ⟨congrArg Sequencer.phase hq, congrArg Sequencer.countdown hq, congrArg Sequencer.testFrame hq,
      congrArg Sequencer.framesInState hq, hbrk, hlns, hr.trans (by rw [← hmade])⟩
  · obtain ⟨hp, hq, hr⟩ := hnofade hf
    have hmade' : w.rep.made = _ := congrArg Report.made hr
    have hatt : w.rep.attention = _ := congrArg Report.attention hr
    have hframe := congrArg Sequencer.testFrame hq
    have hframes := congrArg Sequencer.framesInState hq
    refine ⟨congrArg Sequencer.phase hq, hframe, hframes, congrArg Plan.verification hp,
      (hlines.2 hf).congr rfl rfl rfl, ?_, fun ha => ?_, fun ha => ?_⟩
    · rw [hmade]
      exact hmade'
    · show w.rep.attention[3] = true
      rw [hatt, if_pos (hab.2 ha)]
      exact (upd_getElem _ _ _ _ _).trans (if_pos rfl)
    · show w.rep.attention = _
      rw [hatt, if_neg (mt hab.1 ha)]

end Sys2Proof.Machine
end

