-- ==== Sys2Proof/Proofs/StateEntry.lean ====
section
/-! SUPPORT. The entry to a state, at a test's start and by an exit, FINAL or not (R22, R23, R26 to R28, R34 to R36). -/

namespace Sys2Proof.Machine

/-! ### The entry, before a FINAL state begins ENDING -/

/-- R27, R28: the Sequencer as state `st` is entered. -/
def Sequencer.entering (q : Sequencer) (st : Fin 32) : Sequencer :=
  { q with
    stateInForce := st, framesInState := 1, latches := Vector.replicate 4 false, entryCount := satInc 65535 q.entryCount }

/-- R28: the STATE_ENTERED of the entry to `st`. -/
def State.enteredRecord (s : State) (st : Fin 32) (prev exit : Nat) : Made :=
  ⟨s.seq.testNumber, 16 * s.seq.testFrame,
    .stateEntered st prev exit (prev == st.val) (Part0.final s.plan.part0[st]) (satInc 65535 s.seq.entryCount), false⟩

/-- R27: state `st` is entered with its record, channels and lines, and not yet offered. -/
def State.loaded (s : State) (st : Fin 32) (prev exit : Nat) : State :=
  (((s.withSeq (s.seq.entering st)).withRep { s.rep with made := s.rep.made ++ [s.enteredRecord st prev exit] }).engineEnter
    st (prev == 255)).linesEnter st

/-- R27, R120, R136: state `st` is entered and STATE_ENTRY offered. -/
def State.entered (s : State) (st : Fin 32) (prev exit : Nat) : State :=
  (s.loaded st prev exit).offer ⟨.stateEntry, st⟩ (16 * s.seq.testFrame) false

theorem State.enterState_start (s : State) (st : Fin 32) (exit : Nat) :
    s.enterState st 255 exit =
      if Part0.final s.plan.part0[st] then (s.entered st 255 exit).beginEnding .finalState 0 st
      else s.entered st 255 exit := by
  unfold State.enterState
  rfl

theorem State.enterState_exit (s : State) (st : Fin 32) {prev : Nat} (h : prev ≠ 255) (exit : Nat) :
    s.enterState st prev exit =
      if Part0.final s.plan.part0[st] then
        ((s.summary exit s.seq.testFrame).entered st prev exit).beginEnding .finalState 0 s.seq.stateInForce
      else (s.summary exit s.seq.testFrame).entered st prev exit := by
  unfold State.enterState
  simp only [if_neg h]
  rfl

theorem State.engineEnter_eng_congr {s t : State} (he : t.eng = s.eng) (hp : t.plan = s.plan) (st : Fin 32) (first : Bool) :
    (t.engineEnter st first).eng = (s.engineEnter st first).eng := by
  simp only [State.engineEnter, State.withEng_eng, he, hp]

theorem State.loaded_seq (s : State) (st : Fin 32) (prev exit : Nat) :
    (s.loaded st prev exit).seq = s.seq.entering st := by simp [State.loaded]

theorem State.loaded_eng (s : State) (st : Fin 32) (prev exit : Nat) :
    (s.loaded st prev exit).eng = (s.engineEnter st (prev == 255)).eng := by
  rw [State.loaded]
  simp only [State.linesEnter_frame]
  exact State.engineEnter_eng_congr rfl rfl st _

/-- What the entry leaves alone, and what it makes of Sequencer and channels. -/
theorem State.entered_spec (s : State) (st : Fin 32) (prev exit : Nat) :
    (s.entered st prev exit).seq = s.seq.entering st ∧ (s.entered st prev exit).eng = (s.engineEnter st (prev == 255)).eng
      ∧ (s.entered st prev exit).plan = s.plan := by
  refine ⟨?_, ?_, ?_⟩
  · rw [← s.loaded_seq st prev exit]
    simp [State.entered]
  · rw [← s.loaded_eng st prev exit]
    simp [State.entered]
  · simp [State.entered, State.loaded]

/-- R120, R136: STATE_ENTRY is offered at the entry as it is to a state that is like the one entered from, with the channels
of the entry. -/
theorem State.FullTwin.entered {a b : List Made} {u s : State} (h : State.FullTwin a b u s) (st : Fin 32)
    (prev exit : Nat) :
    State.FullTwin u.rep.made (s.rep.made ++ [s.enteredRecord st prev exit])
      ((u.withEng (s.engineEnter st (prev == 255)).eng).offered ⟨.stateEntry, st⟩ (16 * s.seq.testFrame))
      (s.entered st prev exit) := by
  have hl : State.FullTwin u.rep.made (s.rep.made ++ [s.enteredRecord st prev exit])
      (u.withEng (s.engineEnter st (prev == 255)).eng) (s.loaded st prev exit) := by
    obtain ⟨later, -, hr⟩ := h.rep
    refine ⟨⟨?_, ?_, ?_, ?_, ?_, ?_, [], by simp, ?_⟩, ?_, ?_⟩
    · simpa [State.loaded] using h.recv
    · simpa [State.loaded] using h.plan
    · simpa [State.loaded] using h.timers
    · simpa [State.loaded] using h.frame
    · simpa [State.loaded, Sequencer.entering] using h.testNumber
    · simpa [State.loaded, Sequencer.entering] using h.testFrame
    · simp [State.loaded, hr]
    · simpa [State.loaded] using h.out
    · simpa [State.loaded] using h.sup
  refine ⟨hl.toTwin.offer _ _ false (.inl ?_), ?_, ?_⟩
  · rw [State.loaded_eng]
    rfl
  · simpa [State.entered, State.offered] using hl.out
  · simpa [State.entered, State.offered] using hl.sup

/-! ### The entry, with ENDING where the state is FINAL -/

/-- R34, R36: what the entry to a state comes to, `e` being like the state `v` that it leaves, and `w` the same with the blocks
closed where the state is FINAL. -/
theorem State.FullTwin.entry {a b : List Made} {e v t w : State} {final : Bool} {last : Fin 32}
    (h : State.FullTwin a b e v) (he : v.eng = e.eng)
    (ht : t = if final then v.beginEnding .finalState 0 last else v)
    (hw : w = if final then e.closedAt v.seq.testFrame else e) :
    t.timers = w.timers ∧ t.sup = w.sup ∧ t.out = w.out ∧ t.rep = { w.rep with made := t.rep.made }
    ∧ e.rep.GoesOn t.rep ∧ t.eng = v.eng
    ∧ (t.seq.stateInForce = v.seq.stateInForce ∧ t.seq.entryCount = v.seq.entryCount ∧ t.seq.testNumber = v.seq.testNumber
      ∧ t.seq.startRecord = v.seq.startRecord ∧ (v.seq.latches = Vector.replicate 4 false → t.seq.latches = v.seq.latches)
      ∧ (v.seq.request = .none → t.seq.request = .none))
    ∧ (∃ later : List Made, w.rep.made = a ++ later
        ∧ t.rep.made = b ++ later ++ if final = true ∧ v.fade = 0 then
            (v.withSeq { v.seq with framesInState := 0 }).closingRecords .finalState last v.seq.testFrame else [])
    ∧ (final = false → t = v)
    ∧ (final = true → v.fade ≠ 0 → t.seq = v.seq.toEnding .finalState)
    ∧ (final = true → v.fade = 0 → t.plan = { v.plan with verification := none }
        ∧ t.seq = { v.seq.toEnding .finalState with
            phase := .idle, next := none, framesInState := 0, testFrame := v.seq.testFrame - 1 }) := by
  cases final with
  | false =>
    replace ht : t = v := ht
    replace hw : w = e := hw
    subst ht hw
    obtain ⟨later, hmade, hrep⟩ := h.rep
    refine ⟨h.timers, h.sup, h.out, by rw [hrep], ?_, rfl, ⟨rfl, rfl, rfl, rfl, fun _ => rfl, id⟩, ⟨later, hmade, ?_⟩,
      fun _ => rfl, nofun, nofun⟩
    · rw [hrep]
      exact .refl _
    · rw [hrep]
      simp
  | true =>
    replace ht : t = v.beginEnding .finalState 0 last := ht
    replace hw : w = e.closedAt v.seq.testFrame := hw
    have hgoes : e.rep.GoesOn w.rep := hw ▸ e.closeBlocks_goesOn _
    have heng : t.eng = v.eng := by rw [ht]; simp
    have hc := h.toEnding he .finalState
    rw [← hw] at hc
    obtain ⟨htimers, hsup, hout, hseq, hrep, later, hmade, hfade, hnofade⟩ := State.beginEnding_spec hc ht.symm
    have hatt : t.rep.attention = w.rep.attention := by
      by_cases hf : v.fade = 0
      · rw [(hnofade hf).2.2]
        rfl
      · rw [(hfade hf).2.2]
    have hnumbers : t.seq.stateInForce = v.seq.stateInForce ∧ t.seq.entryCount = v.seq.entryCount
        ∧ t.seq.testNumber = v.seq.testNumber ∧ t.seq.startRecord = v.seq.startRecord
        ∧ (v.seq.latches = Vector.replicate 4 false → t.seq.latches = v.seq.latches)
        ∧ (v.seq.request = .none → t.seq.request = .none) := by
      rw [hseq]
      exact ⟨rfl, rfl, rfl, rfl, fun hl => hl.symm, fun _ => rfl⟩
    refine ⟨htimers, hsup, hout, ?_, ?_, heng, hnumbers, ⟨later, hmade, ?_⟩, nofun, fun _ hf => (hfade hf).1,
      fun _ hf => ?_⟩
    · rw [hatt] at hrep
      exact hrep
    · rw [hrep]
      exact hgoes
    · by_cases hf : v.fade = 0
      · rw [if_pos ⟨rfl, hf⟩, (hnofade hf).2.2]
      · rw [if_neg (fun x => hf x.2), (hfade hf).2.2, List.append_nil]
    · exact ⟨(hnofade hf).1, (hnofade hf).2.1⟩

end Sys2Proof.Machine
end

