-- ==== Sys2Proof/Proofs/StateExit.lean ====
section
/-! SUPPORT. STATE_EXIT: from one state of a test to the next (R26 to R28, R34 to R36). -/

namespace Sys2Proof.Machine

theorem State.exitTarget_eq (s : State) (k : Fin 4) :
    s.exitTarget k = Fin.ofNat 32 (s.plan.part0[s.seq.stateInForce])[6 + 3 * k.val].toNat := by
  rw [State.exitTarget, Part0.exitNext, State.part0, Payload.u8_eq _ _ (by omega)]

/-- R28: the STATE_SUMMARY of a stay that exit `k` ends, made in the frame that begins. -/
def State.exitSummary (s : State) (k : Fin 4) : Made :=
  ⟨s.seq.testNumber, 16 * (s.seq.testFrame + 1),
    .stateSummary s.seq.stateInForce k s.seq.framesInState (Vector.ofFn fun c => s.eng[c].clip), false⟩

/-- R28: the stay is summed up in the frame that begins. -/
def State.leaving (s : State) (k : Fin 4) : State := s.nextFrame.summary k (s.seq.testFrame + 1)

theorem State.leaving_eq (s : State) (k : Fin 4) :
    s.leaving k = (s.atFrame (s.seq.testFrame + 1)).withRep { s.rep with made := s.rep.made ++ [s.exitSummary k] } := by
  have hclips : (Vector.ofFn fun c : Fin 12 => s.eng[c].clip) = tab fun c => s.eng[c].clip := (tab_eq_ofFn _).symm
  unfold State.exitSummary
  rw [hclips]
  rfl

/-- R26, R27: an exit leaves its state and enters the one that it names. -/
theorem State.settle_exit {s : State} {k : Fin 4} {n : Fin 32} (hn : s.exitTarget k = n) :
    s.settle (.exit k) =
      if Part0.final s.plan.part0[n] then
        ((s.leaving k).entered n s.seq.stateInForce k).beginEnding .finalState 0 s.seq.stateInForce
      else (s.leaving k).entered n s.seq.stateInForce k := by
  have hp : (s.seq.stateInForce : Nat) ≠ 255 := by omega
  subst hn
  exact s.nextFrame.enterState_exit (s.exitTarget k) hp k

/-- R120, R136: what the entry offers, to the blocks as the exit finds them. -/
theorem State.leaving_twin (s : State) (k : Fin 4) (n : Fin 32) :
    State.FullTwin s.rep.made (s.rep.made ++ [s.exitSummary k] ++ [(s.leaving k).enteredRecord n s.seq.stateInForce k])
      (((s.atFrame (s.seq.testFrame + 1)).withEng (s.engineEnter n false).eng).offered ⟨.stateEntry, n⟩
        (16 * (s.seq.testFrame + 1)))
      ((s.leaving k).entered n s.seq.stateInForce k) := by
  have h : State.FullTwin s.rep.made (s.rep.made ++ [s.exitSummary k]) (s.atFrame (s.seq.testFrame + 1)) (s.leaving k) := by
    rw [State.leaving_eq]
    exact ⟨⟨rfl, rfl, rfl, rfl, rfl, rfl, [], by simp [State.atFrame], by simp [State.atFrame]⟩, rfl, rfl⟩
  have hp : ((s.seq.stateInForce : Nat) == 255) = false := by simpa using (by omega : (s.seq.stateInForce : Nat) ≠ 255)
  have he := h.entered n s.seq.stateInForce k
  have heng : ((s.leaving k).engineEnter n false).eng = (s.engineEnter n false).eng :=
    State.engineEnter_eng_congr (by rw [State.leaving_eq]; rfl) (by rw [State.leaving_eq]; rfl) n false
  rw [hp, heng] at he
  rw [State.leaving_eq] at he ⊢
  exact he

theorem State.settle_exit_lines {s : State} {k : Fin 4} {n : Fin 32} (hn : s.exitTarget k = n) :
    (Part0.final s.plan.part0[n] = false ∨ s.fade ≠ 0 →
      (s.settle (.exit k)).brk = s.brk ∧ s.LinesEntered (s.settle (.exit k)) n (s.seq.testFrame + 1))
    ∧ (Part0.final s.plan.part0[n] = true → s.fade = 0 → (s.settle (.exit k)).AtHome s.brk.count) := by
  subst hn
  exact s.nextFrame.enterState_lines (s.exitTarget k) s.seq.stateInForce k

/-- R27: Sequencer, channels and plan where the state that the exit names is entered. -/
theorem State.leaving_entered_spec (s : State) (k : Fin 4) (n : Fin 32) :
    ((s.leaving k).entered n s.seq.stateInForce k).seq = { s.seq.entering n with testFrame := s.seq.testFrame + 1 }
      ∧ ((s.leaving k).entered n s.seq.stateInForce k).eng = (s.engineEnter n false).eng
      ∧ ((s.leaving k).entered n s.seq.stateInForce k).plan = s.plan := by
  obtain ⟨hseq, heng, hplan⟩ := (s.leaving k).entered_spec n s.seq.stateInForce k
  have hp : ((s.seq.stateInForce : Nat) == 255) = false := by simpa using (by omega : (s.seq.stateInForce : Nat) ≠ 255)
  rw [hseq, heng, hplan, hp, State.leaving_eq]
  exact ⟨rfl, State.engineEnter_eng_congr rfl rfl n false, rfl⟩

/-- R28: the STATE_ENTERED of the state that the exit names. -/
theorem State.leaving_enteredRecord (s : State) (k : Fin 4) (n : Fin 32) :
    (s.leaving k).enteredRecord n s.seq.stateInForce k =
      ⟨s.seq.testNumber, 16 * (s.seq.testFrame + 1), .stateEntered n s.seq.stateInForce k
        (decide (s.seq.stateInForce = n)) (Part0.final s.plan.part0[n]) (min 65535 (s.seq.entryCount + 1)), false⟩ := by
  have hself : ((s.seq.stateInForce : Nat) == n.val) = decide (s.seq.stateInForce = n) := by
    simp [beq_eq_decide, Fin.ext_iff]
  rw [State.leaving_eq, ← hself]
  rfl

/-- Settles O29, by `State.FullTwin.entry` for the entry to the state that the exit names. -/
theorem stateExit : Obligations.StateExit := by
  intro s k ht hd hp n final frame count entered ended
  have hexec : exec .stateExit s = .next ((s.settle (.exit k)).toStage .settled) :=
    congrArg Host.Outcome.next (State.sequencerStep_of_taken ht hd rfl)
  have hn : s.exitTarget k = n := s.exitTarget_eq k
  have hfinal : Part0.final s.plan.part0[n] = decide final := by
    rw [Bool.eq_iff_iff, Part0.final_iff, decide_eq_true_iff]
  have hlines := State.settle_exit_lines hn
  have hdef := s.settle_definition (.exit k)
  have hscan : (s.settle (.exit k)).scan = s.scan := by simp [State.settle]
  obtain ⟨hrecv, hclock, hreply, hevent, hanswer, hdrive, hchoices, hpending⟩ := s.settle_frame (.exit k)
  have hsettle := State.settle_exit hn
  have hrecord := s.leaving_enteredRecord k n
  rw [hfinal] at hlines hsettle hrecord
  obtain ⟨hseq, heng, hplan⟩ := s.leaving_entered_spec k n
  have hentered : ((s.atFrame frame).withEng (s.engineEnter n false).eng).offered ⟨.stateEntry, n⟩ (16 * frame)
      = entered := rfl
  have htwin : State.FullTwin _ _ entered _ := s.leaving_twin k n
  rw [hrecord] at htwin
  obtain ⟨hgoes, hengoff, hsup, hout⟩ := ((s.atFrame frame).withEng (s.engineEnter n false).eng).offered_kept
    ⟨.stateEntry, n⟩ (16 * frame)
  rw [hentered] at hgoes hengoff hsup hout
  have hended : entered.closeBlocks frame = ended := rfl
  obtain ⟨hgate, hactivity, hengine, -⟩ := entered.closeBlocks_spec frame
  rw [hended] at hgate hactivity hengine
  clear_value ended entered
  generalize (s.leaving k).entered n s.seq.stateInForce k = v at *
  generalize s.settle (.exit k) = t at *
  have hvframe : v.seq.testFrame = frame := congrArg Sequencer.testFrame hseq
  have hfade : v.fade = Globals.fade s.plan.globals := by rw [State.fade, hplan]
  obtain ⟨htimers, hsup', hout', hrep, hgoes', heng', ⟨hstate, hcount, hnumber, -, hlatches, -⟩,
      ⟨later, hmade, hmade'⟩, hstay, hend, hover⟩ :=
    htwin.entry (heng.trans hengoff.symm) hsettle (w := if final then ended else entered)
      (by simp only [hvframe, decide_eq_true_eq, ← hended]; rfl)
  obtain ⟨hqueue, hdiscard, hpause, hlast, hgateOpen⟩ := hgoes.trans hgoes'
  have hvlatches : v.seq.latches = Vector.replicate 4 false := congrArg Sequencer.latches hseq
  have hvcount : v.seq.entryCount = count := congrArg Sequencer.entryCount hseq
  have hvnumber : v.seq.testNumber = s.seq.testNumber := by
    rw [hseq]
    rfl
  have hvrequest : v.seq.request = s.seq.request := by
    rw [hseq]
    rfl
  have hvstate : v.seq.stateInForce = n := congrArg Sequencer.stateInForce hseq
  refine ⟨t.toStage .settled, hexec, rfl, hstate.trans hvstate, hcount.trans hvcount, (hlatches hvlatches).trans hvlatches,
    hnumber.trans hvnumber, hscan, ⟨hrecv, hclock, hreply, hanswer, hdrive, hpending⟩, hchoices, heng'.trans heng, hdef,
    hqueue, hdiscard, hpause, hlast, hgateOpen, ?_, fun hf => ?_, fun hf => ?_, fun hf => ?_, fun hf hF => ?_,
    fun hf hF => ?_⟩
  · have hclosing : (v.withSeq { v.seq with framesInState := 0 }).closingRecords .finalState s.seq.stateInForce v.seq.testFrame
        = [⟨s.seq.testNumber, 16 * frame, .stateSummary n 255 0 (Vector.ofFn fun c => t.eng[c].clip), false⟩,
          ⟨s.seq.testNumber, 16 * frame, .testEnd .finalState s.seq.stateInForce frame count, false⟩] := by
      simp only [State.closingRecords, State.withSeq_seq, State.withSeq_eng, hvstate, hvnumber, hvcount, hvframe, heng']
    show t.rep.made = _
    rw [hmade', hmade, List.drop_left, hfade, hclosing]
    simp only [decide_eq_true_eq, List.append_assoc]
    rfl
  · rw [if_neg hf] at htimers hrep
    have htv : t = v := hstay (by simpa using hf)
    rw [htv] at htimers hrep ⊢
    exact ⟨htimers, hrep, (congrArg Sequencer.phase hseq).trans hp, hvframe, congrArg Sequencer.framesInState hseq,
      hvrequest, htwin.out.trans hout, htwin.sup.trans hsup, hplan⟩
  · exact (hlines.1 (hf.imp (fun h => by simpa using h) id)).imp id fun h => h.congr rfl rfl
  · rw [if_pos hf] at htimers hsup' hout' hrep
    exact ⟨htimers, hsup', hout', hrep⟩
  · rw [if_pos hf] at htimers hsup' hrep
    have hq := hend (by simpa using hf) (by rwa [hfade])
    exact ⟨congrArg Sequencer.phase hq, (congrArg Sequencer.testFrame hq).trans hvframe, congrArg Sequencer.countdown hq,
      congrArg Sequencer.endReason hq, congrArg Sequencer.request hq, htimers ▸ hgate,
      (congrArg Report.activity hrep).trans hactivity, hsup' ▸ hengine⟩
  · obtain ⟨hp, hq⟩ := hover (by simpa using hf) (by rwa [hfade])
    have hframe := congrArg Sequencer.testFrame hq
    rw [hvframe] at hframe
    exact ⟨congrArg Sequencer.phase hq, hframe, congrArg Sequencer.framesInState hq, congrArg Sequencer.endReason hq,
      congrArg Sequencer.request hq, congrArg Plan.verification hp,
      (hlines.2 (by simpa using hf) hF).congr rfl rfl rfl⟩

end Sys2Proof.Machine
end

