-- ==== Sys2Proof/Proofs/TestStart.lean ====
section
/-! SUPPORT. TEST_START: a test begins in state 0 (R22, R23, R27, R34 to R36, R79, R107, R119, R135). -/

namespace Sys2Proof.Machine

/-! ### An event offered where no slot is RUNNING -/

theorem State.offerSlot_gate (ev : Cond) (stamp : Nat) (bo : Bool) (s : State) (k : Fin 8) :
    (State.offerSlot ev stamp bo s k).timers.gate = s.timers.gate := by
  unfold State.offerSlot State.stopSlot
  dsimp only
  (repeat' split) <;> simp [State.setSlot]

theorem State.offer_gate (s : State) (ev : Cond) (stamp : Nat) (bo : Bool) :
    (s.offer ev stamp bo).timers.gate = s.timers.gate := by
  have hl (l : List (Fin 8)) : (l.foldl (State.offerSlot ev stamp bo) s).timers.gate = s.timers.gate := by
    induction l generalizing s with
    | nil => rfl
    | cons k l ih => rw [List.foldl_cons, ih, State.offerSlot_gate]
  unfold State.offer State.offerTimers
  simp only [State.offerCapture_frame]
  split
  · exact hl _
  · rfl

theorem State.offerSlot_rep {s : State} {k : Fin 8} (h : s.timers.slots[k].state ≠ .running) (ev : Cond) (stamp : Nat)
    (bo : Bool) : (State.offerSlot ev stamp bo s k).rep = s.rep := by
  unfold State.offerSlot
  dsimp only
  split
  case h_2 hx => exact absurd hx h
  all_goals (repeat' split) <;> rfl

theorem State.offerSlots_rep (ev : Cond) (stamp : Nat) (bo : Bool) (l : List (Fin 8)) (hl : l.Nodup) {s : State}
    (h : ∀ k ∈ l, s.timers.slots[k].state ≠ .running) : (l.foldl (State.offerSlot ev stamp bo) s).rep = s.rep := by
  induction l generalizing s with
  | nil => rfl
  | cons k l ih =>
    obtain ⟨hk, hl⟩ := List.nodup_cons.1 hl
    rw [List.foldl_cons, ih hl fun j hj => ?_, State.offerSlot_rep (h k (by simp))]
    rw [State.offerSlot_other (ne_of_mem_of_not_mem hj hk)]
    exact h j (by simp [hj])

/-- R120, R121: a record is made by a slot that is stopped, so with no slot RUNNING none is. -/
theorem State.offer_made {s : State} (h : ∀ k : Fin 8, s.timers.slots[k].state ≠ .running) (ev : Cond) (stamp : Nat)
    (bo : Bool) : (s.offer ev stamp bo).rep.made = s.rep.made := by
  rw [State.offer, (State.offerCapture_rep _ _ _).1, State.offerTimers]
  split
  · rw [State.offerSlots_rep ev stamp bo _ nodup_allFin fun k _ => h k]
  · rfl

theorem State.FullTwin.offer {a b : List Made} {s t : State} (h : State.FullTwin a b s t) (ev : Cond) (stamp : Nat) (bo : Bool)
    (he : t.eng = s.eng ∨ ∀ k : Fin 8, s.timers.slots[k].state ≠ .running) :
    State.FullTwin a b (s.offer ev stamp bo) (t.offer ev stamp bo) :=
  ⟨h.toTwin.offer ev stamp bo he, by simpa using h.out, by simpa using h.sup⟩

/-! ### The test, before state 0 is entered -/

/-- R23: the TEST_START of the test that begins. -/
def State.startRecordOf (s : State) (r : StartRecord) : Made :=
  ⟨nextTestNumber s.seq.testNumber, 0, .testStart r s.plan.stateCount s.plan.checksum, false⟩

/-- R22: the Sequencer as a test starts. -/
def Sequencer.starting (q : Sequencer) (r : StartRecord) : Sequencer :=
  { q with
    phase := .running, testNumber := nextTestNumber q.testNumber, testFrame := 0, entryCount := 0, request := .none
    startRecord := some r }

/-- R22, R23, R107, R119: number, record, timers and breaker of the test that starts. -/
def State.opening (s : State) (r : StartRecord) : State :=
  (((s.withSeq (s.seq.starting r)).withRep { s.rep with made := s.rep.made ++ [s.startRecordOf r] }).timersStart).breakerStart

/-- R22, R79, R120, R135, R136: the test up to the entry to state 0, TEST_START offered. -/
def State.started (s : State) (r : StartRecord) : State :=
  (((s.opening r).captureStart.supervisorStart).withScan { s.scan with origin := s.scan.pos + 1 }).offer ⟨.testStart, 0⟩ 0
    false

theorem State.startTest_started (s : State) (r : StartRecord) : s.startTest r = (s.started r).enterState 0 255 255 := rfl

/-- What the start of a test makes of the blocks, before state 0 is entered. -/
theorem State.started_spec (s : State) (r : StartRecord) :
    (s.started r).seq = s.seq.starting r ∧ (s.started r).eng = s.eng ∧ (s.started r).plan = s.plan
      ∧ (s.started r).scan = { s.scan with origin := s.scan.pos + 1 }
      ∧ (s.started r).brk = ⟨Brk.initial s.plan.breaker, none, none, 0⟩ := by
  refine ⟨?_, ?_, ?_, ?_, ?_⟩
  · simp [State.started, State.opening]
  · simp [State.started, State.opening]
  · simp [State.started, State.opening]
  · simp [State.started]
  · simp [State.started, State.opening, State.breakerStart]

/-- R22, R79, R119: what the start of a test makes of the blocks that TEST_START and STATE_ENTRY are offered to, the channels
already those of state 0. -/
def State.begun (s : State) : State :=
  { s with
    seq := { s.seq with testNumber := nextTestNumber s.seq.testNumber, testFrame := 0 }
    timers := s.timersStart.timers
    eng := (s.engineEnter 0 true).eng
    sup := s.supervisorStart.sup }

theorem Timer.enable_iff (p : Payload) : Timer.enable p = true ↔ p[0] = 1 := by
  have h := Payload.u8_eq_ofNat_iff p 0 (by omega) 1 (by omega)
  simpa [Timer.enable] using h

theorem State.timersStart_timers (s : State) :
    s.timersStart.timers = ⟨true, Vector.ofFn fun k : Fin 8 =>
      ⟨if (s.plan.timers[k])[0] = 1 then .waiting else .disabled, none, none, false, false, false, false, none⟩⟩ := by
  rw [State.timersStart, State.withTimers_timers, tab_eq_ofFn]
  simp only [Slot.reset, Timer.enable_iff]

/-- R119: as a test starts no slot is RUNNING. -/
theorem State.begun_not_running (s : State) (k : Fin 8) : s.begun.captureStart.timers.slots[k].state ≠ .running := by
  have htimers : s.begun.captureStart.timers = s.timersStart.timers := by simp [State.begun]
  simp only [htimers, State.timersStart_timers, Fin.getElem_fin, Vector.getElem_ofFn]
  split <;> decide

theorem State.supervisorStart_sup (s : State) :
    s.supervisorStart.sup = { s.sup with
      chan := Vector.ofFn fun p : Fin 14 => { s.sup.chan[p] with bucket := 0, countdown := s.sup.chan[p].leakPeriod } } := by
  rw [State.supervisorStart, State.withSup_sup, tab_eq_ofFn]

theorem State.opening_twin (s : State) (r : StartRecord) :
    State.Twin s.rep.made (s.rep.made ++ [s.startRecordOf r]) s.begun (s.opening r) :=
  ⟨by simp [State.opening, State.begun], by simp [State.opening, State.begun], rfl,
    by simp [State.opening, State.begun],
    by simp [State.opening, State.begun, Sequencer.starting], by simp [State.opening, State.begun, Sequencer.starting],
    [], by simp [State.begun], by simp [State.opening, State.begun]⟩

/-- R120, R136: TEST_START is offered as it is to the blocks of `State.begun`, since no slot is RUNNING then. -/
theorem State.started_twin (s : State) (r : StartRecord) :
    State.FullTwin s.rep.made (s.rep.made ++ [s.startRecordOf r]) (s.begun.captureStart.offered ⟨.testStart, 0⟩ 0)
      (s.started r) := by
  have hc := (s.opening_twin r).captureStart
  have h : State.FullTwin s.rep.made (s.rep.made ++ [s.startRecordOf r]) s.begun.captureStart
      ((s.opening r).captureStart.supervisorStart.withScan { s.scan with origin := s.scan.pos + 1 }) := by
    refine ⟨⟨?_, ?_, ?_, ?_, ?_, ?_, ?_⟩, ?_, ?_⟩
    · simpa using hc.recv
    · simpa using hc.plan
    · simpa using hc.timers
    · simpa using hc.frame
    · simpa using hc.testNumber
    · simpa using hc.testFrame
    · simpa using hc.rep
    · simp [State.begun, State.opening]
    · simp [State.begun, State.opening, State.supervisorStart]
  exact h.offer _ _ _ (.inr s.begun_not_running)

/-! ### The entry to state 0 -/

theorem State.withEng_self (s : State) : s.withEng s.eng = s := rfl

/-- R120, R136: STATE_ENTRY is offered to what TEST_START leaves. -/
theorem State.started_entered_twin (s : State) (r : StartRecord) :
    State.FullTwin (s.begun.captureStart.offered ⟨.testStart, 0⟩ 0).rep.made
      ((s.started r).rep.made ++ [(s.started r).enteredRecord 0 255 255])
      ((s.begun.captureStart.offered ⟨.testStart, 0⟩ 0).offered ⟨.stateEntry, 0⟩ 0)
      ((s.started r).entered 0 255 255) := by
  obtain ⟨hseq, heng, hplan, -, -⟩ := s.started_spec r
  have hloaded : ((s.started r).engineEnter 0 true).eng = (s.begun.captureStart.offered ⟨.testStart, 0⟩ 0).eng := by
    rw [State.engineEnter_eng_congr heng hplan]
    simp [State.offered, State.begun]
  have h := (s.started_twin r).entered 0 255 255
  have h0 : (s.started r).seq.testFrame = 0 := by rw [hseq]; rfl
  rw [h0, show ((255 : Nat) == 255) = true from rfl, hloaded, State.withEng_self] at h
  exact h

/-- R22, R27: Sequencer, channels and plan where state 0 is entered. -/
theorem State.started_entered_spec (s : State) (r : StartRecord) :
    ((s.started r).entered 0 255 255).seq = (s.seq.starting r).entering 0
      ∧ ((s.started r).entered 0 255 255).eng = (s.engineEnter 0 true).eng
      ∧ ((s.started r).entered 0 255 255).plan = s.plan := by
  obtain ⟨hseq, heng, hplan, -, -⟩ := s.started_spec r
  obtain ⟨hseq', heng', hplan'⟩ := (s.started r).entered_spec 0 255 255
  rw [hseq', heng', hplan', hseq, hplan]
  exact ⟨rfl, State.engineEnter_eng_congr heng hplan 0 true, rfl⟩

theorem State.started_enteredRecord (s : State) (r : StartRecord) :
    (s.started r).enteredRecord 0 255 255 = ⟨nextTestNumber s.seq.testNumber, 0,
      .stateEntered 0 255 255 false (Part0.final s.plan.part0[(0 : Fin 32)]) 1, false⟩ := by
  obtain ⟨hseq, -, hplan, -, -⟩ := s.started_spec r
  rw [State.enteredRecord, hseq, hplan]
  rfl

/-- R22, R135: the records made before state 0 is entered: TEST_START, and what the capture store has to say. -/
theorem State.started_made (s : State) (r : StartRecord) :
    (s.begun.captureStart.offered ⟨.testStart, 0⟩ 0).rep.made = s.begun.captureStart.rep.made
      ∧ (s.started r).rep.made =
          s.rep.made ++ [s.startRecordOf r] ++ s.begun.captureStart.rep.made.drop s.rep.made.length := by
  have hmade : (s.begun.captureStart.offered ⟨.testStart, 0⟩ 0).rep.made = s.begun.captureStart.rep.made :=
    State.offer_made s.begun_not_running _ _ _
  obtain ⟨later, hA, hrep⟩ := (s.started_twin r).rep
  rw [hmade] at hA
  exact ⟨hmade, by rw [hrep, hA, List.drop_left]⟩

/-- R27, R40, R106, R107, R115, R116: breaker and lines where state 0 is entered. -/
theorem State.startTest_lines (s : State) (r : StartRecord) :
    (Part0.final s.plan.part0[(0 : Fin 32)] = false ∨ s.fade ≠ 0 →
      (s.startTest r).brk = ⟨Brk.initial s.plan.breaker, none, none, 0⟩ ∧ s.LinesEntered (s.startTest r) 0 0)
    ∧ (Part0.final s.plan.part0[(0 : Fin 32)] = true → s.fade = 0 → (s.startTest r).AtHome 0) := by
  obtain ⟨hseq, -, hplan, -, hbrk⟩ := s.started_spec r
  have h := (s.started r).enterState_lines 0 255 255
  have h0 : (s.started r).seq.testFrame = 0 := by rw [hseq]; rfl
  rw [← State.startTest_started, State.fade, hplan, hbrk, h0] at h
  exact ⟨fun hf => (h.1 hf).imp id fun hl => hl.congr (by rw [hplan]) rfl, h.2⟩

/-- R22, R34: what the start of a test comes to, ENDING begun at once where state 0 is FINAL. -/
theorem State.startTest_entry (s : State) (r : StartRecord) :
    s.startTest r = if Part0.final s.plan.part0[(0 : Fin 32)] then
      ((s.started r).entered 0 255 255).beginEnding .finalState 0 0 else (s.started r).entered 0 255 255 := by
  obtain ⟨-, -, hplan, -, -⟩ := s.started_spec r
  rw [State.startTest_started, State.enterState_start, hplan]

/-- The blocks after TEST_START and STATE_ENTRY keep what the two events do not touch. -/
theorem State.begun_entered_frame (s : State) :
    s.rep.GoesOn ((s.begun.captureStart.offered ⟨.testStart, 0⟩ 0).offered ⟨.stateEntry, 0⟩ 0).rep
      ∧ ((s.begun.captureStart.offered ⟨.testStart, 0⟩ 0).offered ⟨.stateEntry, 0⟩ 0).eng = (s.engineEnter 0 true).eng
      ∧ ((s.begun.captureStart.offered ⟨.testStart, 0⟩ 0).offered ⟨.stateEntry, 0⟩ 0).sup = s.begun.sup
      ∧ ((s.begun.captureStart.offered ⟨.testStart, 0⟩ 0).offered ⟨.stateEntry, 0⟩ 0).out = s.out
      ∧ ((s.begun.captureStart.offered ⟨.testStart, 0⟩ 0).offered ⟨.stateEntry, 0⟩ 0).timers.gate = true := by
  refine ⟨?_, ?_, ?_, ?_, ?_⟩
  · exact (s.begun.captureStart_goesOn.trans (State.offer_goesOn _ _ _ false)).trans (State.offer_goesOn _ _ _ false)
  · simp [State.offered, State.begun]
  · simp [State.offered]
  · simp [State.offered, State.begun]
  · have htimers : s.begun.captureStart.timers = s.timersStart.timers := by simp [State.begun]
    rw [State.offered, ← State.offer, State.offer_gate, State.offered, ← State.offer, State.offer_gate,
      htimers, State.timersStart_timers]

/-- Settles O28, by `State.FullTwin.entry` for the entry to state 0 and `State.started_made` for the records. -/
theorem testStart : Obligations.TestStart := by
  intro s r ht hd final number begun armed entered ended kept
  have hexec : exec .testStart s = .next ((s.settle (.start r)).toStage .settled) :=
    congrArg Host.Outcome.next (State.sequencerStep_of_taken ht hd rfl)
  have hbegun : s.begun = begun := by
    rw [State.begun, State.timersStart_timers, State.supervisorStart_sup]
    rfl
  have hfinal : Part0.final s.plan.part0[(0 : Fin 32)] = decide final := by
    rw [Bool.eq_iff_iff, Part0.final_iff, decide_eq_true_iff]
  have hlines := s.startTest_lines r
  have hdef := s.startTest_definition r
  have hscan : (s.startTest r).scan = { s.scan with origin := s.scan.pos + 1 } := by
    obtain ⟨-, -, -, hscan, -⟩ := s.started_spec r
    rw [State.startTest_started, ← hscan]
    simp
  obtain ⟨hrecv, hclock, hreply, hevent, hanswer, hdrive, hchoices, hpending⟩ := s.settle_frame (.start r)
  have hsettle := s.startTest_entry r
  obtain ⟨hseq, heng, hplan⟩ := s.started_entered_spec r
  have htwin := s.started_entered_twin r
  obtain ⟨hfirst, hstarted⟩ := s.started_made r
  rw [hfirst, hstarted, s.started_enteredRecord r] at htwin
  obtain ⟨hgoes, hengoff, hsup, hout, hopen⟩ := s.begun_entered_frame
  rw [hfinal] at hlines hsettle htwin
  rw [hbegun] at htwin hgoes hengoff hsup hout hopen
  have hentered : (armed.offered ⟨.testStart, 0⟩ 0).offered ⟨.stateEntry, 0⟩ 0 = entered := rfl
  have harmed : begun.captureStart = armed := rfl
  rw [harmed, hentered] at htwin hgoes hengoff hsup hout hopen
  obtain ⟨hgate, -⟩ : ended.timers.gate = false ∧ _ := entered.closeBlocks_spec 0
  have hended : entered.closedAt 0 = ended := rfl
  have hset : s.settle (.start r) = s.startTest r := rfl
  rw [hset] at hexec hrecv hclock hreply hevent hanswer hdrive hchoices hpending
  clear_value ended entered armed
  generalize (s.started r).entered 0 255 255 = v at *
  generalize s.startTest r = t at *
  have hvframe : v.seq.testFrame = 0 := congrArg Sequencer.testFrame hseq
  have hvnumber : v.seq.testNumber = number := congrArg Sequencer.testNumber hseq
  have hvcount : v.seq.entryCount = 1 := congrArg Sequencer.entryCount hseq
  have hvstate : v.seq.stateInForce = 0 := congrArg Sequencer.stateInForce hseq
  have hvlatches : v.seq.latches = Vector.replicate 4 false := congrArg Sequencer.latches hseq
  have hfade : v.fade = Globals.fade s.plan.globals := by rw [State.fade, hplan]
  obtain ⟨htimers, hsup', hout', hrep, hgoes', heng', ⟨hstate, hcount, hnumber, hrecord, hlatches, hrequest⟩,
      ⟨later, hmade, hmade'⟩, hstay, hend, hover⟩ :=
    htwin.entry (heng.trans hengoff.symm) hsettle (w := if final then ended else entered)
      (by simp only [hvframe, decide_eq_true_eq, hended])
  obtain ⟨hqueue, hdiscard, hpause, hlast, hgateOpen⟩ := hgoes.trans hgoes'
  refine ⟨t.toStage .settled, hexec, rfl, hnumber.trans hvnumber, hcount.trans hvcount,
    hrequest (congrArg Sequencer.request hseq), hrecord.trans (congrArg Sequencer.startRecord hseq), hstate.trans hvstate,
    (hlatches hvlatches).trans hvlatches, hscan, ⟨hrecv, hclock, hreply, hanswer, hdrive, hpending⟩, hchoices,
    heng'.trans heng, hqueue, hdiscard, hpause, hlast, hgateOpen, hdef, ⟨s.plan.checksum, fun v hv => ?_, ?_⟩, fun hf => ?_,
    fun hf => ?_, fun hf => ?_, fun hf hF => ?_, fun hf hF => ?_⟩
  · rw [Plan.checksum, hv]
  · have hclosing : (v.withSeq { v.seq with framesInState := 0 }).closingRecords .finalState 0 v.seq.testFrame
        = [⟨number, 0, .stateSummary 0 255 0 (Vector.ofFn fun c => t.eng[c].clip), false⟩,
          ⟨number, 0, .testEnd .finalState 0 0 1, false⟩] := by
      simp only [State.closingRecords, State.withSeq_seq, State.withSeq_eng, hvstate, hvnumber, hvcount, hvframe, heng']
      rfl
    show t.rep.made = _
    rw [hmade', hmade, List.drop_left, hfade, hclosing, State.startRecordOf, Plan.stateCount_eq]
    simp only [decide_eq_true_eq]
    rfl
  · rw [if_neg hf] at htimers hrep
    have htv : t = v := hstay (by simpa using hf)
    rw [htv] at htimers hrep ⊢
    exact ⟨htimers, hrep, htwin.sup.trans hsup, congrArg Sequencer.phase hseq, hvframe, congrArg Sequencer.framesInState hseq,
      htimers ▸ hopen, htwin.out.trans hout, hplan⟩
  · obtain ⟨hbrk, hl⟩ := hlines.1 (hf.imp (fun h => by simpa using h) id)
    rw [Brk.initial_eq] at hbrk
    exact ⟨hbrk, hl.congr rfl rfl⟩
  · rw [if_pos hf] at htimers hsup' hout' hrep
    exact ⟨htimers, hsup', hout', hrep⟩
  · rw [if_pos hf] at htimers
    have hq := hend (by simpa using hf) (by rwa [hfade])
    have hframes : v.seq.framesInState = 1 := congrArg Sequencer.framesInState hseq
    exact ⟨congrArg Sequencer.phase hq, congrArg Sequencer.countdown hq, congrArg Sequencer.endReason hq, htimers ▸ hgate,
      (congrArg Sequencer.framesInState hq).trans hframes⟩
  · rw [if_pos hf] at htimers
    obtain ⟨hp, hq⟩ := hover (by simpa using hf) (by rwa [hfade])
    exact ⟨congrArg Sequencer.phase hq, congrArg Sequencer.endReason hq, htimers ▸ hgate, congrArg Plan.verification hp,
      (hlines.2 (by simpa using hf) hF).congr rfl rfl rfl⟩

end Sys2Proof.Machine
end

