-- ==== Sys2Proof/Proofs/ExitLatches.lean ====
section
/-! SUPPORT. The exit latches: what sets them at the boundary, as the outputs are computed, and by DWELL_DONE (R24, R25). -/

namespace Sys2Proof.Machine

/-! ### What the boundary leaves of the Sequencer and of the inputs -/

theorem State.requestEnd_seq (s : State) (r : EndReason) :
    (s.requestEnd r).seq = { s.seq with request := (s.requestEnd r).seq.request } := by
  unfold State.requestEnd
  split <;> rfl

theorem State.serveChannel_seq (s : State) (c : Fin 12) :
    (s.serveChannel c).seq = { s.seq with request := (s.serveChannel c).seq.request } := by
  unfold State.serveChannel
  split
  · simp
  · split
    · rw [State.requestEnd_seq]
      simp
    · simp

theorem State.serve_seq (s : State) : s.serve.seq = { s.seq with request := s.serve.seq.request } := by
  unfold State.serve
  split
  · rw [State.serveChannel_seq]
    simp
  · rfl

theorem State.completeFailover_seq (s : State) :
    s.completeFailover.seq = { s.seq with request := s.completeFailover.seq.request } := by
  unfold State.completeFailover
  split
  · split
    · rw [State.serve_seq]
      simp
    · rfl
  all_goals rfl

/-- R32: of the Sequencer, the other blocks change nothing at the boundary but the request. -/
theorem State.boundaryApart_seq (s : State) : s.boundaryApart.seq = { s.seq with request := s.boundaryApart.seq.request } := by
  have h : s.boundaryApart.seq = s.completeFailover.switchOver.serve.seq := by simp [State.boundaryApart]
  have hswitch : s.completeFailover.switchOver.seq = s.completeFailover.seq := by simp
  rw [h, State.serve_seq, hswitch, State.completeFailover_seq]

/-- R100, R102: of the inputs, the boundary touches the chatter windows alone. -/
theorem State.boundaryApart_inputs (s : State) (i : Fin 8) :
    s.boundaryApart.scan.pos = s.scan.pos
      ∧ s.boundaryApart.scan.inputs[i] = (s.scan.inputs[i]).afterWindow s.clock.scanFrame := by
  have hscan : s.completeFailover.switchOver.serve.checkSlots.scan = s.scan := by simp
  obtain ⟨hpos, hinputs, -⟩ :=
    State.windowSteps_spec s.completeFailover.switchOver.serve.checkSlots s.clock.scanFrame
  rw [hscan] at hpos hinputs
  exact ⟨by rw [State.boundaryApart, hpos], by rw [State.boundaryApart, hinputs]⟩

theorem InputScan.afterWindow_line (x : InputScan) (n : Nat) :
    (x.afterWindow n).raw = x.raw ∧ (x.afterWindow n).cfg = x.cfg ∧ (x.afterWindow n).reload = x.reload
      ∧ (x.afterWindow n).settled = x.settled ∧ (x.afterWindow n).cand = x.cand := by
  unfold InputScan.afterWindow
  (repeat' split) <;> exact ⟨rfl, rfl, rfl, rfl, rfl⟩

theorem State.boundaryApart_edgeAtZero (s : State) (i : Fin 8) : s.boundaryApart.edgeAtZero i = s.edgeAtZero i := by
  obtain ⟨hpos, hinput⟩ := s.boundaryApart_inputs i
  obtain ⟨hraw, hcfg, hreload, hsettled, hcand⟩ := (s.scan.inputs[i]).afterWindow_line s.clock.scanFrame
  unfold State.edgeAtZero
  dsimp only
  rw [hpos, hinput, hraw, hcfg, hreload, hsettled, hcand]

theorem State.boundaryApart_levelAtZero (s : State) (i : Fin 8) : s.boundaryApart.levelAtZero i = s.levelAtZero i := by
  obtain ⟨-, hinput⟩ := s.boundaryApart_inputs i
  obtain ⟨hraw, -, hreload, hsettled, -⟩ := (s.scan.inputs[i]).afterWindow_line s.clock.scanFrame
  have hplan : s.boundaryApart.plan = s.plan := by simp
  unfold State.levelAtZero
  dsimp only
  rw [State.boundaryApart_edgeAtZero, hplan, hinput, hraw, hreload, hsettled]

/-! ### Sub-tick 0 of the slot that begins -/

/-- R95: the edge that position `pos` accepts of an input scanned there. -/
def InputScan.edgeAt (x : InputScan) (pos : Nat) : Option Bool := if x.due pos then some (x.levelAt pos) else none

/-- R95: an edge of input `i` is due where sub-tick 0 is scanned if `State.edgeAtZero` says so. -/
theorem State.beginScan_edgeAt (s : State) (i : Fin 8) :
    (s.beginScan.scan.inputs[i]).edgeAt (s.scan.pos + 1) = s.edgeAtZero i := by
  obtain ⟨hafresh, hquiet, hnew, hpersists, hback⟩ := s.beginScan_scannedTo i
  have hdebounce := Payload.u8_eq (s.scan.inputs[i]).cfg 1 (by omega)
  unfold State.edgeAtZero
  dsimp only
  generalize s.beginScan.scan.inputs[i] = y at *
  generalize s.scan.inputs[i] = x at *
  by_cases hr : x.reload = .now
  · rw [hafresh hr, if_pos (.inl hr)]
    rfl
  by_cases hl : (x.raw != Input.invert x.cfg) = x.settled
  · rw [if_pos (.inr hl)]
    rcases hc : x.cand with _ | k
    · rw [hquiet hr hc hl]
      simp [InputScan.edgeAt, InputScan.due, hc]
    · rw [hback hr (by simp [hc]) hl]
      simp [InputScan.edgeAt, InputScan.due]
  · rw [if_neg (not_or.2 ⟨hr, hl⟩)]
    rcases hc : x.cand with _ | k
    · rw [hnew hr hc hl]
      by_cases hd : x.cfg[1].toNat = 0 <;>
        simp [InputScan.edgeAt, InputScan.due, InputScan.levelAt, Input.debounce, hdebounce, hd]
    · rw [hpersists k hr hc hl]
      by_cases hd : x.cfg[1].toNat + k.start ≤ s.scan.pos + 1 <;>
        simp [InputScan.edgeAt, InputScan.due, InputScan.levelAt, Input.debounce, hdebounce, hc, hd]

/-- R96: the level that sub-tick 0 leaves is that of the edge accepted there, else the settled one. -/
theorem InputScan.levelAt_eq (x : InputScan) (pos : Nat) : x.levelAt pos = (x.edgeAt pos).getD x.settled := by
  unfold InputScan.edgeAt
  by_cases h : x.due pos
  · rw [if_pos h]
    rfl
  · rw [if_neg h]
    unfold InputScan.levelAt
    split
    · exact if_neg h
    · rfl

theorem State.beginScan_settled (s : State) (i : Fin 8) :
    (s.beginScan.scan.inputs[i]).settled =
      if s.scan.inputs[i].reload = .now then s.scan.inputs[i].raw != Input.invert s.plan.inputs[i]
      else s.scan.inputs[i].settled := by
  obtain ⟨hafresh, hquiet, hnew, hpersists, hback⟩ := s.beginScan_scannedTo i
  by_cases hr : s.scan.inputs[i].reload = .now
  · rw [hafresh hr, if_pos hr]
  · rw [if_neg hr]
    by_cases hl : (s.scan.inputs[i].raw != Input.invert s.scan.inputs[i].cfg) = s.scan.inputs[i].settled <;>
      rcases hc : s.scan.inputs[i].cand with _ | k
    · rw [hquiet hr hc hl]
    · rw [hback hr (ne_of_eq_of_ne hc nofun) hl]
    · rw [hnew hr hc hl]
    · rw [hpersists k hr hc hl]

theorem State.beginScan_levelAt (s : State) (i : Fin 8) :
    (s.beginScan.scan.inputs[i]).levelAt (s.scan.pos + 1) = s.levelAtZero i := by
  rw [InputScan.levelAt_eq, State.beginScan_edgeAt, State.beginScan_settled]
  rfl

/-- R108: an edge to active of input number `n` is accepted at sub-tick 0. -/
theorem State.beginScan_activeEdgeDue (s : State) (n : Nat) :
    s.beginScan.activeEdgeDue n = true ↔ ∃ i : Fin 8, s.edgeAtZero i = some true ∧ n = i.val := by
  have hpos : s.beginScan.scan.pos = s.scan.pos + 1 := by simp [State.beginScan, State.scanAll]
  have hedge (i : Fin 8) : s.edgeAtZero i = some true ↔ (s.beginScan.scan.inputs[i]).due (s.scan.pos + 1) = true
      ∧ (s.beginScan.scan.inputs[i]).levelAt (s.scan.pos + 1) = true := by
    rw [← State.beginScan_edgeAt, InputScan.edgeAt]
    simp
  simp only [State.activeEdgeDue, List.any_eq_true, mem_allFin, true_and, Bool.and_eq_true, decide_eq_true_eq, hpos, hedge]
  exact exists_congr fun i => by tauto

/-- R108: an edge accepted at sub-tick 0 makes the breaker leave its state. -/
def State.LeavesAtZero (s : State) : Prop :=
  s.plan.breaker[0] = 1 ∧ ∃ i : Fin 8, s.edgeAtZero i = some true
    ∧ ((s.brk.state = .closed ∧ s.plan.breaker[1].toNat = i.val)
      ∨ (s.brk.state = .opened ∧ s.plan.breaker[2].toNat = i.val))

theorem State.beginScan_breakerLeaves (s : State) : s.beginScan.breakerLeaves = true ↔ s.LeavesAtZero := by
  have hon : Brk.on s.plan.breaker = true ↔ s.plan.breaker[0] = 1 := by
    have h := Payload.u8_eq_ofNat_iff s.plan.breaker 0 (by omega) 1 (by omega)
    simpa [Brk.on] using h
  have htrip : Brk.trip s.plan.breaker = s.plan.breaker[1].toNat := Payload.u8_eq _ 1 (by omega)
  have hclose : Brk.close s.plan.breaker = s.plan.breaker[2].toNat := Payload.u8_eq _ 2 (by omega)
  have hplan : s.beginScan.plan = s.plan := by simp
  have hbrk : s.beginScan.brk = s.brk := by simp
  rw [State.breakerLeaves, hplan, hbrk, Bool.and_eq_true, hon, htrip, hclose]
  refine and_congr_right fun _ => ?_
  rcases hb : s.brk.state <;> simp [State.beginScan_activeEdgeDue]

theorem State.boundaryApart_leavesAtZero (s : State) : s.boundaryApart.LeavesAtZero ↔ s.LeavesAtZero := by
  simp only [State.LeavesAtZero, State.boundaryApart_edgeAtZero, State.boundaryApart_frame]

/-! ### The conditions of the exits -/

theorem Part0.dwell_eq (p : Payload) :
    Part0.dwell p = 16777216 * p[0].toNat + 65536 * p[1].toNat + 256 * p[2].toNat + p[3].toNat := by
  have h : Payload.u32 p 0 = 65536 * (256 * p[0].toNat + p[1].toNat) + (256 * p[2].toNat + p[3].toNat) :=
    Payload.u32_eq p 0 (by omega)
  unfold Part0.dwell
  omega

theorem Part0.exitCond_eq (p : Payload) (k : Fin 4) :
    Part0.exitCond p k = ⟨(Kind.ofCode p[4 + 3 * k.val].toNat).getD .none, p[5 + 3 * k.val].toNat⟩ := by
  rw [Part0.exitCond, condAt, Payload.u8_eq _ _ (by omega), Payload.u8_eq _ _ (by omega)]
  simp only [Nat.add_right_comm]

theorem Part0.exitCond_of_kind {p : Payload} {k : Fin 4} {code : Byte} (h : p[4 + 3 * k.val] = code) {arg : Nat}
    (ha : p[5 + 3 * k.val].toNat = arg) : Part0.exitCond p k = ⟨(Kind.ofCode code.toNat).getD .none, arg⟩ := by
  rw [Part0.exitCond_eq, h, ha]

theorem Kind.ofCode_eq_dwellDone (n : Nat) : (Kind.ofCode n).getD .none = .dwellDone ↔ n = 1 := by
  by_cases h : n < 10
  · interval_cases n <;> simp [Kind.ofCode]
  · rw [Kind.ofCode_eq_none (by omega)]
    simp
    omega

theorem State.holds_dwellDone (s : State) (n : Nat) :
    s.holds ⟨.dwellDone, n⟩ = true ↔ 1 ≤ Part0.dwell s.part0 ∧ Part0.dwell s.part0 ≤ s.seq.framesInState := by
  simp [State.holds]

theorem State.holdsAtZero_timerDone (s : State) (j : Fin 8) :
    s.holdsAtZero ⟨.timerDone, j⟩ = true ↔ s.timers.slots[j].state = .stopped ∨ s.timers.slots[j].state = .expired := by
  simp [State.holdsAtZero, State.holds]

theorem State.holdsAtZero_rampEnd (s : State) (c : Fin 12) :
    s.holdsAtZero ⟨.rampEnd, c⟩ = true ↔ s.eng[c].rampEnd = true := by
  simp [State.holdsAtZero, State.holds]

section
variable {s : State} (h : s.clock.slotDone = true)
include h

theorem State.scanZero_of_slotDone : s.scanZero = s.beginScan := if_pos h

theorem State.scanZero_levelAt (i : Fin 8) :
    (s.scanZero.scan.inputs[i]).levelAt s.scanZero.scan.pos = s.levelAtZero i := by
  have hpos : s.beginScan.scan.pos = s.scan.pos + 1 := by simp [State.beginScan, State.scanAll]
  rw [State.scanZero_of_slotDone h, hpos, State.beginScan_levelAt]

theorem State.holdsAtZero_inputActive (i : Fin 8) : s.holdsAtZero ⟨.inputActive, i⟩ = true ↔ s.levelAtZero i = true := by
  rw [← State.scanZero_levelAt h]
  simp [State.holdsAtZero]

theorem State.holdsAtZero_inputInactive (i : Fin 8) :
    s.holdsAtZero ⟨.inputInactive, i⟩ = true ↔ s.levelAtZero i = false := by
  rw [← State.scanZero_levelAt h]
  simp [State.holdsAtZero]

theorem State.holdsAtZero_breakerOpen (n : Nat) :
    s.holdsAtZero ⟨.breakerOpen, n⟩ = true ↔ s.brk.state = .opened ∧ ¬ s.LeavesAtZero := by
  rw [← State.beginScan_breakerLeaves, ← State.scanZero_of_slotDone h]
  simp [State.holdsAtZero, State.holds]

theorem State.holdsAtZero_breakerClosed (n : Nat) :
    s.holdsAtZero ⟨.breakerClosed, n⟩ = true ↔ s.brk.state = .closed ∧ ¬ s.LeavesAtZero := by
  rw [← State.beginScan_breakerLeaves, ← State.scanZero_of_slotDone h]
  simp [State.holdsAtZero, State.holds]

end

/-! ### The latches -/

theorem State.boundaryApart_stay (s : State) :
    s.boundaryApart.seq.phase = s.seq.phase ∧ s.boundaryApart.seq.latches = s.seq.latches
      ∧ s.boundaryApart.seq.framesInState = s.seq.framesInState
      ∧ s.boundaryApart.part0 = s.plan.part0[s.seq.stateInForce] := by
  have hstate : s.boundaryApart.seq.stateInForce = s.seq.stateInForce := by rw [State.boundaryApart_seq]
  have hplan : s.boundaryApart.plan = s.plan := by simp
  refine ⟨?_, ?_, ?_, by simp only [State.part0, hstate, hplan]⟩ <;> rw [State.boundaryApart_seq]

/-- R24: the latches that the boundary leaves. -/
theorem State.ready_latches {s : State} (h : s.frame.stage = .settled) (k : Fin 4) :
    s.ready.seq.latches[k] = (s.seq.phase == .running && (s.seq.latches[k]
      || s.boundaryApart.holdsAtZero (Part0.exitCond s.plan.part0[s.seq.stateInForce] k))) := by
  have hseq : s.ready.seq = s.boundaryApart.latchZero.seq := by simp [State.ready, h]
  obtain ⟨hphase, hlatches, -, hpart0⟩ := s.boundaryApart_stay
  rw [hseq, State.latchZero, (s.boundaryApart.latchBy_seq _).2, hpart0, hphase, hlatches]

/-- R24: the latches of things that have come about since `s`, to a state `t` of the same stay. -/
theorem State.latchRisen_latchesFollow {s t : State} (hseq : t.seq = s.seq) (hplan : t.plan = s.plan) {u : State}
    (hu : u.seq = (t.latchRisen s).seq) (hh : u.holds = t.holds) : s.LatchesFollow u := by
  intro k cond
  have hpart0 : t.part0 = s.plan.part0[s.seq.stateInForce] := by simp only [State.part0, hseq, hplan]
  have hlatches : u.seq.latches[k] =
      (s.seq.phase == .running && (s.seq.latches[k] || (t.holds cond && !s.holds cond))) := by
    rw [hu, State.latchRisen, (t.latchBy_seq _).2, hpart0, hseq]
  rw [hh, hlatches]
  refine ⟨fun hp => ?_, fun hp => ?_⟩
  · simp [hp, and_comm]
  · simp [hp]

/-- R24, R56: as the outputs are computed a condition that becomes true sets its latch. -/
theorem State.outputStep_latchesFollow (s : State) : s.LatchesFollow s.outputStep := by
  refine State.latchRisen_latchesFollow (t := s.outputs.driveFrame) (by simp) (by simp) (by simp [State.outputStep]) ?_
  have hseq : (s.outputs.driveFrame.latchRisen s).seq.stateInForce = s.outputs.driveFrame.seq.stateInForce
      ∧ (s.outputs.driveFrame.latchRisen s).seq.framesInState = s.outputs.driveFrame.seq.framesInState := ⟨rfl, rfl⟩
  funext c
  simp [State.holds, State.outputStep, State.part0, hseq]

theorem State.exec_dwellDone {s : State} (h : s.frame.stage = .settled) :
    exec .dwellDone s = .next (if s.dwellReached then s.latchDwell else s) := by
  have hexec : exec .dwellDone s = .next (s.boundaryStep State.dwellReached State.latchDwell) := rfl
  simp [hexec, State.boundaryStep, State.atBoundary_of_settled h, h]

theorem State.dwellReached_iff (s : State) :
    s.dwellReached = true ↔
      s.seq.phase = .running ∧ 1 ≤ Part0.dwell s.part0 ∧ Part0.dwell s.part0 ≤ s.seq.framesInState := by
  rw [State.dwellReached, Bool.and_eq_true, beq_iff_eq, State.holds_dwellDone]

theorem State.latchDwell_eq (s : State) : s.latchDwell = s.withSeq { s.seq with
    latches := Vector.ofFn fun k : Fin 4 =>
      s.seq.latches[k] || decide ((s.plan.part0[s.seq.stateInForce])[4 + 3 * k.val] = 1) } := by
  have hkind (k : Fin 4) : ((Part0.exitCond s.part0 k).kind == .dwellDone)
      = decide ((s.plan.part0[s.seq.stateInForce])[4 + 3 * k.val] = 1) := by
    rw [Part0.exitCond_eq, beq_eq_decide, State.part0]
    simp only [Kind.ofCode_eq_dwellDone]
    rw [decide_eq_decide, BitVec.toNat_eq]
    rfl
  rw [State.latchDwell, tab_eq_ofFn]
  simp only [hkind]

/-- Settles O33: the latches at the boundary by `State.ready_latches` and the condition's kind. -/
theorem exitLatches : Obligations.ExitLatches := by
  refine ⟨fun s k hs hd => ?_, State.outputStep_latchesFollow, fun s hs => ?_⟩
  · intro u t r dwell kind arg b leaves setBy
    have hlatches : t.seq.latches[k] = _ := State.ready_latches hs k
    have hclock : u.clock = s.clock := by simp [u]
    have hdone : u.clock.slotDone = true := by rw [hclock, hd]
    have hleaves : u.LeavesAtZero ↔ leaves := s.boundaryApart_leavesAtZero
    have hlevel (i : Fin 8) : u.levelAtZero i = s.levelAtZero i := s.boundaryApart_levelAtZero i
    have hbrk : u.brk = s.brk := by simp [u]
    have heng : u.eng = s.eng := by simp [u]
    have hu : s.boundaryApart = u := rfl
    obtain ⟨-, -, hframes, hpart0⟩ := s.boundaryApart_stay
    rw [hu] at hframes hpart0
    have hdwell : Part0.dwell u.part0 = dwell := by rw [hpart0, Part0.dwell_eq]
    have hready : t = (u.latchZero.flushBoundary).toStage .ready := if_pos hs
    have hset (hp : s.seq.phase = .running) {c : Cond} (hc : Part0.exitCond r k = c) {now : Prop}
        (h : u.holdsAtZero c = true ↔ now) : setBy now := by
      show t.seq.latches[k] = true ↔ _
      rw [hlatches, ← h, ← hc]
      simp [hp]
      rfl
    have hcond {code : Byte} (h : kind = code) {n : Nat} (ha : arg = n) :
        Part0.exitCond r k = ⟨(Kind.ofCode code.toNat).getD .none, n⟩ := Part0.exitCond_of_kind h ha
    rw [hu] at hlatches
    clear_value t u kind arg dwell
    refine ⟨by rw [hready]; rfl, ?_, by rw [hready]; simp, by rw [hready]; simp [hbrk], by rw [hready]; simp,
      by rw [hready]; simp [heng], fun hp => ?_, fun hp => ⟨fun h => ?_, fun h => ?_, fun i h ha => ?_, fun i h ha => ?_,
      fun h => ?_, fun h => ?_, fun j h ha => ?_, fun c h ha => ?_⟩⟩
    · have hseq : t.seq = u.latchZero.seq := by simp [hready]
      rw [hseq]
      rfl
    · rw [hlatches]
      simp [hp]
    · exact hset hp (hcond h rfl) (by simp [Kind.ofCode, State.holdsAtZero, State.holds])
    · refine hset hp (hcond h rfl) ?_
      rw [← hdwell, ← hframes]
      exact u.holds_dwellDone arg
    · refine hset hp (hcond h ha) ?_
      rw [← hlevel]
      exact State.holdsAtZero_inputActive hdone i
    · refine hset hp (hcond h ha) ?_
      rw [← hlevel]
      exact State.holdsAtZero_inputInactive hdone i
    · refine hset hp (hcond h rfl) ?_
      rw [← hbrk, ← hleaves]
      exact State.holdsAtZero_breakerOpen hdone arg
    · refine hset hp (hcond h rfl) ?_
      rw [← hbrk, ← hleaves]
      exact State.holdsAtZero_breakerClosed hdone arg
    · exact hset hp (hcond h ha) (u.holdsAtZero_timerDone j)
    · refine hset hp (hcond h ha) ?_
      rw [← heng]
      exact u.holdsAtZero_rampEnd c
  · intro r dwell
    have hdwell : Part0.dwell s.part0 = dwell := Part0.dwell_eq _
    rw [State.exec_dwellDone hs, State.latchDwell_eq]
    clear_value dwell
    refine ⟨fun hp h1 h2 => ?_, fun h => ?_⟩
    · rw [if_pos (s.dwellReached_iff.2 ⟨hp, hdwell ▸ h1, hdwell ▸ h2⟩)]
    · rw [if_neg]
      rw [State.dwellReached_iff, hdwell]
      rintro ⟨hp, h1, h2⟩
      rcases h with h | h | h
      · exact h hp
      all_goals omega

end Sys2Proof.Machine
end

