-- ==== Sys2Proof/Proofs/FrameEvent.lean ====
section
/-! SUPPORT. Where a command falls against the frame-taken event in progress (R18, R98, R150, R162). -/

namespace Sys2Proof.Machine

/-! ### The stream and the receiver during the frame-taken event -/

/-- R150: no message takes away bytes of the downstream stream. -/
theorem handlerOf_stream (code : Byte) (m : Msg) (s : State) : (handlerOf code m s).state.recv.stream = s.recv.stream := by
  have hcadence : (setCadence m s).state.recv.stream = s.recv.stream := by
    unfold setCadence inPhase indexed valued done refuse
    (repeat' split) <;> rfl
  have hresync : (resync m s).state.recv.stream = s.recv.stream := by
    unfold resync inPhase indexed valued done refuse
    (repeat' split) <;> rfl
  unfold handlerOf
  split <;> simp [hcadence, hresync, unknownMessage, refuse]

theorem State.handleSlot_stream (s : State) : s.handleSlot.recv.stream = s.recv.stream := by
  unfold State.handleSlot
  (repeat' split) <;> simp [State.takeMessage, Handled.answer, handlerOf_stream]

theorem State.resyncStep_stream (s : State) : s.resyncStep.recv.stream = s.recv.stream := by
  unfold State.resyncStep
  split
  · simp [State.leaveLocked, Receiver.enterHunt]
  · rfl

theorem State.finish_stream (s : State) : s.finish.recv.stream = s.recv.stream := by
  unfold State.finish
  split
  · simp [State.resyncStep_stream, State.outputStep]
  · rfl

/-- R150: the rest of a frame-taken event leaves the bytes of the stream in hand. -/
theorem State.complete_stream (s : State) : s.complete.recv.stream = s.recv.stream := by
  rw [State.complete, State.finish_stream]
  simp [State.handleSlot_stream]

/-- R151: the receiver stays in its state as a frame is taken. -/
theorem State.openFrame_recvState (s : State) : s.openFrame.recv.state = s.recv.state := by
  unfold State.openFrame State.take
  (repeat' split) <;> simp [Receiver.takeHeld, Receiver.takeGap]

/-! ### Steps of the boundary, commanded before the boundary is settled -/

/-- R18: a step of the boundary comes about where the boundary is settled. -/
theorem State.boundaryStep_atBoundary (s : State) (due : State → Bool) (act : State → State) :
    s.boundaryStep due act =
      if s.atBoundary.frame.stage = .settled ∧ due s.atBoundary = true then s.atBoundary.boundaryStep due act else s := by
  by_cases h : s.atBoundary.frame.stage = .settled ∧ due s.atBoundary = true
  · rw [if_pos h]
    simp [State.boundaryStep, State.atBoundary_of_settled h.1, h.1, h.2]
  · rw [if_neg h, State.boundaryStep, if_neg (by simpa using h)]

/-- R18: a step of the Sequencer comes about where the frame is taken. -/
theorem State.sequencerStep_openFrame (s : State) (due : Decision → Bool) :
    s.sequencerStep due =
      if s.openFrame.frame.stage = .taken ∧ due s.openFrame.frame.decision = true then s.openFrame.sequencerStep due
      else s := by
  by_cases h : s.openFrame.frame.stage = .taken ∧ due s.openFrame.frame.decision = true
  · have ho : s.openFrame.openFrame = s.openFrame := State.openFrame_of_stage (by simp [h.1])
    rw [if_pos h]
    simp [State.sequencerStep, ho, h.1, h.2]
  · rw [if_neg h, State.sequencerStep, if_neg (by simpa using h)]

section
variable {c : Instr} (s : State)

theorem exec_of_boundaryStep {due : State → Bool} {act : State → State}
    (hexec : ∀ t : State, exec c t = .next (t.boundaryStep due act)) :
    exec c s = if s.openFrame.settleSeq.frame.stage = .settled ∧ due s.openFrame.settleSeq = true
      then exec c s.openFrame.settleSeq else .next s := by
  rw [hexec, hexec, State.boundaryStep_atBoundary, apply_ite Host.Outcome.next]
  rfl

theorem exec_of_sequencerStep {due : Decision → Bool} (hexec : ∀ t : State, exec c t = .next (t.sequencerStep due)) :
    exec c s = if s.openFrame.frame.stage = .taken ∧ due s.openFrame.frame.decision = true
      then exec c s.openFrame else .next s := by
  rw [hexec, hexec, State.sequencerStep_openFrame, apply_ite Host.Outcome.next]

/-- R100, R102: in LOCKED the end of a chatter window is a step of the boundary. -/
theorem exec_of_windowCommand {ends : State → Nat → Bool} {act : State → State}
    (hexec : ∀ t : State, exec c t = .next (t.windowCommand ends act)) (hl : s.recv.state = .locked) :
    exec c s = if s.openFrame.settleSeq.frame.stage = .settled
        ∧ ends s.openFrame.settleSeq s.openFrame.settleSeq.clock.scanFrame = true
      then exec c s.openFrame.settleSeq else .next s := by
  have hb : s.openFrame.settleSeq.recv.state = .locked := by simp [State.openFrame_recvState, hl]
  rw [hexec, hexec, State.windowCommand, State.windowCommand, if_pos hl, if_pos hb, State.boundaryStep_atBoundary,
    apply_ite Host.Outcome.next]
  rfl

/-! ### A thing at a sub-tick -/

theorem State.beforeMessage_slotDone (s : State) : s.beforeMessage.clock.slotDone = false := by
  unfold State.beforeMessage State.scanZero
  split
  · simp [State.beginScan]
  · exact Bool.eq_false_iff.2 ‹_›

theorem State.beforeMessage_of_ready {s : State} (h : s.frame.stage = .ready) (hd : s.clock.slotDone = false) :
    s.beforeMessage = s := by
  rw [State.beforeMessage, State.atMessage_of_ready h, State.scanZero, if_neg (by simp [hd])]

/-- R162: what comes first comes about at sub-tick 0 of the frame taken. -/
theorem State.subtickCommand_of_ready {s : State} (h : s.frame.stage = .ready) (hd : s.clock.slotDone = false)
    {due : State → Bool} (hdue : due s = true) (act : State → State) : s.subtickCommand due act = act s := by
  simp [State.subtickCommand, State.comesFirst, State.beforeMessage_of_ready h hd, h, hdue]

theorem exec_of_subtickCommand {due : State → Bool} {act : State → State}
    (hexec : ∀ t : State, exec c t = .next (t.subtickCommand due act))
    (hscan : ∀ t : State, due t = true → t.clock.slotDone = false) (h : s.frame.stage ≠ .closed) :
    exec c s = if s.beforeMessage.frame.stage = .ready ∧ due s.beforeMessage = true then exec c s.beforeMessage
      else if due s.complete = true then exec c s.complete else .next s := by
  have hclose : s.closeEvent = s.complete := if_neg h
  simp only [hexec]
  by_cases hb : s.beforeMessage.frame.stage = .ready ∧ due s.beforeMessage = true
  · rw [if_pos hb, State.subtickCommand_of_ready hb.1 s.beforeMessage_slotDone hb.2]
    simp [State.subtickCommand, State.comesFirst, h, hb.1, hb.2]
  · rw [if_neg hb, State.subtickCommand, if_neg (by simpa [State.comesFirst, h] using hb), hclose]
    by_cases hc : due s.complete = true
    · rw [if_pos hc, if_pos hc, State.subtickCommand_of_closed s.complete_stage (hscan _ hc), if_pos hc]
    · rw [if_neg hc, if_neg hc]

theorem exec_of_subtickCommand_closed {due : State → Bool} {act : State → State}
    (hexec : ∀ t : State, exec c t = .next (t.subtickCommand due act))
    (hscan : ∀ t : State, due t = true → t.clock.slotDone = false) (h : s.frame.stage = .closed)
    (hd : s.clock.slotDone = true) :
    exec c s = if s.beforeMessage.frame.stage = .ready ∧ due s.beforeMessage = true then exec c s.beforeMessage
      else .next s := by
  have hdue : due s = false := Bool.eq_false_iff.2 fun x => by simp [hscan s x] at hd
  rw [hexec, hexec, State.subtickCommand_of_slotDone h hd due act hdue, apply_ite Host.Outcome.next]

end

theorem State.slotDone_of_scanning {s : State} (h : s.scanning = true) : s.clock.slotDone = false := by
  simp only [State.scanning, Bool.and_eq_true, Bool.not_eq_true'] at h
  exact h.2

theorem State.slotDone_of_edgeDue (i : Fin 8) (s : State) (h : s.edgeDue i = true) : s.clock.slotDone = false :=
  State.slotDone_of_scanning (Bool.and_eq_true_iff.1 h).1

theorem State.slotDone_of_operationDue (s : State) (h : s.operationDue = true) : s.clock.slotDone = false :=
  State.slotDone_of_scanning (Bool.and_eq_true_iff.1 h).1

theorem State.slotDone_of_pulseEnds (k : Fin 4) (s : State) (h : s.pulseEnds k = true) : s.clock.slotDone = false :=
  State.slotDone_of_scanning (Bool.and_eq_true_iff.1 h).1

/-! ### What comes from outside -/

/-- R150: a byte that arrives during a frame-taken event. -/
theorem exec_sampleFrameArrival_open {s : State} (h : s.frame.stage ≠ .closed) {x : LinkByte} {kept : List LinkByte}
    (hkept : KeptBySearch (s.recv.stream ++ [x]) kept) :
    exec (.sampleFrameArrival x []) s = if 56 ≤ kept.length then exec (.sampleFrameArrival x []) s.complete
      else .next (s.withRecv { s.recv with stream := kept }) := by
  have hexec (t : State) : exec (.sampleFrameArrival x []) t = .next (t.receiveByte x) := rfl
  obtain rfl := hkept.eq
  rw [hexec, hexec]
  by_cases hl : 56 ≤ (seekSync (s.recv.stream ++ [x])).length
  · rw [if_pos hl]
    obtain ⟨first, rest, hs⟩ := List.exists_cons_of_length_pos (Nat.lt_of_lt_of_le (by decide) hl)
    have hrest : 55 ≤ rest.length := by simpa [hs] using hl
    rw [State.receiveByte_whole hs hrest, State.receiveByte_whole (by rw [State.complete_stream, hs]) hrest,
      State.closeEvent_of_closed s.complete_stage, State.closeEvent, if_neg h]
  · rw [if_neg hl, State.receiveByte_short (by omega)]
    rfl

theorem hasSync_iff {n : Nat} (a b : Byte) (f : Vector Byte (n + 2)) : hasSync a b f = true ↔ f[0] = a ∧ f[1] = b := by
  have htake : f.toList.take 2 = [f[0], f[1]] := by
    refine List.ext_getElem (by simp) fun i _ h2 => ?_
    match i, h2 with
    | 0, _ => simp
    | 1, _ => simp
  rw [hasSync, htake]
  simp

/-- R14: the outcome of a verification comes about where the message has been handled. -/
theorem exec_verificationOutcome_eq (s : State) :
    exec .verificationOutcome s =
      if s.atVerification.outcomeDue = true then exec .verificationOutcome s.atVerification else .next s := by
  have hexec (t : State) : exec .verificationOutcome t =
      .next (if t.atVerification.outcomeDue = true then t.atVerification.verifyStep else t) := rfl
  by_cases h : s.atVerification.outcomeDue = true
  · have hstage : s.atVerification.frame.stage = .handled := by
      simp only [State.outcomeDue, Bool.and_eq_true, beq_iff_eq] at h
      exact h.1.1
    have hself : s.atVerification.atVerification = s.atVerification := by
      rw [State.atVerification, State.atBoundary, State.openFrame_of_stage (by simp [hstage]),
        State.settleSeq_of_stage (by simp [hstage]), State.ready_of_stage (by simp [hstage]),
        State.handleSlot_of_stage (by simp [hstage])]
    rw [if_pos h, hexec, hexec, hself, if_pos h, if_pos h]
  · rw [if_neg h, hexec, if_neg h]

/-- Settles O3: each kind of command by what its meaning comes to against the event, `exec_of_subtickCommand` for a thing at
a sub-tick, `exec_of_boundaryStep` and `exec_of_sequencerStep` for a step of the boundary. -/
theorem commandsMeetTheFrameEvent : Obligations.CommandsMeetTheFrameEvent := by
  refine ⟨fun s hs => ⟨s.complete_stage, fun x kept hkept => exec_sampleFrameArrival_open hs hkept, fun f => ?_,
      fun i high => ?_, fun i => ?_, ?_, fun k => ?_⟩,
    fun s hs hd => ⟨(State.beforeMessage_of_closed hs).1, (State.beforeMessage_of_closed hs).2, fun i => ?_, ?_,
      fun k => ?_⟩,
    fun s => ⟨?_, ?_, ?_, fun k => ⟨?_, ?_⟩, ?_, fun hl i => ⟨?_, ?_⟩, ?_, ?_, ?_, ?_, ?_, ?_,
      exec_verificationOutcome_eq s⟩⟩
  · have hexec (t : State) : exec (.readbackFrameReceived f) t =
        .next (if hasSync 0x4C 0x2D f then t.closeEvent.readback f.toList else t) := rfl
    rw [hexec, hexec, State.closeEvent_of_closed s.complete_stage, State.closeEvent, if_neg hs]
    by_cases h : f[0] = 0x4C ∧ f[1] = 0x2D
    · rw [if_pos h, if_pos ((hasSync_iff _ _ f).2 h), if_pos ((hasSync_iff _ _ f).2 h)]
    · rw [if_neg h, if_neg (mt (hasSync_iff _ _ f).1 h)]
  · have hexec (t : State) : exec (.inputLineChange i high) t = .next (t.closeEvent.lineChange i high) := rfl
    rw [hexec, hexec, State.closeEvent_of_closed s.complete_stage, State.closeEvent, if_neg hs]
  · exact exec_of_subtickCommand s (fun _ => rfl) (State.slotDone_of_edgeDue i) hs
  · exact exec_of_subtickCommand s (fun _ => rfl) State.slotDone_of_operationDue hs
  · exact exec_of_subtickCommand s (fun _ => rfl) (State.slotDone_of_pulseEnds k) hs
  · exact exec_of_subtickCommand_closed s (fun _ => rfl) (State.slotDone_of_edgeDue i) hs hd
  · exact exec_of_subtickCommand_closed s (fun _ => rfl) State.slotDone_of_operationDue hs hd
  · exact exec_of_subtickCommand_closed s (fun _ => rfl) (State.slotDone_of_pulseEnds k) hs hd
  · exact exec_of_boundaryStep s (act := State.serve) fun _ => rfl
  · exact exec_of_boundaryStep s (act := State.switchOver) fun _ => rfl
  · exact exec_of_boundaryStep s (act := State.completeFailover) fun _ => rfl
  · exact exec_of_boundaryStep s (due := fun t => t.timeoutIsDue k) fun _ => rfl
  · exact exec_of_boundaryStep s (due := fun t => t.expires k) fun _ => rfl
  · exact exec_of_boundaryStep s (act := State.latchDwell) fun _ => rfl
  · exact exec_of_windowCommand s (ends := fun t n => t.chatterEnds n i) (fun _ => rfl) hl
  · exact exec_of_windowCommand s (ends := fun t n => t.normalWindowEnds n i) (fun _ => rfl) hl
  · exact exec_of_sequencerStep s fun _ => rfl
  · exact exec_of_sequencerStep s fun _ => rfl
  · exact exec_of_sequencerStep s fun _ => rfl
  · exact exec_of_sequencerStep s fun _ => rfl
  · exact exec_of_sequencerStep s fun _ => rfl
  · exact exec_of_sequencerStep s fun _ => rfl

end Sys2Proof.Machine
end

