-- ==== Sys2Proof/Proofs/Rounding.lean ====
section
/-! SUPPORT. Rounding (0.6.9): the nearest integer, and the bounds that it keeps. -/

namespace Sys2Proof.Machine

theorem roundHalfAway_of_nonneg {num : Int} (h : 0 ≤ num) (den : Nat) :
    roundHalfAway num den = (2 * num + den) / (2 * den) := if_pos h

/-- 0.6.9: away from zero on both sides alike. -/
theorem roundHalfAway_neg (num : Int) (den : Nat) : roundHalfAway (-num) den = -roundHalfAway num den := by
  unfold roundHalfAway
  rcases lt_trichotomy num 0 with h | rfl | h
  · rw [if_pos (by omega), if_neg (by omega), neg_neg]
  · rcases Nat.eq_zero_or_pos den with rfl | hd
    · simp
    · have hz : (2 * 0 + (den : Int)) / (2 * den) = 0 := Int.ediv_eq_zero_of_lt (by omega) (by omega)
      simp only [neg_zero, hz, if_pos (le_refl (0 : Int))]
  · rw [if_neg (by omega), if_pos (by omega), neg_neg]

theorem NearestHalfAway.neg {num : Int} {den : Nat} {r : Int} (h : NearestHalfAway num den r) :
    NearestHalfAway (-num) den (-r) := by
  have e : (den : Int) * -r - -num = -(den * r - num) := by ring
  rw [NearestHalfAway, e, mul_neg, abs_neg, abs_neg, abs_neg]
  exact h

/-- 0.6.9. -/
theorem roundHalfAway_nearest (num : Int) {den : Nat} (hd : 0 < den) :
    NearestHalfAway num den (roundHalfAway num den) := by
  wlog h : 0 ≤ num generalizing num
  · simpa [roundHalfAway_neg] using (this (-num) (by omega)).neg
  rw [roundHalfAway_of_nonneg h]
  have lower := Int.mul_ediv_self_le (x := 2 * num + den) (k := 2 * den) (by omega)
  have upper := Int.lt_mul_ediv_self_add (x := 2 * num + den) (k := 2 * den) (by omega)
  rw [mul_assoc] at lower upper
  unfold NearestHalfAway
  generalize (den : Int) * ((2 * num + den) / (2 * den)) = near at *
  rw [abs_of_nonneg h]
  have away := le_abs_self near
  constructor
  · rcases abs_cases (near - num) with ⟨e, -⟩ | ⟨e, -⟩ <;> omega
  · rcases abs_cases (near - num) with ⟨e, -⟩ | ⟨e, -⟩ <;> omega

theorem roundHalfAway_le {num a : Int} {den : Nat} (hd : 0 < den) (h : num ≤ den * a) :
    roundHalfAway num den ≤ a := by
  have near := (roundHalfAway_nearest num hd).1
  have above := le_abs_self (den * roundHalfAway num den - num)
  by_contra hlt
  have step : (den : Int) * (a + 1) ≤ den * roundHalfAway num den :=
    mul_le_mul_of_nonneg_left (by omega) (by omega)
  rw [mul_add] at step
  omega

theorem le_roundHalfAway {num a : Int} {den : Nat} (hd : 0 < den) (h : den * a ≤ num) :
    a ≤ roundHalfAway num den := by
  have hneg := roundHalfAway_le (num := -num) (a := -a) hd (by rw [mul_neg]; omega)
  rw [roundHalfAway_neg] at hneg
  omega

theorem roundHalfAway_mul (a : Int) {den : Nat} (hd : 0 < den) : roundHalfAway (den * a) den = a :=
  le_antisymm (roundHalfAway_le hd le_rfl) (le_roundHalfAway hd le_rfl)

end Sys2Proof.Machine
end

