-- ==== Sys2Proof/Proofs/InjectionStages.lean ====
section
/-! SUPPORT. The stages of a channel's computation: delayed base, gain term, DC term, DC accumulator, clamp, fade (R50 to R55, R58,
R63 to R65). -/

namespace Sys2Proof.Machine

/-! ### Delayed base (R50) -/

theorem delayedBase_of_whole (ring : List Int) {d16 : Nat} (h : d16 % 16 = 0) :
    delayedBase ring d16 = ring.getD (d16 / 16) 0 := if_pos h

theorem delayedBase_of_part (ring : List Int) {d16 : Nat} (h : d16 % 16 ≠ 0) :
    delayedBase ring d16 = ring.getD (d16 / 16) 0
      + roundHalfAway ((ring.getD (d16 / 16 + 1) 0 - ring.getD (d16 / 16) 0) * (d16 % 16 : Nat)) 16 := if_neg h

/-- A share of `f` sixteenths of a difference, rounded, lies between 0 and the difference. -/
theorem roundHalfAway_share {d : Int} {f : Nat} (hf : f < 16) :
    min 0 d ≤ roundHalfAway (d * f) 16 ∧ roundHalfAway (d * f) 16 ≤ max 0 d := by
  rcases le_total 0 d with hd | hd
  · have h0 : 0 ≤ d * f := mul_nonneg hd (by omega)
    have h1 : d * f ≤ d * 16 := mul_le_mul_of_nonneg_left (by omega) hd
    rw [min_eq_left hd, max_eq_right hd]
    exact ⟨le_roundHalfAway (by omega) (by push_cast; omega), roundHalfAway_le (by omega) (by push_cast; omega)⟩
  · have h0 : d * f ≤ 0 := mul_nonpos_of_nonpos_of_nonneg hd (by omega)
    have h1 : d * 16 ≤ d * f := mul_le_mul_of_nonpos_left (by omega) hd
    rw [min_eq_right hd, max_eq_left hd]
    exact ⟨le_roundHalfAway (by omega) (by push_cast; omega), roundHalfAway_le (by omega) (by push_cast; omega)⟩

theorem delayedBase_between (ring : List Int) {d16 : Nat} (h : d16 % 16 ≠ 0) :
    min (ring.getD (d16 / 16) 0) (ring.getD (d16 / 16 + 1) 0) ≤ delayedBase ring d16
      ∧ delayedBase ring d16 ≤ max (ring.getD (d16 / 16) 0) (ring.getD (d16 / 16 + 1) 0) := by
  have share := roundHalfAway_share (d := ring.getD (d16 / 16 + 1) 0 - ring.getD (d16 / 16) 0)
    (f := d16 % 16) (by omega)
  rw [delayedBase_of_part ring h]
  omega

theorem ring_getD_bounds {ring : List Int} (h : ∀ v ∈ ring, -32767 ≤ v ∧ v ≤ 32767) (i : Nat) :
    -32767 ≤ ring.getD i 0 ∧ ring.getD i 0 ≤ 32767 := by
  by_cases hi : i < ring.length
  · rw [List.getD_eq_getElem _ _ hi]
    exact h _ (List.getElem_mem hi)
  · rw [List.getD_eq_default _ _ (by omega)]
    omega

theorem delayedBase_bounds {ring : List Int} (h : ∀ v ∈ ring, -32767 ≤ v ∧ v ≤ 32767) (d16 : Nat) :
    -32767 ≤ delayedBase ring d16 ∧ delayedBase ring d16 ≤ 32767 := by
  have new := ring_getD_bounds h (d16 / 16)
  have old := ring_getD_bounds h (d16 / 16 + 1)
  by_cases hf : d16 % 16 = 0
  · rwa [delayedBase_of_whole ring hf]
  · have between := delayedBase_between ring hf
    omega

/-! ### Gain term and DC term (R51, R52) -/

theorem gainTerm_nearest (xd : Int) (g : Nat) : NearestHalfAway (xd * g) 1024 (gainTerm xd g) :=
  roundHalfAway_nearest _ (by omega)

theorem gainTerm_bounds {xd : Int} {g : Nat} (h : -32767 ≤ xd) (h' : xd ≤ 32767) (hg : g ≤ 65535) :
    -2097056 ≤ gainTerm xd g ∧ gainTerm xd g ≤ 2097056 := by
  have low : -32767 * (g : Int) ≤ xd * g := mul_le_mul_of_nonneg_right h (by omega)
  have high : xd * g ≤ 32767 * (g : Int) := mul_le_mul_of_nonneg_right h' (by omega)
  have near := abs_le.1 (show |(1024 : Nat) * gainTerm xd g - xd * g| ≤ 512 by
    have := (gainTerm_nearest xd g).1
    omega)
  omega

theorem gainTerm_unit (xd : Int) : gainTerm xd 1024 = xd := by
  rw [gainTerm, mul_comm]
  exact roundHalfAway_mul xd (by omega)

theorem gainTerm_zero (xd : Int) : gainTerm xd 0 = 0 := by simp [gainTerm, roundHalfAway]

theorem dcTerm_eq (a : Int) : dcTerm a = (a + 32768) / 65536 := by
  unfold dcTerm roundHalfUp
  push_cast
  omega

/-- Settles O45, stage by stage. -/
theorem scaleStages : Obligations.ScaleStages := by
  refine ⟨fun ring d16 _ hring hd => ?_, fun x b hx => ?_, fun xd g => ?_, by decide, by decide, fun a => ?_, fun d => ?_,
    by decide, by decide⟩
  · refine ⟨delayedBase_of_whole ring, fun hf => ?_, delayedBase_between ring, (delayedBase_bounds hring d16).1,
      (delayedBase_bounds hring d16).2, fun h => ?_⟩
    · rw [delayedBase_of_part ring hf, add_sub_cancel_left]
      exact roundHalfAway_nearest _ (by omega)
    · rw [h, delayedBase_of_whole ring (by omega)]
  · exact ⟨by simp [Channel.sum, hx], by simp [Channel.output, hx], by omega⟩
  · exact ⟨gainTerm_nearest xd g, gainTerm_bounds, gainTerm_unit xd, gainTerm_zero xd⟩
  · rw [dcTerm_eq]
    omega
  · rw [dcTerm_eq]
    omega

/-! ### The DC accumulator (R55, R58) -/

/-- R55: `nextAcc a k` is one half added to `a * k / 65536`, then the floor. -/
theorem nextAcc_bounds (a : Int) (k : Nat) :
    65536 * nextAcc a k ≤ a * k + 32768 ∧ a * k + 32768 < 65536 * nextAcc a k + 65536 := by
  unfold nextAcc
  omega

/-- What the factor takes off `a`: `a` times its distance from 1. -/
theorem decay_loss (a : Int) (k : Nat) : a * (65536 - k) = 65536 * a - a * k := by ring

/-- R55: for an accumulator that is not negative the loss is not negative, and for one that is not positive not positive. -/
theorem decay_loss_sign (a : Int) {k : Nat} (hk : k ≤ 65535) :
    (0 ≤ a → 0 ≤ a * k ∧ a ≤ a * (65536 - k)) ∧ (a ≤ 0 → a * k ≤ 0 ∧ a * (65536 - k) ≤ a) := by
  have hk' : (1 : Int) ≤ 65536 - k := by omega
  constructor
  · intro h
    exact ⟨mul_nonneg h (by omega), le_mul_of_one_le_right h hk'⟩
  · intro h
    have := mul_le_mul_of_nonpos_left hk' h
    exact ⟨mul_nonpos_of_nonpos_of_nonneg h (by omega), by omega⟩

/-- R55: the accumulator comes no nearer to 0 than 0, and no further from it. -/
theorem nextAcc_between (a : Int) {k : Nat} (hk : k ≤ 65535) :
    (0 ≤ a → 0 ≤ nextAcc a k ∧ nextAcc a k ≤ a) ∧ (a ≤ 0 → a ≤ nextAcc a k ∧ nextAcc a k ≤ 0) := by
  have bounds := nextAcc_bounds a k
  have sign := decay_loss_sign a hk
  rw [decay_loss] at sign
  omega

/-- R58: where the accumulator is at rest. -/
theorem nextAcc_rest_iff (a : Int) (k : Nat) :
    nextAcc a k = a ↔ -32768 < a * (65536 - k) ∧ a * (65536 - k) ≤ 32768 := by
  have bounds := nextAcc_bounds a k
  rw [decay_loss]
  omega

/-- R58: the accumulator comes to rest from every value: where it is not at rest it is nearer to 0 in the next frame. -/
theorem nextAcc_comes_to_rest {k : Nat} (hk : k ≤ 65535) (a : Int) :
    ∃ n : Nat, nextAcc (Nat.iterate (fun v => nextAcc v k) n a) k = Nat.iterate (fun v => nextAcc v k) n a := by
  induction hm : a.natAbs using Nat.strong_induction_on generalizing a with
  | _ m ih =>
    by_cases hr : nextAcc a k = a
    · exact ⟨0, hr⟩
    · have between := nextAcc_between a hk
      obtain ⟨n, hn⟩ := ih _ (by omega) (nextAcc a k) rfl
      exact ⟨n + 1, hn⟩

/-- R58: the accumulators that are at rest, by the distance of the factor from 1. -/
theorem rest_of_distance {a q : Int} {d : Nat} (hq : (d : Int) ≤ q) (h : -32768 < a * q ∧ a * q ≤ 32768) :
    a * d ≤ 32768 ∧ -32768 < a * d := by
  rcases le_total 0 a with ha | ha
  · have h1 := mul_le_mul_of_nonneg_left hq ha
    have h2 : 0 ≤ a * d := mul_nonneg ha (by omega)
    omega
  · have h1 := mul_le_mul_of_nonpos_left hq ha
    have h2 : a * d ≤ 0 := mul_nonpos_of_nonpos_of_nonneg ha (by omega)
    omega

/-- Settles O47: signs and size by `nextAcc_between`, the residuals by `nextAcc_rest_iff`. -/
theorem dcAccumulator : Obligations.DcAccumulator := by
  refine ⟨fun x => ⟨?_, fun h => by simp [Channel.advance, h]⟩, fun a k hk => ?_, by decide, by decide, by decide, by decide,
    fun k h h' => ?_, fun k h h' => ?_⟩
  · rintro (h | h) <;> simp [Channel.advance, h]
  · have bounds := nextAcc_bounds a k
    have between := nextAcc_between a hk
    have sign := decay_loss_sign a hk
    have rest := nextAcc_rest_iff a k
    have residual (d : Nat) (hd : k + d ≤ 65536) (hr : nextAcc a k = a) :=
      rest_of_distance (a := a) (d := d) (q := 65536 - k) (by omega) (rest.1 hr)
    simp only [dcTerm_eq]
    refine ⟨bounds.1, bounds.2, by omega, by omega, by omega, by rw [neg_mul]; omega, fun _ _ => ?smaller,
      fun hr hk => ?_, fun hr hk => ?_, fun hr _ hk => ?_, fun hr hk => ?_, fun hr hk => ?_, fun hr hk => ?_,
      fun hk _ _ => ?above, fun hk => ?gone, nextAcc_comes_to_rest hk a⟩
    case smaller => rw [Int.abs_eq_natAbs, Int.abs_eq_natAbs]; omega
    case above => rw [hk] at bounds ⊢; omega
    case gone => rw [hk] at bounds ⊢; omega
    · have := residual 1 (by omega) hr
      split <;> omega
    · have := residual 2 (by omega) hr
      omega
    · have := residual 3 (by omega) hr
      omega
    · have := residual 32768 (by omega) hr
      omega
    · have := residual 32769 (by omega) hr
      omega
    · have := residual 2 (by omega) hr
      omega
  · rw [nextAcc_rest_iff]
    omega
  · rw [nextAcc_rest_iff]
    omega

end Sys2Proof.Machine
end

