-- ==== Sys2Proof/Proofs/InjectionOutputs.lean ====
section
/-! SUPPORT. The output of a channel, what bounds it, and what is delivered of it (R53, R54, R63 to R65). -/

namespace Sys2Proof.Machine

/-! ### The clamp (R53) -/

theorem clamp_cases (x : Int) (lim : Nat) :
    (x < -(lim : Int) → clamp x (-lim) lim = -lim) ∧ ((lim : Int) < x → clamp x (-lim) lim = lim)
      ∧ (-(lim : Int) ≤ x → x ≤ lim → clamp x (-lim) lim = x) := by
  unfold clamp
  split <;> (try split) <;> omega

theorem clamp_bounds {a b : Int} (h : a ≤ b) (x : Int) : a ≤ clamp x a b ∧ clamp x a b ≤ b := by
  unfold clamp
  split <;> (try split) <;> omega

/-- R53: what bounds a channel's output, by the route entry of its frame. -/
theorem State.bound_eq (s : State) (c : Fin 12) :
    (s.route c = none → s.bound c = .unrouted)
      ∧ ∀ p : Fin 14, s.route c = some p →
        s.bound c = if s.out.limitPrev[p] = 0 then .unwritten else .limit s.out.limitPrev[p] := by
  unfold State.bound
  exact ⟨fun h => by rw [h], fun p h => by rw [h]⟩

/-- R54: a ZERO channel. -/
theorem Channel.output_of_zero {x : Channel} (h : x.mode = .zero) (b : Bound) :
    x.output b = { x with y := 0, gain := 0 } := by
  simp [Channel.output, h]

/-- R51, R53: a PASS or SCALE channel. -/
theorem Channel.output_of_not_zero {x : Channel} (h : x.mode ≠ .zero) (b : Bound) :
    x.output b = { x with
      y := b.apply x.sum
      gain := x.gacc / 65536
      clip := if b.clips x.sum then satInc 255 x.clip else x.clip } := by
  unfold Channel.output
  split <;> [contradiction; rfl; rfl]

theorem Channel.sum_of_not_zero {x : Channel} (h : x.mode ≠ .zero) :
    x.sum = if x.mode = .pass then x.ring.getD 0 0
      else gainTerm (delayedBase x.ring x.d16) (x.gacc / 65536) + dcTerm x.acc := by
  unfold Channel.sum
  split <;> simp_all

/-! ### Fade and delivery (R63 to R65) -/

/-- R64: the faded output is no larger than the output. -/
theorem faded_abs_le (y : Int) {f k : Nat} (hf : 1 ≤ f) (hk : k ≤ f) : |faded y f k| ≤ |y| := by
  have share : |y * ((f : Int) - k)| ≤ f * |y| := by
    rw [abs_mul, mul_comm, abs_of_nonneg (show (0 : Int) ≤ f - k by omega)]
    exact mul_le_mul_of_nonneg_right (by omega) (abs_nonneg y)
  obtain ⟨low, high⟩ := abs_le.1 share
  exact abs_le.2 ⟨le_roundHalfAway hf (by rwa [mul_neg]), roundHalfAway_le hf high⟩

theorem faded_neg (y : Int) (f k : Nat) : faded (-y) f k = -faded y f k := by
  unfold faded
  rw [neg_mul, roundHalfAway_neg]

theorem faded_end (y : Int) {f : Nat} (hf : 1 ≤ f) : faded y f f = 0 := by
  rw [faded, sub_self, mul_zero]
  simpa using roundHalfAway_mul 0 hf

theorem State.silent_iff (s : State) (c : Fin 12) :
    s.silent c = true ↔ ∃ x : FailoverCtx, s.sup.engine = .switching x ∧ x.logical = c := by
  unfold State.silent
  split <;> simp_all

theorem State.deliveredOutputs_eq (s : State) (c : Fin 12) :
    s.deliveredOutputs[c] = if s.seq.phase.inTest && !s.silent c then s.fadedOutput c else 0 := by
  simp [State.deliveredOutputs]

/-- Settles O46: bounds by `State.bound_eq`, outputs by `Channel.output_of_not_zero`, the fade by rounding. -/
theorem outputClampAndFade : Obligations.OutputClampAndFade := by
  refine ⟨⟨fun s c => ?_, fun x lim => ⟨Channel.output_of_zero, fun hx => ?_⟩⟩,
    fun y f k hf hk => ⟨roundHalfAway_nearest _ hf, faded_abs_le y hf hk, fun h => h ▸ faded_end y (h ▸ hf), faded_neg y f k⟩,
    fun s c => ?_⟩
  · obtain ⟨unrouted, routed⟩ := s.bound_eq c
    have route : (match s.sup.engine with
        | .switching x => if x.logical = c then some x.dst else s.out.map[c]
        | _ => s.out.map[c]) = s.route c := by
      unfold State.route
      cases s.sup.engine <;> rfl
    intro target
    rw [show target = s.route c from route]
    exact ⟨unrouted, fun p hp h0 => by rw [routed p hp, if_pos h0], fun p hp h0 => by rw [routed p hp, if_neg h0]⟩
  · obtain ⟨below, above, within'⟩ := clamp_cases x.sum lim
    simp only [← Channel.sum_of_not_zero hx, Channel.output_of_not_zero hx, Bound.apply, Bound.clips, satInc]
    exact ⟨by simp, by simp, by simp, below, above, within'⟩
  · simp only [← State.silent_iff, State.deliveredOutputs_eq, State.fadedOutput]
    refine ⟨fun hp hs => ?_, fun hp hs => ?_, fun hs => ?_, fun hp hp' => ?_⟩
    · simp [hp, hs, Phase.inTest]
    · simp [hp, hs, Phase.inTest, State.fade]
    · simp [hs]
    · have : s.seq.phase.inTest = false := by cases h : s.seq.phase <;> simp_all [Phase.inTest]
      simp [this]

end Sys2Proof.Machine
end
-- ==== Sys2Proof/Proofs/ChannelEntry.lean ====
section
/-! SUPPORT. What the entry to a state makes of a channel (R45 to R48). -/

namespace Sys2Proof.Machine

/-- R46: the fields of a channel parameter record, byte by byte. -/
theorem Channel.load_eq (x : Channel) (m : Mode) (r : Payload) :
    x.load m r = { x with
      mode := m
      gacc := (256 * r[1].toNat + r[2].toNat) * 65536
      acc := (r[9] ++ r[10] : BitVec 16).toInt * 65536
      step := (r[3] ++ r[4] ++ r[5] ++ r[6] : BitVec 32).toInt
      d16 := 256 * r[7].toNat + r[8].toNat
      decay := 256 * r[11].toNat + r[12].toNat } := by
  rw [Channel.load, Chan.gain0, Chan.dc0, Chan.step, Chan.d16, Chan.decay, Payload.u16_eq r 1 (by omega),
    Payload.i16_eq r 9 (by omega), Payload.i32_eq r 3 (by omega), Payload.u16_eq r 7 (by omega),
    Payload.u16_eq r 11 (by omega)]

/-- R46 to R48: the mode of the record decides. -/
theorem Channel.loadRecord_of_mode (x : Channel) (r : Payload) (first : Bool) :
    (r[0] = 0 → x.loadRecord r first = x.loadZero) ∧ (r[0] = 1 → x.loadRecord r first = x.load .pass r)
      ∧ (r[0] = 2 → x.loadRecord r first = x.load .scale r)
      ∧ (r[0] = 3 → x.loadRecord r first = if first then x.load .pass r else x) := by
  unfold Channel.loadRecord Chan.mode
  rw [Payload.u8_eq r 0 (by omega)]
  refine ⟨fun h => ?_, fun h => ?_, fun h => ?_, fun h => ?_⟩ <;> rw [h] <;> rfl

/-- R45: what no record changes. -/
theorem Channel.enter_kept (x : Channel) (r : Payload) (first : Bool) :
    (x.enter r first).clip = 0 ∧ (x.enter r first).rampEnd = false ∧ (x.enter r first).ring = x.ring
      ∧ (x.enter r first).y = x.y ∧ (x.enter r first).gain = x.gain := by
  have kept : (x.loadRecord r first).ring = x.ring ∧ (x.loadRecord r first).y = x.y
      ∧ (x.loadRecord r first).gain = x.gain := by
    unfold Channel.loadRecord
    (repeat' split) <;> exact ⟨rfl, rfl, rfl⟩
  exact ⟨rfl, rfl, kept⟩

theorem State.engineEnter_eng (s : State) (n : Fin 32) (first : Bool) (c : Fin 12) :
    (s.engineEnter n first).eng[c] = s.eng[c].enter s.plan.channels[n][c] first := by
  simp [State.engineEnter]

/-- Settles O30, by the mode of the record. -/
theorem stateEntryLoadsChannels : Obligations.StateEntryLoadsChannels := by
  intro s n first c
  obtain ⟨clip, flag, ring, y, gain⟩ := s.eng[c].enter_kept s.plan.channels[n][c] first
  obtain ⟨zero, pass, scale, continue'⟩ := s.eng[c].loadRecord_of_mode s.plan.channels[n][c] first
  simp only [State.engineEnter_eng]
  refine ⟨rfl, clip, flag, ring, y, gain, fun h => ?_, fun h => ?_, fun h => ?_, fun h hf => ?_, fun h hf => ?_⟩
  · simp only [Channel.enter, scale h, Channel.load_eq, and_self]
  · simp only [Channel.enter, pass h, Channel.load_eq, and_self]
  · simp only [Channel.enter, zero h, Channel.loadZero, and_self]
  · subst hf
    simp only [Channel.enter, continue' h, if_true, Channel.load_eq, and_self]
  · subst hf
    simp only [Channel.enter, continue' h, Bool.false_eq_true, if_false, and_self]

end Sys2Proof.Machine
end

