-- ==== Sys2Proof/Proofs/ChannelRanges.lean ====
section
/-! SUPPORT. A channel's items stay in their ranges (3.1, R42 to R47, R53 to R56). -/

namespace Sys2Proof.Machine

/-! ### The delay ring -/

theorem readSample_bounds {x : Int} (h : -32768 ≤ x ∧ x ≤ 32767) : -32767 ≤ readSample x ∧ readSample x ≤ 32767 := by
  unfold readSample
  split <;> omega

/-- R42: a ring takes a sample in range. -/
theorem Channel.InRange.pushRing {x : Channel} (h : x.InRange) {v : Int} (hv : -32767 ≤ v ∧ v ≤ 32767) :
    ({ x with ring := Machine.pushRing x.ring v } : Channel).InRange := by
  obtain ⟨hlen, hring, hrest⟩ := h
  refine ⟨by simp [Machine.pushRing, hlen], fun u hu => ?_, hrest⟩
  rcases List.mem_cons.1 (List.mem_of_mem_take hu) with rfl | hu
  · exact hv
  · exact hring u hu

/-- R43. -/
theorem Channel.InRange.zeroRing {x : Channel} (h : x.InRange) :
    ({ x with ring := List.replicate 256 0 } : Channel).InRange := by
  obtain ⟨-, -, hrest⟩ := h
  refine ⟨List.length_replicate, fun u hu => ?_, hrest⟩
  rw [List.eq_of_mem_replicate hu]
  decide

/-- R41: RESET_PART keeps the ring alone. -/
theorem Channel.InRange.resetKeepingRing {x : Channel} (h : x.InRange) :
    ({ Channel.reset with ring := x.ring } : Channel).InRange := by
  obtain ⟨hlen, hring, -⟩ := h
  obtain ⟨-, -, hrest⟩ := Channel.reset_inRange
  exact ⟨hlen, hring, hrest⟩

/-! ### State entry (R45 to R48) -/

theorem at1_lt (bs : List Byte) (i : Nat) : at1 bs i < 256 := (bs.getD i 0).isLt

theorem at2_lt (bs : List Byte) (i : Nat) : at2 bs i < 65536 := by
  have := at1_lt bs i
  have := at1_lt bs (i + 1)
  unfold at2
  omega

theorem signedOf_bounds {n : Nat} (h : n < 65536) : -32768 ≤ signedOf 65536 n ∧ signedOf 65536 n ≤ 32767 := by
  unfold signedOf
  split <;> omega

theorem Channel.InRange.load {x : Channel} (h : x.InRange) (m : Mode) {r : Payload} (hr : ChannelRecordOk r) :
    (x.load m r).InRange := by
  obtain ⟨hlen, hring, -, -, -, -, -, hrest⟩ := h
  obtain ⟨hdc, hd16, hstep⟩ := hr
  have gain : Chan.gain0 r < 65536 := at2_lt _ _
  have decay : Chan.decay r < 65536 := at2_lt _ _
  have dc : -32768 ≤ Chan.dc0 r ∧ Chan.dc0 r ≤ 32767 := signedOf_bounds (at2_lt _ _)
  exact ⟨hlen, hring, show Chan.gain0 r * 65536 ≤ _ by omega, hstep,
    show _ ≤ Chan.dc0 r * 65536 ∧ Chan.dc0 r * 65536 ≤ _ by omega, Nat.le_of_lt_succ decay, hd16, hrest⟩

theorem Channel.InRange.loadZero {x : Channel} (h : x.InRange) : x.loadZero.InRange := by
  obtain ⟨hlen, hring, -, -, -, -, -, hrest⟩ := h
  refine ⟨hlen, hring, Nat.zero_le _, ?_, ?_, Nat.zero_le _, Nat.zero_le _, hrest⟩ <;> simp [Channel.loadZero]

/-- R45. -/
theorem Channel.InRange.enter {x : Channel} (h : x.InRange) {r : Payload} (hr : ChannelRecordOk r) (first : Bool) :
    (x.enter r first).InRange := by
  have loaded : (x.loadRecord r first).InRange := by
    unfold Channel.loadRecord
    split
    · exact h.loadZero
    · exact h.load .pass hr
    · exact h.load .scale hr
    · split
      · exact h.load .pass hr
      · exact h
  obtain ⟨hlen, hring, hgacc, hstep, hacc, hdecay, hd16, -, hrest⟩ := loaded
  exact ⟨hlen, hring, hgacc, hstep, hacc, hdecay, hd16, Nat.zero_le _, hrest⟩

/-! ### The per-frame computation (R53 to R56) -/

/-- A written limit is no larger than a sample. -/
def Bound.Ok : Bound → Prop
  | .unrouted | .unwritten => True
  | .limit lim => lim ≤ 32767

theorem Bound.Ok.apply_bounds {b : Bound} (h : b.Ok) (sum : Int) : -32767 ≤ b.apply sum ∧ b.apply sum ≤ 32767 := by
  cases b with
  | limit lim =>
    have hlim : lim ≤ 32767 := h
    have := clamp_bounds (a := -(lim : Int)) (b := lim) (by omega) sum
    dsimp only [Bound.apply]
    omega
  | _ => simp [Bound.apply]

/-- R53, R54. -/
theorem Channel.InRange.output {x : Channel} (h : x.InRange) {b : Bound} (hb : b.Ok) : (x.output b).InRange := by
  obtain ⟨hlen, hring, hgacc, hstep, hacc, hdecay, hd16, hclip, -, -⟩ := h
  by_cases hz : x.mode = .zero
  · rw [Channel.output_of_zero hz]
    refine ⟨hlen, hring, hgacc, hstep, hacc, hdecay, hd16, hclip, Nat.zero_le _, ?_⟩
    simp
  · rw [Channel.output_of_not_zero hz]
    refine ⟨hlen, hring, hgacc, hstep, hacc, hdecay, hd16, ?_, ?_, hb.apply_bounds _⟩
    · dsimp only
      split
      · exact min_le_left _ _
      · exact hclip
    · dsimp only
      omega

theorem nextGacc_le (gacc : Nat) (step : Int) : nextGacc gacc step ≤ 4294967295 := by
  have := clamp_bounds (a := 0) (b := 4294967295) (by omega) ((gacc : Int) + step)
  unfold nextGacc
  omega

/-- R55, R56: a PASS or SCALE channel. -/
theorem Channel.advance_of_not_zero {x : Channel} (h : x.mode ≠ .zero) :
    x.advance = { x with
      acc := nextAcc x.acc x.decay
      gacc := nextGacc x.gacc x.step
      rampEnd := x.rampEnd || rampClamps x.gacc x.step } := by
  unfold Channel.advance
  split <;> [contradiction; rfl; rfl]

theorem Channel.advance_of_zero {x : Channel} (h : x.mode = .zero) : x.advance = x := by
  simp [Channel.advance, h]

/-- R55, R56. -/
theorem Channel.InRange.advance {x : Channel} (h : x.InRange) : x.advance.InRange := by
  by_cases hz : x.mode = .zero
  · rwa [Channel.advance_of_zero hz]
  · obtain ⟨hlen, hring, -, hstep, hacc, hdecay, hrest⟩ := h
    have between := nextAcc_between x.acc hdecay
    rw [Channel.advance_of_not_zero hz]
    refine ⟨hlen, hring, nextGacc_le _ _, hstep, ?_, hdecay, hrest⟩
    dsimp only
    omega

end Sys2Proof.Machine
end

