-- ==== Sys2Proof/Proofs/Limits.lean ====
section
/-! SUPPORT. The operations that touch the Output Stage and leave its limits alone (R53, R62), and those that touch the receiver
and leave the held frame alone. -/

namespace Sys2Proof.Machine

/-! ### Output Supervisor -/

@[simp] theorem State.setMap_limits (s : State) (c : Fin 12) (p : Option (Fin 14)) :
    (s.setMap c p).out.limit = s.out.limit ∧ (s.setMap c p).out.limitPrev = s.out.limitPrev := ⟨rfl, rfl⟩

@[simp] theorem State.serveChannel_limits (s : State) (c : Fin 12) :
    (s.serveChannel c).out.limit = s.out.limit ∧ (s.serveChannel c).out.limitPrev = s.out.limitPrev := by
  unfold State.serveChannel
  (repeat' split) <;> simp

@[simp] theorem State.serve_limits (s : State) :
    s.serve.out.limit = s.out.limit ∧ s.serve.out.limitPrev = s.out.limitPrev := by
  unfold State.serve
  split <;> simp

@[simp] theorem State.moveMap_limits (s : State) (x : FailoverCtx) :
    (s.moveMap x).out.limit = s.out.limit ∧ (s.moveMap x).out.limitPrev = s.out.limitPrev := by
  simp [State.moveMap]

@[simp] theorem State.completeFailover_limits (s : State) :
    s.completeFailover.out.limit = s.out.limit ∧ s.completeFailover.out.limitPrev = s.out.limitPrev := by
  unfold State.completeFailover
  (repeat' split) <;> simp

@[simp] theorem State.closeEngine_limits (s : State) (e : Nat) :
    (s.closeEngine e).out.limit = s.out.limit ∧ (s.closeEngine e).out.limitPrev = s.out.limitPrev := by
  unfold State.closeEngine
  split <;> simp

@[simp] theorem State.closeFailover_limits (s : State) (e : Nat) :
    (s.closeFailover e).out.limit = s.out.limit ∧ (s.closeFailover e).out.limitPrev = s.out.limitPrev := by
  simp [State.closeFailover]

@[simp] theorem State.identityMap_limits (s : State) :
    s.identityMap.out.limit = s.out.limit ∧ s.identityMap.out.limitPrev = s.out.limitPrev := ⟨rfl, rfl⟩

/-! ### Output Stage -/

@[simp] theorem State.closeJudgment_limits (s : State) :
    s.closeJudgment.out.limit = s.out.limit ∧ s.closeJudgment.out.limitPrev = s.out.limitPrev := by
  unfold State.closeJudgment
  split <;> simp

@[simp] theorem OutputStage.sent_limits (o : OutputStage) (samples : Vector Int 14) :
    (o.sent samples).limit = o.limit ∧ (o.sent samples).limitPrev = o.limitPrev := by
  unfold OutputStage.sent OutputStage.pushHistory
  split <;> simp

@[simp] theorem State.sendDrive_limits (s : State) (samples : Vector Int 14) (route : Vector (Option (Fin 14)) 12) :
    (s.sendDrive samples route).out.limit = s.out.limit
    ∧ (s.sendDrive samples route).out.limitPrev = s.out.limitPrev := by
  simp [State.sendDrive]

@[simp] theorem State.driveFrame_limits (s : State) :
    s.driveFrame.out.limit = s.out.limit ∧ s.driveFrame.out.limitPrev = s.out.limitPrev := by
  simp [State.driveFrame]

@[simp] theorem State.lossDrive_limits (s : State) :
    s.lossDrive.out.limit = s.out.limit ∧ s.lossDrive.out.limitPrev = s.out.limitPrev := by
  simp [State.lossDrive]

@[simp] theorem State.judgeReadback_limits (s : State) (bs : List Byte) :
    (s.judgeReadback bs).out.limit = s.out.limit ∧ (s.judgeReadback bs).out.limitPrev = s.out.limitPrev := by
  unfold State.judgeReadback
  dsimp only
  (repeat' split) <;> simp

/-! ### The Sequencer and the boundary -/

@[simp] theorem State.closeBlocks_limits (s : State) (e : Nat) :
    (s.closeBlocks e).out.limit = s.out.limit ∧ (s.closeBlocks e).out.limitPrev = s.out.limitPrev := by
  simp [State.closeBlocks]

@[simp] theorem State.beginEnding_limits (s : State) (r : EndReason) (own : Nat) (last : Fin 32) :
    (s.beginEnding r own last).out.limit = s.out.limit ∧ (s.beginEnding r own last).out.limitPrev = s.out.limitPrev := by
  unfold State.beginEnding
  dsimp only
  split <;> simp

@[simp] theorem State.lossSequencer_limits (s : State) :
    s.lossSequencer.out.limit = s.out.limit ∧ s.lossSequencer.out.limitPrev = s.out.limitPrev := by
  unfold State.lossSequencer
  dsimp only
  split <;> simp

@[simp] theorem State.boundaryApart_limits (s : State) :
    s.boundaryApart.out.limit = s.out.limit ∧ s.boundaryApart.out.limitPrev = s.out.limitPrev := by
  simp [State.boundaryApart]

@[simp] theorem State.ready_limits (s : State) :
    s.ready.out.limit = s.out.limit ∧ s.ready.out.limitPrev = s.out.limitPrev := by
  unfold State.ready
  split <;> simp

@[simp] theorem restoreMap_limits (m : Msg) (s : State) :
    (restoreMap m s).state.out.limit = s.out.limit ∧ (restoreMap m s).state.out.limitPrev = s.out.limitPrev := by
  unfold restoreMap inPhase indexed valued done refuse
  (repeat' split) <;> simp

/-! ### The channel records -/

/-- R3 to R5, R7, R8: the other definition writes leave the channel records alone. -/
@[simp] theorem definitionWrites_channels (m : Msg) (s : State) :
    (writeGlobals m s).state.plan.channels = s.plan.channels ∧ (writeState m s).state.plan.channels = s.plan.channels
    ∧ (writeTimer m s).state.plan.channels = s.plan.channels ∧ (writeInput m s).state.plan.channels = s.plan.channels
    ∧ (writeBreaker m s).state.plan.channels = s.plan.channels
    ∧ (writeCapture m s).state.plan.channels = s.plan.channels := by
  rw [writeGlobals_eq, writeState_eq, writeTimer_eq, writeInput_eq, writeBreaker_eq, writeCapture_eq]
  dsimp only
  and_intros <;> split_ifs <;> simp [done, refuse]

/-! ### The held frame -/

@[simp] theorem receiverWrites_held (m : Msg) (s : State) :
    (setCadence m s).state.recv.held = s.recv.held ∧ (resync m s).state.recv.held = s.recv.held := by
  unfold setCadence resync inPhase indexed valued done refuse
  and_intros <;> (repeat' split) <;> rfl

@[simp] theorem State.checkTimeout_held (s : State) : s.checkTimeout.recv.held = s.recv.held := by
  unfold State.checkTimeout
  split <;> rfl

end Sys2Proof.Machine
end

