-- ==== Sys2Proof/Proofs/EngineInvariant.lean ====
section
/-! SUPPORT. Every step keeps the engine's items in their ranges (3.1, R42, R53, R55, R56, R62). -/

namespace Sys2Proof.Machine

/-! ### What the invariant speaks of -/

/-- R153: the samples of a held frame are 16-bit numbers. -/
def HeldFrame.InRange (h : HeldFrame) : Prop := ∀ c : Fin 12, -32768 ≤ h.samples[c] ∧ h.samples[c] ≤ 32767

theorem heldOf_inRange (arrival : Nat) (bs : List Byte) : (heldOf arrival bs).InRange := by
  intro c
  have sample : (heldOf arrival bs).samples[c] = signedOf 65536 (at2 bs (6 + 2 * c.val)) := by
    simp [heldOf, sampleAt]
  rw [sample]
  exact signedOf_bounds (at2_lt bs _)

theorem Plan.SameDefinition.channels_eq {p q : Plan} (h : p.SameDefinition q) : q.channels = p.channels := by
  obtain ⟨-, -, -, channels, -⟩ := h
  exact channels.symm

/-- R6: a payload that is stored as a channel parameter record. -/
theorem channelRecordOk_of_ok {r : Payload} (h : Chan.ok r = true) : ChannelRecordOk r := by
  simp only [Chan.ok, Bool.and_eq_true, decide_eq_true_eq] at h
  obtain ⟨⟨⟨⟨⟨-, low⟩, high⟩, hd16⟩, hdc⟩, -⟩ := h
  exact ⟨hdc, hd16, low, high⟩

namespace State.EngineInv

variable {s t : State}

theorem channels (h : s.EngineInv) (c : Fin 12) : s.eng[c].InRange := h.1 c

theorem limits (h : s.EngineInv) (p : Fin 14) : s.out.limit[p] ≤ 32767 ∧ s.out.limitPrev[p] ≤ 32767 := h.2.1 p

theorem records (h : s.EngineInv) (n : Fin 32) (c : Fin 12) : ChannelRecordOk s.plan.channels[n][c] := h.2.2.1 n c

theorem held (h : s.EngineInv) {x : HeldFrame} (hx : s.recv.held = some x) : x.InRange := fun c => h.2.2.2 x c hx

/-- What keeps channels, limits, channel records and held frame keeps the invariant. -/
theorem of_kept (h : s.EngineInv) (eng : t.eng = s.eng := by simp)
    (limits : t.out.limit = s.out.limit ∧ t.out.limitPrev = s.out.limitPrev := by simp)
    (records : t.plan.channels = s.plan.channels := by simp) (held : t.recv.held = s.recv.held := by simp) :
    t.EngineInv := by
  unfold State.EngineInv at *
  rw [eng, limits.1, limits.2, records, held]
  exact h

theorem withEng (h : s.EngineInv) {x : Fin 12 → Channel} (hx : ∀ c : Fin 12, (x c).InRange) :
    (s.withEng (tab x)).EngineInv :=
  ⟨fun c => (tab_getElem x c c.isLt).symm ▸ hx c, h.2⟩

theorem withSeq (h : s.EngineInv) (q : Sequencer) : (s.withSeq q).EngineInv := h

theorem make (h : s.EngineInv) (n time : Nat) (b : Body) : (s.make n time b).EngineInv := h

theorem toStage (h : s.EngineInv) (x : Stage) : (s.toStage x).EngineInv := h

theorem linesEnter (h : s.EngineInv) (n : Fin 32) : (s.linesEnter n).EngineInv := h.of_kept

theorem offer (h : s.EngineInv) (ev : Cond) (stamp : Nat) (bo : Bool) : (s.offer ev stamp bo).EngineInv := h.of_kept

/-- The held frame has been taken or dropped. -/
theorem withoutHeld (h : s.EngineInv) {r : Receiver} (hr : r.held = none) : (s.withRecv r).EngineInv := by
  obtain ⟨eng, limits, records, -⟩ := h
  exact ⟨eng, limits, records, fun x c hx => by cases hr.symm.trans hx⟩

/-! ### The engine -/

theorem writeRings (h : s.EngineInv) {x : HeldFrame} (hx : x.InRange) : (s.writeRings x.samples).EngineInv :=
  h.withEng fun c => (h.channels c).pushRing (readSample_bounds (hx c))

theorem fillRings (h : s.EngineInv) : s.fillRings.EngineInv :=
  h.withEng fun c => by
    obtain ⟨-, ring, -⟩ := h.channels c
    exact (h.channels c).pushRing (ring_getD_bounds ring _)

theorem zeroRings (h : s.EngineInv) : s.zeroRings.EngineInv :=
  h.withEng fun c => (h.channels c).zeroRing

theorem engineEnter (h : s.EngineInv) (n : Fin 32) (first : Bool) : (s.engineEnter n first).EngineInv :=
  h.withEng fun c => (h.channels c).enter (h.records n c) first

theorem engineReset (h : s.EngineInv) : s.engineReset.EngineInv :=
  h.withEng fun c => (h.channels c).resetKeepingRing

theorem bound_ok (h : s.EngineInv) (c : Fin 12) : (s.bound c).Ok := by
  obtain ⟨unrouted, routed⟩ := s.bound_eq c
  cases hr : s.route c with
  | none =>
    rw [unrouted hr]
    exact trivial
  | some p =>
    rw [routed p hr]
    split
    · exact trivial
    · exact (h.limits p).2

/-- R49. -/
theorem computeOutputs (h : s.EngineInv) : s.computeOutputs.EngineInv := by
  have advanced : (s.withEng (tab fun c => (s.eng[c].output (s.bound c)).advance)).EngineInv :=
    h.withEng fun c => ((h.channels c).output (h.bound_ok c)).advance
  unfold State.computeOutputs
  exact advanced.of_kept

/-! ### The Sequencer -/

theorem closeTest (h : s.EngineInv) (r : EndReason) (last : Fin 32) (run : Nat) : (s.closeTest r last run).EngineInv :=
  h.of_kept (records := (s.closeTest_definition r last run).channels_eq)

theorem beginEnding (h : s.EngineInv) (r : EndReason) (own : Nat) (last : Fin 32) :
    (s.beginEnding r own last).EngineInv :=
  h.of_kept (records := (s.beginEnding_definition r own last).channels_eq)

theorem enterState (h : s.EngineInv) (st : Fin 32) (prev exit : Nat) : (s.enterState st prev exit).EngineInv := by
  unfold State.enterState
  extract_lets n s1 count final sq s2 s3
  have h1 : s1.EngineInv := by
    dsimp only [s1]
    split
    · exact h
    · exact h.of_kept
  have h3 : s3.EngineInv := ((((h1.withSeq _).make _ _ _).engineEnter st _).linesEnter st).offer _ _ _
  split
  · exact h3.beginEnding _ _ _
  · exact h3

theorem startTest (h : s.EngineInv) (r : StartRecord) : (s.startTest r).EngineInv := by
  unfold State.startTest
  dsimp only
  exact enterState h.of_kept _ _ _

theorem endRunning (h : s.EngineInv) (r : EndReason) : (s.endRunning r).EngineInv :=
  beginEnding h.of_kept _ _ _

/-- R18: whatever the boundary decides. -/
theorem settle (h : s.EngineInv) (d : Decision) : (s.settle d).EngineInv := by
  cases d with
  | start r => exact h.startTest r
  | stop r => exact h.endRunning r
  | duration => exact h.endRunning .duration
  | exit k => exact enterState h.of_kept _ _ _
  | complete => exact h.closeTest _ _ _
  | stay =>
    dsimp only [State.settle]
    split <;> exact h
  | change p =>
    dsimp only [State.settle]
    split <;> exact h
  | cancel => exact h

theorem settleSeq (h : s.EngineInv) : s.settleSeq.EngineInv := by
  unfold State.settleSeq
  split
  · exact (h.settle _).toStage _
  · exact h

/-- R155: the receiver drops the held frame as it leaves LOCKED. -/
theorem leaveLocked (h : s.EngineInv) : s.leaveLocked.EngineInv :=
  (h.withoutHeld rfl : (s.withRecv s.recv.enterHunt).EngineInv)

theorem lossSequencer (h : s.EngineInv) : s.lossSequencer.EngineInv :=
  h.of_kept (records := s.lossSequencer_definition.channels_eq)

/-- R154. -/
theorem streamLoss (h : s.EngineInv) : s.streamLoss.EngineInv := by
  unfold State.streamLoss
  extract_lets r s1
  have h1 : s1.EngineInv := of_kept h (by simp [s1]) (by simp [s1]) (by simp [s1]) (by simp [s1, r])
  exact h1.leaveLocked.lossSequencer.of_kept

/-! ### The frame taken and its boundary -/

/-- R53: the limits in force are those of the frame before. -/
theorem openEvent (h : s.EngineInv) (d : Decision) (gap : Bool) (slot : Option ControlSlot) :
    (s.openEvent d gap slot).EngineInv := by
  obtain ⟨eng, limits, rest⟩ := h
  have opened : (s.withOut { s.out with limitPrev := s.out.limit }).EngineInv :=
    ⟨eng, fun p => ⟨(limits p).1, (limits p).1⟩, rest⟩
  unfold State.openEvent
  dsimp only
  split <;> exact opened.of_kept

/-- R151, R152. -/
theorem take (h : s.EngineInv) : s.take.EngineInv := by
  unfold State.take
  split
  · next x hx =>
    have taken (c : Clock) (st : Nat × Nat) :
        (((s.withRecv (s.recv.takeHeld x)).withClock c).takeRecords s.recv x st).EngineInv :=
      (h.withoutHeld rfl : (s.withRecv (s.recv.takeHeld x)).EngineInv).of_kept
    exact ((taken _ _).writeRings (h.held hx)).openEvent _ _ _
  · exact (fillRings (s := (s.withRecv s.recv.takeGap).withClock _) h).openEvent _ _ _

theorem finishSlot (h : s.EngineInv) : s.finishSlot.EngineInv := h.of_kept

theorem openFrame (h : s.EngineInv) : s.openFrame.EngineInv := by
  unfold State.openFrame
  split
  · exact h.finishSlot.take
  · exact h

theorem atBoundary (h : s.EngineInv) : s.atBoundary.EngineInv := h.openFrame.settleSeq

theorem ready (h : s.EngineInv) : s.ready.EngineInv := h.of_kept

theorem atMessage (h : s.EngineInv) : s.atMessage.EngineInv := h.atBoundary.ready

theorem beforeMessage (h : s.EngineInv) : s.beforeMessage.EngineInv := by
  unfold State.beforeMessage
  exact h.atMessage.of_kept

/-! ### Messages -/

/-- R6. -/
theorem writeChannel (h : s.EngineInv) (m : Msg) : (writeChannel m s).state.EngineInv := by
  rw [writeChannel_eq]
  dsimp only
  split_ifs with _ _ hok
  · exact h
  · exact h
  · obtain ⟨eng, limits, records, held⟩ := h
    refine ⟨eng, limits, fun i c => ?_, held⟩
    have kept := records i c
    have stored := channelRecordOk_of_ok hok
    simp only [done, State.withPlan_plan, Fin.getElem_fin, Vector.getElem_set]
    split
    · next hi =>
      obtain rfl : Fin.ofNat 32 m.indexA.toNat = i := Fin.ext hi
      rw [Vector.getElem_set]
      split
      · exact stored
      · exact kept
    · exact kept
  · exact h

/-- R62. -/
theorem writeLimit (h : s.EngineInv) (m : Msg) : (writeLimit m s).state.EngineInv := by
  unfold Machine.writeLimit
  rw [indexed_indexA_eq]
  simp only [valued_eq]
  split_ifs with _ _ _ hok
  · exact h
  · exact h
  · obtain ⟨eng, limits, rest⟩ := h
    refine ⟨eng, fun p => ⟨?_, (limits p).2⟩, rest⟩
    have kept := (limits p).1
    simp only [done, State.withOut_out, Fin.getElem_fin, upd_getElem]
    simp only [within_iff] at hok
    split
    · exact hok.2
    · exact kept
  · exact h
  · exact h

theorem sequencerReset (h : s.EngineInv) : s.sequencerReset.EngineInv :=
  h.of_kept (records := s.sequencerReset_definition.channels_eq)

/-- R167. -/
theorem resetBlocks (h : s.EngineInv) : s.resetBlocks.EngineInv := by
  unfold State.resetBlocks
  exact h.sequencerReset.engineReset.of_kept

theorem resetPart (h : s.EngineInv) (m : Msg) : (resetPart m s).state.EngineInv := by
  unfold Machine.resetPart indexed valued
  repeat' split
  · exact h.resetBlocks
  all_goals exact h

/-- R162. -/
theorem handlerOf (h : s.EngineInv) (code : Byte) (m : Msg) : (handlerOf code m s).state.EngineInv := by
  unfold Machine.handlerOf
  split
  case h_3 => exact h.writeChannel m
  case h_8 => exact h.writeLimit m
  case h_14 => exact h.of_kept (records := (armPlan_definition m s).channels_eq)
  case h_16 => exact h.of_kept (records := (abortTest_definition m s).channels_eq)
  case h_25 => exact h.resetPart m
  case h_26 => exact h
  all_goals exact h.of_kept

/-- R162, R164: the message is handled and answered. -/
theorem takeMessage {code : Byte} {m : Msg} {k : Msg → State → Handled} (h : (k m s).state.EngineInv) :
    (s.takeMessage m code k).EngineInv := h

theorem handleSlot (h : s.EngineInv) : s.handleSlot.EngineInv := by
  unfold State.handleSlot
  repeat' split
  · exact h.toStage _
  · next c _ _ => exact takeMessage (h.handlerOf c.code c.msg)
  · exact h.toStage _
  · exact h

theorem messageStep {k : Msg → State → Handled} (hk : ∀ u : State, u.EngineInv → ∀ m : Msg, (k m u).state.EngineInv)
    (h : s.EngineInv) (m : Msg) (code : Byte) : (s.messageStep m code k).EngineInv := by
  rcases s.messageStep_cases m code k with ⟨-, e⟩ | ⟨-, e⟩ <;> rw [e]
  · exact takeMessage (hk _ h.atMessage m)
  · exact h

/-! ### The end of the frame-taken event -/

theorem verifyStep (h : s.EngineInv) : s.verifyStep.EngineInv :=
  h.of_kept (records := s.verifyStep_definition.channels_eq)

theorem outputs (h : s.EngineInv) : s.outputs.EngineInv := by
  unfold State.outputs
  split
  · exact computeOutputs h.of_kept
  · exact h

theorem resyncStep (h : s.EngineInv) : s.resyncStep.EngineInv := by
  unfold State.resyncStep
  split
  · exact h.leaveLocked
  · exact h

theorem finish (h : s.EngineInv) : s.finish.EngineInv := by
  unfold State.finish
  split
  · have sent : s.outputStep.EngineInv := by
      unfold State.outputStep
      exact h.outputs.of_kept
    have answered : (s.outputStep.answer s.frame.gap).EngineInv := sent.of_kept
    exact (answered.resyncStep.toStage .closed).of_kept
  · exact h

/-- R162: the event in progress comes to its end. -/
theorem complete (h : s.EngineInv) : s.complete.EngineInv := h.settleSeq.ready.handleSlot.verifyStep.finish

theorem closeEvent (h : s.EngineInv) : s.closeEvent.EngineInv := by
  unfold State.closeEvent
  split
  · exact h
  · exact h.complete

/-- R151, R152, R154. -/
theorem windowClose (h : s.EngineInv) : s.windowClose.EngineInv := by
  unfold State.windowClose
  repeat' split
  · exact h.openFrame.complete
  · exact h.finishSlot.streamLoss
  · exact h.complete

/-! ### Bytes that arrive -/

/-- R43, R151: the receiver enters LOCKED. -/
theorem lock (h : s.EngineInv) (arrival seq : Nat) : (s.lock arrival seq).EngineInv := by
  unfold State.lock
  have locked : (s.withRecv (s.recv.enterLocked arrival seq)).EngineInv := h.withoutHeld rfl
  exact locked.zeroRings

theorem arriveCheck (h : s.EngineInv) (arrival seq : Nat) : (s.arriveCheck arrival seq).EngineInv := by
  unfold State.arriveCheck
  repeat' split
  · exact h
  · exact h.lock arrival seq
  · exact h

theorem arriveLocked (h : s.EngineInv) {x : HeldFrame} (hx : x.InRange) : (s.arriveLocked x).EngineInv := by
  unfold State.arriveLocked
  split
  · obtain ⟨eng, limits, records, -⟩ := h
    refine ⟨eng, limits, records, fun y c hy => ?_⟩
    obtain rfl := Option.some.inj hy
    exact hx c
  · exact h

/-- R150, R151. -/
theorem arrive (h : s.EngineInv) (arrival : Nat) (bs : List Byte) : (s.arrive arrival bs).EngineInv := by
  unfold State.arrive State.arriveGood
  repeat' split
  · exact h
  · exact h.arriveCheck _ _
  · exact h.arriveLocked (heldOf_inRange arrival bs)
  · exact h

theorem setStream (h : s.EngineInv) (bytes : List LinkByte) : (s.setStream bytes).EngineInv := h

theorem frameWhole (h : s.EngineInv) (first : LinkByte) (rest : List LinkByte) : (s.frameWhole first rest).EngineInv := by
  unfold State.frameWhole
  exact (h.setStream _).arrive _ _

theorem receiveByte (h : s.EngineInv) (x : LinkByte) : (s.receiveByte x).EngineInv := by
  unfold State.receiveByte
  split
  · exact h.setStream _
  · split
    · exact h.closeEvent.frameWhole _ _
    · exact h.setStream _

theorem receiveBytes (h : s.EngineInv) (bytes : List LinkByte) : (s.receiveBytes bytes).EngineInv := by
  induction bytes generalizing s with
  | nil => exact h
  | cons x xs ih => exact ih (h.receiveByte x)

/-! ### Commands -/

theorem powerUp (s : State) : s.powerUp.EngineInv := of_kept reset_engineInv rfl ⟨rfl, rfl⟩ rfl rfl

theorem boundaryStep {act : State → State} (hact : ∀ u : State, u.EngineInv → (act u).EngineInv) (h : s.EngineInv)
    (due : State → Bool) : (s.boundaryStep due act).EngineInv := by
  rcases s.boundaryStep_cases due act with ⟨-, -, e⟩ | e <;> rw [e]
  · exact hact _ h.atBoundary
  · exact h

theorem sequencerStep (h : s.EngineInv) (due : Decision → Bool) : (s.sequencerStep due).EngineInv := by
  rcases s.sequencerStep_cases due with ⟨-, -, e⟩ | e <;> rw [e]
  · exact h.atBoundary
  · exact h

theorem subtickCommand {act : State → State} (hact : ∀ u : State, u.EngineInv → (act u).EngineInv) (h : s.EngineInv)
    (due : State → Bool) : (s.subtickCommand due act).EngineInv := by
  rcases s.subtickCommand_cases due act with ⟨-, -, e⟩ | ⟨-, e⟩ | e <;> rw [e]
  · exact hact _ h.beforeMessage
  · exact hact _ h.closeEvent
  · exact h

theorem windowCommand {act : State → State} (hact : ∀ u : State, u.EngineInv → (act u).EngineInv) (h : s.EngineInv)
    (ends : State → Nat → Bool) : (s.windowCommand ends act).EngineInv := by
  unfold State.windowCommand
  repeat' split
  · exact h.boundaryStep hact _
  · exact (hact _ h.finishSlot).of_kept
  · exact h

/-- Log 2: the part's own clock. -/
theorem tick (h : s.EngineInv) : s.tick.EngineInv := by
  unfold State.tick
  split
  · split
    · next t ht =>
      have e : s.slotStep = t := by rw [State.slotStep, ht, Option.getD_some]
      exact e ▸ of_kept h
    · repeat' split
      · exact h.of_kept
      · exact h.windowClose
      · exact h.of_kept
      · exact h.of_kept
  · exact h.complete

theorem readback (h : s.EngineInv) (bs : List Byte) : (s.readback bs).EngineInv := by
  unfold State.readback
  exact h.of_kept

/-- Every command keeps the invariant. -/
theorem exec (h : s.EngineInv) (c : Instr) : ∃ t : State, exec c s = .next t ∧ t.EngineInv := by
  rcases hm : messageOf c with _ | ⟨code, m⟩
  case some => exact ⟨_, exec_message hm s, h.messageStep (fun u hu m => hu.handlerOf code m) m code⟩
  cases c with
  | powerUpReset => exact ⟨_, rfl, powerUp s⟩
  | sampleFrameArrival first rest => exact ⟨_, rfl, h.receiveBytes _⟩
  | checkTimeout => exact ⟨_, rfl, h.of_kept⟩
  | arrivalWindowClose => exact ⟨_, rfl, h.windowClose⟩
  | answerFrameClockPeriod => exact ⟨_, rfl, h.of_kept⟩
  | readbackFrameReceived frame =>
    refine ⟨_, rfl, ?_⟩
    split
    · exact h.closeEvent.readback _
    · exact h
  | leakStep p => exact ⟨_, rfl, h.of_kept⟩
  | failoverService => exact ⟨_, rfl, h.boundaryStep (fun u hu => hu.of_kept) _⟩
  | zeroFound => exact ⟨_, rfl, h.boundaryStep (fun u hu => hu.of_kept) _⟩
  | failoverComplete => exact ⟨_, rfl, h.boundaryStep (fun u hu => hu.of_kept) _⟩
  | inputLineChange i high => exact ⟨_, rfl, h.closeEvent.of_kept⟩
  | acceptedEdge i => exact ⟨_, rfl, h.subtickCommand (fun u hu => hu.of_kept) _⟩
  | chatterEnd i => exact ⟨_, rfl, h.windowCommand (fun u hu => hu.of_kept) _⟩
  | chatterWindowClose i => exact ⟨_, rfl, h.windowCommand (fun u hu => hu.of_kept) _⟩
  | breakerOperationComplete => exact ⟨_, rfl, h.subtickCommand (fun u hu => hu.of_kept) _⟩
  | pulsePeriodEnd k => exact ⟨_, rfl, h.subtickCommand (fun u hu => hu.of_kept) _⟩
  | timeoutDue k => exact ⟨_, rfl, h.boundaryStep (fun u hu => hu.of_kept) _⟩
  | timerExpired k => exact ⟨_, rfl, h.boundaryStep (fun u hu => hu.of_kept) _⟩
  | verificationOutcome =>
    have verified : s.atVerification.EngineInv := h.atMessage.handleSlot
    refine ⟨_, rfl, ?_⟩
    split
    · exact verified.verifyStep
    · exact h
  | dwellDone => exact ⟨_, rfl, h.boundaryStep (fun u hu => hu.of_kept) _⟩
  | armCancel | testStart | stateExit | durationLimit | endRequest | testComplete =>
    exact ⟨_, rfl, h.sequencerStep _⟩
  | unknownMessage code m =>
    by_cases hc : code = 0 ∨ 0x19 < code.toNat
    · rw [messageOf, if_pos hc] at hm
      cases hm
    · exact ⟨s, congrArg Host.Outcome.next (if_neg (mt (unknownCode_iff code).1 hc)), h⟩
  | _ => cases hm

end State.EngineInv

/-- Settles O57: every command keeps the invariant (`State.EngineInv.exec`), and so does the part's own clock. -/
theorem stepKeepsEngineInv : Obligations.StepKeepsEngineInv := by
  intro s t hs h
  unfold step at h
  split at h
  · obtain rfl := Host.Outcome.next.inj h
    exact hs.tick
  · next c rest _ =>
    have waiting : (s.withPending rest).EngineInv := hs
    obtain ⟨u, hu, kept⟩ := waiting.exec c
    obtain rfl := Host.Outcome.next.inj (hu.symm.trans h)
    exact kept

end Sys2Proof.Machine
end

