-- ==== Sys2Proof/Proofs/RampEnds.lean ====
section
/-! SUPPORT. The ramp of a channel, and the RAMP_END events and records of a frame (R49, R56, R57, R120, R136). -/

namespace Sys2Proof.Machine

/-! ### The ramp (R56) -/

theorem rampClamps_iff (gacc : Nat) (step : Int) :
    rampClamps gacc step = true ↔ (gacc : Int) + step < 0 ∨ 4294967295 < (gacc : Int) + step := by
  simp [rampClamps]

theorem nextGacc_cases (gacc : Nat) (step : Int) :
    ((gacc : Int) + step < 0 → nextGacc gacc step = 0)
      ∧ (4294967295 < (gacc : Int) + step → nextGacc gacc step = 4294967295)
      ∧ (¬ ((gacc : Int) + step < 0 ∨ 4294967295 < (gacc : Int) + step) → (nextGacc gacc step : Int) = gacc + step) := by
  unfold nextGacc clamp
  split_ifs <;> omega

theorem Channel.rampEnds_iff (x : Channel) :
    x.rampEnds = true ↔ x.mode ≠ .zero ∧ x.rampEnd = false
      ∧ ((x.gacc : Int) + x.step < 0 ∨ 4294967295 < (x.gacc : Int) + x.step) := by
  simp [Channel.rampEnds, ← rampClamps_iff, and_assoc]

/-- R49: what a frame makes of a PASS or SCALE channel, but for output and clip count. -/
theorem Channel.computed_of_not_zero {x : Channel} (h : x.mode ≠ .zero) (b : Bound) :
    (x.output b).advance = { x.output b with
      acc := nextAcc x.acc x.decay
      gacc := nextGacc x.gacc x.step
      rampEnd := x.rampEnd || rampClamps x.gacc x.step } := by
  have same : (x.output b).mode = x.mode := by rw [Channel.output_of_not_zero h]
  rw [Channel.advance_of_not_zero (same ▸ h), Channel.output_of_not_zero h]

theorem Channel.computed_of_zero {x : Channel} (h : x.mode = .zero) (b : Bound) :
    (x.output b).advance = { x with y := 0, gain := 0 } := by
  have same : (x.output b).mode = .zero := by rw [Channel.output_of_zero h, ← h]
  rw [Channel.advance_of_zero same, Channel.output_of_zero h]

/-- R49: what the computation of a frame never changes of a channel. -/
theorem Channel.computed_kept (x : Channel) (b : Bound) :
    (x.output b).advance.ring = x.ring ∧ (x.output b).advance.mode = x.mode ∧ (x.output b).advance.step = x.step
      ∧ (x.output b).advance.d16 = x.d16 ∧ (x.output b).advance.decay = x.decay := by
  by_cases h : x.mode = .zero
  · rw [Channel.computed_of_zero h]
    exact ⟨rfl, rfl, rfl, rfl, rfl⟩
  · rw [Channel.computed_of_not_zero h, Channel.output_of_not_zero h]
    exact ⟨rfl, rfl, rfl, rfl, rfl⟩

/-- R56: the ramp accumulator and the ramp-end flag of the frame after. -/
theorem Channel.computed_ramp {x : Channel} (hz : x.mode ≠ .zero) (b : Bound) :
    (¬ ((x.gacc : Int) + x.step < 0 ∨ 4294967295 < (x.gacc : Int) + x.step) →
        ((x.output b).advance.gacc : Int) = x.gacc + x.step ∧ (x.output b).advance.rampEnd = x.rampEnd)
      ∧ ((x.gacc : Int) + x.step < 0 ∨ 4294967295 < (x.gacc : Int) + x.step → (x.output b).advance.rampEnd = true)
      ∧ ((x.gacc : Int) + x.step < 0 → (x.output b).advance.gacc = 0)
      ∧ (4294967295 < (x.gacc : Int) + x.step → (x.output b).advance.gacc = 4294967295) := by
  obtain ⟨below, above, between⟩ := nextGacc_cases x.gacc x.step
  rw [Channel.computed_of_not_zero hz]
  refine ⟨fun h => ⟨between h, ?_⟩, fun h => ?_, below, above⟩
  · simp [Bool.eq_false_iff.2 (mt (rampClamps_iff _ _).1 h)]
  · simp [(rampClamps_iff _ _).2 h]

/-- R57: the gain that a clamped ramp has come to. -/
theorem Channel.computed_gain {x : Channel} (h : x.rampEnds = true) (b : Bound) :
    (x.output b).advance.gacc / 65536 = if (x.gacc : Int) + x.step < 0 then 0 else 65535 := by
  obtain ⟨hz, -, clamped⟩ := x.rampEnds_iff.1 h
  obtain ⟨below, above, -⟩ := nextGacc_cases x.gacc x.step
  rw [Channel.computed_of_not_zero hz]
  dsimp only
  split
  · next hn => rw [below hn]
  · next hn => rw [above (clamped.resolve_left hn)]

/-! ### What an event offered makes of timers and records (R120) -/

/-- From `r` to `q` records have been made, none of them a RAMP_END, and nothing else. -/
def Report.AddsOthers (r q : Report) : Prop :=
  ∃ others : List Made, q = { r with made := r.made ++ others }
    ∧ ∀ m ∈ others, ∀ (c : Fin 12) (st g : Nat), m.body ≠ .rampEnd c st g

theorem Report.AddsOthers.refl (r : Report) : r.AddsOthers r := ⟨[], by simp, by simp⟩

theorem Report.AddsOthers.trans {r q p : Report} (h : r.AddsOthers q) (h' : q.AddsOthers p) : r.AddsOthers p := by
  obtain ⟨a, rfl, ha⟩ := h
  obtain ⟨b, rfl, hb⟩ := h'
  exact ⟨a ++ b, by simp, fun m hm => (List.mem_append.1 hm).elim (ha m) (hb m)⟩

theorem State.stopSlot_others (s : State) (k : Fin 8) (t : Nat) (bo : Bool) :
    s.rep.AddsOthers (s.stopSlot k t bo).rep := by
  unfold State.stopSlot
  dsimp only
  split
  · exact .refl _
  · split
    · exact ⟨_, rfl, by simp [State.timerBody]⟩
    · exact .refl _

theorem State.offerSlot_others (ev : Cond) (stamp : Nat) (bo : Bool) (s : State) (k : Fin 8) :
    s.rep.AddsOthers (State.offerSlot ev stamp bo s k).rep := by
  unfold State.offerSlot
  dsimp only
  split
  case h_2 =>
    split
    · exact s.stopSlot_others k stamp bo
    · exact .refl _
  all_goals (repeat' split) <;> exact .refl _

theorem State.offerTimers_others (s : State) (ev : Cond) (stamp : Nat) (bo : Bool) :
    s.rep.AddsOthers (s.offerTimers ev stamp bo).rep := by
  unfold State.offerTimers
  split
  · exact List.foldlRecOn (motive := fun u => s.rep.AddsOthers u.rep) _ _ (.refl _)
      fun u hu k _ => hu.trans (State.offerSlot_others ev stamp bo u k)
  · exact .refl _

/-- `s` and `t` are alike in what decides the timers' slots as an event is offered. -/
def State.TimersAlike (s t : State) : Prop :=
  t.timers = s.timers ∧ t.plan = s.plan ∧ t.frame.disturbed = s.frame.disturbed

theorem State.TimersAlike.offerSlot {s t : State} (h : s.TimersAlike t) (ev : Cond) (stamp : Nat) (bo : Bool) (k : Fin 8) :
    (State.offerSlot ev stamp bo s k).TimersAlike (State.offerSlot ev stamp bo t k) := by
  obtain ⟨timers, plan, disturbed⟩ := h
  refine ⟨?_, by simp [plan], by simp [disturbed]⟩
  unfold State.offerSlot State.stopSlot
  dsimp only
  rw [timers, plan, disturbed]
  (repeat' split) <;> simp [State.setSlot, timers]

theorem State.TimersAlike.offerTimers {s t : State} (h : s.TimersAlike t) (ev : Cond) (stamp : Nat) (bo : Bool) :
    (s.offerTimers ev stamp bo).TimersAlike (t.offerTimers ev stamp bo) := by
  unfold State.offerTimers
  rw [h.1]
  split
  · exact List.foldl_rel h fun k _ _ _ hu => hu.offerSlot ev stamp bo k
  · exact h

/-! ### What an event offered makes of the capture store (R136) -/

/-- From `r` to `q` nothing but records made, buffers and attention has changed. -/
def Report.OfferedTo (r q : Report) : Prop :=
  q = { r with made := q.made, buffers := q.buffers, attention := q.attention }

theorem Report.OfferedTo.refl (r : Report) : r.OfferedTo r := rfl

theorem Report.OfferedTo.trans {r q p : Report} (h : r.OfferedTo q) (h' : q.OfferedTo p) : r.OfferedTo p := by
  unfold Report.OfferedTo at *
  rw [h', h]

theorem Report.AddsOthers.offeredTo {r q : Report} (h : r.AddsOthers q) : r.OfferedTo q := by
  obtain ⟨others, rfl, -⟩ := h
  rfl

theorem State.offerCapture_offeredTo (s : State) (ev : Cond) (stamp : Nat) : s.rep.OfferedTo (s.offerCapture ev stamp).rep := by
  unfold State.offerCapture
  dsimp only
  (repeat' split)
  case h_1.isTrue =>
    rw [State.setBuffers_rep]
    rfl
  all_goals exact .refl _

theorem State.offer_offeredTo (s : State) (ev : Cond) (stamp : Nat) (bo : Bool) : s.rep.OfferedTo (s.offer ev stamp bo).rep :=
  (s.offerTimers_others ev stamp bo).offeredTo.trans (State.offerCapture_offeredTo _ ev stamp)

theorem Report.setBuffers_withMade (r : Report) (m : List Made) (b : Vector Buffer 4) :
    ({ r with made := m } : Report).setBuffers b = { r.setBuffers b with made := m } := by
  unfold Report.setBuffers
  dsimp only
  (repeat' split) <;> rfl

/-- `s` and `t` are alike in what the capture trigger reads, and in all of the Report Unit but the records made. -/
def State.CaptureAlike (s t : State) : Prop :=
  t.plan = s.plan ∧ t.seq = s.seq ∧ t.rep = { s.rep with made := t.rep.made }

theorem State.CaptureAlike.offerTimers {s t : State} (h : s.CaptureAlike t) (ev : Cond) (stamp : Nat) (bo : Bool) :
    s.CaptureAlike (t.offerTimers ev stamp bo) := by
  obtain ⟨plan, seq, rep⟩ := h
  obtain ⟨others, made, -⟩ := t.offerTimers_others ev stamp bo
  refine ⟨by simp [plan], by simp [seq], ?_⟩
  rw [made, rep]

theorem State.CaptureAlike.plusMade {s t : State} (h : s.CaptureAlike t) (ms : List Made) : s.CaptureAlike (t.plusMade ms) := by
  obtain ⟨plan, seq, rep⟩ := h
  refine ⟨plan, seq, ?_⟩
  unfold State.plusMade
  rw [State.withRep_rep, rep]

theorem State.CaptureAlike.offerCapture {s t : State} (h : s.CaptureAlike t) (ev : Cond) (stamp : Nat) :
    (s.offerCapture ev stamp).CaptureAlike (t.offerCapture ev stamp) := by
  obtain ⟨plan, seq, rep⟩ := h
  have activity : t.rep.activity = s.rep.activity := by rw [rep]
  have buffers : t.rep.buffers = s.rep.buffers := by rw [rep]
  have replaced (b : Vector Buffer 4) : (t.setBuffers b).rep = { (s.setBuffers b).rep with made := t.rep.made } := by
    rw [State.setBuffers, State.withRep_rep, rep]
    exact Report.setBuffers_withMade s.rep t.rep.made b
  refine ⟨by simp [plan], by simp [seq], ?_⟩
  rw [(t.offerCapture_rep ev stamp).1]
  unfold State.offerCapture
  dsimp only
  rw [plan, seq, activity, buffers]
  repeat' split
  case h_1.isTrue => exact replaced _
  all_goals exact rep

theorem State.CaptureAlike.refl (s : State) : s.CaptureAlike s := ⟨rfl, rfl, rfl⟩

/-! ### The RAMP_END events of a frame -/

/-- R57: the RAMP_END of channel `c`. -/
def State.rampRecord (s : State) (c : Fin 12) : Made :=
  ⟨s.seq.testNumber, 16 * s.seq.testFrame, .rampEnd c s.seq.stateInForce (s.eng[c].gacc / 65536), false⟩

/-- R56 steps 2 and 3: the event is offered, and then the record made. -/
theorem State.rampEvent_eq (s : State) (c : Fin 12) :
    s.rampEvent c = (s.offer ⟨.rampEnd, c⟩ (16 * s.seq.testFrame) false).plusMade [s.rampRecord c] := by
  simp [State.rampEvent, State.offer, State.rampRecord, State.make, State.plusMade]

theorem State.rampEvent_offeredTo (s : State) (c : Fin 12) : s.rep.OfferedTo (s.rampEvent c).rep := by
  rw [State.rampEvent_eq]
  exact (s.offer_offeredTo _ _ _).trans rfl

theorem State.rampEvent_gate (s : State) (c : Fin 12) : (s.rampEvent c).timers.gate = s.timers.gate := by
  rw [State.rampEvent_eq]
  exact s.offer_gate _ _ _

theorem State.rampEvent_made (s : State) (c : Fin 12) :
    ∃ others : List Made, (s.rampEvent c).rep.made = s.rep.made ++ others ++ [s.rampRecord c]
      ∧ ∀ m ∈ others, ∀ (d : Fin 12) (st g : Nat), m.body ≠ .rampEnd d st g := by
  obtain ⟨others, rep, hothers⟩ := s.offerTimers_others ⟨.rampEnd, c⟩ (16 * s.seq.testFrame) false
  refine ⟨others, ?_, hothers⟩
  rw [State.rampEvent_eq, State.plusMade, State.withRep_rep, State.offer, (State.offerCapture_rep _ _ _).1, rep]

/-- R57: the ramp ends of the channels `l` make the records of these channels, and RAMP_ENDs of no other. -/
theorem State.rampEvents_made (l : List (Fin 12)) (s : State) :
    ∃ later : List Made, (l.foldl State.rampEvent s).rep.made = s.rep.made ++ later
      ∧ (∀ c ∈ l, s.rampRecord c ∈ later)
      ∧ ∀ m ∈ later, ∀ (c : Fin 12) (st g : Nat), m.body = .rampEnd c st g → c ∈ l := by
  induction l generalizing s with
  | nil => exact ⟨[], by simp, by simp, by simp⟩
  | cons c l ih =>
    obtain ⟨others, made, hothers⟩ := s.rampEvent_made c
    obtain ⟨later, made', records, rampEnds⟩ := ih (s.rampEvent c)
    have same (d : Fin 12) : (s.rampEvent c).rampRecord d = s.rampRecord d := by simp [State.rampRecord]
    simp only [same] at records
    refine ⟨others ++ s.rampRecord c :: later, by simp [made', made], fun d hd => ?_, fun m hm d st g hb => ?_⟩
    · rcases List.mem_cons.1 hd with rfl | hd
      · simp
      · simp [records d hd]
    · rcases List.mem_append.1 hm with hm | hm
      · exact absurd hb (hothers m hm d st g)
      · rcases List.mem_cons.1 hm with rfl | hm
        · obtain ⟨rfl, -, -⟩ := Body.rampEnd.inj hb
          exact List.mem_cons_self
        · exact List.mem_cons_of_mem _ (rampEnds m hm d st g hb)

/-- R49: the state of a frame whose outputs are computed, before the events of its ramp ends. -/
def State.advanced (s : State) : State :=
  (s.withEng (tab fun c => (s.eng[c].output (s.bound c)).advance)).withFrame { s.frame with computed := true }

/-- R56: the channels whose ramp clamps for the first time in the stay. -/
def State.firstClamps (s : State) : List (Fin 12) := (allFin 12).filter fun c => s.eng[c].rampEnds

theorem State.computeOutputs_eq (s : State) : s.computeOutputs = s.firstClamps.foldl State.rampEvent s.advanced := rfl

theorem State.mem_firstClamps (s : State) (c : Fin 12) : c ∈ s.firstClamps ↔ s.eng[c].rampEnds = true := by
  simp [State.firstClamps]

theorem State.computeOutputs_eng (s : State) : s.computeOutputs.eng = s.advanced.eng := by
  simp [State.computeOutputs_eq]

theorem State.advanced_channel (s : State) (c : Fin 12) : s.advanced.eng[c] = (s.eng[c].output (s.bound c)).advance := by
  simp [State.advanced]

/-- R57: the RAMP_END of a channel that clamps in this frame carries the gain it has come to. -/
theorem State.advanced_rampRecord {s : State} {c : Fin 12} (h : s.eng[c].rampEnds = true) :
    s.advanced.rampRecord c = ⟨s.seq.testNumber, 16 * s.seq.testFrame,
      .rampEnd c s.seq.stateInForce (if (s.eng[c].gacc : Int) + s.eng[c].step < 0 then 0 else 65535), false⟩ := by
  rw [State.rampRecord, State.advanced_channel, Channel.computed_gain h]
  rfl


/-- R120: the timers are left as the events alone leave them. -/
theorem State.computeOutputs_timers (s : State) :
    s.computeOutputs.timers
      = (s.firstClamps.foldl (fun u c => u.offerTimers ⟨.rampEnd, c⟩ (16 * s.seq.testFrame) false) s).timers := by
  have alike := List.foldl_rel (l := s.firstClamps) (f := fun u c => u.offerTimers ⟨.rampEnd, c⟩ (16 * s.seq.testFrame) false)
    (g := State.rampEvent) (r := fun u v : State => u.TimersAlike v ∧ v.seq = s.seq) (a := s) (b := s.advanced)
    ⟨⟨rfl, rfl, rfl⟩, rfl⟩ fun c _ u v ⟨h, hseq⟩ => by
      obtain ⟨timers, plan, disturbed⟩ := h.offerTimers ⟨.rampEnd, c⟩ (16 * s.seq.testFrame) false
      refine ⟨⟨?_, by simpa using plan, by simpa using disturbed⟩, by simp [hseq]⟩
      simpa [State.rampEvent, hseq] using timers
  obtain ⟨⟨timers, -, -⟩, -⟩ := alike
  exact timers

/-- R136: but for the records made, the Report Unit is left as the events alone leave it. -/
theorem State.computeOutputs_capture (s : State) :
    (s.firstClamps.foldl (fun u c => u.offerCapture ⟨.rampEnd, c⟩ (16 * s.seq.testFrame)) s).CaptureAlike
      s.computeOutputs := by
  have alike := List.foldl_rel (l := s.firstClamps) (f := fun u c => u.offerCapture ⟨.rampEnd, c⟩ (16 * s.seq.testFrame))
    (g := State.rampEvent) (r := fun u v : State => u.CaptureAlike v ∧ v.seq = s.seq) (a := s) (b := s.advanced)
    ⟨.refl s, rfl⟩ fun c _ u v ⟨h, hseq⟩ => by
      refine ⟨?_, by simp [hseq]⟩
      rw [State.rampEvent_eq, hseq]
      exact ((h.offerTimers _ _ _).offerCapture _ _).plusMade _
  exact alike.1

theorem State.computeOutputs_offeredTo (s : State) : s.rep.OfferedTo s.computeOutputs.rep :=
  List.foldlRecOn (motive := fun u : State => s.rep.OfferedTo u.rep) _ _ (.refl _)
    fun u hu c _ => hu.trans (u.rampEvent_offeredTo c)

theorem State.computeOutputs_gate (s : State) : s.computeOutputs.timers.gate = s.timers.gate :=
  List.foldlRecOn (motive := fun u : State => u.timers.gate = s.timers.gate) _ _ rfl
    fun u hu c _ => (u.rampEvent_gate c).trans hu

/-- R56 steps 2 and 3 for channel `c` of `s`, in the state `u` that the channels before it leave; the gain is the bound that the
ramp has met. -/
def State.clampEvent (s u : State) (c : Fin 12) : State :=
  (u.offer ⟨.rampEnd, c⟩ (16 * s.seq.testFrame) false).plusMade [⟨s.seq.testNumber, 16 * s.seq.testFrame,
    .rampEnd c s.seq.stateInForce (if (s.eng[c].gacc : Int) + s.eng[c].step < 0 then 0 else 65535), false⟩]

theorem State.computeOutputs_fold (s : State) : s.computeOutputs = s.firstClamps.foldl s.clampEvent s.advanced := by
  have alike := List.foldl_rel (l := s.firstClamps) (f := State.rampEvent) (g := s.clampEvent) (a := s.advanced)
    (r := fun u v : State => u = v ∧ u.seq = s.seq ∧ u.eng = s.advanced.eng) ⟨rfl, rfl, rfl⟩
    fun c hc u v ⟨h, hseq, heng⟩ => by
      have record : u.rampRecord c = s.advanced.rampRecord c := by
        rw [State.rampRecord, hseq, heng]
        rfl
      refine ⟨?_, by simp [hseq], by simp [heng]⟩
      rw [← h, State.rampEvent_eq, record, State.advanced_rampRecord ((s.mem_firstClamps c).1 hc), hseq]
      rfl
  exact alike.1

/-- R57: the RAMP_END of a channel whose ramp clamps for the first time in the stay. -/
theorem State.rampRecord_made (s : State) {c : Fin 12} (h : s.eng[c].rampEnds = true) :
    ⟨s.seq.testNumber, 16 * s.seq.testFrame, .rampEnd c s.seq.stateInForce
      (if (s.eng[c].gacc : Int) + s.eng[c].step < 0 then 0 else 65535), false⟩ ∈ s.computeOutputs.rep.made := by
  obtain ⟨later, made, records, -⟩ := s.advanced.rampEvents_made s.firstClamps
  rw [s.computeOutputs_eq, made, ← State.advanced_rampRecord h]
  exact List.mem_append_right _ (records c ((s.mem_firstClamps c).2 h))

/-- The channels that the rules name are those that the model takes (`Channel.rampEnds_iff`). -/
theorem State.firstClamps_eq (s : State) :
    ((List.finRange 12).filter fun c => s.eng[c].mode ≠ .zero ∧ s.eng[c].rampEnd = false
      ∧ ((s.eng[c].gacc : Int) + s.eng[c].step < 0 ∨ 4294967295 < (s.eng[c].gacc : Int) + s.eng[c].step))
      = s.firstClamps := by
  refine List.filter_congr fun c _ => ?_
  rw [Bool.eq_iff_iff, decide_eq_true_iff, Channel.rampEnds_iff]

/-- Settles O48: the ramp channel by channel, the events by `State.computeOutputs_timers` and `State.computeOutputs_capture`,
the records by `State.rampRecord_made` and
`State.rampEvents_made`. -/
theorem rampAdvance : Obligations.RampAdvance := by
  refine ⟨fun s => ?_, fun s c => ?_⟩
  · simp only [State.firstClamps_eq]
    refine ⟨s.computeOutputs_timers, s.computeOutputs_capture.2.2, ?_, fun h => ?_⟩
    · conv_lhs => rw [s.computeOutputs_fold]
      rw [s.computeOutputs_eng]
      rfl
    · rw [s.computeOutputs_eq, h]
      exact ⟨rfl, rfl⟩
  · obtain ⟨ring, mode, step, d16, decay⟩ := s.eng[c].computed_kept (s.bound c)
    obtain ⟨later, made, -, rampEnds⟩ := s.advanced.rampEvents_made s.firstClamps
    rw [← s.computeOutputs_eq] at made
    dsimp only
    rw [s.computeOutputs_eng, s.advanced_channel]
    refine ⟨by simp [State.SameLinks], by simp, by simp, by simp, by simp, by simp, by simp, by simp, by simp,
      s.computeOutputs_gate, s.computeOutputs_offeredTo, ring, mode, step, d16, decay, fun hz => ?zero, fun hz => ?ramp,
      fun hn m hm hs st g hb => ?others⟩
    case zero =>
      rw [Channel.computed_of_zero hz]
      exact ⟨rfl, rfl, rfl, rfl, rfl, rfl⟩
    case ramp =>
      obtain ⟨between, clamps, below, above⟩ := Channel.computed_ramp hz (s.bound c)
      refine ⟨between, clamps, fun h => ⟨below h, fun hf => ?_⟩, fun h => ⟨above h, fun hf => ?_⟩⟩
      · have record := s.rampRecord_made (s.eng[c].rampEnds_iff.2 ⟨hz, hf, .inl h⟩)
        rwa [if_pos h] at record
      · have record := s.rampRecord_made (s.eng[c].rampEnds_iff.2 ⟨hz, hf, .inr h⟩)
        rwa [if_neg (by omega)] at record
    case others =>
      rw [made, List.mem_append] at hm
      have first := rampEnds m (hm.resolve_left hs) c st g hb
      obtain ⟨hz, hf, clamped⟩ := s.eng[c].rampEnds_iff.1 ((s.mem_firstClamps c).1 first)
      rcases hn with hn | hn | hn
      · exact hz hn
      · exact hn clamped
      · exact Bool.false_ne_true (hf.symm.trans hn)

end Sys2Proof.Machine
end

