-- ==== Sys2Proof/Proofs/LimitTable.lean ====
section
/-! SUPPORT. What becomes of the Output Stage between one drive frame and the next: the map moves, and a limit is written where
none stands (R62, R85 to R88, R91). -/

namespace Sys2Proof.Machine

/-! ### What stays of the Output Stage -/

/-- R62: every written limit stands. -/
def OutputStage.LimitsStand (o q : OutputStage) : Prop :=
  ∀ p : Fin 14, o.written[p] = true → q.written[p] = true ∧ q.limit[p] = o.limit[p]

/-- From `o` to `q` the map has moved and limits have been written, and nothing else; every written limit stands. -/
def OutputStage.TablesOnly (o q : OutputStage) : Prop :=
  q = { o with limit := q.limit, written := q.written, map := q.map } ∧ o.LimitsStand q

namespace OutputStage

variable {o q r : OutputStage}

theorem LimitsStand.of_same (limit : q.limit = o.limit := by simp) (written : q.written = o.written := by simp) :
    o.LimitsStand q := by
  intro p hp
  rw [limit, written]
  exact ⟨hp, rfl⟩

theorem LimitsStand.of_eq (h : q = o) : o.LimitsStand q := .of_same (by rw [h]) (by rw [h])

theorem LimitsStand.trans (h : o.LimitsStand q) (h' : q.LimitsStand r) : o.LimitsStand r := fun p hp =>
  have ⟨hw, hl⟩ := h p hp
  have ⟨hw', hl'⟩ := h' p hw
  ⟨hw', hl'.trans hl⟩

theorem TablesOnly.stand (h : o.TablesOnly q) : o.LimitsStand q := h.2

theorem TablesOnly.of_map (h : q = { o with map := q.map }) : o.TablesOnly q := by
  rw [h]
  exact ⟨rfl, .of_same⟩

theorem TablesOnly.of_eq (h : q = o) : o.TablesOnly q := .of_map (by rw [h])

theorem TablesOnly.trans (h : o.TablesOnly q) (h' : q.TablesOnly r) : o.TablesOnly r := by
  refine ⟨?_, h.stand.trans h'.stand⟩
  rw [h'.1, h.1]

theorem TablesOnly.then_eq (h : o.TablesOnly q) (h' : r = q) : o.TablesOnly r := h'.symm ▸ h

/-- R66, R68, R70: no drive frame has been sent or judged. -/
theorem TablesOnly.drive (h : o.TablesOnly q) :
    q.nextSeq = o.nextSeq ∧ q.lastSeq = o.lastSeq ∧ q.lastSamples = o.lastSamples ∧ q.history = o.history := by
  rw [h.1]
  exact ⟨rfl, rfl, rfl, rfl⟩

/-- R53: the limits that bound the present frame stay. -/
theorem TablesOnly.limitPrev (h : o.TablesOnly q) : q.limitPrev = o.limitPrev := by
  rw [h.1]

end OutputStage

/-! ### Failovers (R85 to R88) -/

theorem State.setMap_tables (s : State) (c : Fin 12) (p : Option (Fin 14)) : s.out.TablesOnly (s.setMap c p).out :=
  .of_map rfl

theorem State.serveChannel_tables (s : State) (c : Fin 12) : s.out.TablesOnly (s.serveChannel c).out := by
  unfold State.serveChannel
  (repeat' split)
  case h_2.isFalse => exact (s.setMap_tables c none).then_eq (by simp)
  all_goals exact .of_eq (by simp)

theorem State.serve_tables (s : State) : s.out.TablesOnly s.serve.out := by
  unfold State.serve
  split
  · exact State.serveChannel_tables _ _
  · exact .of_eq rfl

theorem State.moveMap_tables (s : State) (x : FailoverCtx) : s.out.TablesOnly (s.moveMap x).out := .of_map rfl

theorem State.completeFailover_tables (s : State) : s.out.TablesOnly s.completeFailover.out := by
  unfold State.completeFailover
  split
  · next x _ =>
    split
    · exact ((s.moveMap_tables x).then_eq (by simp)).trans (State.serve_tables _)
    · exact .of_eq rfl
  all_goals exact .of_eq rfl

theorem State.closeEngine_tables (s : State) (e : Nat) : s.out.TablesOnly (s.closeEngine e).out := by
  unfold State.closeEngine
  split
  case h_3 x _ => exact (s.moveMap_tables x).then_eq (by simp)
  all_goals exact .of_eq (by simp)

theorem State.closeFailover_tables (s : State) (e : Nat) : s.out.TablesOnly (s.closeFailover e).out :=
  (s.closeEngine_tables e).then_eq (by simp [State.closeFailover])

/-! ### The Sequencer and the boundary -/

theorem State.closeBlocks_tables (s : State) (e : Nat) : s.out.TablesOnly (s.closeBlocks e).out := by
  unfold State.closeBlocks
  exact .trans (.of_eq (by simp)) (State.closeFailover_tables _ e)

theorem State.beginEnding_tables (s : State) (r : EndReason) (own : Nat) (last : Fin 32) :
    s.out.TablesOnly (s.beginEnding r own last).out := by
  unfold State.beginEnding
  extract_lets e q s'
  have closed : s.out.TablesOnly s'.out := State.closeBlocks_tables (s.withSeq { s.seq with
    phase := .ending
    request := .none
    latches := Vector.replicate 4 false
    countdown := 1
    endReason := some r }) e
  split
  · exact closed.then_eq (by simp)
  · exact closed

theorem State.enterState_tables (s : State) (st : Fin 32) (prev exit : Nat) :
    s.out.TablesOnly (s.enterState st prev exit).out := by
  unfold State.enterState
  extract_lets n s1 count final sq s2 s3
  have entered : s3.out = s.out := by
    have left : s1.out = s.out := by
      dsimp only [s1]
      split <;> simp
    simp [s3, s2, left]
  split
  · exact entered ▸ s3.beginEnding_tables _ _ _
  · exact .of_eq entered

theorem State.endRunning_tables (s : State) (r : EndReason) : s.out.TablesOnly (s.endRunning r).out :=
  State.beginEnding_tables (s.withSeq s.seq.count) r _ _

theorem State.startTest_tables (s : State) (r : StartRecord) : s.out.TablesOnly (s.startTest r).out := by
  unfold State.startTest
  dsimp only
  exact .trans (.of_eq (by simp)) (State.enterState_tables _ _ _ _)

/-- R18: whatever the boundary decides. -/
theorem State.settle_tables (s : State) (d : Decision) : s.out.TablesOnly (s.settle d).out := by
  cases d with
  | start r => exact s.startTest_tables r
  | stop r => exact s.endRunning_tables r
  | duration => exact s.endRunning_tables .duration
  | exit k => exact s.nextFrame.enterState_tables _ _ _
  | complete => exact .of_eq (by simp [State.settle])
  | stay =>
    dsimp only [State.settle]
    split <;> exact .of_eq (by simp)
  | change p =>
    dsimp only [State.settle]
    split <;> exact .of_eq (by simp)
  | cancel => exact .of_eq (by simp [State.settle])

theorem State.settleSeq_tables (s : State) : s.out.TablesOnly s.settleSeq.out := by
  unfold State.settleSeq
  split
  · exact (s.settle_tables s.frame.decision).then_eq (by simp)
  · exact .of_eq rfl

theorem State.boundaryApart_tables (s : State) : s.out.TablesOnly s.boundaryApart.out := by
  have switched : s.completeFailover.switchOver.out = s.completeFailover.out := by simp
  have served := switched ▸ s.completeFailover.switchOver.serve_tables
  exact (s.completeFailover_tables.trans served).then_eq (by simp [State.boundaryApart])

theorem State.ready_tables (s : State) : s.out.TablesOnly s.ready.out := by
  unfold State.ready
  split
  · exact s.boundaryApart_tables.then_eq (by simp)
  · exact .of_eq rfl

theorem State.lossSequencer_tables (s : State) : s.out.TablesOnly s.lossSequencer.out := by
  unfold State.lossSequencer
  dsimp only
  split
  · exact (s.closeBlocks_tables (s.seq.testFrame + 1)).then_eq (by simp)
  all_goals exact .of_eq (by simp)

/-! ### Messages -/

/-- R62, R163: the checks of WRITE_LIMIT, in order. -/
theorem writeLimit_eq (m : Msg) (s : State) :
    writeLimit m s =
      let p : Fin 14 := Fin.ofNat 14 m.indexA.toNat
      let v := wordOf m 0 1
      if 13 < m.indexA.toNat ∨ m.indexB ≠ 0 then refuse s .noEntry
      else if ¬ UnusedZero m 2 then refuse s .badValue
      else if s.out.written[p] = true then refuse s .locked
      else if v = 0 ∨ 32767 < v then refuse s .badValue
      else done (s.withOut { s.out with limit := s.out.limit.set p v, written := s.out.written.set p true }) := by
  have word : Payload.u16 m.payload 0 = wordOf m 0 1 := Payload.u16_eq _ 0 (by omega)
  have range : within 1 32767 (wordOf m 0 1) = true ↔ ¬ (wordOf m 0 1 = 0 ∨ 32767 < wordOf m 0 1) := by
    rw [within_iff]
    omega
  rw [writeLimit, indexed_indexA_eq]
  simp only [valued_eq, Payload.clearFrom_iff, word, range, ite_not]
  rfl

/-- R62: a limit is written where none stands. -/
theorem writeLimit_tables (m : Msg) (s : State) : s.out.TablesOnly (writeLimit m s).state.out := by
  rw [writeLimit_eq]
  dsimp only
  split_ifs with _ _ unwritten _
  case neg =>
    refine ⟨rfl, fun p hp => ?_⟩
    have other : ¬ (Fin.ofNat 14 m.indexA.toNat).val = p.val := fun e => unwritten (Fin.ext e ▸ hp)
    simpa only [done, State.withOut_out, Fin.getElem_fin, Vector.getElem_set, if_neg other, and_true] using hp
  all_goals exact .of_eq rfl

theorem restoreMap_tables (m : Msg) (s : State) : s.out.TablesOnly (restoreMap m s).state.out := by
  unfold restoreMap inPhase indexed valued
  (repeat' split) <;> exact .of_map rfl

/-- R62: no refusal, message or reset message takes a written limit away. -/
theorem handlerOf_tables (code : Byte) (m : Msg) (s : State) : s.out.TablesOnly (handlerOf code m s).state.out := by
  unfold handlerOf
  split
  case h_8 => exact writeLimit_tables m s
  case h_23 => exact restoreMap_tables m s
  all_goals exact .of_eq (by simp [unknownMessage, refuse])

theorem State.handleSlot_tables (s : State) : s.out.TablesOnly s.handleSlot.out := by
  unfold State.handleSlot
  repeat' split
  case h_1.isFalse c _ _ => exact handlerOf_tables c.code c.msg s
  all_goals exact .of_eq rfl

/-- R162: from the boundary on, until the frame's outputs are computed. -/
theorem State.untilOutputs_tables (s : State) :
    s.out.TablesOnly s.settleSeq.ready.handleSlot.verifyStep.out :=
  ((s.settleSeq_tables.trans s.settleSeq.ready_tables).trans (State.handleSlot_tables _)).then_eq (by simp)

end Sys2Proof.Machine
end

