-- ==== Sys2Proof/Proofs/WrittenLimits.lean ====
section
/-! SUPPORT. A written limit stands until the next power-up reset (R62). -/

namespace Sys2Proof.Machine

/-! ### Drive frames and readbacks -/

@[simp] theorem State.closeJudgment_written (s : State) : s.closeJudgment.out.written = s.out.written := by
  unfold State.closeJudgment
  split <;> simp

@[simp] theorem OutputStage.sent_written (o : OutputStage) (samples : Vector Int 14) :
    (o.sent samples).written = o.written := by
  unfold OutputStage.sent OutputStage.pushHistory
  split <;> rfl

@[simp] theorem State.sendDrive_written (s : State) (samples : Vector Int 14) (route : Vector (Option (Fin 14)) 12) :
    (s.sendDrive samples route).out.written = s.out.written := by
  simp [State.sendDrive]

@[simp] theorem State.driveFrame_written (s : State) : s.driveFrame.out.written = s.out.written := by
  simp [State.driveFrame]

@[simp] theorem State.judgeReadback_written (s : State) (bs : List Byte) :
    (s.judgeReadback bs).out.written = s.out.written := by
  unfold State.judgeReadback
  dsimp only
  (repeat' split) <;> simp

/-! ### The frame taken -/

/-- R53: as a frame is taken, the limits as they stand become those that bound it. -/
theorem State.openEvent_out (s : State) (d : Decision) (gap : Bool) (slot : Option ControlSlot) :
    (s.openEvent d gap slot).out = { s.out with limitPrev := s.out.limit } := by
  unfold State.openEvent
  dsimp only
  split <;> simp

theorem State.take_out (s : State) : s.take.out = { s.out with limitPrev := s.out.limit } := by
  unfold State.take
  split <;> rw [State.openEvent_out] <;> simp

theorem State.openFrame_limits (s : State) : s.out.LimitsStand s.openFrame.out := by
  unfold State.openFrame
  split
  · rw [State.take_out]
    exact .of_same
  · exact .of_eq rfl

theorem State.atBoundary_limits (s : State) : s.out.LimitsStand s.atBoundary.out :=
  s.openFrame_limits.trans s.openFrame.settleSeq_tables.stand

theorem State.atMessage_limits (s : State) : s.out.LimitsStand s.atMessage.out :=
  s.atBoundary_limits.trans s.atBoundary.ready_tables.stand

theorem State.beforeMessage_limits (s : State) : s.out.LimitsStand s.beforeMessage.out :=
  s.atMessage_limits.trans (.of_eq (by simp [State.beforeMessage]))

theorem State.atVerification_limits (s : State) : s.out.LimitsStand s.atVerification.out :=
  s.atMessage_limits.trans s.atMessage.handleSlot_tables.stand

theorem State.finish_limits (s : State) : s.out.LimitsStand s.finish.out := by
  unfold State.finish
  split
  · exact .of_same (by simp [State.outputStep]) (by simp [State.outputStep])
  · exact .of_eq rfl

/-- R162: the event in progress comes to its end. -/
theorem State.complete_limits (s : State) : s.out.LimitsStand s.complete.out :=
  s.untilOutputs_tables.stand.trans (State.finish_limits _)

theorem State.closeEvent_limits (s : State) : s.out.LimitsStand s.closeEvent.out := by
  unfold State.closeEvent
  split
  · exact .of_eq rfl
  · exact s.complete_limits

/-- R154. -/
theorem State.streamLoss_limits (s : State) : s.out.LimitsStand s.streamLoss.out := by
  unfold State.streamLoss
  extract_lets r s1
  have lost : s.out.LimitsStand s1.leaveLocked.lossSequencer.out :=
    .trans (.of_eq (by simp [s1])) s1.leaveLocked.lossSequencer_tables.stand
  exact lost.trans (.of_same (by simp) (by simp [State.lossDrive]))

/-- R151, R152, R154. -/
theorem State.windowClose_limits (s : State) : s.out.LimitsStand s.windowClose.out := by
  unfold State.windowClose
  repeat' split
  · exact s.openFrame_limits.trans s.openFrame.complete_limits
  · exact .trans (.of_eq (by simp)) s.finishSlot.streamLoss_limits
  · exact s.complete_limits

/-! ### Bytes that arrive -/

/-- R151: as the receiver enters LOCKED, the judgment is settled. -/
theorem State.arrive_limits (s : State) (arrival : Nat) (bs : List Byte) : s.out.LimitsStand (s.arrive arrival bs).out := by
  unfold State.arrive State.arriveGood State.arriveCheck State.lock
  (repeat' split) <;> exact .of_same

theorem State.frameWhole_limits (s : State) (first : LinkByte) (rest : List LinkByte) :
    s.out.LimitsStand (s.frameWhole first rest).out := by
  unfold State.frameWhole
  exact .trans (.of_eq (by simp)) (State.arrive_limits _ _ _)

theorem State.receiveByte_limits (s : State) (x : LinkByte) : s.out.LimitsStand (s.receiveByte x).out := by
  unfold State.receiveByte
  repeat' split
  · exact .of_eq rfl
  · exact s.closeEvent_limits.trans (State.frameWhole_limits _ _ _)
  · exact .of_eq rfl

theorem State.receiveBytes_limits (bytes : List LinkByte) (s : State) : s.out.LimitsStand (s.receiveBytes bytes).out := by
  induction bytes generalizing s with
  | nil => exact .of_eq rfl
  | cons x xs ih => exact (s.receiveByte_limits x).trans (ih _)

/-! ### Commands -/

section
variable (s : State) {act : State → State} (h : ∀ u : State, u.out.LimitsStand (act u).out)
include h

theorem State.boundaryStep_limits (due : State → Bool) : s.out.LimitsStand (s.boundaryStep due act).out := by
  rcases s.boundaryStep_cases due act with ⟨-, -, e⟩ | e <;> rw [e]
  · exact s.atBoundary_limits.trans (h _)
  · exact .of_eq rfl

theorem State.subtickCommand_limits (due : State → Bool) : s.out.LimitsStand (s.subtickCommand due act).out := by
  rcases s.subtickCommand_cases due act with ⟨-, -, e⟩ | ⟨-, e⟩ | e <;> rw [e]
  · exact s.beforeMessage_limits.trans (h _)
  · exact s.closeEvent_limits.trans (h _)
  · exact .of_eq rfl

theorem State.windowCommand_limits (ends : State → Nat → Bool) : s.out.LimitsStand (s.windowCommand ends act).out := by
  unfold State.windowCommand
  repeat' split
  · exact s.boundaryStep_limits h _
  · exact .trans (.trans (.of_eq (by simp)) (h s.finishSlot)) (.of_eq (by simp))
  · exact .of_eq rfl

end

theorem State.sequencerStep_limits (s : State) (due : Decision → Bool) : s.out.LimitsStand (s.sequencerStep due).out := by
  rcases s.sequencerStep_cases due with ⟨-, -, e⟩ | e <;> rw [e]
  · exact s.atBoundary_limits
  · exact .of_eq rfl

theorem State.messageStep_limits (s : State) (m : Msg) (code : Byte) :
    s.out.LimitsStand (s.messageStep m code (handlerOf code)).out := by
  rcases s.messageStep_cases m code (handlerOf code) with ⟨-, e⟩ | ⟨-, e⟩ <;> rw [e]
  · exact s.atMessage_limits.trans (handlerOf_tables code m s.atMessage).stand
  · exact .of_eq rfl

/-- Log 2: the part's own clock. -/
theorem State.tick_limits (s : State) : s.out.LimitsStand s.tick.out := by
  unfold State.tick
  split
  · split
    · next t ht =>
      have due : s.slotStep = t := by rw [State.slotStep, ht, Option.getD_some]
      exact due ▸ .of_eq (by simp)
    · repeat' split
      · exact .of_eq (by simp)
      · exact s.windowClose_limits
      · exact .of_eq (by simp)
      · exact .of_eq (by simp)
  · exact s.complete_limits

theorem State.readback_limits (s : State) (bs : List Byte) : s.out.LimitsStand (s.readback bs).out := by
  unfold State.readback
  exact .of_same

/-- R62, command by command. -/
theorem exec_limits {c : Instr} (hc : c ≠ .powerUpReset) (s : State) :
    ∃ t : State, exec c s = .next t ∧ s.out.LimitsStand t.out := by
  rcases hm : messageOf c with _ | ⟨code, m⟩
  case some => exact ⟨_, exec_message hm s, s.messageStep_limits m code⟩
  cases c with
  | powerUpReset => exact absurd rfl hc
  | sampleFrameArrival first rest => exact ⟨_, rfl, State.receiveBytes_limits _ s⟩
  | checkTimeout => exact ⟨_, rfl, .of_eq (by simp)⟩
  | arrivalWindowClose => exact ⟨_, rfl, s.windowClose_limits⟩
  | answerFrameClockPeriod => exact ⟨_, rfl, .of_eq (by simp)⟩
  | readbackFrameReceived frame =>
    refine ⟨_, rfl, ?_⟩
    split
    · exact s.closeEvent_limits.trans (State.readback_limits _ _)
    · exact .of_eq rfl
  | leakStep p => exact ⟨_, rfl, .of_eq (by simp)⟩
  | failoverService => exact ⟨_, rfl, s.boundaryStep_limits (fun u => u.serve_tables.stand) _⟩
  | zeroFound => exact ⟨_, rfl, s.boundaryStep_limits (fun u => .of_eq (by simp)) _⟩
  | failoverComplete => exact ⟨_, rfl, s.boundaryStep_limits (fun u => u.completeFailover_tables.stand) _⟩
  | inputLineChange i high => exact ⟨_, rfl, s.closeEvent_limits.trans (.of_eq (by simp))⟩
  | acceptedEdge i => exact ⟨_, rfl, s.subtickCommand_limits (fun u => .of_eq (by simp)) _⟩
  | chatterEnd i => exact ⟨_, rfl, s.windowCommand_limits (fun u => .of_eq (by simp)) _⟩
  | chatterWindowClose i => exact ⟨_, rfl, s.windowCommand_limits (fun u => .of_eq (by simp)) _⟩
  | breakerOperationComplete => exact ⟨_, rfl, s.subtickCommand_limits (fun u => .of_eq (by simp)) _⟩
  | pulsePeriodEnd k => exact ⟨_, rfl, s.subtickCommand_limits (fun u => .of_eq (by simp)) _⟩
  | timeoutDue k => exact ⟨_, rfl, s.boundaryStep_limits (fun u => .of_eq (by simp)) _⟩
  | timerExpired k => exact ⟨_, rfl, s.boundaryStep_limits (fun u => .of_eq (by simp)) _⟩
  | verificationOutcome =>
    refine ⟨_, rfl, ?_⟩
    split
    · exact s.atVerification_limits.trans (.of_eq (by simp))
    · exact .of_eq rfl
  | dwellDone => exact ⟨_, rfl, s.boundaryStep_limits (fun u => .of_eq (by simp)) _⟩
  | armCancel | testStart | stateExit | durationLimit | endRequest | testComplete =>
    exact ⟨_, rfl, s.sequencerStep_limits _⟩
  | unknownMessage code m =>
    by_cases hk : code = 0 ∨ 0x19 < code.toNat
    · rw [messageOf, if_pos hk] at hm
      cases hm
    · exact ⟨s, congrArg Host.Outcome.next (if_neg (mt (unknownCode_iff code).1 hk)), .of_eq rfl⟩
  | _ => cases hm

/-! ### READ of the limit table (R165) -/

/-- R165: the stored payload of an entry of the limit table. -/
theorem State.stored_limit (s : State) (p : Fin 14) {a : Byte} (ha : a.toNat = p.val) :
    s.stored 0x08 a 0 = some (limitBytes s.out.limit[p]) := by
  have below : indexBelow 14 a = some p := by
    rw [indexBelow_eq, if_neg (by omega)]
    simp [ha]
  simp [State.stored, recordOf, below]

theorem readRecord_of_stored {m : Msg} {s : State} {bytes : List Byte} (table : isTable m.indexA = true) (hb : m.indexB = 0)
    (unused : UnusedZero m 2) (hs : s.stored m.indexA m.payload[0] m.payload[1] = some bytes) :
    readRecord m s = ⟨s, .done, [m.indexA, m.payload[0], m.payload[1]] ++ bytes⟩ := by
  simp [readRecord, table, hb, (Payload.clearFrom_iff m 2).2 unused, hs]

end Sys2Proof.Machine

namespace Sys2Proof
open Machine

/-- Settles O36: the checks by `writeLimit_eq`, a written limit by `exec_limits` and `State.tick_limits`. -/
theorem writeLimit : Obligations.WriteLimit := by
  refine ⟨fun m s h => ?_, fun c s t p hc h => ?_, fun s t p hq h => ?_, fun m s p h ha hb hp h1 unused => ?_⟩
  · rw [exec_of_hears h (c := .writeLimit m) rfl, show handlerOf 0x08 m s = _ from writeLimit_eq m s]
    simp only [ite_answered, refuse_answered, done_answered]
  · obtain ⟨u, hu, stand⟩ := exec_limits hc s
    obtain rfl := Host.Outcome.next.inj (hu.symm.trans h)
    exact stand p
  · rw [step, hq] at h
    obtain rfl := Host.Outcome.next.inj h
    exact s.tick_limits p
  · have stored : s.stored m.indexA m.payload[0] m.payload[1] = some (limitBytes s.out.limit[p]) := by
      rw [ha, h1]
      exact s.stored_limit p hp
    have table : isTable m.indexA = true := by rw [ha]; rfl
    rw [exec_of_hears h (c := .read m) rfl, show handlerOf 0x0D m s = _ from readRecord_of_stored table hb unused stored,
      ha, h1]
    rfl

end Sys2Proof
end

