-- ==== Sys2Proof/Proofs/ReadbackJudgment.lean ====
section
/-! SUPPORT. What a readback frame is judged as, and what that leaves alone (R69, R71, R76 to R82, R124). -/

namespace Sys2Proof.Machine

/-! ### The frame (R69, R161) -/

theorem at2_toList {n : Nat} (f : Vector Byte n) (i : Nat) (h : i + 1 < n) :
    at2 f.toList i = f[i].toNat * 256 + f[i + 1].toNat := by
  simp [at2, at1, List.getD_eq_getElem?_getD, h, Nat.lt_of_succ_lt h]

theorem goodReadback_iff (f : Vector Byte 40) :
    GoodReadback f ↔ f[0] = 0x4C ∧ f[1] = 0x2D ∧ goodReadback f.toList = true := by
  have flags (i : Nat) (h : i + 1 < 40) : at2 f.toList i < 16384 ↔ f[i].toNat < 64 := by
    have := f[i + 1].isLt
    rw [at2_toList f i h]
    omega
  simp only [GoodReadback, goodReadback, Bool.and_eq_true, decide_eq_true_eq, beq_iff_eq, flags 32 (by omega),
    flags 34 (by omega), at2_toList f 38 (by omega), span]
  tauto

theorem badReadback_iff (f : Vector Byte 40) :
    BadReadback f ↔ f[0] = 0x4C ∧ f[1] = 0x2D ∧ goodReadback f.toList = false := by
  rw [BadReadback, goodReadback_iff, ← Bool.not_eq_true]
  tauto

/-! ### What a readback leaves of the supervisor's settings and of the Report Unit -/

/-- R73, R84: the failover engine, and what WRITE_SUPERVISION sets, are alike. -/
def Supervisor.SettingsStand (p q : Supervisor) : Prop :=
  q.engine = p.engine ∧ ∀ c : Fin 14, q.chan[c].tolerance = p.chan[c].tolerance
    ∧ q.chan[c].threshold = p.chan[c].threshold ∧ q.chan[c].leakPeriod = p.chan[c].leakPeriod

theorem Supervisor.SettingsStand.refl (p : Supervisor) : p.SettingsStand p := ⟨rfl, fun _ => ⟨rfl, rfl, rfl⟩⟩

/-- R84. -/
theorem Supervisor.join_settings (p : Supervisor) (c : Fin 12) : p.SettingsStand (p.join c) := by
  unfold Supervisor.join
  extract_lets served
  split <;> exact .refl p

/-- R81. -/
theorem Supervisor.count_settings (p : Supervisor) (outcome : Option Nat) : p.SettingsStand (p.count outcome) := by
  unfold Supervisor.count
  (repeat' split) <;> exact .refl p

/-- What a readback touches of supervisor and Report Unit leaves settings and sending alone. -/
def State.Watches (s t : State) : Prop := s.sup.SettingsStand t.sup ∧ s.rep.SameSending t.rep

theorem State.Watches.refl (s : State) : s.Watches s := ⟨.refl s.sup, rfl, rfl, rfl, rfl⟩

theorem State.Watches.of_sup {s t : State} (sup : s.sup.SettingsStand t.sup) (rep : t.rep = s.rep) : s.Watches t :=
  ⟨sup, rep ▸ (State.Watches.refl s).2⟩

theorem State.Watches.trans {s t u : State} (h : s.Watches t) (h' : t.Watches u) : s.Watches u := by
  obtain ⟨⟨engine, chan⟩, activity, sendList, lastItem, pause⟩ := h
  obtain ⟨⟨engine', chan'⟩, activity', sendList', lastItem', pause'⟩ := h'
  refine ⟨⟨engine'.trans engine, fun c => ?_⟩, activity'.trans activity, sendList'.trans sendList,
    lastItem'.trans lastItem, pause'.trans pause⟩
  obtain ⟨tolerance, threshold, leakPeriod⟩ := chan c
  obtain ⟨tolerance', threshold', leakPeriod'⟩ := chan' c
  exact ⟨tolerance'.trans tolerance, threshold'.trans threshold, leakPeriod'.trans leakPeriod⟩

theorem State.flush_watches (s : State) : s.Watches s.flush := by
  refine ⟨by simpa using (State.Watches.refl s).1, ?_⟩
  simp [State.flush, Report.SameSending]

/-- R73: a channel is replaced that keeps its settings. -/
theorem State.setChan_watches (s : State) {p : Fin 14} {x : ChanSup} (h : x.tolerance = s.sup.chan[p].tolerance
    ∧ x.threshold = s.sup.chan[p].threshold ∧ x.leakPeriod = s.sup.chan[p].leakPeriod) : s.Watches (s.setChan p x) := by
  obtain ⟨-, sending⟩ := State.Watches.refl s
  refine ⟨⟨rfl, fun c => ?_⟩, sending⟩
  simp only [State.setChan, State.withSup_sup, Fin.getElem_fin, upd_getElem]
  split
  · next e =>
    obtain rfl := Fin.ext e
    exact h
  · exact ⟨rfl, rfl, rfl⟩

theorem State.foldl_watches {α : Type} {f : State → α → State} (h : ∀ (u : State) (x : α), u.Watches (f u x)) (s : State)
    (l : List α) : s.Watches (l.foldl f s) :=
  List.foldlRecOn (motive := fun u => s.Watches u) l f (.refl s) fun u hu x _ => hu.trans (h u x)

/-- R78. -/
theorem State.leaks_watches (s : State) : s.Watches s.leaks := by
  refine State.foldl_watches (fun u p => ?_) s _
  unfold State.leakIfDue
  split
  · exact u.setChan_watches ⟨rfl, rfl, rfl⟩
  · exact .refl u

/-- R80. -/
theorem State.failChannel_watches (s : State) (p : Fin 14) (mm ov th : Bool) (bucket : Nat) (me co : Int) :
    s.Watches (s.failChannel p mm ov th bucket me co) := by
  unfold State.failChannel
  extract_lets t
  have made : s.Watches t := .refl s
  split
  · exact made.trans (.of_sup (t.sup.join_settings _) rfl)
  · exact made

/-- R77. -/
theorem State.compare_watches (s : State) (p : Fin 14) (me co : Int) (ov th : Bool) :
    s.Watches (s.compare p me co ov th) := by
  unfold State.compare
  extract_lets x mm b fails t
  have compared : s.Watches t := s.setChan_watches ⟨rfl, rfl, rfl⟩
  split
  · exact compared.trans (t.failChannel_watches p mm ov th b me co)
  · exact compared

theorem State.compareOne_watches (rb : Readback) (s : State) (p : Fin 14) : s.Watches (State.compareOne rb s p) := by
  unfold State.compareOne
  split
  · exact s.compare_watches _ _ _ _ _
  · exact .refl s

/-! ### What sets DISTURBED (R82, R124) -/

/-- R124: of the frame and of the timers nothing but the DISTURBED flags has changed. -/
def State.OnlyDisturbs (s t : State) : Prop :=
  t.frame = { s.frame with disturbed := t.frame.disturbed } ∧ t.timers.gate = s.timers.gate
    ∧ ∀ k : Fin 8, t.timers.slots[k] = { s.timers.slots[k] with disturbed := t.timers.slots[k].disturbed }

theorem State.OnlyDisturbs.of_same {s t : State} (frame : t.frame = s.frame) (timers : t.timers = s.timers) :
    s.OnlyDisturbs t := by
  rw [State.OnlyDisturbs, frame, timers]
  exact ⟨rfl, rfl, fun _ => rfl⟩

theorem State.disturb_only (s : State) : s.OnlyDisturbs s.disturb := by
  unfold State.disturb
  split
  · refine ⟨rfl, rfl, fun k => ?_⟩
    simp only [State.withTimers_timers, Fin.getElem_fin, tab_getElem]
    split <;> rfl
  · exact .of_same rfl rfl

theorem State.setFault_spec (s : State) (c : FaultCause) : s.Watches (s.setFault c) ∧ s.OnlyDisturbs (s.setFault c) := by
  obtain ⟨-, gate, slots⟩ := State.disturb_only ((s.withSup { s.sup with fault := some c }).withFrame
    { s.frame with disturbed := true })
  have rep : (s.setFault c).rep.activity = s.rep.activity ∧ (s.setFault c).rep.sendList = s.rep.sendList
      ∧ (s.setFault c).rep.lastItem = s.rep.lastItem ∧ (s.setFault c).rep.pause = s.rep.pause := by
    simp [State.setFault, State.make, State.raise, Report.raise]
  exact ⟨⟨by rw [State.setFault_sup]; exact (State.Watches.refl s).1, rep⟩, by simp [State.setFault], gate, slots⟩

/-- R81, R82: an outcome is counted. -/
theorem State.countOutcome_spec (s : State) (outcome : Option Nat) :
    s.Watches (s.countOutcome outcome) ∧ s.OnlyDisturbs (s.countOutcome outcome) := by
  unfold State.countOutcome
  split
  · exact ⟨.refl s, .of_same rfl rfl⟩
  · extract_lets t
    have counted : s.Watches t := .of_sup (s.sup.count_settings outcome) rfl
    have same : s.OnlyDisturbs t := .of_same rfl rfl
    repeat' split
    · next c _ =>
      obtain ⟨set, disturbs⟩ := t.setFault_spec c
      exact ⟨counted.trans set, disturbs⟩
    · exact ⟨counted, same⟩
    · exact ⟨counted, same⟩
    · exact ⟨counted, same⟩

/-- R76: a valid readback is counted, then compared. -/
theorem State.takeReadback_spec (s : State) (rb : Readback) :
    s.Watches (s.takeReadback rb) ∧ s.OnlyDisturbs (s.takeReadback rb) := by
  obtain ⟨watches, disturbs⟩ := s.countOutcome_spec (some rb.reference)
  unfold State.takeReadback
  dsimp only
  split
  · refine ⟨watches.trans (State.foldl_watches (State.compareOne_watches rb) _ _), ?_⟩
    unfold State.OnlyDisturbs at *
    simpa using disturbs
  · exact ⟨watches, disturbs⟩

/-! ### The judgment (R69) -/

/-- The judgment that a bad readback leaves. -/
def OutputStage.badJudgment (o : OutputStage) : Judgment := if o.judgment = .settled then .settled else .openBad

section
variable {s : State} {bs : List Byte}

theorem State.judgeReadback_of_bad (h : goodReadback bs = false) :
    s.judgeReadback bs = s.withOut { s.out with crcBad := min 4294967295 (s.out.crcBad + 1), judgment := s.out.badJudgment } := by
  simp [State.judgeReadback, h, OutputStage.badJudgment, satInc, max32]

theorem State.judgeReadback_of_otherEcho (h : goodReadback bs = true) (he : s.out.lastSeq ≠ some (at2 bs 2)) :
    s.judgeReadback bs
      = s.withOut { s.out with echoBad := min 4294967295 (s.out.echoBad + 1), judgment := s.out.badJudgment } := by
  simp [State.judgeReadback, h, he, OutputStage.badJudgment, satInc, max32]

theorem State.judgeReadback_of_settled (h : goodReadback bs = true) (he : s.out.lastSeq = some (at2 bs 2))
    (hj : s.out.judgment = .settled) :
    s.judgeReadback bs = s.withOut { s.out with duplicate := min 4294967295 (s.out.duplicate + 1) } := by
  simp [State.judgeReadback, h, he, hj, satInc, max32]

theorem State.judgeReadback_of_valid (h : goodReadback bs = true) (he : s.out.lastSeq = some (at2 bs 2))
    (hj : s.out.judgment ≠ .settled) :
    s.judgeReadback bs = (s.withOut { s.out with valid := min 4294967295 (s.out.valid + 1), judgment := .settled }).takeReadback
      (s.readbackOf (at2 bs 2) bs) := by
  simp [State.judgeReadback, h, he, hj, satInc, max32]

end

theorem State.judgeReadback_watches (s : State) (bs : List Byte) : s.Watches (s.judgeReadback bs) := by
  unfold State.judgeReadback
  dsimp only
  repeat' split
  case isFalse.isTrue.isFalse => exact (State.takeReadback_spec (s.withOut _) _).1
  all_goals exact .refl s

/-! ### The command -/

/-- What READBACK_FRAME_RECEIVED leaves alone: the other blocks, the Sequencer but for its latches, which follow, and what the
Report Unit sends. -/
def State.ReadbackKeeps (s t : State) : Prop :=
  s.SameLinks t ∧ t.plan = s.plan ∧ t.eng = s.eng ∧ t.scan = s.scan ∧ t.brk = s.brk ∧ t.lines = s.lines
    ∧ t.choices = s.choices ∧ t.seq = { s.seq with latches := t.seq.latches } ∧ s.LatchesFollow t
    ∧ s.rep.SameSending t.rep

theorem State.readback_latchesFollow (s : State) (bs : List Byte) : s.LatchesFollow (s.readback bs) := by
  refine State.latchRisen_latchesFollow (t := s.leaks.judgeReadback bs) (by simp) (by simp) (by simp [State.readback]) ?_
  have hseq : ((s.leaks.judgeReadback bs).latchRisen s).seq.stateInForce = (s.leaks.judgeReadback bs).seq.stateInForce
      ∧ ((s.leaks.judgeReadback bs).latchRisen s).seq.framesInState = (s.leaks.judgeReadback bs).seq.framesInState :=
    ⟨rfl, rfl⟩
  funext c
  simp [State.holds, State.readback, State.part0, hseq]

theorem State.readback_watches (s : State) (bs : List Byte) : s.Watches (s.readback bs) := by
  have judged : s.Watches ((s.leaks.judgeReadback bs).latchRisen s) := by
    simpa [State.Watches] using s.leaks_watches.trans (s.leaks.judgeReadback_watches bs)
  exact judged.trans (State.flush_watches _)

theorem State.readback_keeps (s : State) (bs : List Byte) : s.ReadbackKeeps (s.readback bs) := by
  have seq : (s.readback bs).seq = { s.seq with latches := (s.readback bs).seq.latches } := by
    have latched := (State.latchBy_seq (s.leaks.judgeReadback bs) fun c =>
      (s.leaks.judgeReadback bs).holds c && !s.holds c).1
    simpa [State.readback, State.latchRisen] using latched
  exact ⟨by simp [State.readback, State.SameLinks], by simp [State.readback], by simp [State.readback],
    by simp [State.readback], by simp [State.readback], by simp [State.readback], by simp [State.readback], seq,
    s.readback_latchesFollow bs, (s.readback_watches bs).2⟩

/-- A readback that is not valid reaches nothing but the Output Stage; leaks that were due have come about. -/
theorem State.readback_unjudged {s : State} {bs : List Byte} {o : OutputStage}
    (h : s.leaks.judgeReadback bs = s.leaks.withOut o) :
    (s.readback bs).timers = s.timers ∧ (s.readback bs).frame = s.frame ∧ (s.readback bs).sup = s.leaks.sup
      ∧ (s.readback bs).out = o := by
  simp [State.readback, h]

/-- R71, R124: a valid readback reaches the supervisor, which may set DISTURBED flags. -/
theorem State.readback_valid {s : State} {bs : List Byte} {o : OutputStage} {rb : Readback}
    (h : s.leaks.judgeReadback bs = (s.leaks.withOut o).takeReadback rb) :
    (s.readback bs).out = o ∧ s.OnlyDisturbs (s.readback bs) := by
  obtain ⟨-, disturbs⟩ := State.takeReadback_spec (s.leaks.withOut o) rb
  exact ⟨by simp [State.readback, h], by simpa [State.OnlyDisturbs, State.readback, h] using disturbs⟩

theorem exec_readbackFrameReceived {s : State} {f : Vector Byte 40} (hs : s.frame.stage = .closed) :
    (f[0] = 0x4C ∧ f[1] = 0x2D → exec (.readbackFrameReceived f) s = .next (s.readback f.toList))
      ∧ (¬ (f[0] = 0x4C ∧ f[1] = 0x2D) → exec (.readbackFrameReceived f) s = .next s) := by
  have hexec : exec (.readbackFrameReceived f) s =
      .next (if hasSync 0x4C 0x2D f then s.closeEvent.readback f.toList else s) := rfl
  rw [hexec, State.closeEvent_of_closed hs]
  exact ⟨fun h => by rw [if_pos ((hasSync_iff _ _ f).2 h)], fun h => by rw [if_neg (mt (hasSync_iff _ _ f).1 h)]⟩

/-- Settles O13: the judgment by its four equations (`State.judgeReadback_of_bad`, …), the frame by `State.readback_keeps`. -/
theorem readbackJudged : Obligations.ReadbackJudged := by
  intro f s hs
  have out : s.leaks.out = s.out := by simp
  rw [← out]
  intro o bad up kept unjudged
  obtain ⟨judged, ignored⟩ := exec_readbackFrameReceived (f := f) hs
  have echo : readbackEcho f = at2 f.toList 2 := (at2_toList f 2 (by omega)).symm
  have keeps : kept (s.readback f.toList) := s.readback_keeps f.toList
  have invalid {q : OutputStage} (h : s.leaks.judgeReadback f.toList = s.leaks.withOut q) :
      unjudged (s.readback f.toList) ∧ (s.readback f.toList).out = q := by
    obtain ⟨timers, frame, sup, stage⟩ := State.readback_unjudged h
    exact ⟨⟨keeps, timers, frame, sup⟩, stage⟩
  rw [badReadback_iff, goodReadback_iff, echo]
  refine ⟨fun ⟨h0, h1, hb⟩ => ⟨_, judged ⟨h0, h1⟩, invalid (State.judgeReadback_of_bad hb)⟩,
    fun ⟨h0, h1, hg⟩ he => ⟨_, judged ⟨h0, h1⟩, invalid (State.judgeReadback_of_otherEcho hg he)⟩,
    fun ⟨h0, h1, hg⟩ he hj => ⟨_, judged ⟨h0, h1⟩, invalid (State.judgeReadback_of_settled hg he hj)⟩,
    fun ⟨h0, h1, hg⟩ he hj => ⟨_, judged ⟨h0, h1⟩, keeps, ?_⟩, ignored⟩
  obtain ⟨stage, frame, gate, slots⟩ := State.readback_valid (State.judgeReadback_of_valid hg he hj)
  obtain ⟨engine, settings⟩ := (s.readback_watches f.toList).1
  exact ⟨stage, frame, gate, slots, engine, settings⟩

end Sys2Proof.Machine
end

