-- ==== Sys2Proof/Proofs/DriveFrame.lean ====
section
/-! SUPPORT. The drive frame: samples, route and history, and what a frame's computation makes of the failover in flight (R63 to
R68, R86, R87). -/

namespace Sys2Proof.Machine

/-! ### Route and delivery (R63, R64, R66) -/

theorem State.route_eq_routeEntry (s : State) (c : Fin 12) : s.route c = s.routeEntry c := by
  unfold State.route State.routeEntry
  cases s.sup.engine <;> rfl

theorem State.routeEntry_congr {s t : State} (engine : t.sup.engine = s.sup.engine) (map : t.out.map = s.out.map)
    (c : Fin 12) : t.routeEntry c = s.routeEntry c := by
  rw [State.routeEntry, State.routeEntry, engine, map]

theorem State.routes_inTest {s : State} (h : s.seq.phase.inTest = true) : s.routes = Vector.ofFn s.routeEntry := by
  simp [State.routes, h, State.route_eq_routeEntry, tab_eq_ofFn]

theorem State.routes_outside {s : State} (h : s.seq.phase.inTest = false) : s.routes = s.out.map := by
  ext c hc
  simp [State.routes, h]

theorem State.deliveredOutputs_inTest {s : State} (h : s.seq.phase.inTest = true) (c : Fin 12) :
    s.deliveredOutputs[c] = s.deliveredNow c := by
  rw [State.deliveredOutputs_eq, State.silent, State.fadedOutput, State.deliveredNow]
  cases s.sup.engine <;> simp [h, State.fade]

theorem State.deliveredOutputs_outside {s : State} (h : s.seq.phase.inTest = false) :
    s.deliveredOutputs = Vector.replicate 12 0 := by
  ext c hc
  simp [State.deliveredOutputs, h]

theorem routedTo_eq_some {route : Vector (Option (Fin 14)) 12} {p : Fin 14} {c : Fin 12} :
    routedTo route p = some c ↔ route[c] = some p ∧ ∀ d : Fin 12, d < c → route[d] ≠ some p := by
  simp [routedTo, find_allFin_eq_some]

theorem routedTo_eq_none {route : Vector (Option (Fin 14)) 12} {p : Fin 14} :
    routedTo route p = none ↔ ∀ c : Fin 12, route[c] ≠ some p := by
  simp [routedTo]

theorem placeSamples_of_routed {route : Vector (Option (Fin 14)) 12} {p : Fin 14} {c : Fin 12} (h : routedTo route p = some c)
    (delivered : Vector Int 12) : (placeSamples route delivered)[p] = delivered[c] := by
  simp [placeSamples, h]

theorem placeSamples_of_unrouted {route : Vector (Option (Fin 14)) 12} {p : Fin 14} (h : routedTo route p = none)
    (delivered : Vector Int 12) : (placeSamples route delivered)[p] = 0 := by
  simp [placeSamples, h]

/-- R65: where nothing is delivered, every sample is 0. -/
theorem placeSamples_zero (route : Vector (Option (Fin 14)) 12) :
    placeSamples route (Vector.replicate 12 0) = Vector.replicate 14 0 := by
  ext p hp
  have zero : (placeSamples route (Vector.replicate 12 0))[(⟨p, hp⟩ : Fin 14)] = 0 := by
    cases h : routedTo route ⟨p, hp⟩ with
    | none => exact placeSamples_of_unrouted h _
    | some c => simp [placeSamples_of_routed h]
  simpa using zero

/-- The samples of the drive frame that `s` sends. -/
def State.samples (s : State) : Vector Int 14 := placeSamples s.routes s.deliveredOutputs

/-- R63: a physical channel carries what is delivered for the logical channel that the route places on it. -/
theorem State.samples_of_routed {s : State} (h : s.seq.phase.inTest = true) {p : Fin 14} {c : Fin 12}
    (hc : s.routeEntry c = some p) (first : ∀ d : Fin 12, d < c → s.routeEntry d ≠ some p) :
    s.samples[p] = s.deliveredNow c := by
  have routed : routedTo s.routes p = some c := by
    rw [State.routes_inTest h, routedTo_eq_some]
    simpa using ⟨hc, first⟩
  rw [State.samples, placeSamples_of_routed routed, State.deliveredOutputs_inTest h]

/-- R63: a physical channel on which the route places nothing carries 0. -/
theorem State.samples_of_unrouted {s : State} (h : s.seq.phase.inTest = true) {p : Fin 14}
    (hp : ∀ c : Fin 12, s.routeEntry c ≠ some p) : s.samples[p] = 0 := by
  have unrouted : routedTo s.routes p = none := by
    rw [State.routes_inTest h, routedTo_eq_none]
    simpa using hp
  rw [State.samples, placeSamples_of_unrouted unrouted]

/-- R63: no physical channel carries anything else. -/
theorem State.samples_cases {s : State} (h : s.seq.phase.inTest = true) (p : Fin 14) :
    s.samples[p] = 0 ∨ ∃ c : Fin 12, s.routeEntry c = some p ∧ s.samples[p] = s.deliveredNow c := by
  cases hr : routedTo s.routes p with
  | none => exact .inl (placeSamples_of_unrouted hr _)
  | some c =>
    obtain ⟨hc, first⟩ := routedTo_eq_some.1 hr
    rw [State.routes_inTest h] at hc first
    simp only [Fin.getElem_fin, Vector.getElem_ofFn, Fin.eta] at hc first
    exact .inr ⟨c, hc, State.samples_of_routed h hc first⟩

theorem State.samples_outside {s : State} (h : s.seq.phase.inTest = false) : s.samples = Vector.replicate 14 0 := by
  rw [State.samples, State.deliveredOutputs_outside h, placeSamples_zero]

/-- `s` and `t` are alike in all that route and delivery are computed from. -/
structure State.SoundsAlike (s t : State) : Prop where
  engine : t.sup.engine = s.sup.engine
  map : t.out.map = s.out.map
  eng : t.eng = s.eng
  plan : t.plan = s.plan
  phase : t.seq.phase = s.seq.phase
  countdown : t.seq.countdown = s.seq.countdown

theorem State.SoundsAlike.routeEntry {s t : State} (h : s.SoundsAlike t) (c : Fin 12) : t.routeEntry c = s.routeEntry c :=
  State.routeEntry_congr h.engine h.map c

theorem State.SoundsAlike.deliveredNow {s t : State} (h : s.SoundsAlike t) (c : Fin 12) :
    t.deliveredNow c = s.deliveredNow c := by
  rw [State.deliveredNow, State.deliveredNow, h.engine, h.eng, h.plan, h.phase, h.countdown]

/-! ### The drive frame sent (R66, R68, R70) -/

theorem State.closeJudgment_out (s : State) : ∃ n : Nat, s.closeJudgment.out = { s.out with missing := n } := by
  unfold State.closeJudgment
  split
  · exact ⟨s.out.missing, by simp⟩
  · exact ⟨satInc max32 s.out.missing, by simp⟩
  · exact ⟨s.out.missing, rfl⟩

theorem State.closeJudgment_watches (s : State) : s.Watches s.closeJudgment := by
  unfold State.closeJudgment
  split
  · exact (s.countOutcome_spec none).1
  · exact (State.countOutcome_spec (s.withOut _) none).1
  · exact .refl s

/-- R68: the commanded history once a drive frame has been sent. -/
theorem OutputStage.pushHistory_history (o : OutputStage) :
    (∀ q : Nat, o.lastSeq = some q → o.pushHistory.history = ((q, o.lastSamples) :: o.history).take 4)
      ∧ (o.lastSeq = none → o.pushHistory.history = o.history) := by
  unfold OutputStage.pushHistory
  exact ⟨fun q h => by simp [h], fun h => by simp [h]⟩

theorem OutputStage.sent_eq (o : OutputStage) (samples : Vector Int 14) :
    o.sent samples = { o with
      history := o.pushHistory.history
      lastSeq := some o.nextSeq
      lastSamples := samples
      nextSeq := (o.nextSeq + 1) % 65536
      judgment := .openNone } := by
  unfold OutputStage.sent OutputStage.pushHistory
  split <;> rfl

/-- R63, R66, R68: the drive frame of the present frame. -/
theorem State.driveFrame_sends (s : State) :
    (∃ n : Nat, s.driveFrame.out = { s.out with
        missing := n
        delivered := s.deliveredOutputs
        history := s.out.pushHistory.history
        lastSeq := some s.out.nextSeq
        lastSamples := s.samples
        nextSeq := (s.out.nextSeq + 1) % 65536
        judgment := .openNone })
      ∧ s.driveFrame.driveOut = driveBytes s.out.nextSeq s.samples s.routes
      ∧ s.driveFrame.sup.engine = s.sup.engine := by
  let v := s.withOut { s.out with delivered := s.deliveredOutputs }
  obtain ⟨n, closed⟩ := v.closeJudgment_out
  obtain ⟨engine, -⟩ := v.closeJudgment_watches.1
  have history : ({ v.out with missing := n } : OutputStage).pushHistory.history = s.out.pushHistory.history := by
    unfold OutputStage.pushHistory
    dsimp only [v, State.withOut_out]
    split <;> rfl
  have sends : s.driveFrame = (v.closeJudgment.withOut (v.closeJudgment.out.sent s.samples)).withDriveOut
      (driveBytes v.closeJudgment.out.nextSeq s.samples s.routes) := rfl
  rw [sends, closed, OutputStage.sent_eq, history]
  exact ⟨⟨n, rfl⟩, rfl, engine⟩

/-! ### The frame's computation (R49, R86, R87) -/

/-- R86, R87: the frame counts for the failover in flight. -/
theorem State.countFailoverFrame_engine (s : State) :
    (s.sup.engine = .quiet → s.countFailoverFrame.sup.engine = .quiet)
      ∧ (∀ x : FailoverCtx, s.sup.engine = .awaitZero x →
          s.countFailoverFrame.sup.engine = .awaitZero { x with wait := x.wait + 1, prevY := s.eng[x.logical].y })
      ∧ (∀ x : FailoverCtx, s.sup.engine = .switching x →
          s.countFailoverFrame.sup.engine = .switching { x with switch := x.switch + 1 }) := by
  refine ⟨fun he => ?_, fun x he => ?_, fun x he => ?_⟩ <;> simp [State.countFailoverFrame, he, State.setEngine]

theorem State.countFailoverFrame_routeEntry (s : State) (c : Fin 12) : s.countFailoverFrame.routeEntry c = s.routeEntry c := by
  obtain ⟨quiet, awaitZero, switching⟩ := s.countFailoverFrame_engine
  have map : s.countFailoverFrame.out = s.out := by simp
  rw [State.routeEntry, State.routeEntry, map]
  cases he : s.sup.engine with
  | quiet => rw [quiet he]
  | awaitZero x => rw [awaitZero x he]
  | switching x => rw [switching x he]

theorem State.countFailoverFrame_bound (s : State) (c : Fin 12) : s.countFailoverFrame.bound c = s.bound c := by
  have stage : s.countFailoverFrame.out = s.out := by simp
  rw [State.bound, State.bound, State.route_eq_routeEntry, State.route_eq_routeEntry, State.countFailoverFrame_routeEntry,
    stage]

theorem State.outputs_inTest {s : State} (h : s.seq.phase.inTest = true) :
    s.outputs = s.countFailoverFrame.computeOutputs := if_pos h

theorem State.outputs_outside {s : State} (h : s.seq.phase.inTest = false) : s.outputs = s := if_neg (by simp [h])

/-- R49. -/
theorem State.outputs_channel {s : State} (h : s.seq.phase.inTest = true) (c : Fin 12) :
    s.outputs.eng[c] = ((s.eng[c]).output (s.bound c)).advance := by
  rw [State.outputs_inTest h, State.computeOutputs_eng, State.advanced_channel, State.countFailoverFrame_bound]
  simp

theorem State.outputs_sup {s : State} (h : s.seq.phase.inTest = true) : s.outputs.sup = s.countFailoverFrame.sup := by
  rw [State.outputs_inTest h]
  simp

theorem State.outputs_routeEntry {s : State} (h : s.seq.phase.inTest = true) (c : Fin 12) :
    s.outputs.routeEntry c = s.routeEntry c :=
  (State.routeEntry_congr (by rw [State.outputs_sup h]) (by simp) c).trans (s.countFailoverFrame_routeEntry c)

end Sys2Proof.Machine
end

