-- ==== Sys2Proof/Proofs/AnswerFrame.lean ====
section
/-! SUPPORT. The answer frame: what it shows and how long it is (R142, R145, R158, R161, R164). -/

namespace Sys2Proof.Machine

/-! ### What it shows -/

theorem allFin_eq_finRange (n : Nat) : allFin n = List.finRange n := List.ofFn_id n

/-- R145. -/
theorem Report.attentionCode_eq (r : Report) : r.attentionCode = attentionShown r.attention := by
  unfold Report.attentionCode attentionShown
  rw [allFin_eq_finRange]
  split
  · next a h => rw [h]; rfl
  · next h => rw [h]; rfl

/-- R161. -/
theorem statusByte_eq (phase : Phase) (recv : RecvState) (pause gap : Bool) :
    statusByte phase recv pause gap = statusShown phase recv pause gap := by
  cases phase <;> cases recv <;> cases pause <;> cases gap <;> rfl

/-- R158, R164: what sends the answer frame of `w` answers from it. -/
theorem State.answersFrom_answer (w : State) (gap : Bool) : AnswersFrom w (w.answer gap) gap := by
  unfold AnswersFrom State.answer
  rw [Report.attentionCode_eq, statusByte_eq]
  exact ⟨rfl, rfl, rfl⟩

/-! ### Its bytes (R161) -/

theorem padTo_length (n : Nat) (bs : List Byte) : (padTo n bs).length = n := by
  simp [padTo]

theorem Report.sendRecord_length (r : Report) : r.sendRecord.2.length = 32 := by
  unfold Report.sendRecord
  split
  · exact List.length_replicate
  · exact padTo_length _ _

/-- R142: whatever the arbiter places in the return slot has 32 bytes. -/
theorem Report.arbiter_length (r : Report) (reply : Option Reply) : (r.arbiter reply).2.length = 32 := by
  unfold Report.arbiter
  repeat' split
  case h_1 => exact padTo_length _ _
  case h_2.isTrue => exact List.length_replicate
  case h_1.isTrue => exact padTo_length _ _
  all_goals exact r.sendRecord_length

theorem answerBytes_length (echo attention status : Nat) {item : List Byte} (h : item.length = 32) :
    (answerBytes echo attention status item).length = 40 := by
  simp [answerBytes, sealFrame, byte1, byte2, h]

theorem answerBytes_take (echo attention status : Nat) (item : List Byte) :
    (answerBytes echo attention status item).take 4 = [0x5A, 0x7E, BitVec.ofNat 8 (echo / 256), BitVec.ofNat 8 echo] := rfl

theorem AnswersFrom.length {w t : State} {gap : Bool} (h : AnswersFrom w t gap) : t.answerOut.length = 40 := by
  rw [h.1]
  exact answerBytes_length _ _ _ (w.rep.arbiter_length w.reply)

theorem AnswersFrom.take {w t : State} {gap : Bool} (h : AnswersFrom w t gap) :
    t.answerOut.take 4 = [0x5A, 0x7E, BitVec.ofNat 8 (w.recv.lastSeq / 256), BitVec.ofNat 8 w.recv.lastSeq] := by
  rw [h.1, answerBytes_take]

/-! ### The end of the frame-taken event (R49, R66, R158) -/

theorem State.finish_of_stepped {s : State} (h : s.frame.stage = .stepped) :
    s.finish = ((s.outputStep.answer s.frame.gap).resyncStep.toStage .closed).scanZero := if_pos h

theorem State.resyncStep_lastSeq (s : State) : s.resyncStep.recv.lastSeq = s.recv.lastSeq := by
  unfold State.resyncStep
  split
  · simp [State.leaveLocked, Receiver.enterHunt]
  · rfl

section
variable {s : State} (h : s.frame.stage = .stepped)
include h

theorem State.finish_answersFrom : AnswersFrom s.outputStep s.finish s.frame.gap ∧ s.finish.recv.lastSeq = s.recv.lastSeq := by
  have sent := s.outputStep.answersFrom_answer s.frame.gap
  rw [State.finish_of_stepped h]
  exact ⟨by simpa [AnswersFrom] using sent, by simp [State.resyncStep_lastSeq]⟩

/-- What the drive frame has left stays to the end of the event. -/
theorem State.finish_drive : s.finish.out = s.outputs.driveFrame.out ∧ s.finish.driveOut = s.outputs.driveFrame.driveOut
    ∧ s.finish.sup = s.outputs.driveFrame.sup ∧ s.finish.eng = s.outputs.eng := by
  rw [State.finish_of_stepped h]
  simp [State.outputStep]

theorem State.finish_soundsAlike : s.outputs.SoundsAlike s.finish := by
  obtain ⟨out, -, sup, eng⟩ := State.finish_drive h
  obtain ⟨⟨n, sent⟩, -, engine⟩ := s.outputs.driveFrame_sends
  have countdown : s.finish.seq.countdown = s.outputs.seq.countdown := by
    have latched (t before : State) : (t.latchRisen before).seq.countdown = t.seq.countdown := rfl
    rw [State.finish_of_stepped h]
    simp [State.outputStep, latched]
  exact ⟨by rw [sup, engine], by rw [out, sent], eng, by simp, by simp, countdown⟩

end

/-! ### From the close of the window to the outputs (R151, R162) -/

theorem State.take_gap (s : State) : s.take.frame.gap = decide (s.recv.held = none) := by
  unfold State.take State.openEvent
  cases h : s.recv.held with
  | none => dsimp only; split <;> simp
  | some x => dsimp only; split <;> simp

theorem State.settleSeq_gap (s : State) : s.settleSeq.frame.gap = s.frame.gap := by
  unfold State.settleSeq
  split <;> simp [State.toStage]

theorem State.serve_gap (s : State) : s.serve.frame.gap = s.frame.gap := by
  unfold State.serve
  split <;> simp

theorem State.completeFailover_gap (s : State) : s.completeFailover.frame.gap = s.frame.gap := by
  unfold State.completeFailover
  (repeat' split) <;> simp [State.serve_gap]

theorem State.ready_gap (s : State) : s.ready.frame.gap = s.frame.gap := by
  unfold State.ready State.boundaryApart
  split <;> simp [State.toStage, State.serve_gap, State.completeFailover_gap]

theorem State.handleSlot_gap (s : State) : s.handleSlot.frame.gap = s.frame.gap := by
  unfold State.handleSlot
  (repeat' split) <;> simp [State.toStage, State.takeMessage, Handled.answer]

theorem State.verifyStep_gap (s : State) : s.verifyStep.frame.gap = s.frame.gap := by
  unfold State.verifyStep
  split <;> simp [State.toStage]

/-- The state of the frame taken next as its outputs are about to be computed. -/
def State.beforeOutputs (s : State) : State := s.openFrame.settleSeq.ready.handleSlot.verifyStep

section
variable {s : State} (hc : s.frame.stage = .closed) (hl : s.recv.state = .locked)
  (hd : s.recv.held ≠ none ∨ s.recv.gapRun < s.recv.gapLimit)
include hc hl hd

/-- R151, R152, R162. -/
theorem exec_arrivalWindowClose_of_due :
    exec .arrivalWindowClose s = .next s.beforeOutputs.finish ∧ s.beforeOutputs.frame.stage = .stepped := by
  obtain ⟨handled, closes⟩ := State.windowClose_of_due hc hl hd
  exact ⟨congrArg Host.Outcome.next closes, State.verifyStep_stage _ handled⟩

theorem State.beforeOutputs_gap : s.beforeOutputs.frame.gap = decide (s.recv.held = none) := by
  rw [State.beforeOutputs, State.verifyStep_gap, State.handleSlot_gap, State.ready_gap, State.settleSeq_gap,
    State.openFrame_of_due hc hl hd, State.take_gap]
  simp

/-- R53, R62: the limits that bound the frame are those that stood before it; but for them, map and limit table alone may have
changed. -/
theorem State.beforeOutputs_out :
    ({ s.out with limitPrev := s.out.limit } : OutputStage).TablesOnly s.beforeOutputs.out := by
  have taken : s.openFrame.out = { s.out with limitPrev := s.out.limit } := by
    rw [State.openFrame_of_due hc hl hd, State.take_out]
    simp
  exact taken ▸ s.openFrame.untilOutputs_tables

end

/-- Settles O10: the drive frame by `State.driveFrame_sends`, samples and route by `State.samples_of_routed` and its companions,
the failover in flight by `State.countFailoverFrame_engine`, the answer frame by `State.finish_answersFrom`. -/
theorem driveAndAnswerFrames : Obligations.DriveAndAnswerFrames := by
  intro s hc hl hd u
  obtain ⟨closes, stepped⟩ := exec_arrivalWindowClose_of_due hc hl hd
  have hu : s.beforeOutputs = u := rfl
  have gap : u.frame.gap = decide (s.recv.held = none) := State.beforeOutputs_gap hc hl hd
  obtain ⟨nextSeq, lastSeq, lastSamples, history⟩ := (State.beforeOutputs_out hc hl hd).drive
  rw [hu] at closes stepped nextSeq lastSeq lastSamples history
  obtain ⟨answers, echo⟩ := State.finish_answersFrom stepped
  obtain ⟨out, driveOut, sup, eng⟩ := State.finish_drive stepped
  obtain ⟨⟨n, sent⟩, bytes, engine⟩ := u.outputs.driveFrame_sends
  have alike := State.finish_soundsAlike stepped
  have stage : u.outputs.out = u.out := by simp
  have phase : u.finish.seq.phase = u.seq.phase := by simp
  obtain ⟨pushed, unpushed⟩ := u.out.pushHistory_history
  rw [stage] at sent bytes
  rw [sent] at out
  rw [bytes, nextSeq] at driveOut
  rw [lastSeq, lastSamples, history] at pushed
  rw [lastSeq, history] at unpushed
  rw [gap] at answers
  refine ⟨u.finish, closes, by rw [out, nextSeq], by rw [out, nextSeq], by rw [out], fun q hq => by rw [out, pushed q hq],
    fun hq => by rw [out, unpushed hq], fun hr he => ?outside, fun hp => ?inTest, answers, answers.length,
    by rw [answers.take, echo]; simp⟩
  case outside =>
    have outside : u.seq.phase.inTest = false := by
      rw [Bool.eq_false_iff, Ne, Phase.inTest_iff, ← phase]
      exact not_or.2 ⟨hr, he⟩
    rw [State.outputs_outside outside] at *
    rw [State.samples_outside outside, State.routes_outside outside] at *
    exact ⟨by rw [out], by rw [out, State.deliveredOutputs_outside outside], by rw [sup, engine],
      by rw [driveOut, out], eng⟩
  case inTest =>
    have inTest : u.seq.phase.inTest = true := (Phase.inTest_iff _).2 (phase ▸ hp)
    have outTest : u.outputs.seq.phase.inTest = true := by simpa using inTest
    have route : u.outputs.routes = Vector.ofFn u.finish.routeEntry := by
      rw [State.routes_inTest outTest, funext alike.routeEntry]
    obtain ⟨quiet, awaitZero, switching⟩ := u.countFailoverFrame_engine
    rw [← State.outputs_sup inTest, ← alike.engine] at quiet awaitZero switching
    refine ⟨by rw [driveOut, route, out], fun p => ⟨fun c hr first => ?_, fun hr => ?_⟩, fun c => ⟨?_, ?_⟩, quiet, awaitZero,
      switching⟩
    · rw [alike.deliveredNow, out]
      simp only [alike.routeEntry] at hr first
      exact State.samples_of_routed outTest hr first
    · rw [out]
      simp only [alike.routeEntry] at hr
      exact State.samples_of_unrouted outTest hr
    · rw [eng, State.outputs_channel inTest]
    · rw [alike.deliveredNow, out, State.deliveredOutputs_inTest outTest]

end Sys2Proof.Machine
end

