-- ==== Sys2Proof/Proofs/SampleLimits.lean ====
section
/-! SUPPORT. No sample of a drive frame exceeds its channel's limit: the clamp bounds the output, and the fade of an ENDING frame
lets no output grow (R34, R53, R63, R64). -/

namespace Sys2Proof.Machine

/-! ### The ending countdown (R34, R35) -/

/-- R34, R35: an ENDING frame is one of the `F` that fade. -/
def State.FadeRuns (s : State) : Prop := s.seq.phase = .ending → 1 ≤ s.seq.countdown ∧ s.seq.countdown ≤ s.fade

theorem State.FadeRuns.of_phase {s : State} (h : s.seq.phase ≠ .ending) : s.FadeRuns := fun he => absurd he h

/-- What keeps phase, countdown and fade length, or ends ENDING, keeps the fade in its frames. -/
theorem State.FadeRuns.of_same {s t : State} (h : s.FadeRuns) (kept : t.seq.phase = .ending →
    s.seq.phase = .ending ∧ t.seq.countdown = s.seq.countdown ∧ t.plan.globals = s.plan.globals) : t.FadeRuns := by
  intro he
  obtain ⟨phase, countdown, globals⟩ := kept he
  have runs := h phase
  rwa [countdown, State.fade, globals]

theorem State.closeTest_phase (s : State) (r : EndReason) (last : Fin 32) (run : Nat) :
    (s.closeTest r last run).seq.phase = .idle := rfl

/-- R34: the first ENDING frame. -/
theorem State.beginEnding_fadeRuns (s : State) (r : EndReason) (own : Nat) (last : Fin 32) :
    (s.beginEnding r own last).FadeRuns := by
  unfold State.beginEnding
  dsimp only
  split
  · exact .of_phase (by simp [State.closeTest_phase])
  · next h =>
    intro _
    simp only [State.closeBlocks_frame, State.withSeq_seq, State.fade]
    exact ⟨le_refl 1, Nat.one_le_iff_ne_zero.2 h⟩

theorem State.enterState_fadeRuns {s : State} (h : s.seq.phase ≠ .ending) (st : Fin 32) (prev exit : Nat) :
    (s.enterState st prev exit).FadeRuns := by
  unfold State.enterState
  extract_lets n s1 count final sq s2 s3
  have phase : s3.seq.phase = s.seq.phase := by
    have left : s1.seq = s.seq := by
      dsimp only [s1]
      split <;> simp
    simp [s3, s2, sq, left]
  split
  · exact s3.beginEnding_fadeRuns _ _ _
  · exact .of_phase (phase ▸ h)

theorem State.startTest_fadeRuns (s : State) (r : StartRecord) : (s.startTest r).FadeRuns := by
  unfold State.startTest
  dsimp only
  exact State.enterState_fadeRuns (by simp) _ _ _

/-- R18, R34, R35: ENDING goes on while the fade is not over. -/
theorem State.settle_decision_fadeRuns {s : State} (h : s.seq.next ≠ some .ending) : (s.settle s.decision).FadeRuns := by
  cases hd : s.decision with
  | start r => exact s.startTest_fadeRuns r
  | stop r => exact State.beginEnding_fadeRuns _ r _ _
  | duration => exact State.beginEnding_fadeRuns _ .duration _ _
  | cancel => exact .of_phase (by simp [State.settle])
  | complete => exact .of_phase (by simp [State.settle, State.closeTest_phase])
  | change p =>
    have asked : s.seq.next = some p := by
      unfold State.decision State.decideRunning at hd
      (repeat' split at hd) <;> simp_all
    refine .of_phase fun he => h ?_
    rw [State.settle_change] at he
    rw [asked, ← he]
  | exit k =>
    have running : s.seq.phase = .running := by
      unfold State.decision at hd
      (repeat' split at hd) <;> simp_all
    exact State.enterState_fadeRuns (s := s.nextFrame) (by simp [State.nextFrame, running]) _ _ _
  | stay =>
    by_cases he : s.seq.phase = .ending
    · have goes : s.seq.countdown < s.fade := by
        simpa [State.decision, he] using hd
      rw [State.settle_stay_inTest (by simp [he, Phase.inTest])]
      intro _
      simp only [State.withSeq_seq, Sequencer.count, he, if_true]
      exact ⟨Nat.le_add_left _ _, goes⟩
    · refine .of_phase ?_
      unfold State.settle
      dsimp only
      split <;> exact he

/-- The decision is read from Sequencer and plan alone. -/
theorem State.decision_congr {s t : State} (seq : t.seq = s.seq) (plan : t.plan = s.plan) : t.decision = s.decision := by
  have running : t.decideRunning = s.decideRunning := by rw [State.decideRunning, State.decideRunning, seq, plan]
  have fade : t.fade = s.fade := by rw [State.fade, State.fade, plan]
  rw [State.decision, State.decision, seq, running, fade]

/-! ### The message and the verification step -/

/-- R12, R19, R31: the messages of a test's life ask for what comes at the next boundary. -/
theorem testMessages_countdown (m : Msg) (s : State) :
    ((armPlan m s).state.seq.phase = s.seq.phase ∧ (armPlan m s).state.seq.countdown = s.seq.countdown)
      ∧ ((startTest m s).state.seq.phase = s.seq.phase ∧ (startTest m s).state.seq.countdown = s.seq.countdown)
      ∧ ((abortTest m s).state.seq.phase = s.seq.phase ∧ (abortTest m s).state.seq.countdown = s.seq.countdown) := by
  unfold armPlan startTest abortTest State.abort State.requestEnd inPhase indexed valued
  and_intros <;> (repeat' split) <;> rfl

/-- R167: RESET_PART ends every test. -/
theorem resetPart_ending {m : Msg} {s : State} (h : (resetPart m s).state.seq.phase = .ending) :
    (resetPart m s).state.seq = s.seq := by
  have home : s.resetBlocks.seq.phase = .idle := rfl
  unfold resetPart indexed valued at *
  (repeat' split at *) <;> simp_all [done, refuse]

/-- R31, R167: no message brings ENDING about, or changes its countdown. -/
theorem handlerOf_ending (code : Byte) (m : Msg) (s : State) (h : (handlerOf code m s).state.seq.phase = .ending) :
    s.seq.phase = .ending ∧ (handlerOf code m s).state.seq.countdown = s.seq.countdown := by
  obtain ⟨⟨armPhase, arm⟩, ⟨startPhase, start⟩, abortPhase, abort⟩ := testMessages_countdown m s
  revert h
  unfold handlerOf
  split
  case h_14 => exact fun h => ⟨armPhase ▸ h, arm⟩
  case h_15 => exact fun h => ⟨startPhase ▸ h, start⟩
  case h_16 => exact fun h => ⟨abortPhase ▸ h, abort⟩
  case h_25 => exact fun h => by rw [resetPart_ending h] at *; exact ⟨h, rfl⟩
  all_goals simp [unknownMessage, refuse]

theorem State.handleSlot_fadeRuns {s : State} (h : s.FadeRuns) : s.handleSlot.FadeRuns := by
  unfold State.handleSlot
  repeat' split
  case h_1.isFalse c _ _ =>
    refine h.of_same fun he => ?_
    obtain ⟨phase, countdown⟩ := handlerOf_ending c.code c.msg s he
    obtain ⟨globals, -⟩ := handlerOf_stands c.code c.msg s (by
      rw [show (handlerOf c.code c.msg s).state.seq.phase = .ending from he]
      decide)
    exact ⟨phase, countdown, globals.symm⟩
  all_goals exact h

theorem State.ready_countdown (s : State) : s.ready.seq.countdown = s.seq.countdown := by
  have apart : s.boundaryApart.seq.countdown = s.seq.countdown := by rw [State.boundaryApart_seq]
  have latched (t : State) : t.latchZero.seq.countdown = t.seq.countdown := rfl
  unfold State.ready
  split
  · simp [latched, apart]
  · rfl

theorem State.verifyOutcome_countdown (s : State) (v : Verification) :
    (s.verifyOutcome v).seq.countdown = s.seq.countdown := by
  dsimp only [State.verifyOutcome]
  split <;> simp

theorem State.verifyStep_countdown (s : State) : s.verifyStep.seq.countdown = s.seq.countdown := by
  unfold State.verifyStep State.verify
  (repeat' split) <;> simp [State.verifyOutcome_countdown]

section
variable {s : State} (hc : s.frame.stage = .closed) (hl : s.recv.state = .locked)
  (hd : s.recv.held ≠ none ∨ s.recv.gapRun < s.recv.gapLimit)
include hc hl hd

/-- R18, R34: the fade runs as the outputs of the frame taken next are computed. -/
theorem State.beforeOutputs_fadeRuns (h : s.seq.next ≠ some .ending) : s.beforeOutputs.FadeRuns := by
  have opened : s.openFrame = s.finishSlot.take := State.openFrame_of_due hc hl hd
  have decision : s.openFrame.frame.decision = s.openFrame.decision := by
    rw [opened, s.finishSlot.take_event.1]
    exact (State.decision_congr (by simp) (by simp)).symm
  have stage : s.openFrame.frame.stage = .taken := by rw [opened, State.take_stage]
  have settled : s.openFrame.settleSeq.FadeRuns := by
    rw [State.settleSeq_of_taken stage decision]
    have settles : (s.openFrame.settle s.openFrame.decision).FadeRuns :=
      State.settle_decision_fadeRuns (by simpa [opened] using h)
    exact settles.of_same fun he => ⟨by simpa using he, by simp, by simp⟩
  have ready : s.openFrame.settleSeq.ready.FadeRuns :=
    settled.of_same fun he => ⟨by simpa using he, State.ready_countdown _, by simp⟩
  exact (State.handleSlot_fadeRuns ready).of_same fun he => ⟨by simpa [State.beforeOutputs] using he,
    State.verifyStep_countdown _, (State.verifyStep_definition _).1.symm⟩

end

/-! ### The bound (R53, R63, R64) -/

/-- R53: the output of a channel routed to `p`. -/
theorem State.output_abs_le {s : State} {c : Fin 12} {p : Fin 14} (h : s.route c = some p) :
    |((s.eng[c]).output (s.bound c)).advance.y| ≤ s.out.limitPrev[p] := by
  have apply_le (sum : Int) : |(s.bound c).apply sum| ≤ s.out.limitPrev[p] := by
    rw [(s.bound_eq c).2 p h]
    split
    · simp [Bound.apply]
    · exact abs_le.2 (clamp_bounds (by omega) sum)
  by_cases hz : s.eng[c].mode = .zero
  · rw [Channel.computed_of_zero hz]
    simp
  · rw [Channel.computed_of_not_zero hz, Channel.output_of_not_zero hz]
    exact apply_le _

/-- R64: what is delivered is no larger than the output. -/
theorem State.deliveredNow_abs_le {s : State} (h : s.FadeRuns) (c : Fin 12) : |s.deliveredNow c| ≤ |s.eng[c].y| := by
  have sounding : |if s.seq.phase = .ending then faded s.eng[c].y s.fade s.seq.countdown else s.eng[c].y| ≤ |s.eng[c].y| := by
    split
    · next he =>
      obtain ⟨first, last⟩ := h he
      exact faded_abs_le _ (first.trans last) last
    · exact le_rfl
  have delivered : s.deliveredNow c = 0
      ∨ s.deliveredNow c = if s.seq.phase = .ending then faded s.eng[c].y s.fade s.seq.countdown else s.eng[c].y := by
    unfold State.deliveredNow
    cases s.sup.engine with
    | switching x =>
      by_cases hx : x.logical = c
      · exact .inl (if_pos hx)
      · exact .inr (if_neg hx)
    | _ => exact .inr rfl
  rcases delivered with e | e <;> rw [e]
  · simp
  · exact sounding

/-- R53, R63: every sample lies within the limit in force. -/
theorem State.samples_abs_le {s : State} (h : s.FadeRuns) (p : Fin 14) :
    |s.outputs.samples[p]| ≤ s.out.limitPrev[p] := by
  cases ht : s.seq.phase.inTest with
  | false =>
    rw [State.outputs_outside ht, State.samples_outside ht]
    simp
  | true =>
    have runs : s.outputs.FadeRuns := h.of_same fun he => ⟨by simpa using he, by simp, by simp⟩
    rcases State.samples_cases (s := s.outputs) (by simpa using ht) p with zero | ⟨c, routed, sample⟩
    · simp [zero]
    · rw [State.outputs_routeEntry ht, ← State.route_eq_routeEntry] at routed
      rw [sample]
      refine (State.deliveredNow_abs_le runs c).trans ?_
      rw [State.outputs_channel ht]
      exact State.output_abs_le routed

/-- Settles O11: every sample lies within the limits in force (`State.samples_abs_le`), which are those that stood before the
frame (`State.beforeOutputs_out`). -/
theorem samplesWithinLimits : Obligations.SamplesWithinLimits := by
  intro s inv hc hl hd
  obtain ⟨closes, stepped⟩ := exec_arrivalWindowClose_of_due hc hl hd
  obtain ⟨-, -, -, next⟩ := inv
  refine ⟨_, closes, fun p => ?_⟩
  have within' := State.samples_abs_le (State.beforeOutputs_fadeRuns hc hl hd next) p
  obtain ⟨⟨n, sent⟩, -, -⟩ := s.beforeOutputs.outputs.driveFrame_sends
  rw [(State.beforeOutputs_out hc hl hd).limitPrev] at within'
  rw [(State.finish_drive stepped).1, sent]
  exact abs_le.1 within'

end Sys2Proof.Machine
end

