-- ==== Sys2Proof/Proofs/StepInvariant.lean ====
section
/-! SUPPORT. One induction for all invariants: what each part of a step keeps, every step keeps (log 1, log 2). -/

namespace Sys2Proof.Machine

/-- `P` is kept by each part that a step of the machine is made of. Each field says where in the frame-taken event its part
comes about. -/
structure StepInvariant (P : State → Prop) : Prop where
  powerUp : ∀ {s : State}, P s → P s.powerUp
  setStream : ∀ {s : State} (bytes : List LinkByte), P s → P (s.setStream bytes)
  frameWhole : ∀ {s : State} (first : LinkByte) (rest : List LinkByte), s.frame.stage = .closed → P s →
    P (s.frameWhole first rest)
  checkTimeout : ∀ {s : State}, P s → P s.checkTimeout
  leak : ∀ {s : State} (p : Fin 14), s.leakDue p = true → P s → P (s.leak p)
  endPulse : ∀ {s : State} (k : Fin 4), P s → P (s.endPulse k)
  acceptStep : ∀ {s : State} (i : Fin 8), P s → P (s.acceptStep i)
  operationStep : ∀ {s : State}, P s → P s.operationStep
  chose : ∀ {s : State}, P s → P s.chose
  advance : ∀ {s : State}, P s → P s.advance
  take : ∀ {s : State}, s.frame.stage = .closed → s.recv.state = .locked → P s → P s.take
  settle : ∀ {s : State}, s.frame.stage = .taken → P s → P ((s.settle s.frame.decision).toStage .settled)
  ready : ∀ {s : State}, s.frame.stage = .settled → P s → P s.ready
  silence : ∀ {s : State}, s.frame.stage = .ready → P s → P (s.toStage .handled)
  message : ∀ {s : State} (m : Msg) (code : Byte), s.Hears m → P s → P (s.takeMessage m code (handlerOf code))
  verify : ∀ {s : State}, s.frame.stage = .handled → P s → P (s.verify.toStage .stepped)
  finish : ∀ {s : State}, s.frame.stage = .stepped → P s → P s.finish
  streamLoss : ∀ {s : State}, s.frame.stage = .closed → s.recv.state = .locked → P s → P s.streamLoss
  beginPeriod : ∀ {s : State}, s.recv.state ≠ .locked → P s → P s.beginPeriod
  scanZero : ∀ {s : State}, P s → P s.scanZero
  serve : ∀ {s : State}, s.frame.stage = .settled → P s → P s.serve
  switchOver : ∀ {s : State}, s.frame.stage = .settled → P s → P s.switchOver
  completeFailover : ∀ {s : State}, s.frame.stage = .settled → P s → P s.completeFailover
  holdExpiry : ∀ {s : State} (k : Fin 8), s.frame.stage = .settled → P s → P (s.holdExpiry k)
  expire : ∀ {s : State} (k : Fin 8), s.frame.stage = .settled → P s → P (s.expire k)
  latchDwell : ∀ {s : State}, s.frame.stage = .settled → P s → P s.latchDwell
  endChatter : ∀ {s : State} (i : Fin 8), P s → P (s.endChatter i)
  closeWindowOf : ∀ {s : State} (i : Fin 8), P s → P (s.closeWindowOf i)
  flush : ∀ {s : State}, P s → P s.flush
  lineChange : ∀ {s : State} (i : Fin 8) (high : Bool), s.frame.stage = .closed → P s → P (s.lineChange i high)
  readback : ∀ {s : State} (bs : List Byte), s.frame.stage = .closed → P s → P (s.readback bs)
  withPending : ∀ {s : State} (rest : List Instr), P s → P (s.withPending rest)

namespace StepInvariant

variable {P : State → Prop} (inv : StepInvariant P) {s : State}
include inv

/-! ### The slot in progress -/

theorem leakIfDue (p : Fin 14) (h : P s) : P (s.leakIfDue p) := by
  unfold State.leakIfDue
  split
  · next due => exact inv.leak p due h
  · exact h

theorem perform (e : SubtickEvent) (h : P s) : P (s.perform e) := by
  cases e with
  | edge i => exact inv.acceptStep i h
  | deadline => exact inv.operationStep h

theorem performOne (es : List SubtickEvent) (h : P s) : P (s.performOne es) := by
  unfold State.performOne
  split
  · exact h
  · exact inv.perform _ h
  · exact inv.perform _ (inv.chose h)

theorem dueStep {t : State} (ht : s.dueStep = some t) (h : P s) : P t := by
  unfold State.dueStep at ht
  split at ht
  · next p hp =>
    obtain rfl := Option.some.inj ht
    exact inv.leak p (List.find?_some hp) h
  · split at ht
    · obtain rfl := Option.some.inj ht
      exact inv.endPulse _ h
    · split at ht
      · cases ht
      · obtain rfl := Option.some.inj ht
        exact inv.performOne _ h

theorem slotStep (h : P s) : P s.slotStep := by
  unfold State.slotStep
  cases ht : s.dueStep with
  | none => exact inv.advance h
  | some t => exact inv.dueStep ht h

theorem runSlot (fuel : Nat) (h : P s) : P (State.runSlot fuel s) := by
  induction fuel generalizing s with
  | zero => exact h
  | succ n ih =>
    unfold State.runSlot
    split
    · exact h
    · exact ih (inv.slotStep h)

theorem leaks (h : P s) : P s.leaks :=
  List.foldlRecOn (motive := P) _ _ h fun _ hu p _ => inv.leakIfDue p hu

theorem finishSlot (h : P s) : P s.finishSlot := inv.leaks (inv.runSlot 256 h)

/-! ### The frame-taken event (R162) -/

theorem openFrame (h : P s) : P s.openFrame := by
  unfold State.openFrame State.canOpen
  split
  · next due =>
    simp only [Bool.and_eq_true, beq_iff_eq] at due
    exact inv.take (by simpa using due.1.1) (by simpa using due.1.2) (inv.finishSlot h)
  · exact h

theorem settleSeq (h : P s) : P s.settleSeq := by
  unfold State.settleSeq
  split
  · next taken => exact inv.settle taken h
  · exact h

theorem atBoundary (h : P s) : P s.atBoundary := inv.settleSeq (inv.openFrame h)

theorem readyAny (h : P s) : P s.ready := by
  by_cases settled : s.frame.stage = .settled
  · exact inv.ready settled h
  · rwa [State.ready_of_stage settled]

theorem atMessage (h : P s) : P s.atMessage := inv.readyAny (inv.atBoundary h)

theorem beforeMessage (h : P s) : P s.beforeMessage := inv.scanZero (inv.atMessage h)

theorem handleSlot (h : P s) : P s.handleSlot := by
  unfold State.handleSlot
  split
  · next ready =>
    split
    · next c slot =>
      split
      · exact inv.silence ready h
      · next tag => exact inv.message c.msg c.code ⟨ready, by rw [slot]; rfl, tag⟩ h
    · exact inv.silence ready h
  · exact h

theorem verifyStep (h : P s) : P s.verifyStep := by
  unfold State.verifyStep
  split
  · next handled => exact inv.verify handled h
  · exact h

theorem finishAny (h : P s) : P s.finish := by
  by_cases stepped : s.frame.stage = .stepped
  · exact inv.finish stepped h
  · rwa [State.finish_of_stage stepped]

theorem complete (h : P s) : P s.complete :=
  inv.finishAny (inv.verifyStep (inv.handleSlot (inv.readyAny (inv.settleSeq h))))

theorem closeEvent (h : P s) : P s.closeEvent := by
  unfold State.closeEvent
  split
  · exact h
  · exact inv.complete h

theorem windowClose (h : P s) : P s.windowClose := by
  unfold State.windowClose State.canOpen
  split
  · next opens =>
    simp only [Bool.and_eq_true, beq_iff_eq] at opens
    split
    · exact inv.complete (inv.openFrame h)
    · exact inv.streamLoss (by simpa using opens.1) (by simpa using opens.2) (inv.finishSlot h)
  · exact inv.complete h

/-! ### The links and the clocks -/

theorem answerPeriod (h : P s) : P s.answerPeriod := by
  unfold State.answerPeriod
  split
  · exact h
  · next outside => exact inv.beginPeriod (by simpa using outside) (inv.finishSlot h)

theorem receiveByte (x : LinkByte) (h : P s) : P (s.receiveByte x) := by
  unfold State.receiveByte
  split
  · exact inv.setStream _ h
  · split
    · exact inv.frameWhole _ _ s.closeEvent_stage (inv.closeEvent h)
    · exact inv.setStream _ h

theorem receiveBytes (bytes : List LinkByte) (h : P s) : P (s.receiveBytes bytes) :=
  List.foldlRecOn (motive := P) _ _ h fun _ hu x _ => inv.receiveByte x hu

/-- Log 2: the part's own clock. -/
theorem tick (h : P s) : P s.tick := by
  unfold State.tick
  split
  · split
    · next ht => exact inv.dueStep ht h
    · repeat' split
      · exact inv.checkTimeout h
      · exact inv.windowClose h
      · exact inv.answerPeriod h
      · exact inv.advance h
  · exact inv.complete h

/-! ### Commands -/

theorem boundaryStep {act : State → State} (hact : ∀ {u : State}, u.frame.stage = .settled → P u → P (act u))
    (due : State → Bool) (h : P s) : P (s.boundaryStep due act) := by
  rcases s.boundaryStep_cases due act with ⟨settled, -, e⟩ | e <;> rw [e]
  · exact hact settled (inv.atBoundary h)
  · exact h

theorem sequencerStep (due : Decision → Bool) (h : P s) : P (s.sequencerStep due) := by
  rcases s.sequencerStep_cases due with ⟨-, -, e⟩ | e <;> rw [e]
  · exact inv.atBoundary h
  · exact h

theorem subtickCommand {act : State → State} (hact : ∀ {u : State}, P u → P (act u)) (due : State → Bool) (h : P s) :
    P (s.subtickCommand due act) := by
  rcases s.subtickCommand_cases due act with ⟨-, -, e⟩ | ⟨-, e⟩ | e <;> rw [e]
  · exact hact (inv.beforeMessage h)
  · exact hact (inv.closeEvent h)
  · exact h

theorem windowCommand {act : State → State} (hact : ∀ {u : State}, P u → P (act u)) (ends : State → Nat → Bool)
    (h : P s) : P (s.windowCommand ends act) := by
  unfold State.windowCommand
  repeat' split
  · exact inv.boundaryStep (fun _ => hact) _ h
  · exact inv.flush (hact (inv.finishSlot h))
  · exact h

theorem messageStep (m : Msg) (code : Byte) (h : P s) : P (s.messageStep m code (handlerOf code)) := by
  rcases s.messageStep_cases m code (handlerOf code) with ⟨hears, e⟩ | ⟨-, e⟩ <;> rw [e]
  · exact inv.message m code hears (inv.atMessage h)
  · exact h

/-- Every command keeps what each part of a step keeps. -/
theorem exec (c : Instr) (h : P s) : ∃ t : State, exec c s = .next t ∧ P t := by
  rcases hm : messageOf c with _ | ⟨code, m⟩
  case some => exact ⟨_, exec_message hm s, inv.messageStep m code h⟩
  cases c with
  | powerUpReset => exact ⟨_, rfl, inv.powerUp h⟩
  | sampleFrameArrival first rest => exact ⟨_, rfl, inv.receiveBytes _ h⟩
  | checkTimeout => exact ⟨_, rfl, inv.checkTimeout h⟩
  | arrivalWindowClose => exact ⟨_, rfl, inv.windowClose h⟩
  | answerFrameClockPeriod => exact ⟨_, rfl, inv.answerPeriod h⟩
  | readbackFrameReceived frame =>
    refine ⟨_, rfl, ?_⟩
    split
    · exact inv.readback _ s.closeEvent_stage (inv.closeEvent h)
    · exact h
  | leakStep p => exact ⟨_, rfl, inv.leakIfDue p h⟩
  | failoverService => exact ⟨_, rfl, inv.boundaryStep inv.serve _ h⟩
  | zeroFound => exact ⟨_, rfl, inv.boundaryStep inv.switchOver _ h⟩
  | failoverComplete => exact ⟨_, rfl, inv.boundaryStep inv.completeFailover _ h⟩
  | inputLineChange i high => exact ⟨_, rfl, inv.lineChange i high s.closeEvent_stage (inv.closeEvent h)⟩
  | acceptedEdge i => exact ⟨_, rfl, inv.subtickCommand (inv.acceptStep i) _ h⟩
  | chatterEnd i => exact ⟨_, rfl, inv.windowCommand (inv.endChatter i) _ h⟩
  | chatterWindowClose i => exact ⟨_, rfl, inv.windowCommand (inv.closeWindowOf i) _ h⟩
  | breakerOperationComplete => exact ⟨_, rfl, inv.subtickCommand inv.operationStep _ h⟩
  | pulsePeriodEnd k => exact ⟨_, rfl, inv.subtickCommand (inv.endPulse k) _ h⟩
  | timeoutDue k => exact ⟨_, rfl, inv.boundaryStep (inv.holdExpiry k) _ h⟩
  | timerExpired k => exact ⟨_, rfl, inv.boundaryStep (inv.expire k) _ h⟩
  | verificationOutcome =>
    have verified : P s.atVerification := inv.handleSlot (inv.atMessage h)
    refine ⟨_, rfl, ?_⟩
    split
    · exact inv.verifyStep verified
    · exact h
  | dwellDone => exact ⟨_, rfl, inv.boundaryStep inv.latchDwell _ h⟩
  | armCancel | testStart | stateExit | durationLimit | endRequest | testComplete =>
    exact ⟨_, rfl, inv.sequencerStep _ h⟩
  | unknownMessage code m =>
    by_cases hc : code = 0 ∨ 0x19 < code.toNat
    · rw [messageOf, if_pos hc] at hm
      cases hm
    · exact ⟨s, congrArg Host.Outcome.next (if_neg (mt (unknownCode_iff code).1 hc)), h⟩
  | _ => cases hm

/-- Every step keeps what each of its parts keeps. -/
theorem step {t : State} (h : P s) (ht : step s = .next t) : P t := by
  unfold Machine.step at ht
  split at ht
  · obtain rfl := Host.Outcome.next.inj ht
    exact inv.tick h
  · next c rest _ =>
    obtain ⟨u, hu, kept⟩ := inv.exec c (inv.withPending rest h)
    obtain rfl := Host.Outcome.next.inj (hu.symm.trans ht)
    exact kept

end StepInvariant

end Sys2Proof.Machine
end

