-- ==== Sys2Proof/Proofs/Supervised.lean ====
section
/-! SUPPORT. What the parts of a step make of the SPARE channels, of the request list and of the failover in flight (R75, R84 to
R88). -/

namespace Sys2Proof.Machine

/-! ### The channels that are SPARE, and the failover in flight -/

/-- 5.3: which physical channels are SPARE. -/
def Supervisor.spares (p : Supervisor) : Vector Bool 14 := p.chan.map fun x => x.state == .spare

theorem Supervisor.spares_iff {p : Supervisor} {q : Fin 14} : p.spares[q] = true ↔ p.chan[q].state = .spare := by
  simp [Supervisor.spares]

theorem Supervisor.spares_congr {p q : Supervisor}
    (h : ∀ c : Fin 14, (p.chan[c].state == .spare) = (q.chan[c].state == .spare)) : p.spares = q.spares := by
  ext c hc
  simpa [Supervisor.spares] using congrArg (· = true) (h ⟨c, hc⟩)

/-- R85: the failover in flight: the logical channel that it serves, and the SPARE that it holds. -/
def FailoverEngine.holds : FailoverEngine → Option (Fin 12 × Fin 14)
  | .quiet => none
  | .awaitZero x | .switching x => some (x.logical, x.dst)

@[simp] theorem FailoverEngine.holds_quiet : FailoverEngine.quiet.holds = none := rfl

theorem FailoverEngine.holds_eq_none {e : FailoverEngine} : e.holds = none ↔ e = .quiet := by
  cases e <;> simp [FailoverEngine.holds]

/-! ### What a channel is replaced by -/

theorem State.setChan_spares {s : State} {p : Fin 14} {x : ChanSup}
    (h : (x.state == .spare) = (s.sup.chan[p].state == .spare)) : (s.setChan p x).sup.spares = s.sup.spares := by
  refine Supervisor.spares_congr fun c => ?_
  simp only [State.setChan, State.withSup_sup, Fin.getElem_fin, upd_getElem]
  split
  · next e =>
    obtain rfl := Fin.ext e
    exact h
  · rfl

@[simp] theorem State.setChan_list (s : State) (p : Fin 14) (x : ChanSup) :
    (s.setChan p x).sup.requests = s.sup.requests ∧ (s.setChan p x).sup.engine = s.sup.engine := ⟨rfl, rfl⟩

@[simp] theorem State.setEngine_sup (s : State) (e : FailoverEngine) :
    (s.setEngine e).sup.chan = s.sup.chan ∧ (s.setEngine e).sup.spares = s.sup.spares
    ∧ (s.setEngine e).sup.requests = s.sup.requests ∧ (s.setEngine e).sup.engine = e := ⟨rfl, rfl, rfl, rfl⟩

/-- R78. -/
@[simp] theorem State.leak_supervised (s : State) (p : Fin 14) :
    (s.leak p).sup.spares = s.sup.spares ∧ (s.leak p).sup.requests = s.sup.requests
    ∧ (s.leak p).sup.engine = s.sup.engine := ⟨State.setChan_spares rfl, rfl, rfl⟩

@[simp] theorem State.leakIfDue_supervised (s : State) (p : Fin 14) :
    (s.leakIfDue p).sup.spares = s.sup.spares ∧ (s.leakIfDue p).sup.requests = s.sup.requests
    ∧ (s.leakIfDue p).sup.engine = s.sup.engine := by
  unfold State.leakIfDue
  split <;> simp

theorem State.leakIfDue_fold_supervised (l : List (Fin 14)) (s : State) :
    (l.foldl State.leakIfDue s).sup.spares = s.sup.spares ∧ (l.foldl State.leakIfDue s).sup.requests = s.sup.requests
    ∧ (l.foldl State.leakIfDue s).sup.engine = s.sup.engine := by
  induction l generalizing s with
  | nil => exact ⟨rfl, rfl, rfl⟩
  | cons p ps ih => simpa using ih (s.leakIfDue p)

@[simp] theorem State.leaks_supervised (s : State) :
    s.leaks.sup.spares = s.sup.spares ∧ s.leaks.sup.requests = s.sup.requests ∧ s.leaks.sup.engine = s.sup.engine := by
  simp [State.leaks, State.leakIfDue_fold_supervised]

/-- R79. -/
@[simp] theorem State.supervisorStart_supervised (s : State) :
    s.supervisorStart.sup.spares = s.sup.spares ∧ s.supervisorStart.sup.requests = s.sup.requests
    ∧ s.supervisorStart.sup.engine = s.sup.engine :=
  ⟨Supervisor.spares_congr fun c => by simp [State.supervisorStart], rfl, rfl⟩

/-- R92. -/
@[simp] theorem State.supervisorReset_supervised (s : State) :
    s.supervisorReset.sup.spares = s.sup.spares ∧ s.supervisorReset.sup.requests = []
    ∧ s.supervisorReset.sup.engine = .quiet :=
  ⟨Supervisor.spares_congr fun c => by simp [State.supervisorReset], rfl, rfl⟩

/-! ### Readbacks (R76 to R82) -/

@[simp] theorem State.setFault_supervised (s : State) (c : FaultCause) :
    (s.setFault c).sup.spares = s.sup.spares ∧ (s.setFault c).sup.requests = s.sup.requests
    ∧ (s.setFault c).sup.engine = s.sup.engine := by
  rw [State.setFault_sup]
  exact ⟨rfl, rfl, rfl⟩

@[simp] theorem State.clearFault_supervised (s : State) (c : FaultCause) :
    (s.clearFault c).sup.spares = s.sup.spares ∧ (s.clearFault c).sup.requests = s.sup.requests
    ∧ (s.clearFault c).sup.engine = s.sup.engine := by
  rw [State.clearFault_sup]
  exact ⟨rfl, rfl, rfl⟩

@[simp] theorem Supervisor.count_supervised (p : Supervisor) (outcome : Option Nat) :
    (p.count outcome).spares = p.spares ∧ (p.count outcome).requests = p.requests
    ∧ (p.count outcome).engine = p.engine := by
  unfold Supervisor.count
  (repeat' split) <;> exact ⟨rfl, rfl, rfl⟩

/-- R81, R82: the counting of an outcome touches runs and fault alone. -/
@[simp] theorem State.countOutcome_supervised (s : State) (outcome : Option Nat) :
    (s.countOutcome outcome).sup.spares = s.sup.spares ∧ (s.countOutcome outcome).sup.requests = s.sup.requests
    ∧ (s.countOutcome outcome).sup.engine = s.sup.engine := by
  unfold State.countOutcome
  extract_lets t
  (repeat' split) <;> simp [t]

@[simp] theorem State.closeJudgment_supervised (s : State) :
    s.closeJudgment.sup.spares = s.sup.spares ∧ s.closeJudgment.sup.requests = s.sup.requests
    ∧ s.closeJudgment.sup.engine = s.sup.engine := by
  unfold State.closeJudgment
  split <;> simp

@[simp] theorem State.sendDrive_supervised (s : State) (samples : Vector Int 14)
    (route : Vector (Option (Fin 14)) 12) :
    (s.sendDrive samples route).sup.spares = s.sup.spares
    ∧ (s.sendDrive samples route).sup.requests = s.sup.requests
    ∧ (s.sendDrive samples route).sup.engine = s.sup.engine := by
  simp [State.sendDrive]

@[simp] theorem State.driveFrame_supervised (s : State) :
    s.driveFrame.sup.spares = s.sup.spares ∧ s.driveFrame.sup.requests = s.sup.requests
    ∧ s.driveFrame.sup.engine = s.sup.engine := by
  simp [State.driveFrame]

@[simp] theorem State.lossDrive_supervised (s : State) :
    s.lossDrive.sup.spares = s.sup.spares ∧ s.lossDrive.sup.requests = s.sup.requests
    ∧ s.lossDrive.sup.engine = s.sup.engine := by
  simp [State.lossDrive]

/-- R80. -/
theorem State.failChannel_chan (s : State) (p : Fin 14) (mm ov th : Bool) (bucket : Nat) (me co : Int) :
    (s.failChannel p mm ov th bucket me co).sup.chan = s.sup.chan := by
  have joined (q : Supervisor) (c : Fin 12) : (q.join c).chan = q.chan := by
    unfold Supervisor.join
    extract_lets served
    split <;> rfl
  unfold State.failChannel
  extract_lets t
  split
  · exact joined _ _
  · rfl

/-- R77: a channel that is compared stays what it is, or from MAPPED becomes FAILED. -/
theorem State.compare_spares (s : State) (p : Fin 14) (me co : Int) (ov th : Bool) :
    (s.compare p me co ov th).sup.spares = s.sup.spares := by
  unfold State.compare
  extract_lets x mm b fails t
  have kept : t.sup.spares = s.sup.spares := by
    refine State.setChan_spares ?_
    split
    · next hf =>
      have mapped : s.sup.chan[p].state = .mapped := by
        simp only [fails, x, Bool.and_eq_true, beq_iff_eq] at hf
        exact hf.1
      rw [mapped]
      rfl
    · rfl
  split
  · rw [← kept]
    exact congrArg (Vector.map _) (State.failChannel_chan _ _ _ _ _ _ _ _)
  · exact kept

theorem State.compareOne_spares (rb : Readback) (s : State) (p : Fin 14) :
    (State.compareOne rb s p).sup.spares = s.sup.spares := by
  unfold State.compareOne
  split
  · exact s.compare_spares _ _ _ _ _
  · rfl

theorem State.takeReadback_spares (s : State) (rb : Readback) : (s.takeReadback rb).sup.spares = s.sup.spares := by
  unfold State.takeReadback
  dsimp only
  split
  · exact List.foldlRecOn (motive := fun u : State => u.sup.spares = s.sup.spares) _ _ (by simp) fun u hu p _ =>
      (State.compareOne_spares rb u p).trans hu
  · simp

@[simp] theorem State.readback_spares (s : State) (bs : List Byte) : (s.readback bs).sup.spares = s.sup.spares := by
  have judged (u : State) : (u.judgeReadback bs).sup.spares = u.sup.spares := by
    unfold State.judgeReadback
    dsimp only
    repeat' split
    case isFalse.isTrue.isFalse => exact State.takeReadback_spares (u.withOut _) _
    all_goals rfl
  simp [State.readback, judged]

@[simp] theorem State.readback_engine (s : State) (bs : List Byte) : (s.readback bs).sup.engine = s.sup.engine :=
  (s.readback_watches bs).1.1

/-! ### Failover (R85 to R88) -/

@[simp] theorem State.moveMap_list (s : State) (x : FailoverCtx) :
    (s.moveMap x).sup.requests = s.sup.requests ∧ (s.moveMap x).sup.engine = s.sup.engine := ⟨rfl, rfl⟩

@[simp] theorem State.switchOver_supervised (s : State) :
    s.switchOver.sup.spares = s.sup.spares ∧ s.switchOver.sup.requests = s.sup.requests
    ∧ s.switchOver.sup.engine.holds = s.sup.engine.holds := by
  unfold State.switchOver
  split
  · next he => split <;> simp [he, FailoverEngine.holds]
  · exact ⟨rfl, rfl, rfl⟩
  · exact ⟨rfl, rfl, rfl⟩

@[simp] theorem State.countFailoverFrame_supervised (s : State) :
    s.countFailoverFrame.sup.spares = s.sup.spares ∧ s.countFailoverFrame.sup.requests = s.sup.requests
    ∧ s.countFailoverFrame.sup.engine.holds = s.sup.engine.holds := by
  unfold State.countFailoverFrame
  split <;> (next he => simp [he, FailoverEngine.holds])

@[simp] theorem State.outputs_supervised (s : State) :
    s.outputs.sup.spares = s.sup.spares ∧ s.outputs.sup.requests = s.sup.requests
    ∧ s.outputs.sup.engine.holds = s.sup.engine.holds := by
  unfold State.outputs
  split <;> simp

@[simp] theorem State.finish_supervised (s : State) :
    s.finish.sup.spares = s.sup.spares ∧ s.finish.sup.requests = s.sup.requests
    ∧ s.finish.sup.engine.holds = s.sup.engine.holds := by
  unfold State.finish State.outputStep
  split <;> simp

/-- R88: the entry to ENDING leaves no failover in flight and no request. -/
@[simp] theorem State.closeFailover_supervised (s : State) (e : Nat) :
    (s.closeFailover e).sup.requests = [] ∧ (s.closeFailover e).sup.engine = .quiet := by
  refine ⟨rfl, ?_⟩
  have closed : (s.closeEngine e).sup.engine = .quiet := by
    unfold State.closeEngine
    split
    · assumption
    · rfl
    · rfl
  simp [State.closeFailover, closed]

@[simp] theorem State.closeBlocks_supervised (s : State) (e : Nat) :
    (s.closeBlocks e).sup.requests = [] ∧ (s.closeBlocks e).sup.engine = .quiet := by
  simp [State.closeBlocks]

@[simp] theorem State.beginEnding_supervised (s : State) (r : EndReason) (own : Nat) (last : Fin 32) :
    (s.beginEnding r own last).sup.requests = [] ∧ (s.beginEnding r own last).sup.engine = .quiet := by
  unfold State.beginEnding
  dsimp only
  split <;> simp

/-- R80, R85: a failover in flight needs RUNNING, or there is none. -/
theorem State.enterState_cases (s : State) (st : Fin 32) (prev exit : Nat) :
    ((s.enterState st prev exit).sup = s.sup ∧ (s.enterState st prev exit).out = s.out
        ∧ (s.enterState st prev exit).seq.phase = s.seq.phase)
      ∨ ∃ u : State, ∃ last : Fin 32, u.sup = s.sup ∧ u.out = s.out
        ∧ s.enterState st prev exit = u.beginEnding .finalState 0 last := by
  unfold State.enterState
  extract_lets n s1 count final sq s2 s3
  have left : s1.sup = s.sup ∧ s1.out = s.out ∧ s1.seq = s.seq := by
    dsimp only [s1]
    split <;> simp
  obtain ⟨sup, out, seq⟩ := left
  split
  · exact .inr ⟨s3, _, by simp [s3, s2, sup], by simp [s3, s2, out], rfl⟩
  · exact .inl ⟨by simp [s3, s2, sup], by simp [s3, s2, out], by simp [s3, s2, sq, seq]⟩

/-! ### Messages (R73, R74, R90, R91) -/

@[simp] theorem writeSupervision_supervised (m : Msg) (s : State) :
    (writeSupervision m s).state.sup.spares = s.sup.spares
    ∧ (writeSupervision m s).state.sup.requests = s.sup.requests
    ∧ (writeSupervision m s).state.sup.engine = s.sup.engine := by
  unfold writeSupervision inPhase indexed valued
  dsimp only
  repeat' split
  · exact ⟨State.setChan_spares rfl, rfl, rfl⟩
  all_goals exact ⟨rfl, rfl, rfl⟩

@[simp] theorem writeSupervisionGlobal_supervised (m : Msg) (s : State) :
    (writeSupervisionGlobal m s).state.sup.spares = s.sup.spares
    ∧ (writeSupervisionGlobal m s).state.sup.requests = s.sup.requests
    ∧ (writeSupervisionGlobal m s).state.sup.engine = s.sup.engine := by
  unfold writeSupervisionGlobal inPhase indexed valued
  (repeat' split) <;> exact ⟨rfl, rfl, rfl⟩

@[simp] theorem clearChannel_list (m : Msg) (s : State) :
    (clearChannel m s).state.sup.requests = s.sup.requests ∧ (clearChannel m s).state.sup.engine = s.sup.engine := by
  unfold clearChannel inPhase indexed valued
  (repeat' split) <;> exact ⟨rfl, rfl⟩

@[simp] theorem restoreMap_list (m : Msg) (s : State) :
    (restoreMap m s).state.sup.requests = s.sup.requests ∧ (restoreMap m s).state.sup.engine = s.sup.engine := by
  unfold restoreMap inPhase indexed valued
  (repeat' split) <;> exact ⟨rfl, rfl⟩

/-- R167: RESET_PART resets the blocks, or is refused. -/
theorem resetPart_cases (m : Msg) (s : State) :
    (resetPart m s).state = s.resetBlocks ∨ (resetPart m s).state = s := by
  unfold resetPart indexed valued
  repeat' split
  · exact .inl rfl
  all_goals exact .inr rfl

end Sys2Proof.Machine
end

