-- ==== Sys2Proof/Proofs/MapInvariant.lean ====
section
/-! SUPPORT. Every step keeps each physical channel the target of at most one map entry, and no SPARE a target (R75, R85 to R88,
R90, R91). -/

namespace Sys2Proof.Machine

/-! ### What the invariant speaks of -/

/-- R75, R85: the map entries and the failover in flight fit the channels: no two entries have one target, no target is SPARE,
and the failover in flight holds a SPARE. -/
def State.TargetsFit (s : State) : Prop :=
  s.MapInjective ∧ s.NoSpareTarget
    ∧ ∀ (c : Fin 12) (q : Fin 14), s.sup.engine.holds = some (c, q) → s.sup.chan[q].state = .spare

/-- R85, R88: only RUNNING has a failover in flight. -/
def State.EngineRuns (s : State) : Prop := s.seq.phase ≠ .running → s.sup.engine.holds = none

theorem State.engineFits_iff {s : State} :
    s.EngineFits ↔ (∀ (c : Fin 12) (q : Fin 14), s.sup.engine.holds = some (c, q) → s.sup.chan[q].state = .spare)
      ∧ s.EngineRuns := by
  unfold State.EngineFits State.EngineRuns
  cases s.sup.engine with
  | quiet => simp
  | awaitZero x | switching x =>
    simp only [FailoverEngine.holds, Option.some.injEq, Prod.mk.injEq, reduceCtorEq, imp_false, not_not]
    constructor
    · rintro ⟨running, spare⟩
      refine ⟨?_, running⟩
      rintro c q ⟨-, rfl⟩
      exact spare
    · rintro ⟨spare, running⟩
      exact ⟨running, spare _ _ ⟨rfl, rfl⟩⟩

theorem State.mapInv_iff {s : State} : s.MapInv ↔ s.TargetsFit ∧ s.EngineRuns ∧ s.DecisionFits := by
  rw [State.MapInv, State.TargetsFit, State.engineFits_iff]
  tauto

theorem State.EngineRuns.of_quiet {s : State} (h : s.sup.engine = .quiet) : s.EngineRuns := fun _ => by rw [h]; rfl

theorem State.EngineRuns.of_running {s : State} (h : s.seq.phase = .running) : s.EngineRuns := fun n => absurd h n

theorem State.EngineRuns.quiet {s : State} (h : s.EngineRuns) (hp : s.seq.phase ≠ .running) : s.sup.engine = .quiet :=
  FailoverEngine.holds_eq_none.1 (h hp)

theorem State.DecisionFits.of_stage {s : State} (h : s.frame.stage ≠ .taken) : s.DecisionFits := fun taken => absurd taken h

/-! ### What the boundary and the judgment leave of the frame -/

@[simp] theorem State.serve_event (s : State) :
    s.serve.frame.stage = s.frame.stage ∧ s.serve.frame.decision = s.frame.decision := by
  unfold State.serve
  split <;> simp

@[simp] theorem State.completeFailover_event (s : State) :
    s.completeFailover.frame.stage = s.frame.stage ∧ s.completeFailover.frame.decision = s.frame.decision := by
  unfold State.completeFailover
  (repeat' split) <;> simp

theorem State.OnlyDisturbs.event {s t : State} (h : s.OnlyDisturbs t) :
    t.frame.stage = s.frame.stage ∧ t.frame.decision = s.frame.decision := by
  obtain ⟨frame, -⟩ := h
  rw [frame]
  exact ⟨rfl, rfl⟩

@[simp] theorem State.countOutcome_event (s : State) (outcome : Option Nat) :
    (s.countOutcome outcome).frame.stage = s.frame.stage
    ∧ (s.countOutcome outcome).frame.decision = s.frame.decision := (s.countOutcome_spec outcome).2.event

@[simp] theorem State.closeJudgment_event (s : State) :
    s.closeJudgment.frame.stage = s.frame.stage ∧ s.closeJudgment.frame.decision = s.frame.decision := by
  unfold State.closeJudgment
  split <;> simp

@[simp] theorem State.closeJudgment_map (s : State) : s.closeJudgment.out.map = s.out.map := by
  obtain ⟨n, e⟩ := s.closeJudgment_out
  rw [e]

/-- R66: a drive frame leaves the map and the frame-taken event alone. -/
@[simp] theorem State.sendDrive_keeps (s : State) (samples : Vector Int 14) (route : Vector (Option (Fin 14)) 12) :
    (s.sendDrive samples route).out.map = s.out.map
    ∧ (s.sendDrive samples route).frame.stage = s.frame.stage
    ∧ (s.sendDrive samples route).frame.decision = s.frame.decision := by
  simp [State.sendDrive, OutputStage.sent_eq]

@[simp] theorem State.driveFrame_keeps (s : State) :
    s.driveFrame.out.map = s.out.map ∧ s.driveFrame.frame.stage = s.frame.stage
    ∧ s.driveFrame.frame.decision = s.frame.decision := by
  simp [State.driveFrame]

@[simp] theorem State.lossDrive_keeps (s : State) :
    s.lossDrive.out.map = s.out.map ∧ s.lossDrive.frame.stage = s.frame.stage
    ∧ s.lossDrive.frame.decision = s.frame.decision := by
  simp [State.lossDrive]

@[simp] theorem State.resetBlocks_supervised (s : State) :
    s.resetBlocks.sup.spares = s.sup.spares ∧ s.resetBlocks.sup.requests = []
    ∧ s.resetBlocks.sup.engine = .quiet := by
  simp [State.resetBlocks]

@[simp] theorem State.latchDwell_phase (s : State) : s.latchDwell.seq.phase = s.seq.phase := rfl

theorem State.readback_stage (s : State) (bs : List Byte) : (s.readback bs).frame.stage = s.frame.stage := by
  have judged (u : State) : (u.judgeReadback bs).frame.stage = u.frame.stage := by
    unfold State.judgeReadback
    dsimp only
    repeat' split
    case isFalse.isTrue.isFalse => exact (State.takeReadback_spec (u.withOut _) _).2.event.1
    all_goals rfl
  simp [State.readback, judged]

theorem State.readback_phase (s : State) (bs : List Byte) : (s.readback bs).seq.phase = s.seq.phase := by
  obtain ⟨-, -, -, -, -, -, -, seq, -⟩ := s.readback_keeps bs
  rw [seq]

@[simp] theorem State.frameWhole_map (s : State) (first : LinkByte) (rest : List LinkByte) :
    (s.frameWhole first rest).out.map = s.out.map := by
  have arrived (u : State) (arrival : Nat) (bs : List Byte) : (u.arrive arrival bs).out.map = u.out.map := by
    unfold State.arrive State.arriveGood State.arriveCheck State.lock
    (repeat' split) <;> simp
  unfold State.frameWhole
  exact arrived _ _ _

@[simp] theorem writeLimit_map (m : Msg) (s : State) : (writeLimit m s).state.out.map = s.out.map := by
  rw [writeLimit_eq]
  dsimp only
  split_ifs <;> rfl

/-- R49, R66. -/
theorem State.finish_map (s : State) : s.finish.out.map = s.out.map := by
  by_cases h : s.frame.stage = .stepped
  · rw [(State.finish_drive h).1]
    simp
  · rw [State.finish_of_stage h]

@[simp] theorem State.readback_map (s : State) (bs : List Byte) : (s.readback bs).out.map = s.out.map := by
  have judged (u : State) : (u.judgeReadback bs).out.map = u.out.map := by
    unfold State.judgeReadback State.takeReadback
    dsimp only
    repeat' split
    all_goals simp
  simp [State.readback, judged]

namespace State.TargetsFit

variable {s t : State}

/-- What keeps the map, the SPARE channels and the failover in flight keeps the targets fit. -/
theorem of_kept (h : s.TargetsFit) (map : t.out.map = s.out.map := by simp)
    (spares : t.sup.spares = s.sup.spares := by simp)
    (holds : t.sup.engine.holds = s.sup.engine.holds := by simp) : t.TargetsFit := by
  obtain ⟨injective, noSpare, held⟩ := h
  have spare (q : Fin 14) : t.sup.chan[q].state = .spare ↔ s.sup.chan[q].state = .spare := by
    rw [← Supervisor.spares_iff, spares, Supervisor.spares_iff]
  refine ⟨?_, fun c q hq => ?_, fun c q hq => (spare q).2 (held c q (holds ▸ hq))⟩
  · unfold State.MapInjective
    rw [map]
    exact injective
  · rw [map] at hq
    exact fun ht => noSpare c q hq ((spare q).1 ht)

/-- R85, R88: where no failover is in flight any more. -/
theorem of_quiet (h : s.TargetsFit) (quiet : t.sup.engine = .quiet) (map : t.out.map = s.out.map := by simp)
    (spares : t.sup.spares = s.sup.spares := by simp) : t.TargetsFit := by
  obtain ⟨injective, noSpare, -⟩ := h
  have closed : (s.setEngine .quiet).TargetsFit := ⟨injective, noSpare, nofun⟩
  exact closed.of_kept map spares (by rw [quiet]; rfl)

/-- R87: the map moves to the SPARE that the failover held. -/
theorem moved (h : s.TargetsFit) {x : FailoverCtx} (hx : s.sup.engine.holds = some (x.logical, x.dst)) :
    ((s.moveMap x).setEngine .quiet).TargetsFit := by
  obtain ⟨injective, noSpare, held⟩ := h
  have free (c : Fin 12) : s.out.map[c] ≠ some x.dst := fun hc => noSpare c x.dst hc (held _ _ hx)
  have entry (c : Fin 12) : (s.moveMap x).out.map[c] = if x.logical = c then some x.dst else s.out.map[c] := by
    simp [State.moveMap, State.setMap, Fin.ext_iff]
  have state (q : Fin 14) : (s.moveMap x).sup.chan[q].state = if x.dst = q then .mapped else s.sup.chan[q].state := by
    simp only [State.moveMap, State.setChan, State.withSup_sup, State.setMap_frame, Fin.getElem_fin, upd_getElem,
      Fin.ext_iff]
    split <;> rfl
  refine ⟨fun c d p hc hd => ?_, fun c p hc => ?_, nofun⟩
  · change (s.moveMap x).out.map[c] = some p at hc
    change (s.moveMap x).out.map[d] = some p at hd
    rw [entry] at hc hd
    split_ifs at hc hd with hxc hxd hxd
    · exact hxc.symm.trans hxd
    · exact absurd (hc ▸ hd) (free d)
    · exact absurd (hd ▸ hc) (free c)
    · exact injective c d p hc hd
  · change (s.moveMap x).out.map[c] = some p at hc
    change (s.moveMap x).sup.chan[p].state ≠ .spare
    rw [entry] at hc
    rw [state]
    split_ifs at hc with hxc
    · rw [if_pos (Option.some.inj hc)]
      decide
    · split
      · decide
      · exact noSpare c p hc

/-- R85: a map entry becomes NONE. -/
theorem unmapped (h : s.TargetsFit) (c : Fin 12) : (s.setMap c none).TargetsFit := by
  obtain ⟨injective, noSpare, held⟩ := h
  have entry {d : Fin 12} {p : Fin 14} (hd : (s.setMap c none).out.map[d] = some p) : s.out.map[d] = some p := by
    simp only [State.setMap, State.withOut_out, Fin.getElem_fin, upd_getElem] at hd
    split at hd
    · cases hd
    · exact hd
  exact ⟨fun d e p hd he => injective d e p (entry hd) (entry he), fun d p hd => noSpare d p (entry hd), held⟩

/-- R85: a SPARE is found. -/
theorem served (h : s.TargetsFit) {x : FailoverCtx} (hx : s.sup.chan[x.dst].state = .spare) :
    (s.setEngine (.awaitZero x)).TargetsFit := by
  obtain ⟨injective, noSpare, -⟩ := h
  refine ⟨injective, noSpare, fun c q hq => ?_⟩
  obtain ⟨-, rfl⟩ := Prod.mk.inj (Option.some.inj hq)
  exact hx

theorem withSeq (h : s.TargetsFit) (q : Sequencer) : (s.withSeq q).TargetsFit := h

theorem withFrame (h : s.TargetsFit) (x : FrameEvent) : (s.withFrame x).TargetsFit := h

theorem withRequests (h : s.TargetsFit) (l : List (Fin 12)) : (s.withSup { s.sup with requests := l }).TargetsFit := h

theorem toStage (h : s.TargetsFit) (x : Stage) : (s.toStage x).TargetsFit := h

theorem serveChannel (h : s.TargetsFit) (c : Fin 12) : (s.serveChannel c).TargetsFit := by
  unfold State.serveChannel
  split
  · next q p hq _ =>
    have fit := (find_allFin_eq_some.1 hq).1
    simp only [Bool.and_eq_true, beq_iff_eq] at fit
    exact h.served fit.1
  · split
    · exact h.of_kept
    · exact (h.unmapped c).of_kept

theorem serve (h : s.TargetsFit) : s.serve.TargetsFit := by
  unfold State.serve
  split
  · exact ((h.withRequests _).withFrame _).serveChannel _
  · exact h

theorem completeFailover (h : s.TargetsFit) : s.completeFailover.TargetsFit := by
  unfold State.completeFailover
  split
  · next x hx =>
    split
    · have moved := h.moved (x := x) (by rw [hx]; rfl)
      exact serve (moved.of_kept (by simp) (by simp) (by simp))
    · exact h
  all_goals exact h

/-- R88. -/
theorem closeFailover (h : s.TargetsFit) (e : Nat) : (s.closeFailover e).TargetsFit := by
  have closed : (s.closeEngine e).TargetsFit := by
    unfold State.closeEngine
    split
    · exact h
    · exact h.of_quiet rfl
    · next x hx => exact (h.moved (x := x) (by rw [hx]; rfl)).of_kept
  have abandoned (l : List (Fin 12)) : (l.foldl (State.abandonRequest e) (s.closeEngine e)).TargetsFit := closed.of_kept
  exact (abandoned _).withRequests []

/-! ### The Sequencer -/

theorem closeBlocks (h : s.TargetsFit) (e : Nat) : (s.closeBlocks e).TargetsFit := by
  unfold State.closeBlocks
  exact closeFailover h.of_kept e

theorem beginEnding (h : s.TargetsFit) (r : EndReason) (own : Nat) (last : Fin 32) :
    (s.beginEnding r own last).TargetsFit := by
  unfold State.beginEnding
  extract_lets e q s'
  have closed : s'.TargetsFit := (h.withSeq _).closeBlocks e
  split
  · exact closed.of_kept
  · exact closed

theorem enterState (h : s.TargetsFit) (st : Fin 32) (prev exit : Nat) : (s.enterState st prev exit).TargetsFit := by
  rcases s.enterState_cases st prev exit with ⟨sup, out, -⟩ | ⟨u, last, sup, out, e⟩
  · exact h.of_kept (by rw [out]) (by rw [sup]) (by rw [sup])
  · rw [e]
    exact beginEnding (h.of_kept (by rw [out]) (by rw [sup]) (by rw [sup])) _ _ _

theorem settle (h : s.TargetsFit) (d : Decision) : (s.settle d).TargetsFit := by
  cases d with
  | start r =>
    dsimp only [State.settle, State.startTest]
    exact enterState h.of_kept _ _ _
  | stop r => exact (h.withSeq _).beginEnding r _ _
  | duration => exact (h.withSeq _).beginEnding .duration _ _
  | exit k => exact enterState (s := s.nextFrame) h _ _ _
  | complete => exact h.of_kept (by simp [State.settle]) (by simp [State.settle]) (by simp [State.settle])
  | cancel => exact h
  | stay =>
    dsimp only [State.settle]
    split <;> exact h
  | change p =>
    dsimp only [State.settle]
    split <;> exact h

theorem lossSequencer (h : s.TargetsFit) : s.lossSequencer.TargetsFit := by
  unfold State.lossSequencer
  dsimp only
  split
  · exact (h.closeBlocks (s.seq.testFrame + 1)).of_kept
  all_goals exact h.of_kept

/-! ### Messages -/

/-- R90: a FAILED channel becomes SPARE where no map entry names it. -/
theorem clearChan (h : s.TargetsFit) (quiet : s.sup.engine = .quiet) (p : Fin 14) : (s.clearChan p).TargetsFit := by
  obtain ⟨injective, noSpare, -⟩ := h
  refine ⟨injective, fun c q hq => ?_, fun c q hq => ?_⟩
  · have stays := noSpare c q hq
    simp only [State.clearChan, State.setChan, State.withSup_sup, Fin.getElem_fin, upd_getElem]
    split
    · next e =>
      obtain rfl := Fin.ext e
      have target : s.out.isTarget p = true := by
        rw [OutputStage.isTarget, OutputStage.logicalOf, List.find?_isSome]
        exact ⟨c, mem_allFin c, by simpa using hq⟩
      dsimp only
      split
      · decide
      · exact stays
    · exact stays
  · have unchanged : (s.clearChan p).sup.engine = .quiet := quiet
    rw [unchanged] at hq
    cases hq

/-- R91: the identity map, with every one of its targets MAPPED. -/
theorem identityMap (quiet : s.sup.engine = .quiet) : s.identityMap.TargetsFit := by
  have entry (c : Fin 12) : s.identityMap.out.map[c] = some (c.castLE (by decide)) := by
    simp [State.identityMap, OutputStage.reset]
  refine ⟨fun c d p hc hd => ?_, fun c p hc => ?_, fun c q hq => ?_⟩
  · rw [entry] at hc hd
    exact Fin.castLE_injective _ (Option.some.inj (hc.trans hd.symm))
  · rw [entry] at hc
    obtain rfl := Option.some.inj hc
    simp [State.identityMap]
  · have unchanged : s.identityMap.sup.engine = .quiet := quiet
    rw [unchanged] at hq
    cases hq

end State.TargetsFit

namespace State.MapInv

variable {s t : State}

theorem targets (h : s.MapInv) : s.TargetsFit := (State.mapInv_iff.1 h).1

theorem engineRuns (h : s.MapInv) : s.EngineRuns := (State.mapInv_iff.1 h).2.1

theorem decision (h : s.MapInv) : s.DecisionFits := (State.mapInv_iff.1 h).2.2

/-- What keeps map, SPARE channels, failover in flight and phase, and takes no frame, keeps the invariant. -/
theorem of_kept (h : s.MapInv) (map : t.out.map = s.out.map := by simp)
    (spares : t.sup.spares = s.sup.spares := by simp)
    (holds : t.sup.engine.holds = s.sup.engine.holds := by simp) (phase : t.seq.phase = s.seq.phase := by simp)
    (frame : t.frame.stage = .taken → s.frame.stage = .taken ∧ t.frame.decision = s.frame.decision := by simp) :
    t.MapInv := by
  refine State.mapInv_iff.2 ⟨h.targets.of_kept map spares holds, fun hp => ?_, fun taken running => ?_⟩
  · rw [holds]
    exact h.engineRuns (phase ▸ hp)
  · obtain ⟨taken', decision⟩ := frame taken
    rw [decision]
    exact h.decision taken' (phase ▸ running)

/-- R33: the decision of a RUNNING frame is one that RUNNING carries out. -/
theorem take (h : s.MapInv) : s.take.MapInv := by
  refine State.mapInv_iff.2 ⟨h.targets.of_kept (by rw [State.take_out]), ?_, fun _ running => ?_⟩
  · simpa [State.EngineRuns] using h.engineRuns
  · have decided : s.take.frame.decision = s.decideRunning := by
      rw [s.take_event.1, State.decision_running (by simpa using running)]
    rw [decided]
    by_cases hr : ∃ r : EndReason, s.seq.request = .stop r
    · obtain ⟨r, hr⟩ := hr
      rw [State.decideRunning_of_stop hr]
      trivial
    · rw [State.decideRunning_of_no_stop (not_exists.1 hr)]
      split_ifs
      · trivial
      · cases s.seq.latched <;> trivial

/-- R18: the boundary is settled as it was decided. -/
theorem settle (h : s.MapInv) (taken : s.frame.stage = .taken) :
    ((s.settle s.frame.decision).toStage .settled).MapInv := by
  have fits := h.decision taken
  have entered {u : State} (runs : u.EngineRuns) (st : Fin 32) (prev exit : Nat) :
      (u.enterState st prev exit).EngineRuns := by
    rcases u.enterState_cases st prev exit with ⟨sup, -, phase⟩ | ⟨v, last, -, -, e⟩
    · rwa [State.EngineRuns, sup, phase]
    · rw [e]
      exact .of_quiet (by simp)
  have runs : (s.settle s.frame.decision).EngineRuns := by
    cases hd : s.frame.decision with
    | start r => exact entered (.of_running (by simp)) _ _ _
    | stop r => exact .of_quiet (State.beginEnding_supervised _ _ _ _).2
    | duration => exact .of_quiet (State.beginEnding_supervised _ _ _ _).2
    | exit k => exact entered (u := s.nextFrame) h.engineRuns _ _ _
    | stay =>
      dsimp only [State.settle]
      split <;> exact h.engineRuns
    | change p =>
      rw [hd] at fits
      rw [State.settle_change]
      exact .of_quiet (h.engineRuns.quiet fits)
    | cancel =>
      rw [hd] at fits
      exact .of_quiet (h.engineRuns.quiet fits)
    | complete =>
      rw [hd] at fits
      exact .of_quiet (by simp [State.settle, h.engineRuns.quiet fits])
  exact State.mapInv_iff.2 ⟨(h.targets.settle _).toStage _, runs, .of_stage (by simp [State.toStage])⟩

/-- R85 to R87: at the settled boundary the failover engine acts, and leaves the phase alone. -/
theorem of_failover (h : s.MapInv) (targets : t.TargetsFit) (phase : t.seq.phase = s.seq.phase)
    (settled : t.frame.stage ≠ .taken) (quiet : s.seq.phase ≠ .running → t.sup.engine.holds = s.sup.engine.holds) :
    t.MapInv := by
  refine State.mapInv_iff.2 ⟨targets, fun hp => ?_, .of_stage settled⟩
  rw [phase] at hp
  rw [quiet hp]
  exact h.engineRuns hp

theorem serve (h : s.MapInv) (settled : s.frame.stage = .settled) : s.serve.MapInv := by
  refine h.of_failover h.targets.serve (by simp) (by simp [settled]) fun hp => ?_
  simp [State.serve, State.canServe, hp]

theorem completeFailover (h : s.MapInv) (settled : s.frame.stage = .settled) : s.completeFailover.MapInv := by
  refine h.of_failover h.targets.completeFailover (by simp) (by simp [settled]) fun hp => ?_
  have quiet := h.engineRuns.quiet hp
  simp [State.completeFailover, quiet]

/-- R162: the other blocks have acted at the boundary. -/
theorem ready (h : s.MapInv) (settled : s.frame.stage = .settled) : s.ready.MapInv := by
  have completed := h.completeFailover settled
  have switched : s.completeFailover.switchOver.MapInv := completed.of_kept
  have served := switched.serve (by simp [settled])
  have apart : s.boundaryApart.MapInv := by
    unfold State.boundaryApart
    exact served.of_kept
  rw [State.ready, if_pos settled]
  exact apart.of_kept (phase := by simp [State.toStage, State.latchZero]) (frame := by simp [State.toStage])

/-- R154: whatever was in flight is closed, and the phase is IDLE. -/
theorem streamLoss (h : s.MapInv) (closed : s.frame.stage = .closed) : s.streamLoss.MapInv := by
  unfold State.streamLoss
  extract_lets r s1
  have lost : s1.leaveLocked.MapInv := h.of_kept (by simp [s1]) (by simp [s1]) (by simp [s1]) (by simp [s1])
    (by simp [s1, closed])
  have resolved : s1.leaveLocked.lossSequencer.sup.engine = .quiet := by
    have runs := lost.engineRuns.quiet
    unfold State.lossSequencer
    dsimp only
    split
    · simp
    all_goals next hp => simpa using runs (by rw [hp]; decide)
  refine State.mapInv_iff.2 ⟨lost.targets.lossSequencer.of_kept, .of_quiet (by simp [resolved]), .of_stage ?_⟩
  simp [s1, closed]

/-! ### Messages -/

/-- R90: only IDLE, where no failover is in flight, takes CLEAR_CHANNEL. -/
theorem clearChannel (h : s.MapInv) (m : Msg) : (clearChannel m s).state.TargetsFit := by
  by_cases idle : s.seq.phase = .idle
  · have quiet := h.engineRuns.quiet (by rw [idle]; decide)
    unfold Machine.clearChannel inPhase indexed valued
    repeat' split
    · exact h.targets.clearChan quiet _
    all_goals exact h.targets
  · rw [Machine.clearChannel, inPhase_isIdle_state idle]
    exact h.targets

/-- R91: only IDLE, where no failover is in flight, takes RESTORE_MAP. -/
theorem restoreMap (h : s.MapInv) (m : Msg) : (restoreMap m s).state.TargetsFit := by
  by_cases idle : s.seq.phase = .idle
  · have quiet := h.engineRuns.quiet (by rw [idle]; decide)
    unfold Machine.restoreMap inPhase indexed valued
    repeat' split
    · exact h.targets
    · exact .identityMap quiet
    all_goals exact h.targets
  · rw [Machine.restoreMap, inPhase_isIdle_state idle]
    exact h.targets

/-- A message that leaves the supervisor's engine and the phase alone. -/
theorem of_targets (h : s.MapInv) (targets : t.TargetsFit) (closed : s.frame.stage ≠ .taken)
    (engine : t.sup.engine.holds = s.sup.engine.holds := by simp) (phase : t.seq.phase = s.seq.phase := by simp)
    (stage : t.frame.stage = s.frame.stage := by simp) : t.MapInv :=
  h.of_failover targets phase (stage ▸ closed) fun _ => engine

/-- R162. -/
theorem handlerOf (h : s.MapInv) (closed : s.frame.stage ≠ .taken) (code : Byte) (m : Msg) :
    (handlerOf code m s).state.MapInv := by
  obtain ⟨⟨armPhase, -⟩, ⟨startPhase, -⟩, abortPhase, -⟩ := testMessages_countdown m s
  unfold Machine.handlerOf
  split
  case h_14 => exact h.of_kept (phase := armPhase)
  case h_15 => exact h.of_kept (phase := startPhase)
  case h_16 => exact h.of_kept (phase := abortPhase)
  case h_22 => exact h.of_targets (h.clearChannel m) closed
  case h_23 => exact h.of_targets (h.restoreMap m) closed
  case h_25 =>
    rcases resetPart_cases m s with e | e <;> rw [e]
    · exact State.mapInv_iff.2 ⟨h.targets.of_quiet (by simp), .of_quiet (by simp), .of_stage (by simpa using closed)⟩
    · exact h
  case h_26 => exact h
  all_goals exact h.of_kept

/-! ### Commands and events -/

/-- Every part of a step keeps the invariant. -/
theorem kept : StepInvariant State.MapInv where
  powerUp _ := reset_mapInv
  setStream _ h := h.of_kept
  frameWhole _ _ _ h := h.of_kept
  checkTimeout h := h.of_kept
  leak _ _ h := h.of_kept
  endPulse _ h := h.of_kept
  acceptStep _ h := h.of_kept
  operationStep h := h.of_kept
  chose h := h.of_kept
  advance h := h.of_kept
  take _ _ h := h.take
  settle taken h := h.settle taken
  ready settled h := h.ready settled
  silence ready h := h.of_kept (frame := by simp [State.toStage])
  message m code hears h :=
    (h.handlerOf (by simp [hears.1]) code m).of_kept (frame := by simp [State.takeMessage, State.toStage])
      (map := rfl) (spares := rfl) (holds := rfl) (phase := rfl)
  verify handled h := h.of_kept (frame := by simp [State.toStage])
  finish stepped h := h.of_kept (map := State.finish_map _) (frame := by simp [State.finish_stage _ stepped])
  streamLoss closed _ h := h.streamLoss closed
  beginPeriod _ h := h.of_kept
  scanZero h := h.of_kept
  serve settled h := h.serve settled
  switchOver _ h := h.of_kept
  completeFailover settled h := h.completeFailover settled
  holdExpiry _ _ h := h.of_kept
  expire _ _ h := h.of_kept
  latchDwell _ h := h.of_kept
  endChatter _ h := h.of_kept
  closeWindowOf _ h := h.of_kept
  flush h := h.of_kept
  lineChange _ _ _ h := h.of_kept
  readback bs closed h := h.of_kept (phase := State.readback_phase _ bs)
    (frame := fun taken => absurd (closed.symm.trans (State.readback_stage _ bs ▸ taken)) (by decide))
  withPending _ h := h.of_kept

end State.MapInv

/-- Settles O54, by `State.MapInv.kept`: each part of a step keeps the invariant. -/
theorem stepKeepsMapInv : Obligations.StepKeepsMapInv := fun _ _ h ht => State.MapInv.kept.step h ht

end Sys2Proof.Machine
end

