-- ==== Sys2Proof/Proofs/RequestInvariant.lean ====
section
/-! SUPPORT. Every step keeps the request list free of repeats and without the channel being served (R84, R85). -/

namespace Sys2Proof.Machine

/-! ### What the invariant speaks of -/

/-- R84: no logical channel is in the request list twice, nor while it is being served. -/
def Supervisor.Listed (p : Supervisor) : Prop :=
  p.requests.Nodup ∧ ∀ (c : Fin 12) (q : Fin 14), p.engine.holds = some (c, q) → c ∉ p.requests

/-- The length of the list follows: it names one of twelve channels at each place. -/
theorem State.requestInv_iff {s : State} : s.RequestInv ↔ s.sup.Listed := by
  have served : (∀ x : FailoverCtx, (s.sup.engine = .awaitZero x ∨ s.sup.engine = .switching x) → x.logical ∉ s.sup.requests)
      ↔ ∀ (c : Fin 12) (q : Fin 14), s.sup.engine.holds = some (c, q) → c ∉ s.sup.requests := by
    cases s.sup.engine <;> simp [FailoverEngine.holds]
  rw [State.RequestInv, Supervisor.Listed, served]
  refine ⟨fun ⟨nodup, _, apart⟩ => ⟨nodup, apart⟩, fun ⟨nodup, apart⟩ => ⟨nodup, ?_, apart⟩⟩
  simpa using nodup.length_le_card

/-- R84: the channel that fails last joins at the end. -/
theorem Supervisor.Listed.join {p : Supervisor} (h : p.Listed) (c : Fin 12) : (p.join c).Listed := by
  obtain ⟨nodup, apart⟩ := h
  unfold Supervisor.join
  extract_lets served
  split
  · exact ⟨nodup, apart⟩
  · next free =>
    simp only [Bool.or_eq_true, List.contains_iff_mem, not_or] at free
    obtain ⟨fresh, unserved⟩ := free
    refine ⟨nodup.append (List.nodup_singleton c) (by simpa using fresh), fun d q hd => ?_⟩
    have other : d ≠ c := by
      rintro rfl
      refine unserved ?_
      dsimp only [served]
      cases he : p.engine <;> simp_all [FailoverEngine.holds]
    simpa [other] using apart d q hd

namespace State.RequestInv

variable {s t : State}

theorem of_kept (h : s.RequestInv) (requests : t.sup.requests = s.sup.requests := by simp)
    (holds : t.sup.engine.holds = s.sup.engine.holds := by simp) : t.RequestInv := by
  rw [State.requestInv_iff] at *
  rwa [Supervisor.Listed, requests, holds]

/-- R88, R92: the list is empty and nothing is in flight. -/
theorem of_closed (closed : t.sup.requests = [] ∧ t.sup.engine = .quiet) : t.RequestInv := by
  obtain ⟨empty, quiet⟩ := closed
  rw [State.requestInv_iff, Supervisor.Listed, empty, quiet]
  exact ⟨.nil, nofun⟩

/-- R87: the failover in flight is done. -/
theorem quiet (h : s.RequestInv) : (s.setEngine .quiet).RequestInv := by
  rw [State.requestInv_iff] at *
  exact ⟨h.1, nofun⟩

/-! ### The failover engine (R85 to R87) -/

/-- R85: the head of the list is served, and is not in it any more. -/
theorem serve (h : s.RequestInv) : s.serve.RequestInv := by
  unfold State.serve
  split
  · next c rest can list =>
    rw [State.requestInv_iff] at h
    obtain ⟨nodup, apart⟩ := h
    rw [list, List.nodup_cons] at nodup
    obtain ⟨fresh, nodup⟩ := nodup
    have idle : s.sup.engine = .quiet := by
      simp only [State.canServe, Bool.and_eq_true, beq_iff_eq] at can
      exact can.1.1.2
    have unserved : ((s.withSup { s.sup with requests := rest }).withFrame { s.frame with served := true }).RequestInv := by
      rw [State.requestInv_iff]
      refine ⟨nodup, fun c q hq => ?_⟩
      simp [idle] at hq
    unfold State.serveChannel
    split
    · rw [State.requestInv_iff]
      refine ⟨nodup, fun d q hd => ?_⟩
      obtain ⟨rfl, -⟩ := Prod.mk.inj (Option.some.inj hd)
      exact fresh
    · split <;> exact unserved.of_kept
  · exact h

theorem completeFailover (h : s.RequestInv) : s.completeFailover.RequestInv := by
  unfold State.completeFailover
  split
  · split
    · exact serve (quiet h.of_kept)
    · exact h
  all_goals exact h

theorem ready (h : s.RequestInv) : s.ready.RequestInv := by
  unfold State.ready
  split
  · have served := serve (s := s.completeFailover.switchOver) h.completeFailover.of_kept
    unfold State.boundaryApart
    exact served.of_kept
  · exact h

/-! ### Readbacks (R80, R84) -/

theorem compareOne (h : s.RequestInv) (rb : Readback) (p : Fin 14) : (State.compareOne rb s p).RequestInv := by
  have failed (u : State) (hu : u.RequestInv) (mm ov th : Bool) (b : Nat) (me co : Int) :
      (u.failChannel p mm ov th b me co).RequestInv := by
    unfold State.failChannel
    extract_lets t
    have ht : t.RequestInv := hu.of_kept (by simp [t]) (by simp [t])
    split
    · exact State.requestInv_iff.2 ((State.requestInv_iff.1 ht).join _)
    · exact ht
  unfold State.compareOne State.compare
  split
  · extract_lets x mm b fails t
    have ht : t.RequestInv := h.of_kept (by simp [t]) (by simp [t])
    split
    · exact failed t ht _ _ _ _ _ _
    · exact ht
  · exact h

theorem readback (h : s.RequestInv) (bs : List Byte) : (s.readback bs).RequestInv := by
  have taken {u : State} (hu : u.RequestInv) (rb : Readback) : (u.takeReadback rb).RequestInv := by
    unfold State.takeReadback
    dsimp only
    split
    · exact List.foldlRecOn (motive := State.RequestInv) _ _ hu.of_kept fun _ hv p _ => hv.compareOne rb p
    · exact hu.of_kept
  have judged {u : State} (hu : u.RequestInv) : (u.judgeReadback bs).RequestInv := by
    unfold State.judgeReadback
    dsimp only
    repeat' split
    case isFalse.isTrue.isFalse => exact taken hu.of_kept _
    all_goals exact hu.of_kept
  unfold State.readback
  exact (judged (u := s.leaks) h.of_kept).of_kept

/-! ### The Sequencer -/

theorem enterState (h : s.RequestInv) (st : Fin 32) (prev exit : Nat) : (s.enterState st prev exit).RequestInv := by
  rcases s.enterState_cases st prev exit with ⟨sup, -⟩ | ⟨u, last, -, -, e⟩
  · exact h.of_kept (by rw [sup]) (by rw [sup])
  · rw [e]
    exact .of_closed (by simp)

theorem settle (h : s.RequestInv) (d : Decision) : (s.settle d).RequestInv := by
  cases d with
  | start r =>
    dsimp only [State.settle, State.startTest]
    exact enterState h.of_kept _ _ _
  | stop r => exact .of_closed (State.beginEnding_supervised _ _ _ _)
  | duration => exact .of_closed (State.beginEnding_supervised _ _ _ _)
  | exit k => exact enterState (s := s.nextFrame) h _ _ _
  | complete => exact h.of_kept (by simp [State.settle]) (by simp [State.settle])
  | cancel => exact h
  | stay =>
    dsimp only [State.settle]
    split <;> exact h
  | change p =>
    dsimp only [State.settle]
    split <;> exact h

theorem streamLoss (h : s.RequestInv) : s.streamLoss.RequestInv := by
  have resolved {u : State} (hu : u.RequestInv) : u.lossSequencer.RequestInv := by
    unfold State.lossSequencer
    dsimp only
    split
    · exact .of_closed (by simp)
    all_goals exact hu.of_kept
  unfold State.streamLoss
  extract_lets r s1
  exact of_kept (resolved (u := s1.leaveLocked) (h.of_kept (by simp [s1]) (by simp [s1])))

/-! ### Messages, commands and events -/

/-- R162. -/
theorem handlerOf (h : s.RequestInv) (code : Byte) (m : Msg) : (handlerOf code m s).state.RequestInv := by
  unfold Machine.handlerOf
  split
  case h_25 =>
    rcases resetPart_cases m s with e | e <;> rw [e]
    · exact .of_closed (by simp)
    · exact h
  case h_26 => exact h
  all_goals exact h.of_kept

/-- Every part of a step keeps the invariant. -/
theorem kept : StepInvariant State.RequestInv where
  powerUp _ := reset_requestInv
  setStream _ h := h.of_kept
  frameWhole _ _ _ h := h.of_kept
  checkTimeout h := h.of_kept
  leak _ _ h := h.of_kept
  endPulse _ h := h.of_kept
  acceptStep _ h := h.of_kept
  operationStep h := h.of_kept
  chose h := h.of_kept
  advance h := h.of_kept
  take _ _ h := h.of_kept
  settle _ h := h.settle _
  ready _ h := h.ready
  silence _ h := h.of_kept
  message m code _ h := h.handlerOf code m
  verify _ h := h.of_kept
  finish _ h := h.of_kept
  streamLoss _ _ h := h.streamLoss
  beginPeriod _ h := h.of_kept
  scanZero h := h.of_kept
  serve _ h := h.serve
  switchOver _ h := h.of_kept
  completeFailover _ h := h.completeFailover
  holdExpiry _ _ h := h.of_kept
  expire _ _ h := h.of_kept
  latchDwell _ h := h.of_kept
  endChatter _ h := h.of_kept
  closeWindowOf _ h := h.of_kept
  flush h := h.of_kept
  lineChange _ _ _ h := h.of_kept
  readback bs _ h := h.readback bs
  withPending _ h := h.of_kept

end State.RequestInv

/-- Settles O55, by `State.RequestInv.kept`: each part of a step keeps the invariant. -/
theorem stepKeepsRequestInv : Obligations.StepKeepsRequestInv := fun _ _ h ht => State.RequestInv.kept.step h ht

end Sys2Proof.Machine
end

