-- ==== Sys2Proof/Proofs/SupervisionMessages.lean ====
section
/-! SUPPORT. The messages of the supervisor and of its map (R73, R74, R90, R91), and the leak (R78). -/

namespace Sys2Proof.Machine

/-! ### The leak (R78) -/

theorem State.leakDue_iff (s : State) (p : Fin 14) :
    s.leakDue p = true ↔ s.sup.chan[p].countdown = 0 ∧ s.sup.chan[p].leakPeriod ≠ 0 := by
  simp [State.leakDue]

/-- Settles O16, by the condition under which a leak is due. -/
theorem leakStep : Obligations.LeakStep := by
  intro p s x
  have due := s.leakDue_iff p
  change Host.Outcome.next (s.leakIfDue p) = _
  unfold State.leakIfDue
  simp only [due]
  rfl

/-! ### The values of the messages (R73, R74) -/

theorem byteOf_le (m : Msg) (k : Fin 20) : byteOf m k ≤ 255 := Nat.le_of_lt_succ m.payload[k].isLt

theorem wordOf_le (m : Msg) (a b : Fin 20) : wordOf m a b ≤ 65535 := by
  have ha : m.payload[a].toNat ≤ 255 := byteOf_le m a
  have hb : m.payload[b].toNat ≤ 255 := byteOf_le m b
  unfold wordOf
  omega

/-- R73: tolerance, threshold and leak period of the message. -/
theorem SupWrite.fields (m : Msg) :
    Payload.u16 m.payload 0 = wordOf m 0 1 ∧ Payload.u8 m.payload 2 = byteOf m 2
      ∧ Payload.u16 m.payload 3 = wordOf m 3 4 :=
  ⟨Payload.u16_eq _ 0 (by omega), Payload.u8_eq _ 2 (by omega), Payload.u16_eq _ 3 (by omega)⟩

/-- R73: the three values are 0, or each is in its range. -/
theorem SupWrite.ok_iff (m : Msg) :
    SupWrite.ok m.payload = true ↔
      ((wordOf m 0 1 = 0 ∧ byteOf m 2 = 0 ∧ wordOf m 3 4 = 0)
        ∨ (1 ≤ wordOf m 0 1 ∧ wordOf m 0 1 ≤ 32767 ∧ 1 ≤ byteOf m 2 ∧ 1 ≤ wordOf m 3 4)) ∧ UnusedZero m 5 := by
  have := byteOf_le m 2
  have := wordOf_le m 3 4
  simp only [SupWrite.ok, SupWrite.fields, Bool.and_eq_true, Bool.or_eq_true, beq_iff_eq, within_iff,
    Payload.clearFrom_iff]
  refine and_congr_left fun _ => ?_
  omega

/-- R74: the six values of the message. -/
theorem SupGlobal.fields (m : Msg) :
    Payload.u8 m.payload 0 = byteOf m 0 ∧ Payload.u16 m.payload 1 = wordOf m 1 2
      ∧ Payload.u8 m.payload 3 = byteOf m 3 ∧ Payload.u8 m.payload 4 = byteOf m 4
      ∧ Payload.u8 m.payload 5 = byteOf m 5 ∧ Payload.u8 m.payload 6 = byteOf m 6 := by
  have byte (i : Fin 20) : Payload.u8 m.payload i = byteOf m i := Payload.u8_eq _ i i.isLt
  exact ⟨byte 0, Payload.u16_eq _ 1 (by omega), byte 3, byte 4, byte 5, byte 6⟩

/-- R74: each of the six values is in its range. -/
theorem SupGlobal.ok_iff (m : Msg) :
    SupGlobal.ok m.payload = true ↔
      1 ≤ byteOf m 0 ∧ byteOf m 0 ≤ 4 ∧ 1 ≤ wordOf m 1 2 ∧ wordOf m 1 2 ≤ 4096 ∧ 1 ≤ byteOf m 3
        ∧ byteOf m 3 ≤ 15 ∧ 1 ≤ byteOf m 4 ∧ byteOf m 5 ≤ 1 ∧ byteOf m 6 ≤ 1 ∧ UnusedZero m 7 := by
  have := byteOf_le m 4
  simp only [SupGlobal.ok, SupGlobal.fields, Bool.and_eq_true, decide_eq_true_eq, within_iff, Payload.clearFrom_iff]
  tauto

/-! ### The messages (R73, R74, R90, R91) -/

/-- R73: the checks of WRITE_SUPERVISION, in order. -/
theorem writeSupervision_eq (m : Msg) (s : State) :
    writeSupervision m s =
      let p : Fin 14 := Fin.ofNat 14 m.indexA.toNat
      let x := s.sup.chan[p]
      if s.seq.phase ≠ .idle then refuse s .wrongPhase
      else if 13 < m.indexA.toNat ∨ m.indexB ≠ 0 then refuse s .noEntry
      else if ((wordOf m 0 1 = 0 ∧ byteOf m 2 = 0 ∧ wordOf m 3 4 = 0)
          ∨ (1 ≤ wordOf m 0 1 ∧ wordOf m 0 1 ≤ 32767 ∧ 1 ≤ byteOf m 2 ∧ 1 ≤ wordOf m 3 4)) ∧ UnusedZero m 5 then
        done (s.withSup { s.sup with
          chan := s.sup.chan.set p ⟨x.state, wordOf m 0 1, byteOf m 2, wordOf m 3 4, x.bucket, wordOf m 3 4⟩ })
      else refuse s .badValue := by
  rw [writeSupervision, inPhase_isIdle_eq, indexed_indexA_eq]
  simp only [valued_eq, SupWrite.ok_iff, SupWrite.fields]
  rfl

/-- R74: the checks of WRITE_SUPERVISION_GLOBAL, in order. -/
theorem writeSupervisionGlobal_eq (m : Msg) (s : State) :
    writeSupervisionGlobal m s =
      if s.seq.phase ≠ .idle then refuse s .wrongPhase
      else if m.indexA ≠ 0 ∨ m.indexB ≠ 0 then refuse s .noEntry
      else if 1 ≤ byteOf m 0 ∧ byteOf m 0 ≤ 4 ∧ 1 ≤ wordOf m 1 2 ∧ wordOf m 1 2 ≤ 4096 ∧ 1 ≤ byteOf m 3
          ∧ byteOf m 3 ≤ 15 ∧ 1 ≤ byteOf m 4 ∧ byteOf m 5 ≤ 1 ∧ byteOf m 6 ≤ 1 ∧ UnusedZero m 7 then
        done (s.withSup { s.sup with
          latency := byteOf m 0, refTol := wordOf m 1 2, confirm := byteOf m 3, operate := byteOf m 4
          enable := decide (byteOf m 5 = 1), abortPolicy := decide (byteOf m 6 = 1) })
      else refuse s .badValue := by
  rw [writeSupervisionGlobal, inPhase_isIdle_eq, indexed_bothZero_eq, valued_eq]
  simp only [SupGlobal.ok_iff, SupGlobal.fields]
  rfl

theorem OutputStage.isTarget_iff {o : OutputStage} {p : Fin 14} :
    o.isTarget p = true ↔ ∃ c : Fin 12, o.map[c] = some p := by
  simp [OutputStage.isTarget, OutputStage.logicalOf]

/-- R90: the checks of CLEAR_CHANNEL, in order. -/
theorem clearChannel_eq (m : Msg) (s : State) :
    clearChannel m s =
      let p : Fin 14 := Fin.ofNat 14 m.indexA.toNat
      let x := s.sup.chan[p]
      if s.seq.phase ≠ .idle then refuse s .wrongPhase
      else if 13 < m.indexA.toNat ∨ m.indexB ≠ 0 then refuse s .noEntry
      else if ¬ UnusedZero m 0 then refuse s .badValue
      else done (s.withSup { s.sup with
        chan := s.sup.chan.set p ⟨if x.state ≠ .failed then x.state
            else if ∃ c : Fin 12, s.out.map[c] = some p then .mapped else .spare,
          x.tolerance, x.threshold, x.leakPeriod, 0, x.leakPeriod⟩ }) := by
  rw [clearChannel, inPhase_isIdle_eq, indexed_indexA_eq]
  simp only [valued_eq, noPayload_iff, State.clearChan, OutputStage.isTarget_iff, ite_not]
  rfl

theorem Supervisor.failedBelow12_iff (p : Supervisor) :
    p.failedBelow12 = true ↔ ∃ q : Fin 14, q.val < 12 ∧ p.chan[q].state = .failed := by
  simp [Supervisor.failedBelow12]

/-- R91: the checks of RESTORE_MAP, in order. -/
theorem restoreMap_eq (m : Msg) (s : State) :
    restoreMap m s =
      if s.seq.phase ≠ .idle then refuse s .wrongPhase
      else if m.indexA ≠ 0 ∨ m.indexB ≠ 0 then refuse s .noEntry
      else if ¬ UnusedZero m 0 then refuse s .badValue
      else if ∃ p : Fin 14, p.val < 12 ∧ s.sup.chan[p].state = .failed then refuse s .wrongState
      else done s.identityMap := by
  rw [restoreMap, inPhase_isIdle_eq, indexed_bothZero_eq]
  simp only [valued_eq, noPayload_iff, Supervisor.failedBelow12_iff, ite_not]

/-- R91: what the identity map is, and the channel states with it. -/
theorem State.identityMap_eq (s : State) :
    s.identityMap = { s with
      out := { s.out with map := Vector.ofFn fun c : Fin 12 => some (Fin.castLE (by decide) c) }
      sup := { s.sup with
        chan := Vector.ofFn fun p : Fin 14 => { s.sup.chan[p] with
          state := if p.val < 12 then .mapped else if s.sup.chan[p].state = .failed then .failed else .spare } } } := by
  rw [State.identityMap, tab_eq_ofFn]
  rfl

/-- Settles O43, by the checks of either message in order. -/
theorem clearChannelAndRestoreMap : Obligations.ClearChannelAndRestoreMap := by
  refine ⟨fun m s h => ?_, fun m s h => ?_⟩
  · rw [exec_of_hears h (c := .clearChannel m) rfl, show handlerOf 0x16 m s = _ from clearChannel_eq m s]
    simp only [ite_answered, refuse_answered, done_answered]
  · rw [exec_of_hears h (c := .restoreMap m) rfl, show handlerOf 0x17 m s = _ from restoreMap_eq m s]
    simp only [ite_answered, refuse_answered, done_answered, State.identityMap_eq]

/-! ### READ of the supervision table (R165) -/

/-- R165: the stored payload of an entry of the supervision table. -/
theorem State.stored_supervision (s : State) (p : Fin 14) {a : Byte} (ha : a.toNat = p.val) :
    s.stored 0x09 a 0 = some s.sup.chan[p].bytes := by
  have below : indexBelow 14 a = some p := by
    rw [indexBelow_eq, if_neg (by omega)]
    simp [ha]
  simp [State.stored, recordOf, below]

end Sys2Proof.Machine

namespace Sys2Proof
open Machine

/-- Settles O37: the checks by `writeSupervision_eq` and `writeSupervisionGlobal_eq`, READ by `State.stored_supervision`. -/
theorem writeSupervision : Obligations.WriteSupervision := by
  refine ⟨⟨fun m s h => ?_, fun m s p h ha hb hp h1 unused => ?_⟩, fun m s h => ?_⟩
  · rw [exec_of_hears h (c := .writeSupervision m) rfl, show handlerOf 0x09 m s = _ from writeSupervision_eq m s]
    simp only [ite_answered, refuse_answered, done_answered]
  · have stored : s.stored m.indexA m.payload[0] m.payload[1] = some s.sup.chan[p].bytes := by
      rw [ha, h1]
      exact s.stored_supervision p hp
    have table : isTable m.indexA = true := by rw [ha]; rfl
    rw [exec_of_hears h (c := .read m) rfl, show handlerOf 0x0D m s = _ from readRecord_of_stored table hb unused stored,
      ha, h1]
    rfl
  · intro inRange sup'
    refine ⟨?_, fun ⟨written, _⟩ => ?_⟩
    · rw [exec_of_hears h (c := .writeSupervisionGlobal m) rfl,
        show handlerOf 0x0A m s = _ from writeSupervisionGlobal_eq m s]
      simp only [ite_answered, refuse_answered, done_answered]
      rfl
    · simpa [Supervisor.dormant, sup'] using Nat.ne_of_gt written

end Sys2Proof
end

