-- ==== Sys2Proof/Proofs/FailoverEngine.lean ====
section
/-! SUPPORT. The failover engine at a settled boundary, and at the entry to ENDING (R85 to R89). -/

namespace Sys2Proof.Machine

/-! ### Service of a request (R85) -/

theorem State.serve_of_cannot {s : State} (h : s.canServe = false) : s.serve = s := by
  simp [State.serve, h]

theorem State.canServe_of {s : State} (running : s.seq.phase = .running) (quiet : s.sup.engine = .quiet)
    {c : Fin 12} {rest : List (Fin 12)} (list : s.sup.requests = c :: rest) (unserved : s.frame.served = false) :
    s.canServe = true := by
  simp [State.canServe, running, quiet, list, unserved]

theorem State.canServe_false {s : State}
    (h : s.seq.phase ≠ .running ∨ s.sup.engine ≠ .quiet ∨ s.sup.requests = [] ∨ s.frame.served = true) :
    s.canServe = false := by
  rw [← Bool.not_eq_true]
  simp only [State.canServe, Bool.and_eq_true, beq_iff_eq, Bool.not_eq_true', List.isEmpty_eq_false_iff]
  rintro ⟨⟨⟨running, quiet⟩, some⟩, unserved⟩
  simp [running, quiet, some, unserved] at h

/-- R85: the head has left the list, which is now `rest`, and is the one request served at this boundary. -/
def State.headLeaves (s : State) (rest : List (Fin 12)) : State :=
  (s.withSup { s.sup with requests := rest }).withFrame { s.frame with served := true }

theorem State.headLeaves_of_quiet {s : State} (quiet : s.sup.engine = .quiet) (rest : List (Fin 12)) :
    s.headLeaves rest =
      { s with sup := { s.sup with requests := rest, engine := .quiet }, frame := { s.frame with served := true } } := by
  rw [← quiet]
  rfl

theorem State.serve_of_can {s : State} {c : Fin 12} {rest : List (Fin 12)} (can : s.canServe = true)
    (list : s.sup.requests = c :: rest) :
    s.serve = (s.headLeaves rest).serveChannel c := by
  rw [State.serve, can, list]
  rfl

theorem State.serveChannel_of_spare {s : State} {c : Fin 12} {p q : Fin 14} (spare : s.spare = some q)
    (target : s.out.map[c] = some p) : s.serveChannel c = s.setEngine (.awaitZero ⟨c, p, q, 0, 0, 0⟩) := by
  rw [State.serveChannel, spare, target]

theorem State.serveChannel_of_none {s : State} (c : Fin 12) (spare : s.spare = none) :
    s.serveChannel c =
      if s.sup.abortPolicy = true then
        (s.makeFailover c .noSpareAbort s.out.map[c] none 0 0).requestEnd .channelFailed
      else (s.setMap c none).makeFailover c .noSpareInhibit s.out.map[c] none 0 0 := by
  rw [State.serveChannel, spare]

theorem State.spare_eq_some {s : State} {q : Fin 14} :
    s.spare = some q ↔ (s.sup.chan[q].state = .spare ∧ s.out.written[q] = true)
      ∧ ∀ q' : Fin 14, q' < q → ¬ (s.sup.chan[q'].state = .spare ∧ s.out.written[q'] = true) := by
  simp only [State.spare, find_allFin_eq_some, Bool.and_eq_true, beq_iff_eq, ← Bool.not_eq_true]

theorem State.spare_eq_none {s : State} :
    s.spare = none ↔ ∀ q : Fin 14, ¬ (s.sup.chan[q].state = .spare ∧ s.out.written[q] = true) := by
  simp only [State.spare, find_allFin_eq_none, Bool.and_eq_true, beq_iff_eq, ← Bool.not_eq_true]

theorem State.requestEnd_of_running {s : State} (running : s.seq.phase = .running) (r : EndReason) :
    s.requestEnd r = s.withSeq { s.seq with request := if s.seq.request = .none then .stop r else s.seq.request } := by
  unfold State.requestEnd
  by_cases h : s.seq.request = .none
  · simp [running, h]
  · rw [if_neg (fun both => h both.2), if_neg h]
    rfl

/-! ### The commands at a settled boundary -/

section
variable {s : State} (settled : s.frame.stage = .settled)
include settled

theorem exec_failoverService_of_settled : exec .failoverService s = .next s.serve := by
  change Host.Outcome.next (s.boundaryStep State.canServe State.serve) = _
  rw [State.boundaryStep, State.atBoundary_of_settled settled, settled]
  cases can : s.canServe
  · rw [s.serve_of_cannot can]
    rfl
  · rfl

theorem exec_zeroFound_of_settled : exec .zeroFound s = .next (if s.zeroIsFound = true then s.switchOver else s) := by
  change Host.Outcome.next (s.boundaryStep State.zeroIsFound State.switchOver) = _
  simp [State.boundaryStep, State.atBoundary_of_settled settled, settled]

theorem exec_failoverComplete_of_settled :
    exec .failoverComplete s = .next (if s.switchIsOver = true then s.completeFailover else s) := by
  change Host.Outcome.next (s.boundaryStep State.switchIsOver State.completeFailover) = _
  simp [State.boundaryStep, State.atBoundary_of_settled settled, settled]

end

/-! ### Zero and completion (R86, R87) -/

theorem State.zeroFound_iff (s : State) (x : FailoverCtx) :
    s.zeroFound x = true ↔
      1 ≤ x.wait ∧ (s.eng[x.logical].y = 0 ∨ (s.eng[x.logical].y < 0 ∧ 0 < x.prevY)
        ∨ (0 < s.eng[x.logical].y ∧ x.prevY < 0) ∨ 2 * s.recv.cycle ≤ x.wait) := by
  simp only [State.zeroFound, Bool.and_eq_true, Bool.or_eq_true, decide_eq_true_eq, mul_neg_iff, or_assoc]
  tauto

theorem State.zeroIsFound_awaitZero {s : State} {x : FailoverCtx} (h : s.sup.engine = .awaitZero x) :
    s.zeroIsFound = s.zeroFound x := by rw [State.zeroIsFound, h]

theorem State.zeroIsFound_false {s : State} (h : ∀ x : FailoverCtx, s.sup.engine ≠ .awaitZero x) :
    s.zeroIsFound = false := by
  unfold State.zeroIsFound
  split
  · next x hx => exact absurd hx (h x)
  all_goals rfl

theorem State.switchIsOver_switching {s : State} {x : FailoverCtx} (h : s.sup.engine = .switching x) :
    s.switchIsOver = true ↔ 1 ≤ x.switch ∧ s.sup.operate ≤ x.switch ∧ s.seq.phase = .running := by
  simp [State.switchIsOver, h, and_assoc]

theorem State.switchIsOver_false {s : State} (h : ∀ x : FailoverCtx, s.sup.engine ≠ .switching x) :
    s.switchIsOver = false := by
  unfold State.switchIsOver
  split
  · next x hx => exact absurd hx (h x)
  all_goals rfl

/-! ### The entry to ENDING (R88) -/

/-- R88 step 2: each request of a list makes its record, and the map stands. -/
theorem State.foldl_abandonRequest (e : Nat) (l : List (Fin 12)) (s : State) :
    l.foldl (State.abandonRequest e) s = s.plusMade (l.map fun c =>
      ⟨s.seq.testNumber, 16 * e, .failover c .abandoned s.out.map[c] none 0 0, false⟩) := by
  induction l generalizing s with
  | nil => simp [State.plusMade, State.withRep]
  | cons c cs ih =>
    rw [List.foldl_cons, ih]
    simp [State.plusMade, State.abandonRequest, State.make, State.withRep]

/-- R88: the failover in flight is closed with the records `first`, then the list. -/
theorem State.closeFailover_of_closeEngine {s v : State} {e : Nat} {first : List Made}
    (h : s.closeEngine e = (v.setEngine .quiet).plusMade first) :
    s.closeFailover e = (v.withSup { v.sup with requests := [], engine := .quiet }).plusMade
      (first ++ v.sup.requests.map fun c =>
        ⟨v.seq.testNumber, 16 * e, .failover c .abandoned v.out.map[c] none 0 0, false⟩) := by
  rw [State.closeFailover, h, State.foldl_abandonRequest]
  simp [State.plusMade, State.withRep, State.setEngine, State.withSup]

theorem State.closeEngine_of_quiet {s : State} (h : s.sup.engine = .quiet) (e : Nat) :
    s.closeEngine e = (s.setEngine .quiet).plusMade [] := by
  rw [State.closeEngine, h]
  simp [State.plusMade, State.withRep, State.setEngine, State.withSup, ← h]

/-- Settles O17: service by `State.serve_of_can`, zero and completion by their conditions, the entry to ENDING by
`State.closeFailover_eq`. -/
theorem failover : Obligations.Failover := by
  refine ⟨fun s settled => ⟨fun c rest running quiet list unserved => ?_, fun h => ?_⟩, fun s settled => ?_, fun s e => ?_⟩
  · have can := State.canServe_of running quiet list unserved
    rw [exec_failoverService_of_settled settled, State.serve_of_can can list]
    refine ⟨fun p q fit least target => ?_, fun none policy => ?_, fun none policy => ?_⟩
    · have spare : (s.headLeaves rest).spare = some q := State.spare_eq_some.2 ⟨fit, least⟩
      rw [State.serveChannel_of_spare spare target]
      rfl
    · have spare : (s.headLeaves rest).spare = .none := State.spare_eq_none.2 none
      have inhibits : ¬ (s.headLeaves rest).sup.abortPolicy = true := Bool.not_eq_true _ ▸ policy
      rw [State.serveChannel_of_none c spare, if_neg inhibits, State.headLeaves_of_quiet quiet]
      rfl
    · have spare : (s.headLeaves rest).spare = .none := State.spare_eq_none.2 none
      have aborts : (s.headLeaves rest).sup.abortPolicy = true := policy
      rw [State.serveChannel_of_none c spare, if_pos aborts, State.requestEnd_of_running (by exact running),
        State.headLeaves_of_quiet quiet]
      rfl
  · rw [exec_failoverService_of_settled settled, State.serve_of_cannot (State.canServe_false h)]
  · refine ⟨fun x he => ⟨fun zero => ?_, fun zero => ?_, ?_⟩, fun x he => ⟨fun isOver => ?_, fun isOver => ?_, ?_⟩,
      fun he => ⟨?_, ?_⟩⟩
    · rw [exec_zeroFound_of_settled settled, State.zeroIsFound_awaitZero he, if_pos ((s.zeroFound_iff x).2 zero),
        State.switchOver, he]
      dsimp only
      rw [if_pos ((s.zeroFound_iff x).2 zero)]
      rfl
    · rw [exec_zeroFound_of_settled settled, State.zeroIsFound_awaitZero he, if_neg (mt (s.zeroFound_iff x).1 zero)]
    · rw [exec_failoverComplete_of_settled settled, State.switchIsOver_false (by simp [he])]
      rfl
    · rw [exec_failoverComplete_of_settled settled, if_pos ((State.switchIsOver_switching he).2 isOver),
        State.completeFailover, he]
      dsimp only
      rw [if_pos ((State.switchIsOver_switching he).2 isOver), exec_failoverService_of_settled (by exact settled)]
      rfl
    · rw [exec_failoverComplete_of_settled settled, if_neg (mt (State.switchIsOver_switching he).1 isOver)]
    · rw [exec_zeroFound_of_settled settled, State.zeroIsFound_false (by simp [he])]
      rfl
    · rw [exec_zeroFound_of_settled settled, State.zeroIsFound_false (by simp [he])]
      rfl
    · rw [exec_failoverComplete_of_settled settled, State.switchIsOver_false (by simp [he])]
      rfl
  · refine ⟨fun he => ?_, fun x he => ?_, fun x he => ?_⟩
    · exact State.closeFailover_of_closeEngine (State.closeEngine_of_quiet he e)
    · exact State.closeFailover_of_closeEngine (v := s) (by rw [State.closeEngine, he]; rfl)
    · exact State.closeFailover_of_closeEngine (v := s.moveMap x) (by rw [State.closeEngine, he]; rfl)

end Sys2Proof.Machine
end

