-- ==== Sys2Proof/Proofs/ReadbackCounting.lean ====
section
/-! SUPPORT. The records a readback makes and what the queue makes of them; the counting of a valid readback (R81 to R83,
R131). -/

namespace Sys2Proof.Machine

/-! ### Records offered to the queue (R131) -/

theorem Report.admitOne_of_room {r : Report} (h : r.queue.length < 104) (m : Made) :
    (r.admitOne m).queue = r.queue ++ [⟨r.discard, m.testNo, m.time, m.body⟩] := by
  rcases r.admit_cases m with ⟨-, queue, -⟩ | ⟨full, -⟩
  · exact queue
  · split at full <;> omega

/-- R131: the first record offered is admitted while 104 have not been reached. -/
theorem Report.admitAll_first {r : Report} (h : r.queue.length < 104) (m : Made) (later : List Made) :
    (r.admitAll (m :: later)).queue[r.queue.length]? = some ⟨r.discard, m.testNo, m.time, m.body⟩ := by
  obtain ⟨rest, e⟩ := Report.admitAll_prefix later (r.admitOne m)
  have offered : r.admitAll (m :: later) = (r.admitOne m).admitAll later := rfl
  rw [offered, ← e, Report.admitOne_of_room h]
  simp

/-- What has been admitted was offered. -/
theorem Report.admitAll_body (ms : List Made) (r : Report) :
    ∃ l : List Record, (r.admitAll ms).queue = r.queue ++ l ∧ ∀ x ∈ l, ∃ m ∈ ms, x.body = m.body := by
  induction ms generalizing r with
  | nil => exact ⟨[], by simp [Report.admitAll], nofun⟩
  | cons m ms ih =>
    obtain ⟨l, queue, offered⟩ := ih (r.admitOne m)
    have later (x : Record) (hx : x ∈ l) : ∃ n ∈ m :: ms, x.body = n.body := by
      obtain ⟨n, hn, e⟩ := offered x hx
      exact ⟨n, List.mem_cons_of_mem m hn, e⟩
    have first : r.admitAll (m :: ms) = (r.admitOne m).admitAll ms := rfl
    rw [first, queue]
    rcases r.admit_cases m with ⟨-, hq, -⟩ | ⟨-, hq, -⟩
    · refine ⟨_ :: l, by rw [hq, List.append_assoc]; rfl, fun x hx => ?_⟩
      rcases List.mem_cons.1 hx with rfl | hx
      · exact ⟨m, List.mem_cons_self, rfl⟩
      · exact later x hx
    · exact ⟨l, by rw [hq], later⟩

/-- R131: while 104 are not reached, whatever is offered is admitted. -/
theorem Report.admitAll_of_room (ms : List Made) (r : Report) (h : r.queue.length + ms.length ≤ 104) :
    ∃ l : List Record, (r.admitAll ms).queue = r.queue ++ l
      ∧ ∀ m ∈ ms, ∃ x ∈ l, x.testNo = m.testNo ∧ x.time = m.time ∧ x.body = m.body := by
  induction ms generalizing r with
  | nil => exact ⟨[], by simp [Report.admitAll], nofun⟩
  | cons m ms ih =>
    rw [List.length_cons] at h
    have admitted := Report.admitOne_of_room (r := r) (by omega) m
    obtain ⟨l, queue, joined⟩ := ih (r.admitOne m) (by rw [admitted, List.length_append, List.length_singleton]; omega)
    refine ⟨_ :: l, by rw [show r.admitAll (m :: ms) = (r.admitOne m).admitAll ms from rfl, queue, admitted,
      List.append_assoc]; rfl, fun n hn => ?_⟩
    rcases List.mem_cons.1 hn with rfl | hn
    · exact ⟨_, List.mem_cons_self, rfl, rfl, rfl⟩
    · obtain ⟨x, hx, e⟩ := joined n hn
      exact ⟨x, List.mem_cons_of_mem _ hx, e⟩

/-- R131, R145: what is offered moves no condition but REPORT_DISCARD. -/
theorem Report.admitAll_attention (ms : List Made) (r : Report) {a : Nat} (ha : a < 6) (other : a ≠ 4) :
    (r.admitAll ms).attention[a] = r.attention[a] := by
  have one (r : Report) (m : Made) : (r.admitOne m).attention[a] = r.attention[a] := by
    unfold Report.admitOne
    by_cases h : r.queue.length < (if m.body.reserved then 128 else 104)
    · rw [if_pos h]
    · rw [if_neg h]
      simp [Report.raise, Attn.idx, Ne.symm other]
  induction ms generalizing r with
  | nil => rfl
  | cons m ms ih => exact (ih _).trans (one r m)

theorem State.flush_attention (s : State) {a : Nat} (ha : a < 6) (other : a ≠ 4) :
    s.flush.rep.attention[a] = s.rep.attention[a] :=
  Report.admitAll_attention s.rep.made _ ha other

theorem State.flush_queue (s : State) :
    s.flush.rep.queue = (({ s.rep with made := [] } : Report).admitAll s.rep.made).queue := rfl

/-- R131: the first record made is the first that joins. -/
theorem State.flush_first {s : State} {m : Made} {later : List Made} (made : s.rep.made = m :: later)
    (room : s.rep.queue.length < 104) :
    s.flush.rep.queue[s.rep.queue.length]? = some ⟨s.rep.discard, m.testNo, m.time, m.body⟩ := by
  rw [State.flush_queue, made]
  exact Report.admitAll_first (r := { s.rep with made := [] }) room m later

/-! ### The fault set and cleared (R82, R83) -/

/-- R130: the stamp of a record made in a test, and of one made out of it. -/
theorem State.stamp_eq (s : State) :
    s.stamp = (if s.seq.phase = .running ∨ s.seq.phase = .ending then s.seq.testNumber else 0,
      if s.seq.phase = .running ∨ s.seq.phase = .ending then 16 * s.seq.testFrame
      else 16 * s.recv.frameCounter % 4294967296) := by
  rw [State.stamp, State.outTime]
  cases s.seq.phase <;> rfl

theorem State.setFault_rep (s : State) (c : FaultCause) :
    (s.setFault c).rep = { s.rep with
      made := s.rep.made ++ [⟨s.stamp.1, s.stamp.2, .readback false c s.sup.lastRef (s.sup.faultRun c), false⟩]
      attention := s.rep.attention.set 2 true } := by
  simp [State.setFault, State.make, State.raise, Report.raise, Attn.idx, upd]

theorem State.clearFault_rep (s : State) (c : FaultCause) :
    (s.clearFault c).rep = { s.rep with
      made := s.rep.made ++ [⟨s.stamp.1, s.stamp.2, .readback true c s.sup.lastRef s.sup.recRun, false⟩] } := rfl

/-! ### A valid readback counted (R81) -/

/-- R81: the runs and the last reference word after a valid readback. -/
theorem Supervisor.count_some (p : Supervisor) (ref : Nat) :
    let inBand := 16384 ≤ ref + p.refTol ∧ ref ≤ 16384 + p.refTol
    p.count (some ref) = { p with
      refRun := if inBand then 0 else min 15 (p.refRun + 1)
      linkRun := 0
      recRun := if inBand ∧ p.fault ≠ none then min 15 (p.recRun + 1) else 0
      lastRef := ref } := by
  intro inBand
  have band : p.inBand ref = true ↔ inBand := by simp [Supervisor.inBand, inBand]
  dsimp only [Supervisor.count]
  by_cases h : inBand
  · rw [if_pos (band.2 h)]
    cases p.fault <;> simp [h, satInc]
  · simp [mt band.1 h, h, satInc]

@[simp] theorem Supervisor.count_settles (p : Supervisor) (outcome : Option Nat) :
    (p.count outcome).fault = p.fault ∧ (p.count outcome).confirm = p.confirm := by
  unfold Supervisor.count
  (repeat' split) <;> exact ⟨rfl, rfl⟩

/-- The counting leaves the queue as it is: what it makes joins later. -/
theorem State.countOutcome_rep (s : State) (outcome : Option Nat) :
    (s.countOutcome outcome).rep.queue = s.rep.queue ∧ (s.countOutcome outcome).rep.discard = s.rep.discard := by
  unfold State.countOutcome
  extract_lets t
  (repeat' split) <;> simp [State.setFault_rep, State.clearFault_rep, t]

/-- R81, R82: the counting moves the runs, as R81 advances them, and the fault. -/
theorem State.countOutcome_sup {s : State} (active : s.sup.latency ≠ 0) (outcome : Option Nat) :
    (s.countOutcome outcome).sup = { s.sup.count outcome with fault := (s.countOutcome outcome).sup.fault } := by
  have awake : ¬ s.sup.dormant = true := by simp [Supervisor.dormant, active]
  unfold State.countOutcome
  rw [if_neg awake]
  dsimp only
  repeat' split
  · rw [State.setFault_sup]
    rfl
  all_goals rfl

section
variable {s : State} {ref : Nat} (active : s.sup.latency ≠ 0)
include active

/-- R82: the fault is set. -/
theorem State.countOutcome_sets (clear : s.sup.fault = none)
    (full : s.sup.confirm ≤ (s.sup.count (some ref)).refRun) :
    s.countOutcome (some ref) = (s.withSup (s.sup.count (some ref))).setFault .reference := by
  have awake : s.sup.dormant = false := by simp [Supervisor.dormant, active]
  simp [State.countOutcome, awake, clear, Supervisor.faultCause, full]

/-- R82: no fault is set, and none stands. -/
theorem State.countOutcome_stays_clear (clear : s.sup.fault = none)
    (below : (s.sup.count (some ref)).refRun < s.sup.confirm) :
    s.countOutcome (some ref) = s.withSup (s.sup.count (some ref)) := by
  have awake : s.sup.dormant = false := by simp [Supervisor.dormant, active]
  simp [State.countOutcome, awake, clear, Supervisor.faultCause, Nat.not_le.2 below]

/-- R82: the fault clears. -/
theorem State.countOutcome_clears {c : FaultCause} (set : s.sup.fault = some c)
    (full : s.sup.confirm ≤ (s.sup.count (some ref)).recRun) :
    s.countOutcome (some ref) = (s.withSup (s.sup.count (some ref))).clearFault c := by
  have awake : s.sup.dormant = false := by simp [Supervisor.dormant, active]
  simp [State.countOutcome, awake, set, full]

/-- R82: the fault stays set. -/
theorem State.countOutcome_stays_set {c : FaultCause} (set : s.sup.fault = some c)
    (below : (s.sup.count (some ref)).recRun < s.sup.confirm) :
    s.countOutcome (some ref) = s.withSup (s.sup.count (some ref)) := by
  have awake : s.sup.dormant = false := by simp [Supervisor.dormant, active]
  simp [State.countOutcome, awake, set, below]

/-- R81: the runs after a valid readback. -/
theorem State.countOutcome_valid_sup :
    let inBand := 16384 ≤ ref + s.sup.refTol ∧ ref ≤ 16384 + s.sup.refTol
    (s.countOutcome (some ref)).sup = { s.sup with
      fault := (s.countOutcome (some ref)).sup.fault
      refRun := if inBand then 0 else min 15 (s.sup.refRun + 1)
      linkRun := 0
      recRun := if inBand ∧ s.sup.fault ≠ none then min 15 (s.sup.recRun + 1) else 0
      lastRef := ref } := by
  intro inBand
  have counted := State.countOutcome_sup active (some ref)
  rwa [Supervisor.count_some] at counted

/-- R82, R83: a reference word out of band. -/
theorem State.countOutcome_outOfBand (out : ¬ (16384 ≤ ref + s.sup.refTol ∧ ref ≤ 16384 + s.sup.refTol))
    (confirm : 1 ≤ s.sup.confirm) :
    (s.sup.fault = none → s.sup.confirm ≤ min 15 (s.sup.refRun + 1) →
        (s.countOutcome (some ref)).sup.fault = some .reference ∧ (s.countOutcome (some ref)).rep.attention[2] = true
        ∧ (s.countOutcome (some ref)).rep.made = s.rep.made ++ [⟨s.stamp.1, s.stamp.2,
            .readback false .reference ref (min 15 (s.sup.refRun + 1)), false⟩])
      ∧ (s.sup.fault = none → min 15 (s.sup.refRun + 1) < s.sup.confirm → (s.countOutcome (some ref)).sup.fault = none)
      ∧ (s.sup.fault ≠ none → (s.countOutcome (some ref)).sup.fault = s.sup.fault) := by
  have refRun : (s.sup.count (some ref)).refRun = min 15 (s.sup.refRun + 1) := by
    rw [Supervisor.count_some, if_neg out]
  have recRun : (s.sup.count (some ref)).recRun = 0 := by
    rw [Supervisor.count_some]
    exact if_neg fun h => out h.1
  refine ⟨fun clear full => ?_, fun clear below => ?_, fun set => ?_⟩
  · rw [State.countOutcome_sets active clear (refRun ▸ full), State.setFault_rep, State.setFault_sup]
    refine ⟨rfl, by simp, ?_⟩
    have lastRef : (s.sup.count (some ref)).lastRef = ref := by rw [Supervisor.count_some]
    rw [State.withSup_sup, lastRef, Supervisor.faultRun, refRun]
    rfl
  · rw [State.countOutcome_stays_clear active clear (refRun ▸ below)]
    simpa using clear
  · obtain ⟨c, set⟩ := Option.ne_none_iff_exists'.1 set
    rw [State.countOutcome_stays_set active set (by rw [recRun]; omega)]
    simp

/-- R82, R83: a reference word in band. -/
theorem State.countOutcome_inBand (band : 16384 ≤ ref + s.sup.refTol ∧ ref ≤ 16384 + s.sup.refTol)
    (confirm : 1 ≤ s.sup.confirm) :
    (s.sup.fault = none → (s.countOutcome (some ref)).sup.fault = none)
      ∧ (∀ c : FaultCause, s.sup.fault = some c → s.sup.confirm ≤ min 15 (s.sup.recRun + 1) →
          (s.countOutcome (some ref)).sup.fault = none
          ∧ (s.countOutcome (some ref)).rep.made = s.rep.made ++ [⟨s.stamp.1, s.stamp.2,
              .readback true c ref (min 15 (s.sup.recRun + 1)), false⟩])
      ∧ (s.sup.fault ≠ none → min 15 (s.sup.recRun + 1) < s.sup.confirm →
          (s.countOutcome (some ref)).sup.fault = s.sup.fault) := by
  have refRun : (s.sup.count (some ref)).refRun = 0 := by rw [Supervisor.count_some, if_pos band]
  have recRun {c : FaultCause} (set : s.sup.fault = some c) :
      (s.sup.count (some ref)).recRun = min 15 (s.sup.recRun + 1) := by
    rw [Supervisor.count_some]
    exact if_pos ⟨band, by simp [set]⟩
  refine ⟨fun clear => ?_, fun c set full => ?_, fun set below => ?_⟩
  · rw [State.countOutcome_stays_clear active clear (by rw [refRun]; omega)]
    simpa using clear
  · have lastRef : (s.sup.count (some ref)).lastRef = ref := by rw [Supervisor.count_some]
    rw [State.countOutcome_clears active set (recRun set ▸ full), State.clearFault_rep, State.clearFault_sup,
      State.withSup_sup, lastRef, recRun set]
    exact ⟨rfl, rfl⟩
  · obtain ⟨c, set⟩ := Option.ne_none_iff_exists'.1 set
    rw [State.countOutcome_stays_set active set (recRun set ▸ below)]
    simp

end

end Sys2Proof.Machine
end

