-- ==== Sys2Proof/Proofs/ReadbackComparison.lean ====
section
/-! SUPPORT. What the comparison of a valid readback makes of channels, request list and records, all channels together (R76,
R77, R80, R84). -/

namespace Sys2Proof.Machine

/-! ### One channel -/

/-- What a comparison touches: channels and request list, records and attention. -/
def State.withCompared (s : State) (chan : Vector ChanSup 14) (requests : List (Fin 12)) (made : List Made)
    (attention : Vector Bool 6) : State :=
  { s with
    sup := { s.sup with chan := chan, requests := requests }
    rep := { s.rep with made := made, attention := attention } }

/-- R84: a channel joins at the end of the list, unless it is in it or being served. -/
theorem Supervisor.join_eq (p : Supervisor) (c : Fin 12) :
    p.join c = { p with requests := p.requests ++ if c ∈ p.requests ∨ p.serving = some c then [] else [c] } := by
  have served : (match p.engine with
      | .quiet => false
      | .awaitZero x | .switching x => x.logical == c) = true ↔ p.serving = some c := by
    unfold Supervisor.serving
    cases p.engine <;> simp
  unfold Supervisor.join
  extract_lets s
  have hs : s = true ↔ p.serving = some c := served
  by_cases h : c ∈ p.requests ∨ p.serving = some c
  · rw [if_pos h, if_pos (by simpa [hs] using h), List.append_nil]
  · rw [if_neg h, if_neg (by simpa [hs] using h)]

section
variable (s : State) (rb : Readback) (p : Fin 14) (co : Int)

/-- R77: measured and commanded sample differ by more than the tolerance. -/
def State.mismatches : Bool :=
  decide ((s.sup.chan[p].tolerance : Int) < rb.measured[p] - co)
    || decide ((s.sup.chan[p].tolerance : Int) < co - rb.measured[p])

/-- R77: the bucket with the evidence of the readback. -/
def State.bucketWith : Nat :=
  min 255 (s.sup.chan[p].bucket + weight (s.mismatches rb p co) rb.overload[p] rb.thermal[p])

/-- R77: a MAPPED channel fails at its threshold. -/
def State.failsAt : Bool :=
  s.sup.chan[p].state == .mapped && decide (s.sup.chan[p].threshold ≤ s.bucketWith rb p co)

/-- R77, R78: the channel once it has been compared. -/
def State.chanWith : ChanSup :=
  { s.sup.chan[p] with
    bucket := s.bucketWith rb p co
    countdown := s.sup.chan[p].countdown - 1
    state := if s.failsAt rb p co then .failed else s.sup.chan[p].state }

/-- R80: the record of the failure. -/
def State.failureOf : Made :=
  ⟨s.seq.testNumber, 16 * s.seq.testFrame,
    .channelFailed p (s.out.logicalOf p) (s.mismatches rb p co) rb.overload[p] rb.thermal[p] (s.bucketWith rb p co)
      rb.measured[p] co s.disposition, false⟩

/-- R84: the logical channel whose request joins the list. -/
def State.joinOf : Option (Fin 12) :=
  if s.disposition = .joined then
    (s.out.logicalOf p).filter fun c => decide (c ∉ s.sup.requests ∧ s.sup.serving ≠ some c)
  else none

/-- R77. -/
theorem State.compare_eq :
    s.compare p rb.measured[p] co rb.overload[p] rb.thermal[p] =
      s.withCompared (s.sup.chan.set p (s.chanWith rb p co))
        (s.sup.requests ++ if s.failsAt rb p co then (s.joinOf p).toList else [])
        (s.rep.made ++ if s.failsAt rb p co then [s.failureOf rb p co] else [])
        (if s.failsAt rb p co then s.rep.attention.set 1 true else s.rep.attention) := by
  have unfolded : s.compare p rb.measured[p] co rb.overload[p] rb.thermal[p] =
      if s.failsAt rb p co then
        (s.setChan p (s.chanWith rb p co)).failChannel p (s.mismatches rb p co) rb.overload[p] rb.thermal[p]
          (s.bucketWith rb p co) rb.measured[p] co
      else s.setChan p (s.chanWith rb p co) := rfl
  rw [unfolded]
  split
  · unfold State.failChannel
    extract_lets u
    split
    · next c joined target =>
      have hj : (s.joinOf p).toList = if c ∈ s.sup.requests ∨ s.sup.serving = some c then [] else [c] := by
        have joined' : s.disposition = .joined := joined
        have target' : s.out.logicalOf p = some c := target
        rw [State.joinOf, if_pos joined', target']
        by_cases hc : c ∈ s.sup.requests ∨ s.sup.serving = some c
        · rw [if_pos hc, Option.filter_some_neg (by simpa [or_iff_not_imp_left] using hc)]
          rfl
        · rw [if_neg hc, Option.filter_some_pos (by simpa using hc)]
          rfl
      rw [Supervisor.join_eq, hj]
      rfl
    · next _ _ stands =>
      have hj : s.joinOf p = none := by
        rw [State.joinOf]
        split
        · next joined =>
          cases target : s.out.logicalOf p with
          | none => rfl
          | some c => exact (stands c joined target).elim
        · rfl
      rw [hj, Option.toList_none, List.append_nil]
      rfl
  · rw [List.append_nil, List.append_nil]
    rfl

end

/-! ### All channels -/

section
variable (s : State) (rb : Readback) (co : Fin 14 → Int)

/-- R76, R77: channel `p` is compared and fails. -/
def State.failsIn (p : Fin 14) : Bool := s.compared p && s.failsAt rb p (co p)

/-- R77: channel `p` after the comparison. -/
def State.chanAfter (p : Fin 14) : ChanSup := if s.compared p then s.chanWith rb p (co p) else s.sup.chan[p]

/-- R84: what joins the request list for channel `p`. -/
def State.joinIn (p : Fin 14) : Option (Fin 12) := if s.failsIn rb co p then s.joinOf p else none

/-- R80: the record for channel `p`. -/
def State.failureIn (p : Fin 14) : Option Made := if s.failsIn rb co p then some (s.failureOf rb p (co p)) else none

/-- R76, R84: the channels of `l` have been compared, each as it stood in `s`. -/
def State.comparedOver (l : List (Fin 14)) : State :=
  s.withCompared (tab fun p => if p ∈ l then s.chanAfter rb co p else s.sup.chan[p])
    (s.sup.requests ++ l.filterMap (s.joinIn rb co)) (s.rep.made ++ l.filterMap (s.failureIn rb co))
    (if l.any (s.failsIn rb co) then s.rep.attention.set 1 true else s.rep.attention)

theorem OutputStage.map_of_logicalOf {o : OutputStage} {p : Fin 14} {c : Fin 12} (h : o.logicalOf p = some c) :
    o.map[c] = some p := by
  simpa using (find_allFin_eq_some.1 h).1

variable {s rb co}

theorem State.comparedOver_nil : s.comparedOver rb co [] = s := by
  have chan : (tab fun p => s.sup.chan[p]) = s.sup.chan := by
    ext p hp
    simp
  simp only [State.comparedOver, List.not_mem_nil, if_false, chan, List.filterMap_nil, List.append_nil, List.any_nil]
  rfl

/-- A logical channel joins for the one physical channel that its map entry names. -/
theorem State.joinIn_eq_some {p : Fin 14} {c : Fin 12} (h : s.joinIn rb co p = some c) : s.out.map[c] = some p := by
  unfold State.joinIn State.joinOf at h
  split_ifs at h
  exact OutputStage.map_of_logicalOf (Option.filter_eq_some_iff.1 h).1

/-- R84: each channel joins for itself: what has joined for others is not what joins for `p`. -/
theorem State.joinOf_comparedOver {l : List (Fin 14)} {p : Fin 14} (hp : p ∉ l) :
    (s.comparedOver rb co l).joinOf p = s.joinOf p := by
  have fresh {c : Fin 12} (hc : s.out.logicalOf p = some c) : c ∉ l.filterMap (s.joinIn rb co) := by
    rw [List.mem_filterMap]
    rintro ⟨q, hq, joined⟩
    have named := (OutputStage.map_of_logicalOf hc).symm.trans (State.joinIn_eq_some joined)
    exact hp (Option.some.inj named ▸ hq)
  have disposition : (s.comparedOver rb co l).disposition = s.disposition := rfl
  have logical : (s.comparedOver rb co l).out.logicalOf p = s.out.logicalOf p := rfl
  have serving : (s.comparedOver rb co l).sup.serving = s.sup.serving := rfl
  have requests : (s.comparedOver rb co l).sup.requests = s.sup.requests ++ l.filterMap (s.joinIn rb co) := rfl
  rw [State.joinOf, State.joinOf, disposition, logical, serving, requests]
  cases hc : s.out.logicalOf p with
  | none => rfl
  | some c => simp [Option.filter, fresh hc]

/-- R76: the channels of `l` come before `p`, and leave it as it stood. -/
theorem State.compareOne_comparedOver {l : List (Fin 14)} {p : Fin 14} (hp : p ∉ l) (hco : rb.commanded[p] = some (co p)) :
    State.compareOne rb (s.comparedOver rb co l) p = s.comparedOver rb co (l ++ [p]) := by
  set u := s.comparedOver rb co l with hu
  have chan : u.sup.chan[p] = s.sup.chan[p] := by simp [hu, State.comparedOver, State.withCompared, hp]
  have same : u.compared p = s.compared p := by
    rw [State.compared, State.compared, chan]
    rfl
  have fails : u.failsAt rb p (co p) = s.failsAt rb p (co p) := by
    simp only [State.failsAt, State.bucketWith, State.mismatches, chan]
    rfl
  have chanWith : u.chanWith rb p (co p) = s.chanWith rb p (co p) := by
    simp only [State.chanWith, fails, State.bucketWith, State.mismatches, chan]
  have failure : u.failureOf rb p (co p) = s.failureOf rb p (co p) := by
    simp only [State.failureOf, State.bucketWith, State.mismatches, chan]
    rfl
  unfold State.compareOne
  rw [same, hco]
  cases compared : s.compared p with
  | false =>
    have still : s.failsIn rb co p = false := by simp [State.failsIn, compared]
    simp only [hu, State.comparedOver]
    congr 1
    · have after : s.chanAfter rb co p = s.sup.chan[p] := by simp [State.chanAfter, compared]
      ext1 q hq
      simp only [tab_getElem, List.mem_append, List.mem_singleton]
      by_cases e : (⟨q, hq⟩ : Fin 14) = p
      · simp only [e, hp, after, or_true, if_true, if_false]
      · simp only [e, or_false]
    · simp [State.joinIn, still]
    · simp [State.failureIn, still]
    · simp [still]
  | true =>
    have failsIn : s.failsIn rb co p = s.failsAt rb p (co p) := by simp [State.failsIn, compared]
    have joined : u.joinOf p = s.joinOf p := State.joinOf_comparedOver hp
    dsimp only
    rw [State.compare_eq, fails, chanWith, failure, joined]
    have after : s.chanAfter rb co p = s.chanWith rb p (co p) := by simp [State.chanAfter, compared]
    simp only [hu, State.comparedOver]
    change s.withCompared _ _ _ _ = _
    congr 1
    · ext1 q hq
      simp only [State.withCompared, Vector.getElem_set, tab_getElem, List.mem_append, List.mem_singleton]
      by_cases e : p.val = q
      · obtain rfl : p = ⟨q, hq⟩ := Fin.ext e
        simp only [or_true, if_true, after]
      · have other : ¬ (⟨q, hq⟩ : Fin 14) = p := fun h => e (congrArg Fin.val h).symm
        simp only [e, other, if_false, or_false]
    · have alone : [p].filterMap (s.joinIn rb co) = if s.failsAt rb p (co p) then (s.joinOf p).toList else [] := by
        rw [List.filterMap_cons, State.joinIn, failsIn]
        split_ifs <;> cases s.joinOf p <;> rfl
      rw [List.filterMap_append, alone, ← List.append_assoc]
      rfl
    · have alone : [p].filterMap (s.failureIn rb co) = if s.failsAt rb p (co p) then [s.failureOf rb p (co p)] else [] := by
        rw [List.filterMap_cons, State.failureIn, failsIn]
        split_ifs <;> rfl
      rw [List.filterMap_append, alone, ← List.append_assoc]
      rfl
    · cases hf : s.failsAt rb p (co p) <;> cases ha : l.any (s.failsIn rb co) <;> simp [State.withCompared, failsIn, hf, ha]

/-- R76: a valid readback with a paired drive frame compares all channels. -/
theorem State.takeReadback_found (hco : ∀ p : Fin 14, rb.commanded[p] = some (co p))
    (comparing : (s.countOutcome (some rb.reference)).comparing = true) :
    s.takeReadback rb = (s.countOutcome (some rb.reference)).comparedOver rb co (List.finRange 14) := by
  have folded (c : State) (l before : List (Fin 14)) (nodup : (before ++ l).Nodup) :
      l.foldl (State.compareOne rb) (c.comparedOver rb co before) = c.comparedOver rb co (before ++ l) := by
    induction l generalizing before with
    | nil => simp
    | cons p ps ih =>
      have fresh : p ∉ before := fun hp => List.disjoint_of_nodup_append nodup hp List.mem_cons_self
      rw [List.foldl_cons, State.compareOne_comparedOver fresh (hco p), ih (before ++ [p]) (by simpa using nodup)]
      simp
  have all := folded (s.countOutcome (some rb.reference)) (List.finRange 14) [] (by simpa using List.nodup_finRange 14)
  rw [State.comparedOver_nil, List.nil_append] at all
  rw [State.takeReadback, if_pos comparing, allFin_eq_finRange, all]

/-- R76: without a paired drive frame no channel is compared. -/
theorem State.takeReadback_unfound (none : ∀ p : Fin 14, rb.commanded[p] = none) :
    s.takeReadback rb = s.countOutcome (some rb.reference) := by
  have idle (u : State) (p : Fin 14) : State.compareOne rb u p = u := by
    unfold State.compareOne
    rw [none p]
    cases u.compared p <;> rfl
  rw [State.takeReadback]
  split
  · exact List.foldlRecOn (motive := (· = s.countOutcome (some rb.reference))) _ _ rfl fun u hu p _ => (idle u p).trans hu
  · rfl

theorem State.takeReadback_of_not_comparing (h : (s.countOutcome (some rb.reference)).comparing = false) :
    s.takeReadback rb = s.countOutcome (some rb.reference) := by
  rw [State.takeReadback, h]
  rfl

/-! ### The readback frame (R69, R71) -/

/-- R71: the commanded samples are those of the drive frame found for the echo, or there are none. -/
theorem State.readbackOf_commanded (s : State) (q : Nat) (bs : List Byte) (p : Fin 14) :
    (s.readbackOf q bs).commanded[p] =
      (s.out.history.find? fun e => e.1 == (q + 65536 - s.sup.latency) % 65536).map fun e => e.2[p] := by
  simp [State.readbackOf, OutputStage.commanded]

/-- R78: leaks move channels alone. -/
theorem State.leaks_sup (s : State) : s.leaks.sup = { s.sup with chan := s.leaks.sup.chan } := by
  have one (u : State) (p : Fin 14) : (u.leakIfDue p).sup = { u.sup with chan := (u.leakIfDue p).sup.chan } := by
    unfold State.leakIfDue
    split <;> rfl
  have all (l : List (Fin 14)) (u : State) :
      (l.foldl State.leakIfDue u).sup = { u.sup with chan := (l.foldl State.leakIfDue u).sup.chan } := by
    induction l generalizing u with
    | nil => rfl
    | cons p ps ih =>
      have later := ih (u.leakIfDue p)
      rw [one u p] at later
      exact later
  unfold State.leaks
  exact all (allFin 14) s

/-- R69: a valid readback has come in: leaks that were due have come about, and the judgment is settled. -/
def State.judgedValid (s : State) : State :=
  s.leaks.withOut { s.out with valid := min 4294967295 (s.out.valid + 1), judgment := .settled }

/-- R71: what reaches the supervisor of a readback frame. -/
def State.readbackIn (s : State) (f : Vector Byte 40) : Readback := s.leaks.readbackOf (readbackEcho f) f.toList

theorem State.readbackIn_reference (s : State) (f : Vector Byte 40) : (s.readbackIn f).reference = readbackReference f :=
  at2_toList f 36 (by omega)

theorem State.exec_valid {s : State} {f : Vector Byte 40} (closed : s.frame.stage = .closed) (good : GoodReadback f)
    (echo : s.out.lastSeq = some (readbackEcho f)) (unsettled : s.out.judgment ≠ .settled) :
    exec (.readbackFrameReceived f) s =
      .next (((s.judgedValid.takeReadback (s.readbackIn f)).latchRisen s).flush) := by
  obtain ⟨first, second, valid⟩ := (goodReadback_iff f).1 good
  have out : s.leaks.out = s.out := by simp
  have word : at2 f.toList 2 = readbackEcho f := at2_toList f 2 (by omega)
  have judged := State.judgeReadback_of_valid (s := s.leaks) valid (by rw [out, word, echo]) (by rwa [out])
  rw [out, word] at judged
  rw [(exec_readbackFrameReceived closed).1 ⟨first, second⟩, State.readback, judged]
  rfl

end

end Sys2Proof.Machine
end

