-- ==== Sys2Proof/Proofs/ReadbackFaults.lean ====
section
/-! SUPPORT. Runs and readback fault after a valid readback, and after the drive frame that closes a judgment (R70, R81 to
R83). -/

namespace Sys2Proof.Machine

/-! ### A valid readback -/

@[simp] theorem State.judgedValid_frame (s : State) :
    s.judgedValid.sup = s.leaks.sup ∧ s.judgedValid.rep = s.rep ∧ s.judgedValid.seq = s.seq
    ∧ s.judgedValid.recv = s.recv ∧ s.judgedValid.out.map = s.out.map := by
  simp [State.judgedValid]

/-- R71: the supervisor has counted the readback. -/
def State.countedValid (s : State) (f : Vector Byte 40) : State :=
  s.judgedValid.countOutcome (some (readbackReference f))

theorem State.countedValid_rep (s : State) (f : Vector Byte 40) :
    (s.countedValid f).rep.queue = s.rep.queue ∧ (s.countedValid f).rep.discard = s.rep.discard := by
  rw [State.countedValid, ← s.judgedValid_frame.2.1]
  exact s.judgedValid.countOutcome_rep _

/-- R77, R80, R84: from `c` to `w` only channels, request list, records made and CHANNEL_FAILED's attention move, and records
join the end of those made. -/
def State.Touches (c w : State) : Prop :=
  ∃ (chan : Vector ChanSup 14) (requests : List (Fin 12)) (later : List Made) (attention : Vector Bool 6),
    w = c.withCompared chan requests (c.rep.made ++ later) attention ∧ attention[2] = c.rep.attention[2]

theorem State.Touches.refl (c : State) : c.Touches c :=
  ⟨c.sup.chan, c.sup.requests, [], c.rep.attention, by rw [List.append_nil]; rfl, rfl⟩

theorem State.takeReadback_touches (s : State) (f : Vector Byte 40) :
    (s.countedValid f).Touches (s.judgedValid.takeReadback (s.readbackIn f)) := by
  have counted : s.judgedValid.countOutcome (some (s.readbackIn f).reference) = s.countedValid f := by
    rw [State.readbackIn_reference]
    rfl
  cases comparing : (s.countedValid f).comparing with
  | false =>
    have idle := (congrArg State.comparing counted).trans comparing
    rw [State.takeReadback_of_not_comparing idle, counted]
    exact .refl _
  | true =>
    cases found : s.leaks.out.history.find? fun e => e.1 == (readbackEcho f + 65536 - s.leaks.sup.latency) % 65536 with
    | none =>
      have unfound (p : Fin 14) : (s.readbackIn f).commanded[p] = none := by
        rw [State.readbackIn, State.readbackOf_commanded, found]
        rfl
      rw [State.takeReadback_unfound unfound, counted]
      exact .refl _
    | some e =>
      have paired (p : Fin 14) : (s.readbackIn f).commanded[p] = some e.2[p] := by
        rw [State.readbackIn, State.readbackOf_commanded, found]
        rfl
      have compares := (congrArg State.comparing counted).trans comparing
      have compared := State.takeReadback_found (s := s.judgedValid) (co := fun p => e.2[p]) paired compares
      rw [compared, counted]
      refine ⟨_, _, _, _, rfl, ?_⟩
      split <;> simp

/-- What the records joining the queue leave: the supervisor as counted, but for channels and request list. -/
theorem State.takeReadback_flush_sup (s : State) (f : Vector Byte 40) :
    let t := ((s.judgedValid.takeReadback (s.readbackIn f)).latchRisen s).flush
    t.sup = { (s.countedValid f).sup with chan := t.sup.chan, requests := t.sup.requests } := by
  obtain ⟨chan, requests, later, attention, taken, -⟩ := s.takeReadback_touches f
  rw [taken]
  simp [State.withCompared]

/-- The state that a valid readback leaves, as far as the counting decides it. -/
theorem State.exec_valid_counted {s : State} {f : Vector Byte 40} (closed : s.frame.stage = .closed) (good : GoodReadback f)
    (echo : s.out.lastSeq = some (readbackEcho f)) (unsettled : s.out.judgment ≠ .settled) :
    ∃ t : State, exec (.readbackFrameReceived f) s = .next t
      ∧ t.sup = { (s.countedValid f).sup with chan := t.sup.chan, requests := t.sup.requests }
      ∧ t.rep.attention[2] = (s.countedValid f).rep.attention[2]
      ∧ ∀ m : Made, (s.countedValid f).rep.made = s.rep.made ++ [m] → s.rep.made = [] → s.rep.queue.length < 104 →
          t.rep.queue[s.rep.queue.length]? = some ⟨s.rep.discard, m.testNo, m.time, m.body⟩ := by
  obtain ⟨chan, requests, later, attention, taken, attn⟩ := s.takeReadback_touches f
  refine ⟨_, State.exec_valid closed good echo unsettled, s.takeReadback_flush_sup f, ?_, fun m made none room => ?_⟩
  · rw [State.flush_attention _ (by omega) (by omega)]
    simpa [taken, State.withCompared] using attn
  · obtain ⟨queue, discard⟩ := s.countedValid_rep f
    have rep : ((s.judgedValid.takeReadback (s.readbackIn f)).latchRisen s).rep =
        { (s.countedValid f).rep with made := (s.countedValid f).rep.made ++ later, attention := attention } := by
      rw [taken]
      rfl
    have first := State.flush_first (s := (s.judgedValid.takeReadback (s.readbackIn f)).latchRisen s) (m := m)
      (later := later) (by rw [rep, made, none]; rfl) (by rw [rep]; rwa [queue])
    rw [rep] at first
    dsimp only at first
    rwa [queue, discard] at first

/-- R78: leaks leave runs and fault, and the settings that the counting reads. -/
@[simp] theorem State.leaks_counters (s : State) :
    s.leaks.sup.latency = s.sup.latency ∧ s.leaks.sup.refTol = s.sup.refTol ∧ s.leaks.sup.confirm = s.sup.confirm
    ∧ s.leaks.sup.fault = s.sup.fault ∧ s.leaks.sup.refRun = s.sup.refRun ∧ s.leaks.sup.linkRun = s.sup.linkRun
    ∧ s.leaks.sup.recRun = s.sup.recRun := by
  rw [s.leaks_sup]
  exact ⟨rfl, rfl, rfl, rfl, rfl, rfl, rfl⟩

@[simp] theorem State.judgedValid_stamp (s : State) : s.judgedValid.stamp = s.stamp := by
  simp [State.stamp_eq]

/-- R81, R83: the link run reaches 16. -/
theorem State.countOutcome_link {s : State} (active : s.sup.latency ≠ 0) (clear : s.sup.fault = none)
    (full : 16 ≤ s.sup.linkRun + 1) :
    (s.countOutcome none).rep.made = s.rep.made ++ [⟨s.stamp.1, s.stamp.2, .readback false .link s.sup.lastRef 16, false⟩] := by
  have awake : s.sup.dormant = false := by simp [Supervisor.dormant, active]
  have count : s.sup.count none = { s.sup with linkRun := 16, recRun := 0 } := by
    simp [Supervisor.count, satInc, full]
  have sets : s.countOutcome none = (s.withSup (s.sup.count none)).setFault .link := by
    simp [State.countOutcome, awake, clear, Supervisor.faultCause, count]
  rw [sets, State.setFault_rep, count]
  rfl

section
variable {s : State} {f : Vector Byte 40} (active : s.sup.latency ≠ 0)
include active

/-- R81: the runs after a valid readback; leaks that were due have come about first. -/
theorem State.countedValid_sup :
    let ref := readbackReference f
    let inBand := 16384 ≤ ref + s.sup.refTol ∧ ref ≤ 16384 + s.sup.refTol
    (s.countedValid f).sup = { s.sup with
      chan := s.leaks.sup.chan
      fault := (s.countedValid f).sup.fault
      refRun := if inBand then 0 else min 15 (s.sup.refRun + 1)
      linkRun := 0
      recRun := if inBand ∧ s.sup.fault ≠ none then min 15 (s.sup.recRun + 1) else 0
      lastRef := ref } := by
  have counted := State.countOutcome_valid_sup (s := s.judgedValid) (ref := readbackReference f) (by simpa using active)
  unfold State.countedValid
  rw [s.judgedValid_frame.1, s.leaks_sup] at counted
  dsimp only at counted ⊢
  exact counted

/-- R82, R83: a reference word out of band. -/
theorem State.countedValid_outOfBand (confirm : 1 ≤ s.sup.confirm)
    (out : ¬ (16384 ≤ readbackReference f + s.sup.refTol ∧ readbackReference f ≤ 16384 + s.sup.refTol)) :
    (s.sup.fault = none → s.sup.confirm ≤ min 15 (s.sup.refRun + 1) →
        (s.countedValid f).sup.fault = some .reference ∧ (s.countedValid f).rep.attention[2] = true
        ∧ (s.countedValid f).rep.made = s.rep.made ++ [⟨s.stamp.1, s.stamp.2,
            .readback false .reference (readbackReference f) (min 15 (s.sup.refRun + 1)), false⟩])
      ∧ (s.sup.fault = none → min 15 (s.sup.refRun + 1) < s.sup.confirm → (s.countedValid f).sup.fault = none)
      ∧ (s.sup.fault ≠ none → (s.countedValid f).sup.fault = s.sup.fault) := by
  have counted := State.countOutcome_outOfBand (s := s.judgedValid) (ref := readbackReference f)
    (by simpa using active) (by simpa using out) (by simpa using confirm)
  unfold State.countedValid
  simpa only [State.judgedValid_frame, State.leaks_counters, State.judgedValid_stamp] using counted

/-- R82, R83: a reference word in band. -/
theorem State.countedValid_inBand (confirm : 1 ≤ s.sup.confirm)
    (band : 16384 ≤ readbackReference f + s.sup.refTol ∧ readbackReference f ≤ 16384 + s.sup.refTol) :
    (s.sup.fault = none → (s.countedValid f).sup.fault = none)
      ∧ (∀ c : FaultCause, s.sup.fault = some c → s.sup.confirm ≤ min 15 (s.sup.recRun + 1) →
          (s.countedValid f).sup.fault = none
          ∧ (s.countedValid f).rep.made = s.rep.made ++ [⟨s.stamp.1, s.stamp.2,
              .readback true c (readbackReference f) (min 15 (s.sup.recRun + 1)), false⟩])
      ∧ (s.sup.fault ≠ none → min 15 (s.sup.recRun + 1) < s.sup.confirm →
          (s.countedValid f).sup.fault = s.sup.fault) := by
  have counted := State.countOutcome_inBand (s := s.judgedValid) (ref := readbackReference f)
    (by simpa using active) (by simpa using band) (by simpa using confirm)
  unfold State.countedValid
  simpa only [State.judgedValid_frame, State.leaks_counters, State.judgedValid_stamp] using counted

end

end Sys2Proof.Machine
end

