-- ==== Sys2Proof/Proofs/SupervisorRuns.lean ====
section
/-! SUPPORT. What leaves the supervisor's runs and readback fault alone: everything of a frame without a message but its drive
frame (R70, R81). -/

namespace Sys2Proof.Machine

/-- R72, R81, R82: runs and fault, with the settings that dormancy and counting read. -/
def Supervisor.runs (p : Supervisor) : Nat × Nat × Nat × Nat × Nat × Option FaultCause :=
  (p.latency, p.confirm, p.refRun, p.linkRun, p.recRun, p.fault)

theorem Supervisor.runs_eq_iff {p q : Supervisor} :
    p.runs = q.runs ↔ p.latency = q.latency ∧ p.confirm = q.confirm ∧ p.refRun = q.refRun ∧ p.linkRun = q.linkRun
      ∧ p.recRun = q.recRun ∧ p.fault = q.fault := by
  simp [Supervisor.runs]

@[simp] theorem State.leak_runs (s : State) (p : Fin 14) : (s.leak p).sup.runs = s.sup.runs := rfl

@[simp] theorem State.leaks_runs (s : State) : s.leaks.sup.runs = s.sup.runs := by
  simp [Supervisor.runs]

@[simp] theorem State.slotStep_runs (s : State) : s.slotStep.sup.runs = s.sup.runs := by
  unfold State.slotStep State.dueStep State.performOne
  (repeat' split) <;> simp

@[simp] theorem State.finishSlot_runs (s : State) : s.finishSlot.sup.runs = s.sup.runs := by
  have run (fuel : Nat) (u : State) : (State.runSlot fuel u).sup.runs = u.sup.runs := by
    induction fuel generalizing u with
    | zero => rfl
    | succ n ih =>
      unfold State.runSlot
      split
      · rfl
      · rw [ih, u.slotStep_runs]
  simp [State.finishSlot, run]

@[simp] theorem State.setEngine_runs (s : State) (e : FailoverEngine) : (s.setEngine e).sup.runs = s.sup.runs := rfl

@[simp] theorem State.moveMap_runs (s : State) (x : FailoverCtx) : (s.moveMap x).sup.runs = s.sup.runs := rfl

@[simp] theorem State.supervisorStart_runs (s : State) : s.supervisorStart.sup.runs = s.sup.runs := rfl

/-! ### The boundary (R18, R85 to R88) -/

@[simp] theorem State.closeFailover_runs (s : State) (e : Nat) : (s.closeFailover e).sup.runs = s.sup.runs := by
  have closed : (s.closeEngine e).sup.runs = s.sup.runs := by
    unfold State.closeEngine
    split <;> simp
  rw [State.closeFailover, State.foldl_abandonRequest]
  exact closed

@[simp] theorem State.closeBlocks_runs (s : State) (e : Nat) : (s.closeBlocks e).sup.runs = s.sup.runs := by
  simp [State.closeBlocks]

@[simp] theorem State.beginEnding_runs (s : State) (r : EndReason) (own : Nat) (last : Fin 32) :
    (s.beginEnding r own last).sup.runs = s.sup.runs := by
  unfold State.beginEnding
  dsimp only
  split <;> simp

@[simp] theorem State.enterState_runs (s : State) (st : Fin 32) (prev exit : Nat) :
    (s.enterState st prev exit).sup.runs = s.sup.runs := by
  rcases s.enterState_cases st prev exit with ⟨sup, -⟩ | ⟨u, last, sup, -, e⟩
  · rw [sup]
  · rw [e, State.beginEnding_runs, sup]

@[simp] theorem State.settle_runs (s : State) (d : Decision) : (s.settle d).sup.runs = s.sup.runs := by
  cases d with
  | start r => simp [State.settle, State.startTest]
  | stop r => exact State.beginEnding_runs _ _ _ _
  | duration => exact State.beginEnding_runs _ _ _ _
  | exit k => exact State.enterState_runs s.nextFrame _ _ _
  | complete => simp [State.settle]
  | cancel => rfl
  | stay =>
    dsimp only [State.settle]
    split <;> rfl
  | change p =>
    dsimp only [State.settle]
    split <;> rfl

@[simp] theorem State.settleSeq_runs (s : State) : s.settleSeq.sup.runs = s.sup.runs := by
  unfold State.settleSeq
  split <;> simp

@[simp] theorem State.serve_runs (s : State) : s.serve.sup.runs = s.sup.runs := by
  unfold State.serve State.serveChannel
  (repeat' split) <;> simp <;> rfl

@[simp] theorem State.completeFailover_runs (s : State) : s.completeFailover.sup.runs = s.sup.runs := by
  unfold State.completeFailover
  (repeat' split) <;> simp

@[simp] theorem State.switchOver_runs (s : State) : s.switchOver.sup.runs = s.sup.runs := by
  unfold State.switchOver
  (repeat' split) <;> simp

@[simp] theorem State.ready_runs (s : State) : s.ready.sup.runs = s.sup.runs := by
  unfold State.ready State.boundaryApart
  split <;> simp

/-! ### The outputs -/

@[simp] theorem State.outputs_runs (s : State) : s.outputs.sup.runs = s.sup.runs := by
  have counted : s.countFailoverFrame.sup.runs = s.sup.runs := by
    unfold State.countFailoverFrame
    split <;> simp
  unfold State.outputs
  split
  · simpa using counted
  · rfl

/-! ### A frame without a message (R162) -/

theorem State.settleSeq_slot (s : State) : s.settleSeq.frame.slot = s.frame.slot := by
  unfold State.settleSeq
  split <;> simp [State.toStage]

/-- R162: a frame without a message comes to its outputs with runs and fault as they were. -/
theorem State.beforeOutputs_runs {s : State} (closed : s.frame.stage = .closed) (locked : s.recv.state = .locked)
    (silent : s.TakesSilentFrame) : s.beforeOutputs.sup.runs = s.sup.runs := by
  have taken := State.openFrame_of_due closed locked silent.due
  have stage : s.openFrame.settleSeq.ready.frame.stage = .ready :=
    State.ready_stage _ (State.settleSeq_stage _ (by rw [taken, State.take_stage]))
  have slot : s.openFrame.settleSeq.ready.frame.slot = s.recv.held.map HeldFrame.slot := by
    rw [State.ready_slot, State.settleSeq_slot, taken, (State.take_event _).2]
    simp
  have empty (c : ControlSlot) (hc : s.openFrame.settleSeq.ready.frame.slot = some c) : c.msg.tag = 0 := by
    rw [slot] at hc
    rcases silent with ⟨x, held, tag⟩ | ⟨held, -⟩
    · rw [held] at hc
      obtain rfl := Option.some.inj hc
      exact tag
    · rw [held] at hc
      cases hc
  rw [State.beforeOutputs, State.handleSlot_silent stage empty, taken]
  simp

end Sys2Proof.Machine
end

