-- ==== Sys2Proof/Proofs/ReadbackFaultSettled.lean ====
section
/-! SUPPORT. The readback fault after a readback and after a drive frame (R81 to R83). -/

namespace Sys2Proof.Machine

/-! ### The drive frame closes the judgment (R70) -/

/-- R70: a judgment that is open is counted as a bad or missing readback. -/
theorem State.closeJudgment_of_open {s : State} (h : s.out.judgment ≠ .settled) :
    ∃ o : OutputStage, s.closeJudgment = (s.withOut o).countOutcome none := by
  unfold State.closeJudgment
  split
  · exact ⟨s.out, rfl⟩
  · exact ⟨_, rfl⟩
  · next settled => exact absurd settled h

theorem State.closeJudgment_of_settled {s : State} (h : s.out.judgment = .settled) : s.closeJudgment = s := by
  rw [State.closeJudgment, h]

/-- R70: an unanswered drive frame counts as missing. -/
theorem State.driveFrame_missing (s : State) :
    s.driveFrame.out.missing = if s.out.judgment = .openNone then min 4294967295 (s.out.missing + 1) else s.out.missing := by
  let v := s.withOut { s.out with delivered := s.deliveredOutputs }
  have closed : v.closeJudgment.out.missing =
      if v.out.judgment = .openNone then min 4294967295 (v.out.missing + 1) else v.out.missing := by
    unfold State.closeJudgment
    split <;> (next h => simp [h, satInc, max32])
  have sends : s.driveFrame.out = v.closeJudgment.out.sent s.samples := rfl
  rw [sends, OutputStage.sent_eq]
  exact closed

/-- R70: the drive frame closes the judgment of the one before. -/
theorem State.driveFrame_closes (s : State) :
    (s.out.judgment = .settled → s.driveFrame.sup = s.sup)
      ∧ (s.out.judgment ≠ .settled → ∃ w : State, w.sup = s.sup
        ∧ s.driveFrame.sup = (w.countOutcome none).sup ∧ s.driveFrame.rep = (w.countOutcome none).rep) := by
  let v := s.withOut { s.out with delivered := s.deliveredOutputs }
  have sends : s.driveFrame.sup = v.closeJudgment.sup ∧ s.driveFrame.rep = v.closeJudgment.rep := ⟨rfl, rfl⟩
  rw [sends.1, sends.2]
  refine ⟨fun settled => ?_, fun unsettled => ?_⟩
  · rw [State.closeJudgment_of_settled (s := v) settled]
    rfl
  · obtain ⟨o, counted⟩ := State.closeJudgment_of_open (s := v) unsettled
    exact ⟨v.withOut o, rfl, by rw [counted], by rw [counted]⟩

/-- R70, R81, R82: the drive frame counts a bad or missing readback, and nothing where the judgment is settled. The runs before
it are those of `p`. -/
theorem State.driveFrame_counted {s : State} {p : Supervisor} (runs : s.sup.runs = p.runs) :
    ((p.latency = 0 ∨ s.out.judgment = .settled) → s.driveFrame.sup.runs = p.runs)
      ∧ (p.latency ≠ 0 → s.out.judgment ≠ .settled → 1 ≤ p.confirm →
        s.driveFrame.sup.refRun = p.refRun ∧ s.driveFrame.sup.linkRun = min 16 (p.linkRun + 1) ∧ s.driveFrame.sup.recRun = 0
        ∧ (p.fault ≠ none → s.driveFrame.sup.fault = p.fault)
        ∧ (p.fault = none → 16 ≤ p.linkRun + 1 →
            s.driveFrame.sup.fault = some .link ∧ s.driveFrame.rep.attention[2] = true)
        ∧ (p.fault = none → p.linkRun + 1 < 16 → p.confirm ≤ p.refRun →
            s.driveFrame.sup.fault = some .reference ∧ s.driveFrame.rep.attention[2] = true)
        ∧ (p.fault = none → p.linkRun + 1 < 16 → p.refRun < p.confirm → s.driveFrame.sup.fault = none)) := by
  obtain ⟨latency, confirm, refRun, linkRun, recRun, fault⟩ := Supervisor.runs_eq_iff.1 runs
  obtain ⟨settles, closes⟩ := s.driveFrame_closes
  refine ⟨fun still => ?_, fun active unsettled one => ?_⟩
  · by_cases settled : s.out.judgment = .settled
    · rw [settles settled, runs]
    · obtain ⟨w, sup, counted, -⟩ := closes settled
      have dormant : w.sup.latency = 0 := by rw [sup, latency]; exact still.resolve_right settled
      rw [counted, State.countOutcome_dormant w none dormant, sup, runs]
  · obtain ⟨w, sup, counted, rep⟩ := closes unsettled
    have after := w.countOutcome_none (by rwa [sup, latency]) (by rwa [sup, confirm])
    dsimp only at after
    rw [← counted, ← rep, sup, confirm, refRun, linkRun, fault] at after
    exact after

/-- R145, R148: what follows the drive frame takes no condition off but CAPTURE_WAITING. -/
theorem State.finish_attention {s : State} (h : s.frame.stage = .stepped) :
    s.finish.rep.attention[2] = s.outputs.driveFrame.rep.attention[2] := by
  have buffers (r : Report) (b : Vector Buffer 4) : (r.setBuffers b).attention[2] = r.attention[2] := by
    obtain ⟨-, stands, -⟩ := r.setBuffers_spec b
    exact stands 2 (by decide)
  have rows (r : Report) (i : Fin 4) : (r.sendRow i).1.attention[2] = r.attention[2] := buffers _ _
  have returned (r : Report) (reply : Option Reply) : (r.arbiter reply).1.attention[2] = r.attention[2] := by
    unfold Report.arbiter Report.sendRecord
    (repeat' split) <;> simp [rows]
  have sent (u : State) (gap : Bool) : (u.answer gap).rep.attention[2] = u.rep.attention[2] := returned _ _
  have ended : s.finish.rep = (s.outputStep.answer s.frame.gap).rep := by
    rw [State.finish_of_stepped h]
    simp
  have flushed := State.flush_attention (s.outputs.driveFrame.latchRisen s) (a := 2) (by omega) (by omega)
  rw [ended, sent]
  exact flushed

/-- Settles O14: a valid readback by `State.exec_valid_counted` and the counting of its reference word, a frame taken by
`State.driveFrame_counted`, the record of a link fault by `State.countOutcome_link`. -/
theorem readbackFault : Obligations.ReadbackFault := by
  refine ⟨fun s closed => ⟨fun f good echo unsettled => ?_, fun locked due => ?_⟩, fun s active clear full => ?_⟩
  · intro ref inBand recorded
    obtain ⟨t, ht, sup, attn, first⟩ := State.exec_valid_counted closed good echo unsettled
    have joined {body : Body} (made : (s.countedValid f).rep.made = s.rep.made ++ [⟨s.stamp.1, s.stamp.2, body, false⟩]) :
        recorded t body := fun none room => by
      have record := first _ made none room
      rwa [State.stamp_eq] at record
    refine ⟨fun dormant => ⟨_, State.exec_valid closed good echo unsettled, ?_⟩, fun active confirm => ⟨t, ht, ?_⟩⟩
    · have counted := s.judgedValid.countOutcome_dormant (some (s.readbackIn f).reference) (by simpa using dormant)
      have idle : (s.judgedValid.countOutcome (some (s.readbackIn f).reference)).comparing = false := by
        rw [counted]
        simp [State.comparing, Supervisor.dormant, dormant]
      rw [State.takeReadback_of_not_comparing idle, counted]
      simp
    · rw [State.countedValid_sup active] at sup
      have fault : t.sup.fault = (s.countedValid f).sup.fault := by rw [sup]
      have refRun : t.sup.refRun = if inBand then 0 else min 15 (s.sup.refRun + 1) := by rw [sup]
      have recRun : t.sup.recRun = if inBand ∧ s.sup.fault ≠ none then min 15 (s.sup.recRun + 1) else 0 := by rw [sup]
      refine ⟨by rw [sup], by rw [sup], by rw [sup], fun out => ⟨by rw [refRun, if_neg out], ?_⟩,
        fun out clear full => ?_, fun out clear below => ?_, fun out set => ?_, fun band => by rw [refRun, if_pos band],
        fun band clear => ⟨?_, ?_⟩, fun band set => ⟨?_, ?_, fun cause set full => ?_⟩⟩
      · rw [recRun, if_neg fun h => out h.1]
      · obtain ⟨set, raised, made⟩ := (State.countedValid_outOfBand active confirm out).1 clear full
        exact ⟨fault.trans set, attn.trans raised, joined made⟩
      · exact fault.trans ((State.countedValid_outOfBand active confirm out).2.1 clear below)
      · exact fault.trans ((State.countedValid_outOfBand active confirm out).2.2 set)
      · rw [recRun, if_neg fun h => h.2 clear]
      · exact fault.trans ((State.countedValid_inBand active confirm band).1 clear)
      · rw [recRun, if_pos ⟨band, set⟩]
      · obtain ⟨-, clears, stays⟩ := State.countedValid_inBand active confirm band
        split
        · next full =>
          obtain ⟨c, hc⟩ := Option.ne_none_iff_exists'.1 set
          exact fault.trans (clears c hc full).1
        · next below => exact fault.trans (stays set (by omega))
      · exact joined ((State.countedValid_inBand active confirm band).2.1 cause set full).2
  · intro u counted
    obtain ⟨closes, stepped⟩ := exec_arrivalWindowClose_of_due closed locked due
    have stands := (State.beforeOutputs_out closed locked due).1
    have judgment : s.beforeOutputs.out.judgment = s.out.judgment := by rw [stands]
    have missing : s.beforeOutputs.out.missing = s.out.missing := by rw [stands]
    have hu : s.beforeOutputs = u := rfl
    rw [hu] at closes stepped judgment missing
    obtain ⟨out, -, sup, -⟩ := State.finish_drive stepped
    have attn := State.finish_attention stepped
    have stage : u.outputs.out = u.out := by simp
    have counts {p : Supervisor} (runs : u.outputs.sup.runs = p.runs) : counted p u.finish := by
      obtain ⟨still, counts⟩ := State.driveFrame_counted runs
      rw [stage, judgment] at still counts
      dsimp only [counted]
      rw [sup, attn]
      refine ⟨fun h => ?_, counts⟩
      obtain ⟨-, -, refRun, linkRun, recRun, fault⟩ := Supervisor.runs_eq_iff.1 (still h)
      exact ⟨refRun, linkRun, recRun, fault⟩
    refine ⟨u.finish, closes, ?_, counts u.outputs_runs, fun silent => counts ?_⟩
    · rw [out, State.driveFrame_missing, stage, judgment, missing]
    · rw [State.outputs_runs]
      exact State.beforeOutputs_runs closed locked silent
  · rw [State.countOutcome_link active clear full, State.stamp_eq]

end Sys2Proof.Machine
end

