-- ==== Sys2Proof/Proofs/ReadbackEvidence.lean ====
section
/-! SUPPORT. What a valid readback compares, and what comes of it (R76, R77, R80, R84). -/

namespace Sys2Proof.Machine

/-! ### What the frame says (R71, R161) -/

theorem at2_eq_toNat (f : Vector Byte 40) (i : Nat) (h : i + 1 < 40) :
    at2 f.toList i = (f[i] ++ f[i + 1] : BitVec 16).toNat := by
  rw [at2_toList f i h]
  exact (Nat.mul_comm _ _ ▸ toNat_append_byte f[i] f[i + 1]).symm

theorem flagAt_eq_getLsbD (f : Vector Byte 40) (i p : Nat) (h : i + 1 < 40) :
    flagAt f.toList i p = (f[i] ++ f[i + 1] : BitVec 16).getLsbD p := by
  rw [flagAt, at2_eq_toNat f i h, BitVec.getLsbD, Nat.testBit_eq_decide_div_mod_eq]
  rfl

section
variable (s : State) (f : Vector Byte 40) (p : Fin 14)

theorem State.readbackIn_measured :
    (s.readbackIn f).measured[p] = (f[4 + 2 * p.val] ++ f[5 + 2 * p.val] : BitVec 16).toInt := by
  have word := at2_eq_toNat f (4 + 2 * p.val) (by omega)
  have next : 4 + 2 * p.val + 1 = 5 + 2 * p.val := by omega
  simp only [next] at word
  simp only [State.readbackIn, State.readbackOf, Fin.getElem_fin, tab_getElem, sampleAt, word]
  exact signedOf_toNat (n := 16) _

theorem State.readbackIn_flags :
    (s.readbackIn f).overload[p] = (f[32] ++ f[33] : BitVec 16).getLsbD p
      ∧ (s.readbackIn f).thermal[p] = (f[34] ++ f[35] : BitVec 16).getLsbD p := by
  have flags : (s.readbackIn f).overload[p] = flagAt f.toList 32 p ∧ (s.readbackIn f).thermal[p] = flagAt f.toList 34 p := by
    simp [State.readbackIn, State.readbackOf]
  rw [flags.1, flags.2]
  exact ⟨flagAt_eq_getLsbD f 32 p (by omega), flagAt_eq_getLsbD f 34 p (by omega)⟩

end

/-! ### What is compared, and when -/

theorem OutputStage.carriedBy_eq (o : OutputStage) (p : Fin 14) : o.carriedBy p = o.logicalOf p := by
  rw [OutputStage.carriedBy, OutputStage.logicalOf, allFin_eq_finRange]
  congr 1
  funext c
  exact (beq_eq_decide _ _).symm

theorem State.compared_eq (s : State) (p : Fin 14) :
    s.compared p = decide ((s.sup.chan[p].state = .mapped
      ∨ (s.sup.chan[p].state = .failed ∧ ∃ c : Fin 12, s.out.map[c] = some p)) ∧ s.sup.chan[p].threshold ≠ 0) := by
  rw [Bool.eq_iff_iff, decide_eq_true_iff]
  simp only [State.compared, Bool.and_eq_true, Bool.or_eq_true, beq_iff_eq, bne_iff_ne, OutputStage.isTarget_iff]

section
variable (s : State) (rb : Readback) (p : Fin 14) (co : Int)

theorem State.mismatches_iff :
    s.mismatches rb p co = true ↔
      (s.sup.chan[p].tolerance : Int) < rb.measured[p] - co ∨ (s.sup.chan[p].tolerance : Int) < co - rb.measured[p] := by
  simp [State.mismatches]

theorem State.bucketWith_eq :
    s.bucketWith rb p co = min 255 (s.sup.chan[p].bucket
      + ((if (s.sup.chan[p].tolerance : Int) < rb.measured[p] - co ∨ (s.sup.chan[p].tolerance : Int) < co - rb.measured[p]
          then 1 else 0)
        + (if rb.overload[p] then 2 else 0) + (if rb.thermal[p] then 4 else 0))) := by
  simp only [← State.mismatches_iff, State.bucketWith, weight, bit]
  cases s.mismatches rb p co <;> cases rb.overload[p] <;> cases rb.thermal[p] <;> rfl

end

/-- R77: a flag is told from its weight. -/
theorem decide_weight (flag : Bool) {n : Nat} (h : 0 ≠ n) : decide ((if flag = true then n else 0) = n) = flag := by
  cases flag <;> simp [h]

theorem State.leaks_of_none {s : State} (h : ∀ q : Fin 14, s.leakDue q = false) : s.leaks = s := by
  have one (p : Fin 14) : s.leakIfDue p = s := by simp [State.leakIfDue, h p]
  exact List.foldlRecOn (motive := (· = s)) _ _ rfl fun u hu p _ => hu.symm ▸ one p

/-- What the comparison reads is alike: channels, requests, map and Sequencer, and the failover settings. -/
structure State.ComparesAlike (s c : State) : Prop where
  chan : c.sup.chan = s.sup.chan
  requests : c.sup.requests = s.sup.requests
  engine : c.sup.engine = s.sup.engine
  enable : c.sup.enable = s.sup.enable
  map : c.out.map = s.out.map
  seq : c.seq = s.seq

namespace State.ComparesAlike

variable {s c : State} (h : s.ComparesAlike c) (rb : Readback) (co : Fin 14 → Int) (p : Fin 14) (x : Int)
include h

theorem compared : c.compared p = s.compared p := by rw [State.compared_eq, State.compared_eq, h.chan, h.map]

theorem mismatches : c.mismatches rb p x = s.mismatches rb p x := by rw [State.mismatches, State.mismatches, h.chan]

theorem bucketWith : c.bucketWith rb p x = s.bucketWith rb p x := by
  rw [State.bucketWith, State.bucketWith, h.mismatches, h.chan]

theorem failsAt : c.failsAt rb p x = s.failsAt rb p x := by
  rw [State.failsAt, State.failsAt, h.bucketWith, h.chan]

theorem failsIn : c.failsIn rb co p = s.failsIn rb co p := by
  rw [State.failsIn, State.failsIn, h.compared, h.failsAt]

theorem chanAfter : c.chanAfter rb co p = s.chanAfter rb co p := by
  rw [State.chanAfter, State.chanAfter, State.chanWith, State.chanWith, h.compared, h.failsAt, h.bucketWith, h.chan]

theorem logicalOf : c.out.logicalOf p = s.out.logicalOf p := by
  rw [OutputStage.logicalOf, OutputStage.logicalOf, h.map]

theorem disposition : c.disposition = s.disposition := by
  rw [State.disposition, State.disposition, h.seq, h.enable]

theorem joinIn : c.joinIn rb co p = s.joinIn rb co p := by
  have serving : c.sup.serving = s.sup.serving := by rw [Supervisor.serving, Supervisor.serving, h.engine]
  rw [State.joinIn, State.joinIn, State.joinOf, State.joinOf, h.failsIn, h.disposition, h.logicalOf, h.requests, serving]

theorem failureOf : c.failureOf rb p x = s.failureOf rb p x := by
  rw [State.failureOf, State.failureOf, h.seq, h.logicalOf, h.mismatches, h.bucketWith, h.disposition]

end State.ComparesAlike

/-- R82: at most one record more, a READBACK, and CHANNEL_FAILED's attention as it was. -/
def Report.OneReadback (r q : Report) : Prop :=
  (∃ later : List Made, q.made = r.made ++ later ∧ later.length ≤ 1 ∧ ∀ m ∈ later, recordType m.body = 12)
    ∧ q.attention[1] = r.attention[1]

theorem Report.OneReadback.refl (r : Report) : r.OneReadback r := ⟨⟨[], by simp, by simp, nofun⟩, rfl⟩

theorem State.setFault_oneReadback (s : State) (c : FaultCause) : s.rep.OneReadback (s.setFault c).rep := by
  rw [State.setFault_rep]
  refine ⟨⟨_, rfl, le_rfl, ?_⟩, by simp⟩
  simp [recordType]

theorem State.clearFault_oneReadback (s : State) (c : FaultCause) : s.rep.OneReadback (s.clearFault c).rep := by
  rw [State.clearFault_rep]
  refine ⟨⟨_, rfl, le_rfl, ?_⟩, rfl⟩
  simp [recordType]

theorem State.countOutcome_oneReadback (s : State) (outcome : Option Nat) :
    s.rep.OneReadback (s.countOutcome outcome).rep := by
  unfold State.countOutcome
  extract_lets t
  repeat' split
  · exact .refl _
  · exact t.setFault_oneReadback _
  · exact .refl _
  · exact t.clearFault_oneReadback _
  · exact .refl _

theorem State.countedValid_oneReadback (s : State) (f : Vector Byte 40) : s.rep.OneReadback (s.countedValid f).rep := by
  rw [State.countedValid, ← s.judgedValid_frame.2.1]
  exact s.judgedValid.countOutcome_oneReadback _

/-- R76: a readback that compares no channel leaves channels, requests and CHANNEL_FAILED alone. -/
theorem State.flush_oneReadback {s w : State} (one : s.rep.OneReadback w.rep) (queue : w.rep.queue = s.rep.queue) :
    w.flush.rep.attention[1] = s.rep.attention[1]
      ∧ (s.rep.made = [] → ∀ r ∈ w.flush.rep.queue.drop s.rep.queue.length, recordType r.body ≠ 10) := by
  obtain ⟨⟨later, made, -, readbacks⟩, attention⟩ := one
  refine ⟨(State.flush_attention w (by omega) (by omega)).trans attention, fun none r hr => ?_⟩
  obtain ⟨l, admitted, offered⟩ := Report.admitAll_body w.rep.made { w.rep with made := [] }
  rw [State.flush_queue, admitted] at hr
  dsimp only at hr
  rw [queue, List.drop_left] at hr
  obtain ⟨m, hm, body⟩ := offered r hr
  rw [made, none, List.nil_append] at hm
  rw [body, readbacks m hm]
  decide

/-- R131: while there is room, whatever has been made joins the queue. -/
theorem State.flush_joined {w : State} (room : w.rep.queue.length + w.rep.made.length ≤ 104) {m : Made}
    (hm : m ∈ w.rep.made) :
    ∃ r ∈ w.flush.rep.queue.drop w.rep.queue.length, r.testNo = m.testNo ∧ r.time = m.time ∧ r.body = m.body := by
  obtain ⟨l, admitted, joined⟩ := Report.admitAll_of_room w.rep.made { w.rep with made := [] } room
  rw [State.flush_queue, admitted, List.drop_left]
  exact joined m hm

/-! ### All channels compared -/

section
variable (c : State) (rb : Readback) (co : Fin 14 → Int) (p : Fin 14)

theorem State.comparedOver_chan : (c.comparedOver rb co (List.finRange 14)).sup.chan[p] = c.chanAfter rb co p := by
  simp [State.comparedOver, State.withCompared]

theorem State.comparedOver_requests (l : List (Fin 14)) :
    (c.comparedOver rb co l).sup.requests = c.sup.requests ++ l.filterMap (c.joinIn rb co) := rfl

theorem State.comparedOver_queue (l : List (Fin 14)) : (c.comparedOver rb co l).rep.queue = c.rep.queue := rfl

theorem State.comparedOver_made :
    (c.comparedOver rb co (List.finRange 14)).rep.made.length ≤ c.rep.made.length + 14 := by
  have few := List.length_filterMap_le (c.failureIn rb co) (List.finRange 14)
  rw [List.length_finRange] at few
  simpa [State.comparedOver, State.withCompared] using few

variable {c rb co p}

/-- R80: a channel that fails makes its record and raises CHANNEL_FAILED. -/
theorem State.comparedOver_fails (fails : c.failsIn rb co p = true) :
    (c.comparedOver rb co (List.finRange 14)).rep.attention[1] = true
      ∧ c.failureOf rb p (co p) ∈ (c.comparedOver rb co (List.finRange 14)).rep.made := by
  have any : (List.finRange 14).any (c.failsIn rb co) = true := List.any_eq_true.2 ⟨p, List.mem_finRange p, fails⟩
  have failure : c.failureIn rb co p = some (c.failureOf rb p (co p)) := by rw [State.failureIn, if_pos fails]
  refine ⟨by simp [State.comparedOver, State.withCompared, any], List.mem_append_right _ ?_⟩
  exact List.mem_filterMap.2 ⟨p, List.mem_finRange p, failure⟩

end

/-- R75: the logical channel of a target, where targets are distinct. -/
theorem State.carriedBy_of_injective {s : State} (injective : s.MapInjective) {c : Fin 12} {p : Fin 14}
    (h : s.out.map[c] = some p) : s.out.carriedBy p = some c := by
  rw [OutputStage.carriedBy_eq]
  cases found : s.out.logicalOf p with
  | none => exact absurd h (by simpa using find_allFin_eq_none.1 found c)
  | some d => rw [injective d c p (OutputStage.map_of_logicalOf found) h]

/-! ### A readback that compares no channel -/

section
variable {s : State} {f : Vector Byte 40}

theorem State.countedValid_seq (s : State) (f : Vector Byte 40) : (s.countedValid f).seq = s.seq := by
  simp [State.countedValid]

/-- R81, R82: where the fault is clear after the counting. -/
theorem State.countedValid_clear (active : s.sup.latency ≠ 0) :
    let ref := readbackReference f
    let inBand := 16384 ≤ ref + s.sup.refTol ∧ ref ≤ 16384 + s.sup.refTol
    let refRun := if inBand then 0 else min 15 (s.sup.refRun + 1)
    let recRun := if inBand ∧ s.sup.fault ≠ none then min 15 (s.sup.recRun + 1) else 0
    (s.countedValid f).sup.fault = none ↔
      (s.sup.fault = none ∧ refRun < s.sup.confirm) ∨ (s.sup.fault ≠ none ∧ s.sup.confirm ≤ recRun) := by
  have counted := State.countOutcome_some s.judgedValid (readbackReference f) (by simpa using active)
  simp only [State.judgedValid_frame, State.leaks_counters] at counted
  obtain ⟨clears, sets, -⟩ := counted
  unfold State.countedValid
  intro ref inBand refRun recRun
  refine ⟨fun clear => ?_, fun clear => ?_⟩
  · by_contra set
    exact (sets set).1 clear
  · rw [clears clear]

/-- R81: the counting moves nothing that the comparison reads. -/
theorem State.countedValid_alike (noLeak : ∀ q : Fin 14, s.leakDue q = false) :
    s.ComparesAlike (s.countedValid f) ∧ (s.countedValid f).sup.latency = s.sup.latency := by
  have map : (s.countedValid f).out.map = s.out.map := by simp [State.countedValid]
  by_cases active : s.sup.latency = 0
  · have dormant := s.judgedValid.countOutcome_dormant (some (readbackReference f)) (by simpa using active)
    have sup : (s.countedValid f).sup = s.sup := by
      rw [State.countedValid, dormant, s.judgedValid_frame.1, State.leaks_of_none noLeak]
    exact ⟨⟨by rw [sup], by rw [sup], by rw [sup], by rw [sup], map, s.countedValid_seq f⟩, by rw [sup]⟩
  · have sup := State.countedValid_sup (f := f) active
    rw [State.leaks_of_none noLeak] at sup
    exact ⟨⟨by rw [sup], by rw [sup], by rw [sup], by rw [sup], map, s.countedValid_seq f⟩, by rw [sup]⟩

theorem State.countedValid_eq (s : State) (f : Vector Byte 40) :
    s.judgedValid.countOutcome (some (s.readbackIn f).reference) = s.countedValid f := by
  rw [State.readbackIn_reference, State.countedValid]

theorem State.takeReadback_of_uncompared (idle : (s.countedValid f).comparing = false) :
    s.judgedValid.takeReadback (s.readbackIn f) = s.countedValid f := by
  have counted := s.countedValid_eq f
  rw [State.takeReadback_of_not_comparing ((congrArg State.comparing counted).trans idle), counted]

theorem State.comparing_iff (s : State) :
    s.comparing = true ↔ s.sup.latency ≠ 0 ∧ (s.seq.phase = .running ∨ s.seq.phase = .ending) ∧ s.sup.fault = none := by
  simp [State.comparing, Supervisor.dormant, Phase.inTest_iff, and_assoc]

/-- R71, R76: a readback whose paired drive frame is `e` compares every channel with it. -/
theorem State.takeReadback_of_compared (compares : (s.countedValid f).comparing = true) {e : Nat × Vector Int 14}
    (found : (s.out.history.find? fun e => e.1 == (readbackEcho f + 65536 - s.sup.latency) % 65536) = some e) :
    s.judgedValid.takeReadback (s.readbackIn f) =
      (s.countedValid f).comparedOver (s.readbackIn f) (fun p => e.2[p]) (List.finRange 14) := by
  have counted := s.countedValid_eq f
  have paired (p : Fin 14) : (s.readbackIn f).commanded[p] = some e.2[p] := by
    rw [State.readbackIn, State.readbackOf_commanded, s.leaks_counters.1, s.leaks_frame.2.2.2.2.2.1, found]
    rfl
  rw [State.takeReadback_found paired ((congrArg State.comparing counted).trans compares), counted]

/-- R71, R76: a readback without a paired drive frame. -/
theorem State.takeReadback_of_unpaired
    (found : (s.out.history.find? fun e => e.1 == (readbackEcho f + 65536 - s.sup.latency) % 65536) = none) :
    s.judgedValid.takeReadback (s.readbackIn f) = s.countedValid f := by
  have unpaired (p : Fin 14) : (s.readbackIn f).commanded[p] = none := by
    rw [State.readbackIn, State.readbackOf_commanded, s.leaks_counters.1, s.leaks_frame.2.2.2.2.2.1, found]
    rfl
  rw [State.takeReadback_unfound unpaired, s.countedValid_eq f]

/-- R76, R77, R80, R84: what a readback that compares channels leaves of requests, channels and records. -/
theorem State.valid_compares (noLeak : ∀ q : Fin 14, s.leakDue q = false)
    (compares : (s.countedValid f).comparing = true) {e : Nat × Vector Int 14}
    (found : (s.out.history.find? fun e => e.1 == (readbackEcho f + 65536 - s.sup.latency) % 65536) = some e) :
    let t := ((s.judgedValid.takeReadback (s.readbackIn f)).latchRisen s).flush
    let co (p : Fin 14) : Int := e.2[p]
    t.sup.requests = s.sup.requests ++ (List.finRange 14).filterMap (s.joinIn (s.readbackIn f) co)
      ∧ (∀ p : Fin 14, t.sup.chan[p] = s.chanAfter (s.readbackIn f) co p)
      ∧ ∀ p : Fin 14, s.failsIn (s.readbackIn f) co p = true →
          t.rep.attention[1] = true
          ∧ (s.rep.made = [] → s.rep.queue.length ≤ 64 →
              ∃ r ∈ t.rep.queue.drop s.rep.queue.length, r.testNo = s.seq.testNumber ∧ r.time = 16 * s.seq.testFrame
                ∧ r.body = (s.failureOf (s.readbackIn f) p (co p)).body) := by
  intro t co
  obtain ⟨alike, -⟩ := State.countedValid_alike (f := f) noLeak
  set w := (s.countedValid f).comparedOver (s.readbackIn f) co (List.finRange 14) with hw
  have ht : t = (w.latchRisen s).flush := by rw [hw, ← State.takeReadback_of_compared compares found]
  have hsup : t.sup = w.sup := by rw [ht]; simp
  have hrep : (w.latchRisen s).rep = w.rep := by simp
  refine ⟨?_, fun p => ?_, fun p failed => ?_⟩
  · rw [hsup, hw, State.comparedOver_requests, alike.requests, funext (alike.joinIn _ _)]
  · rw [hsup, hw, State.comparedOver_chan, alike.chanAfter]
  · rw [← alike.failsIn] at failed
    obtain ⟨raised, made⟩ := State.comparedOver_fails failed
    rw [alike.failureOf, ← hw] at made
    refine ⟨?_, fun none room => ?_⟩
    · rw [ht, State.flush_attention _ (by omega) (by omega), hrep]
      exact raised
    · have few : w.rep.made.length ≤ (s.countedValid f).rep.made.length + 14 := State.comparedOver_made _ _ _
      obtain ⟨⟨later, counted, one, -⟩, -⟩ := s.countedValid_oneReadback f
      have queue : w.rep.queue = s.rep.queue := by rw [hw, State.comparedOver_queue, (s.countedValid_rep f).1]
      rw [counted, none, List.nil_append] at few
      obtain ⟨r, hr, record⟩ := State.flush_joined (w := w.latchRisen s) (by rw [hrep, queue]; omega) (by rw [hrep]; exact made)
      rw [hrep, queue, ← ht] at hr
      exact ⟨r, hr, record⟩

end

/-- Settles O15: what compares no channel by `State.flush_oneReadback`, what compares all of them by `State.valid_compares`. -/
theorem readbackEvidence : Obligations.ReadbackEvidence := by
  intro f s closed good echo unsettled noLeak ref inBand refRun recRun clear inTest found compared me mm ov th b fails joins
  have exec := State.exec_valid closed good echo unsettled
  obtain ⟨alike, latency⟩ := State.countedValid_alike (f := f) noLeak
  refine ⟨fun idle => ?_, fun active confirm isClear test => ?_⟩
  · have uncompared : (s.countedValid f).comparing = false := by
      rw [← Bool.not_eq_true, State.comparing_iff, alike.seq, latency]
      rintro ⟨active, test, none⟩
      rcases idle with dormant | ⟨-, set⟩ | noTest
      · exact active dormant
      · exact set ((State.countedValid_clear active).1 none)
      · exact noTest test
    rw [State.takeReadback_of_uncompared uncompared] at exec
    have rep : ((s.countedValid f).latchRisen s).rep = (s.countedValid f).rep := by simp
    obtain ⟨attention, records⟩ := State.flush_oneReadback (s := s) (w := (s.countedValid f).latchRisen s)
      (by rw [rep]; exact s.countedValid_oneReadback f) (by rw [rep]; exact (s.countedValid_rep f).1)
    exact ⟨_, exec, by simpa using alike.chan, by simpa using alike.requests, attention, records⟩
  · have fault := (State.countedValid_clear active).2 isClear
    have compares : (s.countedValid f).comparing = true :=
      (State.comparing_iff _).2 ⟨by rwa [latency], by rwa [alike.seq], fault⟩
    have after := s.takeReadback_flush_sup f
    have sup := State.countedValid_sup (f := f) active
    rw [fault, State.leaks_of_none noLeak] at sup
    rw [sup] at after
    have hcompared (p : Fin 14) : s.compared p = compared p := s.compared_eq p
    have hbucket (p : Fin 14) (co : Int) : s.bucketWith (s.readbackIn f) p co = b co p := by
      rw [State.bucketWith_eq, State.readbackIn_measured, (s.readbackIn_flags f p).1, (s.readbackIn_flags f p).2]
    have hfailsAt (p : Fin 14) (co : Int) (isCompared : compared p = true) :
        s.failsAt (s.readbackIn f) p co = fails co p := by
      dsimp only [fails]
      rw [State.failsAt, hbucket, isCompared, Bool.true_and, Bool.decide_and]
      rfl
    have hfails (e : Nat × Vector Int 14) (p : Fin 14) :
        s.failsIn (s.readbackIn f) (fun p => e.2[p]) p = fails e.2[p] p := by
      rw [State.failsIn, hcompared]
      cases isCompared : compared p with
      | false => simp only [fails, isCompared, Bool.false_and]
      | true => rw [hfailsAt p _ isCompared, Bool.true_and]
    have hjoins (e : Nat × Vector Int 14) (p : Fin 14) :
        s.joinIn (s.readbackIn f) (fun p => e.2[p]) p = joins e.2[p] p := by
      have joinable : s.disposition = .joined ↔ s.seq.phase = .running ∧ s.sup.enable = true := by
        rcases test with running | ending
        · simp [State.disposition, running]
        · simp [State.disposition, ending]
      rw [State.joinIn, hfails, State.joinOf, ← OutputStage.carriedBy_eq]
      simp only [joinable, joins, ite_and]
    refine ⟨_, exec, after, fun none => ?_, fun e hfound => ?_, fun e p hfound => ?_⟩
    · rw [State.takeReadback_of_unpaired none]
      exact ⟨by simpa using alike.chan, by simpa using alike.requests⟩
    · rw [(State.valid_compares noLeak compares hfound).1, funext (hjoins e)]
    · intro x co
      obtain ⟨requests, chan, failures⟩ := State.valid_compares noLeak compares hfound
      have evidence (isCompared : compared p = true) : s.chanWith (s.readbackIn f) p co = { x with
          bucket := b co p, countdown := x.countdown - 1
          state := if fails co p = true then .failed else x.state } := by
        rw [State.chanWith, hfailsAt p co isCompared, hbucket]
      rw [chan p, State.chanAfter, hcompared]
      refine ⟨fun uncompared => ?_, fun isCompared sound => ?_, fun failed => ?_⟩
      · rw [uncompared]
        rfl
      · rw [if_pos isCompared, evidence isCompared, sound]
        rfl
      · have isCompared : compared p = true := Bool.and_elim_left failed
        obtain ⟨raised, recorded⟩ := failures p ((hfails e p).trans failed)
        refine ⟨?_, raised, fun c injective target => ⟨fun running enable unserved => ?_, fun none room => ?_⟩⟩
        · rw [if_pos isCompared, evidence isCompared, failed]
          rfl
        · rw [requests, funext (hjoins e), List.mem_append]
          by_cases listed : c ∈ s.sup.requests
          · exact .inl listed
          · have joined : joins co p = some c := by
              dsimp only [joins]
              rw [if_pos ⟨failed, running, enable⟩, State.carriedBy_of_injective injective target]
              exact Option.filter_some_pos (by simpa using ⟨listed, unserved⟩)
            exact .inr (List.mem_filterMap.2 ⟨p, List.mem_finRange p, joined⟩)
        · obtain ⟨r, hr, testNo, time, body⟩ := recorded none room
          refine ⟨r, hr, testNo, time, body.trans ?_⟩
          have mismatches : s.mismatches (s.readbackIn f) p co = decide (mm co p = 1) := by
            rw [Bool.eq_iff_iff, State.mismatches_iff, State.readbackIn_measured, decide_eq_true_iff]
            dsimp only [mm]
            split_ifs with differ
            · exact iff_of_true differ rfl
            · exact iff_of_false differ (by decide)
          obtain ⟨overload, thermal⟩ := s.readbackIn_flags f p
          rw [← decide_weight (BitVec.getLsbD _ _) (n := 2) (by decide)] at overload
          rw [← decide_weight (BitVec.getLsbD _ _) (n := 4) (by decide)] at thermal
          rw [State.failureOf, ← OutputStage.carriedBy_eq, State.carriedBy_of_injective injective target]
          dsimp only
          rw [mismatches, overload, thermal, hbucket, State.readbackIn_measured, State.disposition]

end Sys2Proof.Machine
end

