-- ==== Sys2Proof/Proofs/InputLines.lean ====
section
/-! SUPPORT. What a new level of an input line makes of its input at the present sub-tick (R94, R95, R103, R104; log 9). -/

namespace Sys2Proof.Machine

/-! ### One input replaced -/

theorem State.setInput_input (s : State) (i : Fin 8) (x : InputScan) : (s.setInput i x).scan.inputs[i] = x := by
  simp [State.setInput]

theorem State.setInput_other {i j : Fin 8} (h : j ≠ i) (s : State) (x : InputScan) :
    (s.setInput i x).scan.inputs[j] = s.scan.inputs[j] := by
  have hv : (i : Nat) ≠ j := fun e => h (Fin.ext e.symm)
  simp [State.setInput, hv]

theorem State.setInput_setInput (s : State) (i : Fin 8) (x y : InputScan) :
    (s.setInput i x).setInput i y = s.setInput i y := by
  have h : upd (upd s.scan.inputs i x) i y = upd s.scan.inputs i y := by
    ext j hj : 1
    simp only [upd_getElem]
    split <;> rfl
  unfold State.setInput
  rw [State.withScan_scan, h]
  rfl

/-! ### The level of a line changes -/

/-- The scanner reads the new level of line `i` at the present sub-tick (log 9). -/
theorem State.readsNow_iff (s : State) (i : Fin 8) (h : s.frame.stage = .closed) :
    (s.scanning && !s.hasRead i) = true ↔ s.clock.slotDone = false ∧ s.scan.inputs[i].acted = false
      ∧ ¬ (s.recv.state = .locked ∧ s.clock.subtick = 0) := by
  simp [State.scanning, State.hasRead, h, imp_iff_not_or]

/-- R94: a level that is not read at the present sub-tick changes nothing else. -/
theorem State.lineChange_unread {s : State} {i : Fin 8} (h : ¬ (s.scanning && !s.hasRead i) = true) (high : Bool) :
    s.lineChange i high = s.setInput i { s.scan.inputs[i] with raw := high } := if_neg h

/-- R94, R95: a level that is read at the present sub-tick is scanned there. -/
theorem State.lineChange_read {s : State} {i : Fin 8} (h : (s.scanning && !s.hasRead i) = true) (high : Bool) :
    s.lineChange i high = s.setInput i ((s.setInput i { s.scan.inputs[i] with raw := high }).scanned i) :=
  (if_pos h).trans (s.setInput_setInput i _ _)

theorem State.lineChange_scannedTo {s : State} {i : Fin 8} (acted : s.scan.inputs[i].acted = false) (high : Bool) :
    InputScan.ScannedTo { s.scan.inputs[i] with raw := high }
      ((s.setInput i { s.scan.inputs[i] with raw := high }).scanned i) s.plan.inputs[i] s.scan.pos
      (s.scan.inputs[i].reload = .now ∨ (s.scan.inputs[i].reload = .afterZero ∧ s.clock.subtick ≠ 0)) := by
  have scanned := (s.setInput i { s.scan.inputs[i] with raw := high }).scanned_scannedTo i
    { s.scan.inputs[i] with raw := high } (by rw [State.setInput_input, ← acted])
    (s.scan.inputs[i].reload = .now ∨ (s.scan.inputs[i].reload = .afterZero ∧ s.clock.subtick ≠ 0)) ?_
  · simpa [State.setInput] using scanned
  · rw [State.rereads, State.setInput_input]
    cases h : s.scan.inputs[i].reload <;> simp [State.setInput]

/-- Settles O18: a level not read at the present sub-tick by `State.lineChange_unread`, one read there by the case that
`State.lineChange_scannedTo` gives. -/
theorem inputLineChange : Obligations.InputLineChange := by
  intro i high s closed x put level reread rec' readThere
  have changes : exec (.inputLineChange i high) s = .next (s.lineChange i high) :=
    congrArg (fun t => Host.Outcome.next (State.lineChange t i high)) (State.closeEvent_of_closed closed)
  have reads := s.readsNow_iff i closed
  refine ⟨fun h => ?unread, fun undone acted unread => ?read⟩
  case unread =>
    rw [changes, State.lineChange_unread]
    · rfl
    · rw [reads]
      rintro ⟨undone, acted, unread⟩
      rcases h with h | h | h
      · exact Bool.false_ne_true (undone.symm.trans h)
      · exact Bool.false_ne_true (acted.symm.trans h)
      · exact unread h
  case read =>
    obtain ⟨afresh, quiet, begins, persists, breaksOff⟩ := State.lineChange_scannedTo acted high
    have same : { x with raw := high, acted := false } = { x with raw := high } := by rw [← acted]
    rw [changes, State.lineChange_read (reads.2 ⟨undone, acted, unread⟩)]
    refine ⟨fun h none settled => ?_, fun h none rises => ?_, fun k h some rises => ?_, fun h some settled => ?_,
      fun h => ?_⟩
    · rw [quiet h none settled, same]
      rfl
    · rw [begins h none rises]
      rfl
    · rw [persists k h some rises]
      rfl
    · rw [breaksOff h some settled]
      rfl
    · rw [afresh h]
      rfl

end Sys2Proof.Machine
end

