-- ==== Sys2Proof/Proofs/OwnClock.lean ====
section
/-! SUPPORT. What the part's own clock lets come about within a slot or period (R94, R95, R103, R104, R111, R150; log 2). -/

namespace Sys2Proof.Machine

/-! ### The events due at a sub-tick -/

/-- The command by which an event of a sub-tick comes about. -/
def SubtickEvent.command : SubtickEvent → Instr
  | .edge i => .acceptedEdge i
  | .deadline => .breakerOperationComplete

/-- R95, R109: the command is that of an accepted edge, or of the breaker's deadline, due at the present sub-tick. -/
def State.Due (s : State) (c : Instr) : Prop :=
  (∃ i : Fin 8, c = .acceptedEdge i ∧ s.edgeDue i = true) ∨ (c = .breakerOperationComplete ∧ s.operationDue = true)

theorem State.edge_mem_dueEvents (s : State) (i : Fin 8) : .edge i ∈ s.dueEvents ↔ s.edgeDue i = true := by
  simp [State.dueEvents]

theorem State.deadline_mem_dueEvents (s : State) : .deadline ∈ s.dueEvents ↔ s.operationDue = true := by
  simp [State.dueEvents]

theorem State.due_iff (s : State) (c : Instr) : s.Due c ↔ ∃ e ∈ s.dueEvents, e.command = c := by
  constructor
  · rintro (⟨i, rfl, h⟩ | ⟨rfl, h⟩)
    · exact ⟨.edge i, (s.edge_mem_dueEvents i).2 h, rfl⟩
    · exact ⟨.deadline, s.deadline_mem_dueEvents.2 h, rfl⟩
  · rintro ⟨e | _, h, rfl⟩
    · exact .inl ⟨_, rfl, (s.edge_mem_dueEvents _).1 h⟩
    · exact .inr ⟨rfl, s.deadline_mem_dueEvents.1 h⟩

theorem SubtickEvent.command_injective : Function.Injective SubtickEvent.command := by
  rintro (i | _) (j | _) h
  · rw [Instr.acceptedEdge.inj h]
  · cases h
  · cases h
  · rfl

theorem State.nodup_dueEvents (s : State) : s.dueEvents.Nodup := by
  unfold State.dueEvents
  refine List.Nodup.append ((nodup_allFin.filter _).map fun _ _ => SubtickEvent.edge.inj) ?_ ?_
  · split <;> simp
  · split <;> simp

/-- R96, R109: an event that is due comes about by its command. -/
theorem exec_command {s : State} (closed : s.frame.stage = .closed) {e : SubtickEvent} (h : e ∈ s.dueEvents) :
    exec e.command s = .next (s.perform e) := by
  cases e with
  | edge i =>
    have due := (s.edge_mem_dueEvents i).1 h
    have hexec : exec (.acceptedEdge i) s = .next (s.subtickCommand (fun t => t.edgeDue i) fun t => t.acceptStep i) := rfl
    rw [SubtickEvent.command, hexec, State.subtickCommand_of_closed closed (s.slotDone_of_edgeDue i due), if_pos due]
    rfl
  | deadline =>
    have due := s.deadline_mem_dueEvents.1 h
    have hexec : exec .breakerOperationComplete s = .next (s.subtickCommand State.operationDue State.operationStep) := rfl
    rw [SubtickEvent.command, hexec, State.subtickCommand_of_closed closed (s.slotDone_of_operationDue due), if_pos due]
    rfl

/-- R111: of several events due one comes about, by a free choice. -/
theorem State.performOne_of_several (s : State) {es : List SubtickEvent} {d e : SubtickEvent} (hd : d ∈ es) (he : e ∈ es)
    (differ : d ≠ e) : ∃ f ∈ es, s.performOne es = s.chose.perform f := by
  match es with
  | [] => exact absurd hd List.not_mem_nil
  | [x] => exact absurd ((List.mem_singleton.1 hd).trans (List.mem_singleton.1 he).symm) differ
  | x :: y :: rest =>
    refine ⟨_, ?_, rfl⟩
    have chosen : s.chosen (x :: y :: rest).length < (x :: y :: rest).length := Nat.mod_lt _ (Nat.succ_pos _)
    rw [List.getD_eq_getElem _ _ chosen]
    exact List.getElem_mem chosen

/-! ### The step that is due -/

theorem State.dueStep_of_leak {s : State} {p : Fin 14} (due : s.leakDue p = true)
    (lowest : ∀ q : Fin 14, q < p → s.leakDue q = false) : s.dueStep = some (s.leak p) := by
  rw [State.dueStep, find_allFin_eq_some.2 ⟨due, lowest⟩]

section
variable {s : State} (noLeak : ∀ p : Fin 14, s.leakDue p = false)
include noLeak

theorem State.dueStep_of_pulse {k : Fin 4} (due : s.pulseEnds k = true)
    (lowest : ∀ l : Fin 4, l < k → s.pulseEnds l = false) : s.dueStep = some (s.endPulse k) := by
  rw [State.dueStep, find_allFin_eq_none.2 noLeak]
  dsimp only
  rw [find_allFin_eq_some.2 ⟨due, lowest⟩]

theorem State.dueStep_of_events (noPulse : ∀ k : Fin 4, s.pulseEnds k = false) :
    s.dueStep = if s.dueEvents = [] then none else some (s.performOne s.dueEvents) := by
  rw [State.dueStep, find_allFin_eq_none.2 noLeak]
  dsimp only
  rw [find_allFin_eq_none.2 noPulse]
  cases s.dueEvents <;> rfl

end

/-! ### The clock runs (log 2) -/

section
variable {s : State} (idle : s.pending = []) (closed : s.frame.stage = .closed)
include idle closed

theorem step_of_dueStep {t : State} (due : s.dueStep = some t) : step s = .next t := by
  rw [step, idle]
  dsimp only
  rw [State.tick, if_pos closed, due]

theorem step_of_late (quiet : s.dueStep = none) (late : s.checkIsLate = true) : step s = exec .checkTimeout s := by
  rw [step, idle]
  dsimp only
  rw [State.tick, if_pos closed, quiet]
  exact congrArg Host.Outcome.next (if_pos late)

/-- R94: with nothing due the next sub-tick is scanned. -/
theorem step_of_quiet (quiet : s.dueStep = none) (inTime : s.checkIsLate = false) (undone : s.clock.slotDone = false) :
    step s = .next s.advance := by
  rw [step, idle]
  dsimp only
  rw [State.tick, if_pos closed, quiet]
  simp [inTime, undone]

end

/-- R94: the next sub-tick moves nothing but scan position, inputs and sub-tick. -/
theorem State.advance_within {s : State} (h : s.clock.subtick < 15) :
    s.advance = { s with
      clock := { s.clock with subtick := s.clock.subtick + 1 }
      scan := { s.scan with pos := s.scan.pos + 1, inputs := s.advance.scan.inputs } } := by
  rw [State.advance, if_pos h]
  rfl

/-- R94, R95, R103, R104: every input is scanned there; a record that waits is taken up. -/
theorem State.advance_scannedTo {s : State} (h : s.clock.subtick < 15) (i : Fin 8) :
    (s.scan.inputs[i]).ScannedTo s.advance.scan.inputs[i] s.plan.inputs[i] (s.scan.pos + 1)
      (s.scan.inputs[i].reload ≠ .no) := by
  rw [State.advance, if_pos h]
  refine State.scanAll_scannedTo ((s.withClock { s.clock with subtick := s.clock.subtick + 1 }).withScan
    { s.scan with pos := s.scan.pos + 1 }) i _ ?_
  simp only [State.rereads, State.withScan_scan, State.withScan_clock, State.withClock_clock]
  cases s.scan.inputs[i].reload <;> simp

/-- Settles O2: what is due by `State.dueStep_of_leak`, `State.dueStep_of_pulse` and `State.dueStep_of_events`, the choice among
edges and deadline by `State.performOne_of_several`, the next sub-tick by `State.advance_within`. -/
theorem ownClock : Obligations.OwnClock := by
  intro s idle closed due
  have due_iff (c : Instr) : due c ↔ ∃ e ∈ s.dueEvents, e.command = c := s.due_iff c
  have runs {t : State} := step_of_dueStep (t := t) idle closed
  refine ⟨fun p leak lowest => ?leak, fun noLeak => ⟨fun k ends lowest => ?pulse, fun noPulse => ?_⟩⟩
  case leak =>
    rw [runs (State.dueStep_of_leak leak lowest)]
    exact congrArg Host.Outcome.next (if_pos leak).symm
  case pulse =>
    have hexec : exec (.pulsePeriodEnd k) s = .next (s.subtickCommand (fun t => t.pulseEnds k) fun t => t.endPulse k) := rfl
    rw [runs (State.dueStep_of_pulse noLeak ends lowest), hexec,
      State.subtickCommand_of_closed closed (s.slotDone_of_pulseEnds k ends), if_pos ends]
  have events := State.dueStep_of_events noLeak noPulse
  refine ⟨fun c hc only => ?single, fun c d hc hd differ => ?several, fun nothing => ?_⟩
  case single =>
    obtain ⟨e, he, rfl⟩ := (due_iff c).1 hc
    have single : s.dueEvents = [e] := by
      refine List.perm_singleton.1 ((List.perm_ext_iff_of_nodup s.nodup_dueEvents (List.nodup_singleton e)).2 fun f => ?_)
      rw [List.mem_singleton]
      refine ⟨fun hf => SubtickEvent.command_injective (only _ ((due_iff _).2 ⟨f, hf, rfl⟩)), ?_⟩
      rintro rfl
      exact he
    rw [exec_command closed he]
    refine runs (events.trans ?_)
    rw [single]
    rfl
  case several =>
    obtain ⟨a, ha, rfl⟩ := (due_iff c).1 hc
    obtain ⟨b, hb, rfl⟩ := (due_iff d).1 hd
    obtain ⟨f, hf, performed⟩ := s.performOne_of_several ha hb fun e => differ (congrArg _ e)
    have chosen : exec f.command s.chose = .next (s.chose.perform f) := exec_command (s := s.chose) closed hf
    refine ⟨f.command, (due_iff _).2 ⟨f, hf, rfl⟩, ?_⟩
    rw [show s.withChoices (s.choices + 1) = s.chose from rfl, chosen, ← performed]
    exact runs (events.trans (if_neg (List.ne_nil_of_mem ha)))
  have quiet : s.dueStep = none := by
    refine events.trans (if_pos (List.eq_nil_iff_forall_not_mem.2 fun e he => ?_))
    exact nothing _ ((due_iff _).2 ⟨e, he, rfl⟩)
  refine ⟨fun check late => ?late, fun inTime undone within => ?next⟩
  case late =>
    refine step_of_late idle closed quiet ?_
    rw [State.checkIsLate, check]
    exact decide_eq_true late
  case next =>
    refine ⟨s.advance.scan.inputs, ?_, State.advance_scannedTo within⟩
    rw [step_of_quiet idle closed quiet inTime undone]
    exact congrArg Host.Outcome.next (State.advance_within within)

end Sys2Proof.Machine
end

