-- ==== Sys2Proof/Proofs/ChatterWindows.lean ====
section
/-! SUPPORT. The end of a chatter window, commanded and by the boundary itself, in LOCKED and at the end of a period outside it
(R100, R102, R130). -/

namespace Sys2Proof.Machine

/-! ### Where a window ends -/

theorem State.chatterEnds_eq (s : State) (n : Nat) (i : Fin 8) :
    s.chatterEnds n i = ((s.scan.inputs[i]).windowOver n && s.scan.inputs[i].chatter) := by
  rw [State.chatterEnds, State.windowEnds_eq]

theorem State.normalWindowEnds_eq (s : State) (n : Nat) (i : Fin 8) :
    s.normalWindowEnds n i = ((s.scan.inputs[i]).windowOver n && !s.scan.inputs[i].chatter) := by
  rw [State.normalWindowEnds, State.windowEnds_eq]

theorem InputScan.windowOver_iff (x : InputScan) (n : Nat) :
    x.windowOver n = true ↔ ∃ w : Nat, x.window = some w ∧ w + Input.window x.cfg ≤ n := by
  cases h : x.window <;> simp [InputScan.windowOver, h]

/-- R100: a window that none holds, or that has not run out, is not over. -/
theorem InputScan.windowOver_false {x : InputScan} {n : Nat}
    (h : ∀ w : Nat, x.window = some w → n < w + Input.window x.cfg) : x.windowOver n = false := by
  refine Bool.eq_false_iff.2 fun isOver => ?_
  obtain ⟨w, window, ended⟩ := (x.windowOver_iff n).1 isOver
  exact absurd ended (Nat.not_le.2 (h w window))

/-! ### What a command comes to -/

/-- R100, R102: at a settled boundary in LOCKED. -/
theorem State.windowCommand_settled {s : State} (locked : s.recv.state = .locked) (settled : s.frame.stage = .settled)
    (ends : State → Nat → Bool) (act : State → State) :
    s.windowCommand ends act = if ends s s.clock.scanFrame then act s else s := by
  simp [State.windowCommand, locked, State.boundaryStep, State.atBoundary_of_settled settled, settled]

theorem State.finishSlot_of_done {s : State} (done : s.clock.slotDone = true) (noLeak : ∀ p : Fin 14, s.leakDue p = false) :
    s.finishSlot = s := by
  have run : State.runSlot 256 s = s := if_pos done
  rw [State.finishSlot, run, State.leaks_of_none noLeak]

/-- R100, R102, R157: at the end of a period outside LOCKED. -/
theorem State.windowCommand_period {s : State} (unlocked : s.recv.state ≠ .locked) (done : s.clock.slotDone = true)
    (noLeak : ∀ p : Fin 14, s.leakDue p = false) (ends : State → Nat → Bool) (act : State → State) :
    s.windowCommand ends act = if ends s (s.clock.scanFrame + 1) then (act s).flush else s := by
  rw [State.windowCommand, if_neg unlocked, State.finishSlot_of_done done noLeak]

theorem State.flush_of_none {s : State} (none : s.rep.made = []) : s.flush = s := by
  have same : ({ s.rep with made := [] } : Report) = s.rep := by rw [← none]
  rw [State.flush, none, same]
  rfl

/-- R102: CHATTER_END, where the window of an input in CHATTER is over, and the record it makes. -/
theorem State.endChatter_eq (s : State) (i : Fin 8) :
    s.endChatter i =
      (s.setInput i { s.scan.inputs[i] with chatter := false, window := none, edges := 0, suppressed := 0 }).plusMade
      [⟨s.stamp.1, s.stamp.2,
        .chatterEnd i s.scan.inputs[i].suppressed s.scan.inputs[i].settled (Input.window s.scan.inputs[i].cfg), true⟩] := rfl

/-- R130: the stamp of a record made in a test. -/
theorem State.stamp_inTest {s : State} (h : s.seq.phase = .running ∨ s.seq.phase = .ending) :
    s.stamp = (s.seq.testNumber, 16 * s.seq.testFrame) := by
  simp only [State.stamp_eq, if_pos h]

/-- R130: the stamp of a record made outside a test. -/
theorem State.stamp_outside {s : State} (h : ¬ (s.seq.phase = .running ∨ s.seq.phase = .ending)) :
    s.stamp = (0, 16 * s.recv.frameCounter % 4294967296) := by
  simp only [State.stamp_eq, if_neg h]

/-! ### The boundary itself -/

/-- R100, R102: of the scanner the boundary touches the inputs alone. -/
theorem State.boundaryApart_scan (s : State) :
    s.boundaryApart.scan = { s.scan with inputs := s.boundaryApart.scan.inputs } := by
  have scan : s.completeFailover.switchOver.serve.checkSlots.scan = s.scan := by simp
  have steps := (State.windowSteps_spec s.completeFailover.switchOver.serve.checkSlots s.clock.scanFrame).1
  rw [scan] at steps
  unfold State.boundaryApart
  exact steps

/-- R102: the boundary makes the CHATTER_END of each input whose CHATTER window is over. -/
theorem State.boundaryApart_chatterEnd {s : State} {i : Fin 8} (chatter : s.scan.inputs[i].chatter = true)
    (isOver : (s.scan.inputs[i]).windowOver s.clock.scanFrame = true) :
    ⟨s.stamp.1, s.stamp.2, .chatterEnd i s.scan.inputs[i].suppressed s.scan.inputs[i].settled
      (Input.window s.scan.inputs[i].cfg), true⟩ ∈ s.boundaryApart.rep.made := by
  have made := (State.windowSteps_spec s.completeFailover.switchOver.serve.checkSlots s.clock.scanFrame).2.2
  have scan : s.completeFailover.switchOver.serve.checkSlots.scan = s.scan := by simp
  have stamp : s.completeFailover.switchOver.serve.checkSlots.stamp = s.stamp := by
    have seq : s.completeFailover.switchOver.serve.checkSlots.seq = s.boundaryApart.seq := by simp [State.boundaryApart]
    have recv : s.completeFailover.switchOver.serve.checkSlots.recv = s.recv := by simp
    rw [State.stamp, State.outTime, seq, recv, State.boundaryApart_seq]
    rfl
  rw [State.boundaryApart, made]
  refine List.mem_append_right _ (List.mem_filterMap.2 ⟨i, mem_allFin i, ?_⟩)
  rw [State.chatterRecord, scan, stamp]
  exact if_pos ⟨chatter, isOver⟩

/-! ### The commands -/

section
variable {s : State}

theorem exec_chatterEnd_settled (locked : s.recv.state = .locked) (settled : s.frame.stage = .settled) (i : Fin 8) :
    exec (.chatterEnd i) s = .next (if (s.scan.inputs[i]).windowOver s.clock.scanFrame && s.scan.inputs[i].chatter
      then s.endChatter i else s) := by
  have hexec : exec (.chatterEnd i) s =
      .next (s.windowCommand (fun t n => t.chatterEnds n i) fun t => t.endChatter i) := rfl
  rw [hexec, State.windowCommand_settled locked settled, State.chatterEnds_eq]

theorem exec_chatterWindowClose_settled (locked : s.recv.state = .locked) (settled : s.frame.stage = .settled) (i : Fin 8) :
    exec (.chatterWindowClose i) s = .next (if (s.scan.inputs[i]).windowOver s.clock.scanFrame && !s.scan.inputs[i].chatter
      then s.closeWindowOf i else s) := by
  have hexec : exec (.chatterWindowClose i) s =
      .next (s.windowCommand (fun t n => t.normalWindowEnds n i) fun t => t.closeWindowOf i) := rfl
  rw [hexec, State.windowCommand_settled locked settled, State.normalWindowEnds_eq]

variable (unlocked : s.recv.state ≠ .locked) (done : s.clock.slotDone = true) (noLeak : ∀ p : Fin 14, s.leakDue p = false)
include unlocked done noLeak

theorem exec_chatterEnd_period (i : Fin 8) :
    exec (.chatterEnd i) s = .next (if (s.scan.inputs[i]).windowOver (s.clock.scanFrame + 1) && s.scan.inputs[i].chatter
      then (s.endChatter i).flush else s) := by
  have hexec : exec (.chatterEnd i) s =
      .next (s.windowCommand (fun t n => t.chatterEnds n i) fun t => t.endChatter i) := rfl
  rw [hexec, State.windowCommand_period unlocked done noLeak, State.chatterEnds_eq]

theorem exec_chatterWindowClose_period (none : s.rep.made = []) (i : Fin 8) :
    exec (.chatterWindowClose i) s = .next (if (s.scan.inputs[i]).windowOver (s.clock.scanFrame + 1)
      && !s.scan.inputs[i].chatter then s.closeWindowOf i else s) := by
  have hexec : exec (.chatterWindowClose i) s =
      .next (s.windowCommand (fun t n => t.normalWindowEnds n i) fun t => t.closeWindowOf i) := rfl
  have closed : (s.closeWindowOf i).flush = s.closeWindowOf i := State.flush_of_none (by simpa using none)
  rw [hexec, State.windowCommand_period unlocked done noLeak, State.normalWindowEnds_eq, closed]

end

/-- R102, R131: what becomes of the CHATTER_END made at the end of a period. -/
theorem State.endChatter_flush {s : State} (none : s.rep.made = [])
    (outside : ¬ (s.seq.phase = .running ∨ s.seq.phase = .ending)) (i : Fin 8) :
    let x := s.scan.inputs[i]
    let t := (s.endChatter i).flush
    t = (s.setInput i { x with chatter := false, window := .none, edges := 0, suppressed := 0 }).withRep t.rep
      ∧ s.rep.SameSending t.rep ∧ t.rep.buffers = s.rep.buffers
      ∧ (s.rep.queue.length < 104 → t.rep.queue = s.rep.queue ++
          [⟨s.rep.discard, 0, 16 * s.recv.frameCounter % 4294967296, .chatterEnd i x.suppressed x.settled (Input.window x.cfg)⟩]) := by
  intro x t
  have same : ({ s.rep with made := [] } : Report) = s.rep := by rw [← none]
  have rep : t.rep = s.rep.admitOne ⟨0, 16 * s.recv.frameCounter % 4294967296,
      .chatterEnd i x.suppressed x.settled (Input.window x.cfg), true⟩ := by
    change (s.endChatter i).flush.rep = _
    rw [State.endChatter_eq, State.stamp_outside outside, State.flush, State.plusMade]
    simp only [State.withRep_rep, State.setInput_frame, none, List.nil_append, same]
    rfl
  refine ⟨rfl, ?_, ?_, fun room => ?_⟩
  · simp [Report.SameSending, rep]
  · simp [rep]
  · rw [rep, Report.admitOne_of_room room]

/-- Settles O20: a command by what it comes to (`exec_chatterEnd_settled` and the like), the boundary itself by
`State.boundaryApart_inputs` and `State.boundaryApart_chatterEnd`. -/
theorem chatterWindows : Obligations.ChatterWindows := by
  intro i s x put closed quiet body inTest
  have isOver {n w : Nat} (window : x.window = some w) (ended : w + Input.window x.cfg ≤ n) : x.windowOver n = true :=
    (x.windowOver_iff n).2 ⟨w, window, ended⟩
  refine ⟨fun locked settled w window => ?boundary, fun locked settled noWindow => ?noWindow, fun settled => ?itself,
    fun unlocked done noLeak none idle w window ended => ?period, fun unlocked done noLeak none idle early => ?early⟩
  case boundary =>
    rw [exec_chatterEnd_settled locked settled, exec_chatterWindowClose_settled locked settled]
    refine ⟨fun chatter ended test => ?_, fun chatter ended outside => ?_, fun chatter => ?_, fun normal ended => ?_,
      fun normal => ?_, fun early => ?_⟩
    · rw [isOver window ended, chatter, State.endChatter_eq, State.stamp_inTest test]
      rfl
    · rw [isOver window ended, chatter, State.endChatter_eq, State.stamp_outside outside]
      rfl
    · rw [chatter, Bool.not_true, Bool.and_false]
      rfl
    · rw [isOver window ended, normal]
      rfl
    · rw [normal, Bool.and_false]
      rfl
    · rw [InputScan.windowOver_false fun v other => Option.some.inj (window.symm.trans other) ▸ early]
      exact ⟨rfl, rfl⟩
  case noWindow =>
    rw [exec_chatterEnd_settled locked settled, exec_chatterWindowClose_settled locked settled,
      InputScan.windowOver_false fun w window => nomatch noWindow.symm.trans window]
    exact ⟨rfl, rfl⟩
  case itself =>
    have ready : s.ready.scan = s.boundaryApart.scan := by simp [State.ready, settled, State.latchZero]
    have made := s.boundaryApart_chatterEnd (i := i)
    rw [ready]
    refine ⟨s.boundaryApart_scan, (s.boundaryApart_inputs i).2, fun chatter ended =>
      ⟨fun test => ?_, fun outside => ?_⟩⟩
    · rw [State.stamp_inTest test] at made
      exact made chatter ended
    · rw [State.stamp_outside outside] at made
      exact made chatter ended
  case period =>
    have outside : ¬ (s.seq.phase = .running ∨ s.seq.phase = .ending) := by simp [idle]
    rw [exec_chatterEnd_period unlocked done noLeak, exec_chatterWindowClose_period unlocked done noLeak none,
      isOver window ended]
    refine ⟨fun normal => ?_, fun chatter => ?_, fun chatter => ?_⟩
    · rw [normal]
      exact ⟨rfl, rfl⟩
    · rw [chatter]
      rfl
    · rw [chatter]
      exact ⟨_, rfl, State.endChatter_flush none outside i⟩
  case early =>
    rw [exec_chatterEnd_period unlocked done noLeak, exec_chatterWindowClose_period unlocked done noLeak none,
      InputScan.windowOver_false early]
    exact ⟨rfl, rfl⟩

end Sys2Proof.Machine
end

