-- ==== Sys2Proof/Proofs/EdgeConsumers.lean ====
section
/-! SUPPORT. How an accepted edge is counted, what it makes of its consumers, and how its record joins theirs (R20, R98 to R101,
R108, R110). -/

namespace Sys2Proof.Machine

/-! ### The edge is counted (R100, R101) -/

/-- R100: the edges of the window of input `x`, with one accepted now. -/
def InputScan.edgesNow (x : InputScan) : Nat := if x.window = none then 1 else x.edges + 1

section
variable {x : InputScan} (frame : Nat)

theorem InputScan.countEdge_off (off : Input.limit x.cfg = 0) : x.countEdge frame = (x, .plain) := if_pos off

variable (on : Input.limit x.cfg ≠ 0)
include on

theorem InputScan.countEdge_suppressed (chatter : x.chatter = true) :
    x.countEdge frame =
      ({ x with suppressed := min 65535 (x.suppressed + 1), window := some frame }, .suppressed) := by
  rw [InputScan.countEdge, if_neg on, if_pos chatter]
  rfl

theorem InputScan.countEdge_normal (normal : x.chatter = false) (few : x.edgesNow ≤ Input.limit x.cfg) :
    x.countEdge frame = ({ x with window := some (x.window.getD frame), edges := x.edgesNow }, .plain) := by
  unfold InputScan.edgesNow at *
  cases h : x.window <;> simp_all [InputScan.countEdge]

theorem InputScan.countEdge_enters (normal : x.chatter = false) (many : Input.limit x.cfg < x.edgesNow) :
    x.countEdge frame =
      ({ x with chatter := true, suppressed := 1, window := some frame, edges := x.edgesNow },
        .chatterStart x.edgesNow (frame + 1 - x.window.getD frame)) := by
  unfold InputScan.edgesNow at *
  cases h : x.window <;> simp_all [InputScan.countEdge]

end

/-! ### The consumers of an edge -/

/-- From `r` to `q` the consumers of an edge have worked: they have made at most `n` records, BREAKERs and TIMER_RESULTs,
replaced buffers, and left the rest of the Report Unit alone but for its attention. -/
def Report.Consumed (n : Nat) (r q : Report) : Prop :=
  r.OfferedTo q ∧ ∃ later : List Made, q.made = r.made ++ later ∧ later.length ≤ n
    ∧ ∀ m ∈ later, recordType m.body = 8 ∨ recordType m.body = 9

theorem Report.Consumed.refl (n : Nat) (r : Report) : Report.Consumed n r r := ⟨.refl r, [], by simp, by simp, by simp⟩

theorem Report.Consumed.trans {n k : Nat} {r q p : Report} (h : Report.Consumed n r q) (h' : Report.Consumed k q p) :
    Report.Consumed (n + k) r p := by
  obtain ⟨offered, a, made, short, types⟩ := h
  obtain ⟨offered', b, made', short', types'⟩ := h'
  refine ⟨offered.trans offered', a ++ b, by rw [made', made, List.append_assoc], ?_, fun m hm => ?_⟩
  · rw [List.length_append]
    omega
  · exact (List.mem_append.1 hm).elim (types m) (types' m)

theorem State.make_consumed (s : State) (n time : Nat) {b : Body} (h : recordType b = 8 ∨ recordType b = 9) :
    Report.Consumed 1 s.rep (s.make n time b).rep := by
  refine ⟨rfl, _, rfl, le_rfl, fun m hm => ?_⟩
  rw [List.mem_singleton.1 hm]
  exact h

/-- R121: a slot that is stopped makes its result. -/
theorem State.stopSlot_consumed (s : State) (k : Fin 8) (t : Nat) (bo : Bool) :
    Report.Consumed 1 s.rep (s.stopSlot k t bo).rep := by
  unfold State.stopSlot
  dsimp only
  split
  · exact .refl 1 _
  · split
    · exact State.make_consumed (s.setSlot k _) _ _ (.inr rfl)
    · exact .refl 1 _

theorem State.offerSlot_consumed (ev : Cond) (stamp : Nat) (bo : Bool) (s : State) (k : Fin 8) :
    Report.Consumed 1 s.rep (State.offerSlot ev stamp bo s k).rep := by
  unfold State.offerSlot
  dsimp only
  split
  case h_2 =>
    split
    · exact s.stopSlot_consumed k stamp bo
    · exact .refl 1 _
  all_goals (repeat' split) <;> exact .refl 1 _

theorem State.offerSlots_consumed (ev : Cond) (stamp : Nat) (bo : Bool) (l : List (Fin 8)) (s : State) :
    Report.Consumed l.length s.rep (l.foldl (State.offerSlot ev stamp bo) s).rep := by
  induction l generalizing s with
  | nil => exact .refl 0 _
  | cons k l ih =>
    rw [List.length_cons, Nat.add_comm]
    exact (State.offerSlot_consumed ev stamp bo s k).trans (ih _)

theorem State.offerTimers_consumed (s : State) (ev : Cond) (stamp : Nat) (bo : Bool) :
    Report.Consumed 8 s.rep (s.offerTimers ev stamp bo).rep := by
  unfold State.offerTimers
  split
  · exact State.offerSlots_consumed ev stamp bo (allFin 8) s
  · exact .refl 8 _

theorem State.offerCapture_consumed (s : State) (ev : Cond) (stamp : Nat) :
    Report.Consumed 0 s.rep (s.offerCapture ev stamp).rep :=
  ⟨s.offerCapture_offeredTo ev stamp, [], by simp [(s.offerCapture_rep ev stamp).1], le_rfl, by simp⟩

/-- R120, R136. -/
theorem State.offer_consumed (s : State) (ev : Cond) (stamp : Nat) (bo : Bool) :
    Report.Consumed 8 s.rep (s.offer ev stamp bo).rep :=
  (s.offerTimers_consumed ev stamp bo).trans (State.offerCapture_consumed _ ev stamp)

/-! ### The breaker -/

theorem Brk.on_iff (p : Payload) : Brk.on p = true ↔ p[0] = 1 := by
  have h := Payload.u8_eq_ofNat_iff p 0 (by omega) 1 (by omega)
  simpa [Brk.on] using h

theorem Brk.trip_eq (p : Payload) : Brk.trip p = p[1].toNat := Payload.u8_eq p 1 (by omega)

/-- R110: a trip edge of input `i` finds the breaker CLOSING. -/
def State.TripFree (s : State) (i : Fin 8) : Prop :=
  s.plan.breaker[0] = 1 ∧ s.plan.breaker[1].toNat = i.val ∧ s.brk.state = .closing

theorem State.breakerReached_consumed (s : State) (opened tripFree : Bool) (input edgeStamp : Nat) (edgeBo : Bool)
    (operating : Nat) (t : Int) :
    Report.Consumed 9 s.rep (s.breakerReached opened tripFree input edgeStamp edgeBo operating t).rep := by
  unfold State.breakerReached
  dsimp only
  refine Report.Consumed.trans (n := 1) (k := 8) ?_ (State.offer_consumed _ _ _ _)
  exact State.make_consumed (s.withBrk _) _ _ (.inl rfl)

theorem State.tripFree_consumed (s : State) (input stamp : Nat) (bo : Bool) :
    Report.Consumed 9 s.rep (s.tripFree input stamp bo).rep := by
  unfold State.tripFree
  split
  · exact s.breakerReached_consumed ..
  · exact .refl 9 _

theorem State.breakerEdge_consumed (s : State) (i : Fin 8) (stamp : Nat) (bo : Bool) :
    Report.Consumed 9 s.rep (s.breakerEdge i stamp bo).rep := by
  unfold State.breakerEdge
  dsimp only
  split
  · split
    case h_4 =>
      split
      · exact s.tripFree_consumed i stamp bo
      · exact .refl 9 _
    all_goals (try split) <;> exact .refl 9 _
  · exact .refl 9 _

/-- R108: an edge that meets no breaker CLOSING reaches neither timers nor Report Unit by way of the breaker. -/
theorem State.breakerEdge_quiet {s : State} {i : Fin 8} (h : ¬ s.TripFree i) (stamp : Nat) (bo : Bool) :
    (s.breakerEdge i stamp bo).timers = s.timers ∧ (s.breakerEdge i stamp bo).rep = s.rep := by
  unfold State.breakerEdge
  dsimp only
  split
  · next on =>
    split
    case h_4 closing =>
      rw [if_neg fun trip => h ⟨(Brk.on_iff _).1 on, Brk.trip_eq _ ▸ trip, closing⟩]
      exact ⟨rfl, rfl⟩
    all_goals (try split) <;> exact ⟨rfl, rfl⟩
  · exact ⟨rfl, rfl⟩

/-! ### The edge is handed to its consumers (R98) -/

/-- R98, R120: the event that an accepted edge of input `i` is. -/
def edgeEvent (i : Fin 8) (active : Bool) : Cond := ⟨if active then .inputActive else .inputInactive, i⟩

/-- R20: an active edge of input `i` makes a start request, in ARMED: it is the start input, no request is pending, and the
queue holds no TEST_END. -/
def State.StartsBy (s : State) (i : Fin 8) : Prop :=
  s.seq.request = .none ∧ s.testEndQueued = false ∧ Globals.startInputMode s.plan.globals = true
    ∧ Globals.startInput s.plan.globals = i.val

theorem State.startTrigger_of {s : State} {i : Fin 8} (h : s.StartsBy i) (start : Nat) :
    s.startTrigger i start = s.withSeq { s.seq with
      request := .start ⟨.input, i, Globals.lat s.plan.globals + (s.scan.pos + 16 - s.clock.subtick - start)⟩ } :=
  if_pos (by simpa [State.StartsBy] using h)

theorem State.startTrigger_of_not {s : State} {i : Fin 8} (start : Nat) (h : ¬ s.StartsBy i) : s.startTrigger i start = s :=
  if_neg (by simpa [State.StartsBy] using h)

section
variable {s : State} (i : Fin 8) (active : Bool) (start stamp : Nat) (bo : Bool)

theorem State.deliver_inTest (test : s.seq.phase = .running ∨ s.seq.phase = .ending) :
    s.deliver i active start stamp bo =
      if active then (s.offer (edgeEvent i active) stamp bo).breakerEdge i stamp bo
      else s.offer (edgeEvent i active) stamp bo := by
  rcases test with test | test <;> rw [State.deliver, test] <;> rfl

theorem State.deliver_armed (armed : s.seq.phase = .armed) :
    s.deliver i active start stamp bo = if active then s.startTrigger i start else s := by
  rw [State.deliver, armed]

theorem State.deliver_idle (idle : s.seq.phase = .idle ∨ s.seq.phase = .verifying) :
    s.deliver i active start stamp bo = s := by
  rcases idle with idle | idle <;> rw [State.deliver, idle]

/-- R98: outside a test no edge reaches timers or Report Unit. -/
theorem State.deliver_outside (outside : ¬ (s.seq.phase = .running ∨ s.seq.phase = .ending)) :
    (s.deliver i active start stamp bo).timers = s.timers ∧ (s.deliver i active start stamp bo).rep = s.rep := by
  cases phase : s.seq.phase with
  | armed =>
    rw [State.deliver_armed i active start stamp bo phase]
    split <;> simp
  | idle | verifying => simp [State.deliver_idle i active start stamp bo, phase]
  | running | ending => simp [phase] at outside

/-- R98: but for a start request, no edge touches the Sequencer. -/
theorem State.deliver_seq (h : ¬ (s.seq.phase = .armed ∧ active = true ∧ s.StartsBy i)) :
    (s.deliver i active start stamp bo).seq = s.seq := by
  cases phase : s.seq.phase with
  | idle | verifying => rw [State.deliver_idle i active start stamp bo (by simp [phase])]
  | armed =>
    rw [State.deliver_armed i active start stamp bo phase]
    split
    · next ha => rw [State.startTrigger_of_not start fun starts => h ⟨phase, ha, starts⟩]
    · rfl
  | running | ending =>
    rw [State.deliver_inTest i active start stamp bo (by simp [phase])]
    split <;> simp

theorem State.deliver_consumed (s : State) : Report.Consumed 17 s.rep (s.deliver i active start stamp bo).rep := by
  by_cases test : s.seq.phase = .running ∨ s.seq.phase = .ending
  · have offered := s.offer_consumed (edgeEvent i active) stamp bo
    rw [State.deliver_inTest i active start stamp bo test]
    split
    · exact offered.trans (State.breakerEdge_consumed _ i stamp bo)
    · exact offered.trans (.refl 9 _)
  · rw [(State.deliver_outside i active start stamp bo test).2]
    exact .refl 17 _

/-- R98: in a test an edge that does not find the breaker CLOSING reaches timers and capture trigger by its own event alone. -/
theorem State.deliver_offers (test : s.seq.phase = .running ∨ s.seq.phase = .ending)
    (quiet : ¬ (active = true ∧ s.TripFree i)) :
    (s.deliver i active start stamp bo).timers = (s.offer (edgeEvent i active) stamp bo).timers
      ∧ (s.deliver i active start stamp bo).rep = (s.offer (edgeEvent i active) stamp bo).rep := by
  rw [State.deliver_inTest i active start stamp bo test]
  split
  · next ha =>
    refine State.breakerEdge_quiet (fun trip => quiet ⟨ha, ?_⟩) stamp bo
    simpa [State.TripFree] using trip
  · exact ⟨rfl, rfl⟩

end

/-! ### The scanner's record joins (R99, R101, R128) -/

/-- The scanner's record joins those that the consumers have made, `later`; those made before stay in front. -/
theorem State.joinEdgeRecord_rep {s : State} {before later : List Made} (made : s.rep.made = before ++ later)
    (m : Option Made) :
    ∃ ms : List Made, (s.joinEdgeRecord before m).rep = { s.rep with made := before ++ ms }
      ∧ ms.Perm (later ++ m.toList) := by
  unfold State.joinEdgeRecord
  cases m with
  | none => exact ⟨later, by rw [← made], by simp⟩
  | some m =>
    have drop : s.rep.made.drop before.length = later := by rw [made, List.drop_left]
    dsimp only
    split
    · exact ⟨later ++ [m], by simp [made], .refl _⟩
    · split
      · exact ⟨m :: later, by simp [drop], (List.perm_append_singleton m later).symm⟩
      · exact ⟨later ++ [m], by simp [made], .refl _⟩

end Sys2Proof.Machine
end

