-- ==== Sys2Proof/Proofs/AcceptedEdges.lean ====
section
/-! SUPPORT. ACCEPTED_EDGE: what it makes of its input, of latches, timers and buffers, and of the queue (R20, R24, R96 to
R101). -/

namespace Sys2Proof.Machine

/-! ### The edge, step by step -/

section
variable (s : State) (i : Fin 8) (c : Candidate)

/-- R100, R101: what the counting of the edge of candidate `c` makes of input `i`, and what it leads to. -/
def State.countedEdge : InputScan × EdgeKind :=
  ({ s.scan.inputs[i] with settled := c.active, cand := none, acted := true } : InputScan).countEdge s.clock.scanFrame

/-- R96: the input with the edge accepted, before it is handed to its consumers. -/
def State.edgeCounted : State := s.setInput i { (s.countedEdge i c).1 with bounce := 0 }

@[simp] theorem State.edgeCounted_frame :
    (s.edgeCounted i c).recv = s.recv ∧ (s.edgeCounted i c).clock = s.clock ∧ (s.edgeCounted i c).plan = s.plan
    ∧ (s.edgeCounted i c).seq = s.seq ∧ (s.edgeCounted i c).eng = s.eng ∧ (s.edgeCounted i c).out = s.out
    ∧ (s.edgeCounted i c).sup = s.sup ∧ (s.edgeCounted i c).brk = s.brk ∧ (s.edgeCounted i c).lines = s.lines
    ∧ (s.edgeCounted i c).timers = s.timers ∧ (s.edgeCounted i c).rep = s.rep ∧ (s.edgeCounted i c).frame = s.frame
    ∧ (s.edgeCounted i c).scan.pos = s.scan.pos ∧ (s.edgeCounted i c).scan.origin = s.scan.origin := by
  unfold State.edgeCounted
  simp [State.setInput]

theorem State.edgeCounted_startsBy : (s.edgeCounted i c).StartsBy i ↔ s.StartsBy i := by
  simp [State.StartsBy, State.testEndQueued]

theorem State.edgeCounted_tripFree : (s.edgeCounted i c).TripFree i ↔ s.TripFree i := by
  simp [State.TripFree]

/-- R97, R98: the edge handed to its consumers with its stamp. -/
def State.edgeDelivered : State :=
  (s.edgeCounted i c).deliver i c.active c.start (s.edgeTime c.start).toNat (decide (s.edgeTime c.start < 0))

/-- R99, R101: the scanner's record of the edge. -/
def State.recordOfEdge : Option Made :=
  s.edgeRecord i c.active s.scan.inputs[i].bounce (s.edgeTime c.start).toNat (decide (s.edgeTime c.start < 0))
    (s.countedEdge i c).2

/-- The edge with its record made, before latches and queue. -/
def State.edgeJoined : State := (s.edgeDelivered i c).joinEdgeRecord s.rep.made (s.recordOfEdge i c)

variable {s i c}

theorem State.acceptStep_eq (cand : s.scan.inputs[i].cand = some c) :
    s.acceptStep i = ((s.edgeJoined i c).latchRisen s).flush := by
  rw [State.acceptStep, State.acceptEdge]
  dsimp only
  rw [cand]
  rfl

/-! ### Input, Sequencer and consumers -/

theorem State.acceptStep_scan (cand : s.scan.inputs[i].cand = some c) : (s.acceptStep i).scan = (s.edgeCounted i c).scan := by
  simp [State.acceptStep_eq cand, State.edgeJoined, State.edgeDelivered]

theorem State.acceptStep_input (cand : s.scan.inputs[i].cand = some c) :
    (s.acceptStep i).scan.inputs[i] = { (s.countedEdge i c).1 with bounce := 0 } := by
  rw [State.acceptStep_scan cand]
  exact s.setInput_input i _

theorem State.edgeJoined_seq (s : State) (i : Fin 8) (c : Candidate) : (s.edgeJoined i c).seq = (s.edgeDelivered i c).seq := by
  simp [State.edgeJoined]

/-- R98: where no start request is made, the edge leaves the Sequencer alone, until the latches are set. -/
theorem State.edgeDelivered_seq (h : ¬ (s.seq.phase = .armed ∧ c.active = true ∧ s.StartsBy i)) :
    (s.edgeDelivered i c).seq = s.seq := by
  rw [State.edgeDelivered, State.deliver_seq]
  · simp
  · simpa [State.edgeCounted_startsBy] using h

/-- R20. -/
theorem State.edgeDelivered_starts (armed : s.seq.phase = .armed) (active : c.active = true) (starts : s.StartsBy i) :
    (s.edgeDelivered i c).seq = { s.seq with
      request := .start ⟨.input, i, Globals.lat s.plan.globals + (s.scan.pos + 16 - s.clock.subtick - c.start)⟩ } := by
  rw [State.edgeDelivered, State.deliver_armed _ _ _ _ _ (by simpa using armed), if_pos active,
    State.startTrigger_of ((s.edgeCounted_startsBy i c).2 starts)]
  simp

theorem State.acceptStep_latched (cand : s.scan.inputs[i].cand = some c) :
    (s.acceptStep i).seq = ((s.edgeJoined i c).latchRisen s).seq := by
  rw [State.acceptStep_eq cand]
  simp

/-- R20, R98: of the Sequencer an edge reaches the request alone, until the latches are set. -/
theorem State.edgeDelivered_request (s : State) (i : Fin 8) (c : Candidate) :
    (s.edgeDelivered i c).seq = { s.seq with request := (s.edgeDelivered i c).seq.request } := by
  by_cases starts : s.seq.phase = .armed ∧ c.active = true ∧ s.StartsBy i
  · obtain ⟨armed, active, starts⟩ := starts
    rw [State.edgeDelivered_starts armed active starts]
  · rw [State.edgeDelivered_seq starts]

theorem State.acceptStep_seq (cand : s.scan.inputs[i].cand = some c) :
    (s.acceptStep i).seq = { s.seq with
      request := (s.edgeDelivered i c).seq.request, latches := (s.acceptStep i).seq.latches } := by
  have latched : (s.acceptStep i).seq = { (s.edgeDelivered i c).seq with latches := (s.acceptStep i).seq.latches } := by
    rw [← State.edgeJoined_seq, State.acceptStep_latched cand]
    exact (State.latchBy_seq _ _).1
  rwa [State.edgeDelivered_request] at latched

theorem State.acceptStep_request (cand : s.scan.inputs[i].cand = some c) :
    (s.acceptStep i).seq.request = (s.edgeDelivered i c).seq.request := by
  rw [State.acceptStep_seq cand]

/-- R24: what the conditions of the exits are read from. -/
theorem State.holds_congr {s t : State} (scan : t.scan = s.scan) (brk : t.brk = s.brk) (timers : t.timers = s.timers)
    (eng : t.eng = s.eng) (part0 : t.part0 = s.part0) (frames : t.seq.framesInState = s.seq.framesInState) :
    t.holds = s.holds := by
  funext c
  unfold State.holds
  rw [scan, brk, timers, eng, part0, frames]

/-- R24: the exit latches follow. -/
theorem State.acceptStep_latchesFollow (cand : s.scan.inputs[i].cand = some c) : s.LatchesFollow (s.acceptStep i) := by
  by_cases starts : s.seq.phase = .armed ∧ c.active = true ∧ s.StartsBy i
  · obtain ⟨armed, active, starts⟩ := starts
    have phase : (s.edgeJoined i c).seq.phase = .armed := by
      rw [State.edgeJoined_seq, State.edgeDelivered_starts armed active starts, armed]
    have clear (k : Fin 4) : (s.acceptStep i).seq.latches[k] = false := by
      rw [State.acceptStep_latched cand, State.latchRisen, ((s.edgeJoined i c).latchBy_seq _).2 k, phase]
      rfl
    exact fun k => ⟨fun running => absurd (armed.symm.trans running) (by decide), fun _ => clear k⟩
  · have seq : (s.edgeJoined i c).seq = s.seq := (s.edgeJoined_seq i c).trans (State.edgeDelivered_seq starts)
    refine State.latchRisen_latchesFollow (t := s.edgeJoined i c) seq (by simp [State.edgeJoined, State.edgeDelivered])
      (State.acceptStep_latched cand) ?_
    have stay : ((s.edgeJoined i c).latchRisen s).seq.stateInForce = (s.edgeJoined i c).seq.stateInForce
        ∧ ((s.edgeJoined i c).latchRisen s).seq.framesInState = (s.edgeJoined i c).seq.framesInState := ⟨rfl, rfl⟩
    rw [State.acceptStep_eq cand]
    exact State.holds_congr (by simp) (by simp) (by simp) (by simp) (by simp [State.part0, stay.1]) (by simp [stay.2])

theorem State.acceptStep_timers (cand : s.scan.inputs[i].cand = some c) :
    (s.acceptStep i).timers = (s.edgeDelivered i c).timers := by
  simp [State.acceptStep_eq cand, State.edgeJoined]

theorem State.edgeDelivered_consumed (s : State) (i : Fin 8) (c : Candidate) :
    Report.Consumed 17 s.rep (s.edgeDelivered i c).rep := by
  have consumed := State.deliver_consumed i c.active c.start (s.edgeTime c.start).toNat (decide (s.edgeTime c.start < 0))
    (s.edgeCounted i c)
  have same : (s.edgeCounted i c).rep = s.rep := by simp
  rwa [same] at consumed

/-- R99, R101, R131: what the Report Unit holds before the records are offered: those of the consumers and the scanner's. -/
theorem State.edgeJoined_rep (s : State) (i : Fin 8) (c : Candidate) :
    s.rep.OfferedTo (s.edgeJoined i c).rep ∧ (s.edgeJoined i c).rep.buffers = (s.edgeDelivered i c).rep.buffers
      ∧ ∃ later ms : List Made, (s.edgeJoined i c).rep.made = s.rep.made ++ ms
        ∧ ms.Perm (later ++ (s.recordOfEdge i c).toList) ∧ later.length ≤ 17
        ∧ ∀ m ∈ later, recordType m.body = 8 ∨ recordType m.body = 9 := by
  obtain ⟨offered, later, made, short, types⟩ := s.edgeDelivered_consumed i c
  obtain ⟨ms, rep, perm⟩ := State.joinEdgeRecord_rep made (s.recordOfEdge i c)
  rw [State.edgeJoined, rep]
  exact ⟨offered.trans rfl, rfl, later, ms, rfl, perm, short, types⟩

theorem State.acceptStep_buffers (cand : s.scan.inputs[i].cand = some c) :
    (s.acceptStep i).rep.buffers = (s.edgeDelivered i c).rep.buffers := by
  obtain ⟨-, buffers, -⟩ := s.edgeJoined_rep i c
  rw [State.acceptStep_eq cand, ← buffers]
  simp [State.flush]

/-- R139: what the Report Unit sends stays. -/
theorem State.acceptStep_sending (cand : s.scan.inputs[i].cand = some c) : s.rep.SameSending (s.acceptStep i).rep := by
  obtain ⟨offered, -⟩ := s.edgeJoined_rep i c
  rw [State.acceptStep_eq cand]
  simp only [Report.SameSending, State.flush, State.withRep_rep, State.latchRisen_frame, Report.admitAll_frame]
  rw [offered]
  exact ⟨rfl, rfl, rfl, rfl⟩

/-- R98: outside a test timers and buffers stay. -/
theorem State.acceptStep_outside (cand : s.scan.inputs[i].cand = some c)
    (outside : ¬ (s.seq.phase = .running ∨ s.seq.phase = .ending)) :
    (s.acceptStep i).timers = s.timers ∧ (s.acceptStep i).rep.buffers = s.rep.buffers := by
  obtain ⟨timers, rep⟩ := State.deliver_outside (s := s.edgeCounted i c) i c.active c.start (s.edgeTime c.start).toNat
    (decide (s.edgeTime c.start < 0)) (by simpa using outside)
  rw [State.acceptStep_timers cand, State.acceptStep_buffers cand, State.edgeDelivered, timers, rep]
  simp

/-- R98, R120, R136: in a test the edge is offered to timers and capture trigger. -/
theorem State.acceptStep_offers (cand : s.scan.inputs[i].cand = some c)
    (test : s.seq.phase = .running ∨ s.seq.phase = .ending) (quiet : ¬ (c.active = true ∧ s.TripFree i)) :
    (s.acceptStep i).timers = (s.offerTimers (edgeEvent i c.active) (s.edgeTime c.start).toNat
        (decide (s.edgeTime c.start < 0))).timers
      ∧ (s.acceptStep i).rep.buffers = (s.offerCapture (edgeEvent i c.active) (s.edgeTime c.start).toNat).rep.buffers := by
  obtain ⟨timers, rep⟩ := State.deliver_offers (s := s.edgeCounted i c) i c.active c.start (s.edgeTime c.start).toNat
    (decide (s.edgeTime c.start < 0)) (by simpa using test) (by simpa [State.edgeCounted_tripFree] using quiet)
  have timersAlike : s.TimersAlike (s.edgeCounted i c) := by simp [State.TimersAlike]
  have captureAlike : s.CaptureAlike (s.edgeCounted i c) := by simp [State.CaptureAlike]
  rw [State.acceptStep_timers cand, State.acceptStep_buffers cand, State.edgeDelivered, timers, rep]
  obtain ⟨offered, -, -⟩ := timersAlike.offerTimers (edgeEvent i c.active) (s.edgeTime c.start).toNat
    (decide (s.edgeTime c.start < 0))
  obtain ⟨-, -, captured⟩ := (captureAlike.offerTimers (edgeEvent i c.active) (s.edgeTime c.start).toNat
    (decide (s.edgeTime c.start < 0))).offerCapture (edgeEvent i c.active) (s.edgeTime c.start).toNat
  refine ⟨by simpa [State.offer] using offered, ?_⟩
  rw [State.offer, captured]

/-! ### The records that join the queue -/

/-- R131: while there is room the scanner's record joins. -/
theorem State.acceptStep_joins (cand : s.scan.inputs[i].cand = some c) (none : s.rep.made = [])
    (room : s.rep.queue.length ≤ 64) {m : Made} (record : s.recordOfEdge i c = some m) :
    ∃ r ∈ (s.acceptStep i).rep.queue.drop s.rep.queue.length,
      r.testNo = m.testNo ∧ r.time = m.time ∧ r.body = m.body := by
  obtain ⟨offered, -, later, ms, made, perm, short, -⟩ := s.edgeJoined_rep i c
  rw [none, List.nil_append] at made
  rw [record] at perm
  have rep : ((s.edgeJoined i c).latchRisen s).rep = (s.edgeJoined i c).rep := by simp
  have queue : (s.edgeJoined i c).rep.queue = s.rep.queue := by rw [offered]
  have joined := State.flush_joined (w := (s.edgeJoined i c).latchRisen s) (m := m)
  rw [rep, queue, made, perm.length_eq] at joined
  rw [State.acceptStep_eq cand]
  refine joined ?_ (perm.mem_iff.2 (by simp))
  simp
  omega

/-- R131: what joins comes from the consumers, or is the scanner's. -/
theorem State.acceptStep_only (cand : s.scan.inputs[i].cand = some c) (none : s.rep.made = []) :
    s.rep.queue <+: (s.acceptStep i).rep.queue
      ∧ ∀ r ∈ (s.acceptStep i).rep.queue.drop s.rep.queue.length,
        recordType r.body = 8 ∨ recordType r.body = 9 ∨ ∃ m : Made, s.recordOfEdge i c = some m ∧ r.body = m.body := by
  obtain ⟨offered, -, later, ms, made, perm, -, types⟩ := s.edgeJoined_rep i c
  rw [none, List.nil_append] at made
  have rep : ((s.edgeJoined i c).latchRisen s).rep = (s.edgeJoined i c).rep := by simp
  obtain ⟨l, queue, bodies⟩ := Report.admitAll_body ms { (s.edgeJoined i c).rep with made := [] }
  have same : (s.edgeJoined i c).rep.queue = s.rep.queue := by rw [offered]
  rw [State.acceptStep_eq cand, State.flush_queue, rep, made, queue]
  dsimp only
  rw [same, List.drop_left]
  refine ⟨List.prefix_append _ _, fun r hr => ?_⟩
  obtain ⟨m, hm, body⟩ := bodies r hr
  rcases List.mem_append.1 (perm.mem_iff.1 hm) with hm | hm
  · rw [body]
    exact (types m hm).imp_right .inl
  · exact .inr (.inr ⟨m, by simpa using hm, body⟩)

/-- R99, R101: an edge outside a test without a record leaves the queue. -/
theorem State.acceptStep_silent (cand : s.scan.inputs[i].cand = some c) (none : s.rep.made = [])
    (outside : ¬ (s.seq.phase = .running ∨ s.seq.phase = .ending)) (record : s.recordOfEdge i c = Option.none) :
    (s.acceptStep i).rep.queue = s.rep.queue := by
  have delivered : (s.edgeDelivered i c).rep = s.rep := by
    rw [State.edgeDelivered, (State.deliver_outside _ _ _ _ _ (by simpa using outside)).2]
    simp
  rw [State.acceptStep_eq cand, State.edgeJoined, record]
  simp [State.joinEdgeRecord, State.flush, delivered, none, Report.admitAll]

/-! ### What the edge counts for -/

/-- R99: in a test an edge that is only counted makes an INPUT_EDGE. -/
theorem State.recordOfEdge_plain (kind : (s.countedEdge i c).2 = .plain) :
    s.recordOfEdge i c =
      if s.seq.phase = .running ∨ s.seq.phase = .ending then
        some ⟨s.seq.testNumber, (s.edgeTime c.start).toNat, .inputEdge i c.active s.scan.inputs[i].bounce
          (decide (s.edgeTime c.start < 0)) s.seq.testFrame, false⟩
      else none := by
  rw [State.recordOfEdge, kind]
  simp only [State.edgeRecord, Phase.inTest_iff]

/-- R101: an edge of an input in CHATTER makes no record. -/
theorem State.recordOfEdge_suppressed (kind : (s.countedEdge i c).2 = .suppressed) : s.recordOfEdge i c = none := by
  rw [State.recordOfEdge, kind]
  rfl

/-- R101: the edge that takes an input into CHATTER makes a CHATTER_START. -/
theorem State.recordOfEdge_enters {edges frames : Nat} (kind : (s.countedEdge i c).2 = .chatterStart edges frames) :
    s.recordOfEdge i c = some
      ⟨if s.seq.phase = .running ∨ s.seq.phase = .ending then s.seq.testNumber else 0,
        if s.seq.phase = .running ∨ s.seq.phase = .ending then (s.edgeTime c.start).toNat
          else 16 * s.recv.frameCounter % 4294967296,
        .chatterStart i c.active edges frames
          (decide ((s.seq.phase = .running ∨ s.seq.phase = .ending) ∧ s.edgeTime c.start < 0)), false⟩ := by
  rw [State.recordOfEdge, kind]
  by_cases test : s.seq.phase = .running ∨ s.seq.phase = .ending
  · simp only [State.edgeRecord, Phase.inTest_iff, test, if_true, true_and]
  · simp only [State.edgeRecord, Phase.inTest_iff, test, if_false, false_and, decide_false, State.outTime]

end

/-! ### The command -/

theorem State.edgeDue_iff {s : State} {i : Fin 8} (stage : s.frame.stage = .closed ∨ s.frame.stage = .ready) :
    s.edgeDue i = true ↔ s.clock.slotDone = false ∧ ∃ c : Candidate, s.scan.inputs[i].cand = some c
      ∧ Input.debounce s.scan.inputs[i].cfg + c.start ≤ s.scan.pos := by
  have scanning : s.scanning = !s.clock.slotDone := by
    rcases stage with stage | stage <;> simp [State.scanning, stage]
  rw [State.edgeDue, scanning, InputScan.due]
  cases s.scan.inputs[i].cand <;> simp

theorem exec_acceptedEdge {s : State} {i : Fin 8} (stage : s.frame.stage = .closed ∨ s.frame.stage = .ready)
    (due : s.edgeDue i = true) : exec (.acceptedEdge i) s = .next (s.acceptStep i) := by
  have hexec : exec (.acceptedEdge i) s = .next (s.subtickCommand (fun t => t.edgeDue i) fun t => t.acceptStep i) := rfl
  have undone := s.slotDone_of_edgeDue i due
  rw [hexec]
  rcases stage with closed | ready
  · rw [State.subtickCommand_of_closed closed undone, if_pos due]
  · rw [State.subtickCommand_of_ready ready undone due]

/-- Settles O19: the input by how the edge is counted (`InputScan.countEdge_off` and the like), consumers and latches by
`State.acceptStep_offers` and `State.acceptStep_latchesFollow`, the queue by `State.acceptStep_joins` and
`State.acceptStep_only`. -/
theorem acceptedEdge : Obligations.AcceptedEdge := by
  intro i s stage x
  refine ⟨fun c undone cand persisted => ?accepted, fun notDue closed elsewhere => ?notDue, fun closed done locked =>
    exec_of_subtickCommand_closed s (fun _ => rfl) (State.slotDone_of_edgeDue i) closed done⟩
  case notDue =>
    have hexec : exec (.acceptedEdge i) s = .next (s.subtickCommand (fun t => t.edgeDue i) fun t => t.acceptStep i) := rfl
    rw [hexec]
    cases done : s.clock.slotDone with
    | false => rw [State.subtickCommand_of_closed closed done, if_neg (by simp [notDue])]
    | true =>
      have unlocked := elsewhere.resolve_left (by simp [done])
      rw [State.subtickCommand_of_slotDone closed done _ _ notDue,
        if_neg fun h => unlocked ((State.beforeMessage_of_closed closed).1.1 h.1).1]
  case accepted =>
    intro lim frame n y stamp inTest event tripFree
    have due : s.edgeDue i = true := (State.edgeDue_iff stage).2 ⟨undone, c, cand, persisted⟩
    have counted := State.acceptStep_input cand
    have off (h : lim = 0) : s.countedEdge i c = _ := InputScan.countEdge_off _ h
    have suppressed (on : lim ≠ 0) (chatter : x.chatter = true) : s.countedEdge i c = _ :=
      InputScan.countEdge_suppressed _ on chatter
    have normal (on : lim ≠ 0) (normal : x.chatter = false) (few : n ≤ lim) : s.countedEdge i c = _ :=
      InputScan.countEdge_normal _ on normal few
    have enters (on : lim ≠ 0) (normal : x.chatter = false) (many : lim < n) : s.countedEdge i c = _ :=
      InputScan.countEdge_enters _ on normal many
    have plain (h : lim = 0 ∨ (x.chatter = false ∧ n ≤ lim)) : (s.countedEdge i c).2 = .plain := by
      by_cases on : lim = 0
      · rw [off on]
      · obtain ⟨quiet, few⟩ := h.resolve_left on
        rw [normal on quiet few]
    have silent (on : lim ≠ 0) (chatter : x.chatter = true) : s.recordOfEdge i c = none :=
      State.recordOfEdge_suppressed (by rw [suppressed on chatter])
    refine ⟨s.acceptStep i, exec_acceptedEdge stage due, fun j other => ?others, ?pos, ?origin, by simp [State.SameLinks],
      by simp, by simp, by simp, by simp, by simp, by simp, State.acceptStep_sending cand, ?seq,
      fun running ending => State.acceptStep_outside cand (not_or.2 ⟨running, ending⟩),
      fun test quiet => State.acceptStep_offers cand test quiet, State.acceptStep_latchesFollow cand,
      fun h => ?off, fun on chatter => ?suppressed, fun on quiet few => ?normal, fun on quiet many => ?enters,
      fun armed active mode input request queued => ?starts, fun otherwise => ?otherwise,
      fun test few none room => ?inputEdge, fun on quiet many none room => ?chatterStart, fun phase few none => ?silent,
      fun on many none => ?noInputEdge⟩
    case others => rw [State.acceptStep_scan cand, State.edgeCounted, State.setInput_other other]
    case pos => simp [State.acceptStep_scan cand]
    case origin => simp [State.acceptStep_scan cand]
    case seq =>
      rw [State.acceptStep_request cand]
      exact State.acceptStep_seq cand
    case off =>
      rw [counted, off h]
    case suppressed =>
      rw [counted, suppressed on chatter]
    case normal =>
      rw [counted, normal on quiet few]
      rfl
    case enters =>
      rw [counted, enters on quiet many]
      rfl
    case starts =>
      rw [State.acceptStep_request cand, State.edgeDelivered_starts armed active ⟨request, queued, mode, input⟩]
    case otherwise =>
      rw [State.acceptStep_request cand, State.edgeDelivered_seq]
      rintro ⟨armed, active, request, queued, mode, input⟩
      simp [armed, active, request, queued, mode, input] at otherwise
    case inputEdge =>
      exact State.acceptStep_joins cand none room ((State.recordOfEdge_plain (plain few)).trans (if_pos test))
    case chatterStart =>
      exact State.acceptStep_joins cand none room (State.recordOfEdge_enters (by rw [enters on quiet many]; rfl))
    case silent =>
      have outside : ¬ (s.seq.phase = .running ∨ s.seq.phase = .ending) := by
        rcases phase with phase | phase | phase <;> simp [phase]
      refine State.acceptStep_silent cand none outside ?_
      by_cases chatters : lim ≠ 0 ∧ x.chatter = true
      · exact silent chatters.1 chatters.2
      · refine (State.recordOfEdge_plain (plain ?_)).trans (if_neg outside)
        rcases few with few | few | few
        · exact .inl few
        · exact .inl (not_not.1 fun on => chatters ⟨on, few⟩)
        · by_cases on : lim = 0
          · exact .inl on
          · exact .inr ⟨Bool.eq_false_iff.2 fun chatter => chatters ⟨on, chatter⟩, few⟩
    case noInputEdge =>
      obtain ⟨kept, only⟩ := State.acceptStep_only cand none
      have types {r : Record} (hr : r ∈ (s.acceptStep i).rep.queue.drop s.rep.queue.length) :
          recordType r.body = 8 ∨ recordType r.body = 9 ∨ (x.chatter = false ∧ recordType r.body = 6) := by
        refine (only r hr).imp_right (Or.imp_right ?_)
        rintro ⟨m, record, same⟩
        cases quiet : x.chatter with
        | true => exact nomatch record.symm.trans (silent on quiet)
        | false =>
          have begins := State.recordOfEdge_enters (congrArg Prod.snd (enters on quiet (many.resolve_left (by simp [quiet]))))
          rw [same, ← Option.some.inj (begins.symm.trans record)]
          exact ⟨rfl, rfl⟩
      refine ⟨kept, fun r hr => ⟨fun j active bounce before accepted body => ?_,
        fun chatter j active edges frames before body => ?_⟩⟩
      · simpa [body, recordType] using types hr
      · simpa [body, recordType, chatter] using types hr

end Sys2Proof.Machine
end

