-- ==== Sys2Proof/Proofs/BreakerChanges.lean ====
section
/-! SUPPORT. What a change of the breaker makes of breaker, timers, capture store and records, and what an edge makes of the breaker
in each of its states (R108 to R110, R112). -/

namespace Sys2Proof.Machine

/-! ### An event is offered (R120, R136) -/

/-- What an event makes of the timers depends on what decides their slots alone. -/
theorem State.TimersAlike.offer {s t : State} (h : s.TimersAlike t) (ev : Cond) (stamp : Nat) (bo : Bool) :
    (s.offerTimers ev stamp bo).TimersAlike (t.offer ev stamp bo) := by
  obtain ⟨timers, plan, disturbed⟩ := h.offerTimers ev stamp bo
  exact ⟨by simpa [State.offer] using timers, by simpa [State.offer] using plan, by simpa [State.offer] using disturbed⟩

/-- What an event makes of the capture store depends on what the trigger reads alone. -/
theorem State.CaptureAlike.offer {s t : State} (h : s.CaptureAlike t) (ev : Cond) (stamp : Nat) (bo : Bool) :
    (s.offerCapture ev stamp).CaptureAlike (t.offer ev stamp bo) :=
  (h.offerTimers ev stamp bo).offerCapture ev stamp

theorem State.CaptureAlike.buffers {s t : State} (h : s.CaptureAlike t) : t.rep.buffers = s.rep.buffers := by
  obtain ⟨-, -, rep⟩ := h
  rw [rep]

/-! ### The breaker comes to OPEN or CLOSED (R109, R110, R112) -/

/-- R120: the event that a change of the breaker to OPEN (`opened`) or CLOSED is. -/
def breakerEvent (opened : Bool) : Cond := ⟨if opened then .breakerOpen else .breakerClosed, 0⟩

section
variable {s : State} (opened tripFree : Bool) (input edgeStamp : Nat) (edgeBo : Bool) (operating : Nat) (t : Int)

/-- R109, R110: the breaker after a change, with one more operation. -/
def Breaker.changed (b : Breaker) : Breaker := ⟨if opened then .opened else .closed, none, none, min 65535 (b.count + 1)⟩

/-- R112: the BREAKER record of a change at line time `t`. -/
def State.breakerRecord (s : State) : Made :=
  ⟨s.seq.testNumber, (t - s.lat).toNat, .breaker opened tripFree input edgeStamp operating (min 65535 (s.brk.count + 1))
    (decide (t - s.lat < 0)) edgeBo, false⟩

/-- New state and count, the record, and then the event. -/
theorem State.breakerReached_eq (s : State) :
    s.breakerReached opened tripFree input edgeStamp edgeBo operating t =
      ((s.withBrk (s.brk.changed opened)).plusMade
        [s.breakerRecord opened tripFree input edgeStamp edgeBo operating t]).offer
          (breakerEvent opened) (t - s.lat).toNat (decide (t - s.lat < 0)) := rfl

theorem State.breakerReached_brk (s : State) :
    (s.breakerReached opened tripFree input edgeStamp edgeBo operating t).brk = s.brk.changed opened := by
  simp [State.breakerReached_eq, State.plusMade]

/-- R120: the change is offered to the timers. -/
theorem State.TimersAlike.breakerReached {u : State} (h : u.TimersAlike s) :
    (u.offerTimers (breakerEvent opened) (t - s.lat).toNat (decide (t - s.lat < 0))).TimersAlike
      (s.breakerReached opened tripFree input edgeStamp edgeBo operating t) := by
  rw [State.breakerReached_eq]
  exact State.TimersAlike.offer (by simpa [State.TimersAlike, State.plusMade] using h) _ _ _

/-- R136: the change is offered to the capture trigger. -/
theorem State.CaptureAlike.breakerReached {u : State} (h : u.CaptureAlike s) :
    (u.offerCapture (breakerEvent opened) (t - s.lat).toNat).CaptureAlike
      (s.breakerReached opened tripFree input edgeStamp edgeBo operating t) := by
  rw [State.breakerReached_eq]
  exact State.CaptureAlike.offer (State.CaptureAlike.plusMade (by simpa [State.CaptureAlike] using h) _) _ _ _

/-- R112: the record of the change is the first that it makes. -/
theorem State.breakerReached_made (s : State) :
    ∃ later : List Made, (s.breakerReached opened tripFree input edgeStamp edgeBo operating t).rep.made =
      s.rep.made ++ s.breakerRecord opened tripFree input edgeStamp edgeBo operating t :: later := by
  obtain ⟨-, later, made, -⟩ := ((s.withBrk (s.brk.changed opened)).plusMade
    [s.breakerRecord opened tripFree input edgeStamp edgeBo operating t]).offer_consumed
      (breakerEvent opened) (t - s.lat).toNat (decide (t - s.lat < 0))
  exact ⟨later, by simpa [State.breakerReached_eq, State.plusMade] using made⟩

end

/-! ### An edge reaches the breaker (R108, R110) -/

theorem Brk.close_eq (p : Payload) : Brk.close p = p[2].toNat := Payload.u8_eq p 2 (by omega)

theorem Brk.openDelay_eq (p : Payload) : Brk.openDelay p = (p[3].toNat + 1) * 2 ^ p[4].toNat := by
  rw [Brk.openDelay, delayCode, Payload.u8_eq p 3 (by omega), Payload.u8_eq p 4 (by omega)]

theorem Brk.closeDelay_eq (p : Payload) : Brk.closeDelay p = (p[5].toNat + 1) * 2 ^ p[6].toNat := by
  rw [Brk.closeDelay, delayCode, Payload.u8_eq p 5 (by omega), Payload.u8_eq p 6 (by omega)]

section
variable {s : State} {i : Fin 8} (stamp : Nat) (bo : Bool)

theorem State.breakerEdge_of_off (off : s.plan.breaker[0] ≠ 1) : s.breakerEdge i stamp bo = s :=
  if_neg fun on => off ((Brk.on_iff _).1 on)

variable (on : s.plan.breaker[0] = 1)
include on

theorem State.breakerEdge_closed (closed : s.brk.state = .closed) :
    s.breakerEdge i stamp bo =
      if s.plan.breaker[1].toNat = i.val then s.beginOperation .opening (Brk.openDelay s.plan.breaker) i stamp bo else s := by
  rw [State.breakerEdge, if_pos ((Brk.on_iff _).2 on), closed, Brk.trip_eq]

theorem State.breakerEdge_opening (opening : s.brk.state = .opening) : s.breakerEdge i stamp bo = s := by
  rw [State.breakerEdge, if_pos ((Brk.on_iff _).2 on), opening]

theorem State.breakerEdge_opened (opened : s.brk.state = .opened) :
    s.breakerEdge i stamp bo =
      if s.plan.breaker[2].toNat = i.val then s.beginOperation .closing (Brk.closeDelay s.plan.breaker) i stamp bo else s := by
  rw [State.breakerEdge, if_pos ((Brk.on_iff _).2 on), opened, Brk.close_eq]

theorem State.breakerEdge_closing (closing : s.brk.state = .closing) :
    s.breakerEdge i stamp bo = if s.plan.breaker[1].toNat = i.val then s.tripFree i stamp bo else s := by
  rw [State.breakerEdge, if_pos ((Brk.on_iff _).2 on), closing, Brk.trip_eq]

end

theorem State.beginOperation_brk (s : State) (st : BreakerState) (delay input stamp : Nat) (bo : Bool) :
    (s.beginOperation st delay input stamp bo).brk = { s.brk with
      state := st, deadline := some (s.lineTime + delay), operation := some ⟨s.lineTime, input, stamp, bo⟩ } := rfl

theorem State.tripFree_of_operation {s : State} {o : Operation} (operation : s.brk.operation = some o) (input stamp : Nat)
    (bo : Bool) : s.tripFree input stamp bo =
      s.breakerReached true true input stamp bo (s.lineTime - o.start).toNat s.lineTime := by
  rw [State.tripFree, operation]

end Sys2Proof.Machine
end

