-- ==== Sys2Proof/Proofs/BreakerEdges.lean ====
section
/-! SUPPORT. What an accepted edge makes of the breaker, with mode ON and OFF, in a test and outside one (R98, R108, R110). -/

namespace Sys2Proof.Machine

section
variable (s : State) (i : Fin 8) (c : Candidate)

/-- R98: the edge has been offered to timers and capture trigger, before it reaches the breaker. -/
def State.edgeOffered : State :=
  (s.edgeCounted i c).offer (edgeEvent i c.active) (s.edgeTime c.start).toNat (decide (s.edgeTime c.start < 0))

@[simp] theorem State.edgeOffered_frame :
    (s.edgeOffered i c).plan = s.plan ∧ (s.edgeOffered i c).seq = s.seq ∧ (s.edgeOffered i c).brk = s.brk
    ∧ (s.edgeOffered i c).lineTime = s.lineTime ∧ (s.edgeOffered i c).lat = s.lat := by
  simp [State.edgeOffered, State.lineTime, State.lat]

theorem State.edgeOffered_timers :
    (s.offerTimers (edgeEvent i c.active) (s.edgeTime c.start).toNat (decide (s.edgeTime c.start < 0))).TimersAlike
      (s.edgeOffered i c) :=
  State.TimersAlike.offer (by simp [State.TimersAlike]) _ _ _

theorem State.edgeOffered_capture :
    (s.offerCapture (edgeEvent i c.active) (s.edgeTime c.start).toNat).CaptureAlike (s.edgeOffered i c) :=
  State.CaptureAlike.offer (by simp [State.CaptureAlike]) _ _ _

/-- R98, R108: an active edge in a test reaches the breaker. -/
theorem State.edgeDelivered_inTest {c : Candidate} (active : c.active = true)
    (test : s.seq.phase = .running ∨ s.seq.phase = .ending) :
    s.edgeDelivered i c =
      (s.edgeOffered i c).breakerEdge i (s.edgeTime c.start).toNat (decide (s.edgeTime c.start < 0)) := by
  rw [State.edgeDelivered, State.deliver_inTest _ _ _ _ _ (by simpa using test), if_pos active, State.edgeOffered]

/-- R98: outside a test, and for an edge to inactive, the breaker stays. -/
theorem State.edgeDelivered_brk_of_not (h : ¬ (c.active = true ∧ (s.seq.phase = .running ∨ s.seq.phase = .ending))) :
    (s.edgeDelivered i c).brk = s.brk := by
  have same : (s.edgeCounted i c).seq = s.seq := by simp
  rw [State.edgeDelivered, State.deliver, same]
  cases phase : s.seq.phase with
  | idle | verifying => simp
  | armed => dsimp only; split <;> simp
  | running | ending =>
    have inactive : c.active = false := by simpa [phase] using h
    simp [inactive]

end

section
variable {s : State} {i : Fin 8} {c : Candidate} (cand : s.scan.inputs[i].cand = some c)
include cand

theorem State.acceptStep_brk : (s.acceptStep i).brk = (s.edgeDelivered i c).brk := by
  simp [State.acceptStep_eq cand, State.edgeJoined]

/-- R131: while there is room, a record of the edge's consumers joins the queue. -/
theorem State.acceptStep_joins_delivered (none : s.rep.made = []) (room : s.rep.queue.length ≤ 64) {m : Made}
    (hm : m ∈ (s.edgeDelivered i c).rep.made) :
    ∃ r ∈ (s.acceptStep i).rep.queue.drop s.rep.queue.length,
      r.testNo = m.testNo ∧ r.time = m.time ∧ r.body = m.body := by
  obtain ⟨offered, later, made, short, -⟩ := s.edgeDelivered_consumed i c
  obtain ⟨ms, rep, perm⟩ := State.joinEdgeRecord_rep made (s.recordOfEdge i c)
  have joined := State.flush_joined (w := (s.edgeJoined i c).latchRisen s) (m := m)
  have queue : (s.edgeDelivered i c).rep.queue = s.rep.queue := by rw [offered]
  have few : (s.recordOfEdge i c).toList.length ≤ 1 := Option.length_toList_le
  have latched : ((s.edgeJoined i c).latchRisen s).rep = { (s.edgeDelivered i c).rep with made := ms } := by
    rw [← List.nil_append ms, ← none, ← rep]
    simp [State.edgeJoined]
  rw [latched] at joined
  dsimp only at joined
  rw [queue, perm.length_eq, List.length_append] at joined
  rw [State.acceptStep_eq cand]
  refine joined (by omega) (perm.mem_iff.2 (List.mem_append_left _ ?_))
  rwa [made, none, List.nil_append] at hm

end

/-- R110: a trip edge finds the breaker CLOSING. -/
theorem State.edgeDelivered_tripFree {s : State} {i : Fin 8} {c : Candidate} {o : Operation} (active : c.active = true)
    (test : s.seq.phase = .running ∨ s.seq.phase = .ending) (trip : s.TripFree i) (operation : s.brk.operation = some o) :
    s.edgeDelivered i c = (s.edgeOffered i c).breakerReached true true i (s.edgeTime c.start).toNat
      (decide (s.edgeTime c.start < 0)) (s.lineTime - o.start).toNat s.lineTime := by
  obtain ⟨on, input, closing⟩ := trip
  obtain ⟨plan, -, brk, lineTime, -⟩ := s.edgeOffered_frame i c
  rw [State.edgeDelivered_inTest s i active test, State.breakerEdge_closing _ _ (by rw [plan, on]) (by rw [brk, closing]), plan,
    if_pos input, State.tripFree_of_operation (by rw [brk, operation]), lineTime]

/-- Settles O21: an edge that reaches the breaker by `State.edgeDelivered_inTest` and the equation for the state in which it finds
it, one that does not by `State.edgeDelivered_brk_of_not`, the change with TRIP_FREE by `State.edgeDelivered_tripFree`. -/
theorem breakerEdges : Obligations.BreakerEdges := by
  intro i c s stage undone cand persisted r now unclamped openDelay closeDelay op acts trip close event change at' count
  have due : s.edgeDue i = true := (State.edgeDue_iff stage).2 ⟨undone, c, cand, persisted⟩
  obtain ⟨plan, seq, brk, lineTime, lat⟩ := s.edgeOffered_frame i c
  have reaches (active : c.active = true) (test : s.seq.phase = .running ∨ s.seq.phase = .ending) :
      (s.acceptStep i).brk = ((s.edgeOffered i c).breakerEdge i unclamped.toNat (decide (unclamped < 0))).brk := by
    rw [State.acceptStep_brk cand, State.edgeDelivered_inTest s i active test]
    rfl
  refine ⟨s.acceptStep i, exec_acceptedEdge stage due, fun idle => ?idle, fun ⟨active, on, test⟩ closed trips => ?trips,
    fun ⟨active, on, test⟩ closed other => ?closed, fun ⟨active, on, test⟩ opening => ?opening,
    fun ⟨active, on, test⟩ opened closes => ?closes, fun ⟨active, on, test⟩ opened other => ?opened,
    fun ⟨active, on, test⟩ closing trips operates => ?tripFree,
    fun o ⟨active, on, test⟩ closing trips operation none room => ?record, fun ⟨active, on, test⟩ closing other => ?closing⟩
  case idle =>
    by_cases h : c.active = true ∧ (s.seq.phase = .running ∨ s.seq.phase = .ending)
    · obtain ⟨active, test⟩ := h
      rw [reaches active test, State.breakerEdge_of_off _ _ (by rw [plan]; exact fun on => idle ⟨active, on, test⟩), brk]
    · rw [State.acceptStep_brk cand, State.edgeDelivered_brk_of_not s i c h]
  case trips =>
    rw [reaches active test, State.breakerEdge_closed _ _ (plan ▸ on) (brk ▸ closed), plan,
      if_pos trips, State.beginOperation_brk, brk, lineTime, Brk.openDelay_eq]
    rfl
  case closed =>
    rw [reaches active test, State.breakerEdge_closed _ _ (plan ▸ on) (brk ▸ closed), plan,
      if_neg other, brk]
  case opening =>
    rw [reaches active test, State.breakerEdge_opening _ _ (plan ▸ on) (brk ▸ opening), brk]
  case closes =>
    rw [reaches active test, State.breakerEdge_opened _ _ (plan ▸ on) (brk ▸ opened), plan,
      if_pos closes, State.beginOperation_brk, brk, lineTime, Brk.closeDelay_eq]
    rfl
  case opened =>
    rw [reaches active test, State.breakerEdge_opened _ _ (plan ▸ on) (brk ▸ opened), plan,
      if_neg other, brk]
  case closing =>
    rw [reaches active test, State.breakerEdge_closing _ _ (plan ▸ on) (brk ▸ closing), plan,
      if_neg other, brk]
  case tripFree =>
    obtain ⟨o, operation⟩ := Option.ne_none_iff_exists'.1 operates
    have delivered := State.edgeDelivered_tripFree active test ⟨on, trips, closing⟩ operation
    have timers := (s.edgeOffered_timers i c).breakerReached true true i (s.edgeTime c.start).toNat
      (decide (s.edgeTime c.start < 0)) (s.lineTime - o.start).toNat s.lineTime
    have capture := (s.edgeOffered_capture i c).breakerReached true true i (s.edgeTime c.start).toNat
      (decide (s.edgeTime c.start < 0)) (s.lineTime - o.start).toNat s.lineTime
    rw [← delivered, lat, active] at timers capture
    refine ⟨?_, (State.acceptStep_timers cand).trans timers.1, (State.acceptStep_buffers cand).trans capture.buffers⟩
    rw [State.acceptStep_brk cand, delivered, State.breakerReached_brk, brk]
    rfl
  case record =>
    have delivered := State.edgeDelivered_tripFree active test ⟨on, trips, closing⟩ operation
    obtain ⟨later, made⟩ := (s.edgeOffered i c).breakerReached_made true true i (s.edgeTime c.start).toNat
      (decide (s.edgeTime c.start < 0)) (s.lineTime - o.start).toNat s.lineTime
    have joins := State.acceptStep_joins_delivered cand none room (m := (s.edgeOffered i c).breakerRecord true true i
      (s.edgeTime c.start).toNat (decide (s.edgeTime c.start < 0)) (s.lineTime - o.start).toNat s.lineTime)
      (by rw [delivered, made]; simp)
    rw [State.breakerRecord, seq, brk, lat] at joins
    exact joins

end Sys2Proof.Machine
end

