-- ==== Sys2Proof/Proofs/BreakerDeadlines.lean ====
section
/-! SUPPORT. BREAKER_OPERATION_COMPLETE and PULSE_PERIOD_END at, before and after their deadlines (R24, R109, R112, R116). -/

namespace Sys2Proof.Machine

/-! ### A thing at a sub-tick -/

theorem State.scanning_eq {s : State} (stage : s.frame.stage = .closed ∨ s.frame.stage = .ready) :
    s.scanning = !s.clock.slotDone := by
  rcases stage with stage | stage <;> simp [State.scanning, stage]

section
variable {s : State} {due : State → Bool} (act : State → State)

theorem State.subtickCommand_of_due (stage : s.frame.stage = .closed ∨ s.frame.stage = .ready)
    (undone : s.clock.slotDone = false) (h : due s = true) : s.subtickCommand due act = act s := by
  rcases stage with closed | ready
  · rw [State.subtickCommand_of_closed closed undone, if_pos h]
  · exact State.subtickCommand_of_ready ready undone h act

/-- Where the thing is not due, nothing changes: outside LOCKED no frame follows at whose sub-tick 0 it could come about. -/
theorem State.subtickCommand_of_not_due (closed : s.frame.stage = .closed)
    (elsewhere : s.clock.slotDone = false ∨ s.recv.state ≠ .locked) (h : due s = false) : s.subtickCommand due act = s := by
  cases done : s.clock.slotDone with
  | false => rw [State.subtickCommand_of_closed closed done, if_neg (by simp [h])]
  | true =>
    have unlocked := elsewhere.resolve_left (by simp [done])
    rw [State.subtickCommand_of_slotDone closed done _ _ h,
      if_neg fun x => unlocked ((State.beforeMessage_of_closed closed).1.1 x.1).1]

end

/-! ### The breaker's deadline (R109) -/

section
variable {s : State} {d : Int}

theorem State.operationDue_of (stage : s.frame.stage = .closed ∨ s.frame.stage = .ready) (undone : s.clock.slotDone = false)
    (test : s.seq.phase = .running ∨ s.seq.phase = .ending) (deadline : s.brk.deadline = some d) (reached : d ≤ s.lineTime) :
    s.operationDue = true := by
  simp [State.operationDue, State.deadlineDue, State.scanning_eq stage, undone, (Phase.inTest_iff _).2 test, deadline, reached]

variable {op : Operation} (deadline : s.brk.deadline = some d) (operation : s.brk.operation = some op)
include deadline operation

theorem State.completeOperation_of :
    s.completeOperation = s.breakerReached (decide (s.brk.state = .opening)) false op.input op.stamp op.beforeOrigin
      (d - op.start).toNat d := by
  rw [State.completeOperation, deadline, operation, beq_eq_decide]

/-- R112: the BREAKER record is the first that joins. -/
theorem State.operationStep_first (none : s.rep.made = []) (room : s.rep.queue.length < 104) :
    s.operationStep.rep.queue[s.rep.queue.length]? = some ⟨s.rep.discard, s.seq.testNumber, (d - s.lat).toNat,
      .breaker (decide (s.brk.state = .opening)) false op.input op.stamp (d - op.start).toNat
        (min 65535 (s.brk.count + 1)) (decide (d - s.lat < 0)) op.beforeOrigin⟩ := by
  have reached := State.completeOperation_of deadline operation
  obtain ⟨later, made⟩ := s.breakerReached_made (decide (s.brk.state = .opening)) false op.input op.stamp op.beforeOrigin
    (d - op.start).toNat d
  obtain ⟨offered, -⟩ := s.breakerReached_consumed (decide (s.brk.state = .opening)) false op.input op.stamp op.beforeOrigin
    (d - op.start).toNat d
  rw [← reached] at made offered
  have same : (s.completeOperation.latchRisen s).rep = s.completeOperation.rep := by simp
  have queue : s.completeOperation.rep.queue = s.rep.queue := by rw [offered]
  have discard : s.completeOperation.rep.discard = s.rep.discard := by rw [offered]
  have first := State.flush_first (s := s.completeOperation.latchRisen s) (by rw [same, made, none]; rfl)
    (by rwa [same, queue])
  rw [same, queue, discard] at first
  exact first

end

/-! ### The change, with its latches set and its records offered -/

/-- R24: the flush of the records leaves alone what the exits are read from. -/
theorem State.operationStep_holds (s : State) : s.operationStep.holds = s.completeOperation.holds := by
  have stay : (s.completeOperation.latchRisen s).seq.stateInForce = s.completeOperation.seq.stateInForce
      ∧ (s.completeOperation.latchRisen s).seq.framesInState = s.completeOperation.seq.framesInState := ⟨rfl, rfl⟩
  unfold State.operationStep
  exact State.holds_congr (by simp) (by simp) (by simp) (by simp) (by simp [State.part0, stay.1]) (by simp [stay.2])

theorem State.operationStep_latchesFollow (s : State) : s.LatchesFollow s.operationStep :=
  State.latchRisen_latchesFollow s.completeOperation_seq (by simp) (by simp [State.operationStep]) s.operationStep_holds

theorem State.operationStep_seq (s : State) :
    s.operationStep.seq = { s.seq with latches := s.operationStep.seq.latches } := by
  have latched : s.operationStep.seq = (s.completeOperation.latchRisen s).seq := by simp [State.operationStep]
  rw [latched, ← s.completeOperation_seq]
  exact (State.latchBy_seq _ _).1

theorem State.completeOperation_offeredTo (s : State) : s.rep.OfferedTo s.completeOperation.rep := by
  unfold State.completeOperation
  split
  · exact (s.breakerReached_consumed ..).1
  · exact .refl _

theorem State.operationStep_rep (s : State) :
    s.rep.SameSending s.operationStep.rep ∧ s.operationStep.rep.buffers = s.completeOperation.rep.buffers := by
  have offered := s.completeOperation_offeredTo
  simp only [Report.SameSending, State.operationStep, State.flush, State.withRep_rep, State.latchRisen_frame,
    Report.admitAll_frame]
  rw [offered]
  exact ⟨⟨rfl, rfl, rfl, rfl⟩, trivial⟩

/-! ### The pulse deadline (R116) -/

section
variable {s : State} {k : Fin 4} {d : Int}

theorem State.pulseEnds_of (stage : s.frame.stage = .closed ∨ s.frame.stage = .ready) (undone : s.clock.slotDone = false)
    (test : s.seq.phase = .running ∨ s.seq.phase = .ending) (pulse : s.lines[k].mode = .pulse)
    (deadline : s.lines[k].deadline = some d) (reached : d ≤ s.lineTime) : s.pulseEnds k = true := by
  simp only [State.pulseEnds, State.pulseDue, State.scanning_eq stage, undone, (Phase.inTest_iff _).2 test, pulse, deadline]
  simpa using reached

theorem Part1.high_eq (p : Payload) (k : Fin 4) : Part1.high p k = (p[5 * k.val + 1].toNat + 1) * 2 ^ p[5 * k.val + 2].toNat := by
  rw [Part1.high, delayCode, Payload.u8_eq p _ (by omega), Payload.u8_eq p _ (by omega)]

theorem Part1.low_eq (p : Payload) (k : Fin 4) : Part1.low p k = (p[5 * k.val + 3].toNat + 1) * 2 ^ p[5 * k.val + 4].toNat := by
  rw [Part1.low, delayCode, Payload.u8_eq p _ (by omega), Payload.u8_eq p _ (by omega)]

theorem State.endPulse_of (deadline : s.lines[k].deadline = some d) :
    s.endPulse k = s.withLines (s.lines.set k { s.lines[k] with
      high := !s.lines[k].high
      deadline := some (d + ((if s.lines[k].high then Part1.low s.plan.part1[s.seq.stateInForce] k
        else Part1.high s.plan.part1[s.seq.stateInForce] k : Nat) : Int)) }) := by
  rw [State.endPulse]
  dsimp only
  rw [deadline]
  rfl

end

/-! ### The commands -/

theorem exec_breakerOperationComplete (s : State) :
    exec .breakerOperationComplete s = .next (s.subtickCommand State.operationDue State.operationStep) := rfl

theorem exec_pulsePeriodEnd (k : Fin 4) (s : State) :
    exec (.pulsePeriodEnd k) s = .next (s.subtickCommand (fun t => t.pulseEnds k) fun t => t.endPulse k) := rfl

/-- Settles O22: the change at the deadline by `State.completeOperation_of` and the rules for `State.breakerReached`, the end of a
pulse period by `State.endPulse_of`; what is not due by `State.subtickCommand_of_not_due`. -/
theorem breakerAndPulseDeadlines : Obligations.BreakerAndPulseDeadlines := by
  refine ⟨fun s stage => ⟨fun d op undone test deadline operation reached => ?complete, fun notDue closed elsewhere => ?early,
      fun closed done _ => exec_of_subtickCommand_closed s (fun _ => rfl) State.slotDone_of_operationDue closed done⟩,
    fun k s stage => ⟨fun d undone test pulse deadline reached => ?ends, fun notDue closed elsewhere => ?within,
      fun closed done _ => exec_of_subtickCommand_closed s (fun _ => rfl) (State.slotDone_of_pulseEnds k) closed done⟩⟩
  case complete =>
    intro stamp opened count event
    have due := State.operationDue_of stage undone test deadline reached
    have completed := State.completeOperation_of deadline operation
    have timers := State.TimersAlike.breakerReached (s := s) (u := s) (decide opened) false op.input op.stamp op.beforeOrigin
      (d - op.start).toNat d ⟨rfl, rfl, rfl⟩
    have capture := (State.CaptureAlike.refl s).breakerReached (decide opened) false op.input op.stamp op.beforeOrigin
      (d - op.start).toNat d
    have event_eq : breakerEvent (decide opened) = event := by simp [breakerEvent, event]
    rw [← completed, event_eq] at timers capture
    obtain ⟨sending, buffers⟩ := s.operationStep_rep
    have still : s.operationStep.brk = s.completeOperation.brk ∧ s.operationStep.timers = s.completeOperation.timers := by
      simp [State.operationStep]
    refine ⟨s.operationStep, ?_, ?brk, ?links, ?plan, ?eng, ?out, ?sup, ?scan, ?lines, ?frame, ?choices, sending,
      s.operationStep_seq, s.operationStep_latchesFollow, still.2.trans timers.1, buffers.trans capture.buffers,
      State.operationStep_first deadline operation⟩
    · rw [exec_breakerOperationComplete, State.subtickCommand_of_due _ stage undone due]
    case brk =>
      rw [still.1, completed, State.breakerReached_brk]
      simp [Breaker.changed, opened, count]
    case links => simp [State.SameLinks, State.operationStep]
    all_goals simp [State.operationStep]
  case early =>
    rw [exec_breakerOperationComplete, State.subtickCommand_of_not_due _ closed elsewhere notDue]
  case ends =>
    have due := State.pulseEnds_of stage undone test pulse deadline reached
    rw [exec_pulsePeriodEnd, State.subtickCommand_of_due _ stage undone due, State.endPulse_of deadline, Part1.low_eq, Part1.high_eq]
  case within =>
    rw [exec_pulsePeriodEnd, State.subtickCommand_of_not_due _ closed elsewhere notDue]

end Sys2Proof.Machine
end

