-- ==== Sys2Proof/Proofs/TimerEvents.lean ====
section
/-! SUPPORT. What an event offered makes of every slot of the timer array, and the results that it makes (R120, R121, R124, R125,
R127). -/

namespace Sys2Proof.Machine

/-! ### One slot -/

/-- R121: what a stop stamped `t` makes of the RUNNING slot `x`. -/
def Slot.stoppedBy (x : Slot) (t : Nat) : Slot :=
  if t < x.start.getD 0 then { x with early := true }
  else if t < x.expiry.getD 0 then { x with state := .stopped, outcome := some .stopped }
  else x

/-- R120: what an event makes of slot `x` with record `r`, in a frame that is disturbed or not. -/
def Slot.offered (x : Slot) (r : Payload) (ev : Cond) (stamp : Nat) (bo disturbed : Bool) : Slot :=
  match x.state with
  | .waiting =>
    if Timer.start r = ev then x.started r stamp bo disturbed
    else if Timer.stop r = ev then { x with early := true }
    else x
  | .running => if Timer.stop r = ev then x.stoppedBy stamp else x
  | .disabled | .stopped | .expired => x

theorem State.plusMade_nil (s : State) : s.plusMade [] = s := by
  simp [State.plusMade, State.withRep]

section
variable (ev : Cond) (stamp : Nat) (bo : Bool) (s : State)

/-- R120, for slot `k`. -/
def State.offeredSlot (k : Fin 8) : Slot :=
  (s.timers.slots[k]).offered s.plan.timers[k] ev stamp bo s.frame.disturbed

/-- R121, R127: the result of slot `k`, where an event stops it. -/
def State.stopRecord (k : Fin 8) : Option Made :=
  let x := s.timers.slots[k]
  let a := x.start.getD 0
  if x.state = .running ∧ Timer.stop s.plan.timers[k] = ev ∧ a ≤ stamp ∧ stamp < x.expiry.getD 0 then
    some ⟨s.seq.testNumber, stamp, s.timerBody k .stopped (stamp - a) bo (s.seq.testFrame - stamp / 16), false⟩
  else none

theorem State.stopSlot_eq (k : Fin 8) :
    let x := s.timers.slots[k]
    let a := x.start.getD 0
    s.stopSlot k stamp bo = (s.setSlot k (x.stoppedBy stamp)).plusMade
      (if a ≤ stamp ∧ stamp < x.expiry.getD 0 then
        [⟨s.seq.testNumber, stamp, s.timerBody k .stopped (stamp - a) bo (s.seq.testFrame - stamp / 16), false⟩]
      else []) := by
  intro x a
  unfold State.stopSlot Slot.stoppedBy
  by_cases early : stamp < a
  · simp only [x, a, early, Nat.not_le.2 early, if_true, false_and, if_false, State.plusMade_nil]
  · by_cases inTime : stamp < x.expiry.getD 0
    · simp only [x, a, early, Nat.not_lt.1 early, inTime, if_true, if_false, and_self]
      rfl
    · simp only [x, a, early, inTime, and_false, if_false, State.plusMade_nil]
      exact (s.setSlot_self k).symm

/-- R120, R121: what an event makes of slot `k`, and the result that it makes. -/
theorem State.offerSlot_eq (k : Fin 8) : State.offerSlot ev stamp bo s k =
    (s.setSlot k (s.offeredSlot ev stamp bo k)).plusMade (s.stopRecord ev stamp bo k).toList := by
  have same : s = s.setSlot k s.timers.slots[k] := (s.setSlot_self k).symm
  unfold State.offerSlot State.offeredSlot Slot.offered State.stopRecord
  dsimp only
  cases hx : s.timers.slots[k].state with
  | running =>
    dsimp only
    by_cases stops : Timer.stop s.plan.timers[k] = ev
    · rw [if_pos stops, if_pos stops, State.stopSlot_eq]
      simp only [stops, true_and]
      split <;> rfl
    · rw [if_neg stops, if_neg stops, if_neg fun h => stops h.2.1]
      exact same.trans (State.plusMade_nil _).symm
  | waiting =>
    simp only [reduceCtorEq, false_and, if_false, Option.toList_none, State.plusMade_nil]
    split_ifs <;> [rfl; rfl; exact same]
  | disabled | stopped | expired =>
    simp only [reduceCtorEq, false_and, if_false, Option.toList_none, State.plusMade_nil]
    exact same

/-! ### The slots, one after the other -/

/-- R120, R121: what the slots `l` to which an event is offered become, and the results that they make; nothing else changes. -/
theorem State.offerSlots_spec (l : List (Fin 8)) (hl : l.Nodup) :
    let t := l.foldl (State.offerSlot ev stamp bo) s
    t = (s.withTimers { s.timers with slots := t.timers.slots }).plusMade (l.filterMap (s.stopRecord ev stamp bo))
      ∧ ∀ j : Fin 8, t.timers.slots[j] = if j ∈ l then s.offeredSlot ev stamp bo j else s.timers.slots[j] := by
  induction l generalizing s with
  | nil => exact ⟨(State.plusMade_nil s).symm, by simp⟩
  | cons k l ih =>
    obtain ⟨hk, hl⟩ := List.nodup_cons.1 hl
    obtain ⟨whole, slots⟩ := ih (State.offerSlot ev stamp bo s k) hl
    have self : (State.offerSlot ev stamp bo s k).timers.slots[k] = s.offeredSlot ev stamp bo k := by
      rw [State.offerSlot_eq]
      exact s.setSlot_slot k _
    have offered (j : Fin 8) (hj : j ≠ k) :
        (State.offerSlot ev stamp bo s k).offeredSlot ev stamp bo j = s.offeredSlot ev stamp bo j := by
      simp only [State.offeredSlot, State.offerSlot_other hj, State.offerSlot_frame]
    have records : l.filterMap ((State.offerSlot ev stamp bo s k).stopRecord ev stamp bo)
        = l.filterMap (s.stopRecord ev stamp bo) := by
      refine List.filterMap_congr fun j hj => ?_
      have hjk : j ≠ k := ne_of_mem_of_not_mem hj hk
      simp only [State.stopRecord, State.timerBody, State.probeGain, State.offerSlot_other hjk, State.offerSlot_frame]
    dsimp only at whole slots ⊢
    rw [List.foldl_cons]
    generalize l.foldl (State.offerSlot ev stamp bo) (State.offerSlot ev stamp bo s k) = t at *
    refine ⟨?_, fun j => ?_⟩
    · rw [whole, records, State.offerSlot_eq, List.filterMap_cons]
      cases s.stopRecord ev stamp bo k <;> simp [State.plusMade, State.setSlot, State.withTimers, State.withRep]
    · rw [slots j]
      by_cases hjk : j = k
      · subst hjk
        rw [if_neg hk, if_pos List.mem_cons_self, self]
      · simp only [List.mem_cons, hjk, false_or, offered j hjk, State.offerSlot_other hjk]

variable {s}

theorem State.offerTimers_of_closed (gate : s.timers.gate = false) : s.offerTimers ev stamp bo = s :=
  if_neg (by simp [gate])

/-- R120: an event offered to the array, its gate OPEN. -/
theorem State.offerTimers_of_open (gate : s.timers.gate = true) :
    let t := s.offerTimers ev stamp bo
    t = (s.withTimers { s.timers with slots := t.timers.slots }).plusMade ((allFin 8).filterMap (s.stopRecord ev stamp bo))
      ∧ ∀ k : Fin 8, t.timers.slots[k] = s.offeredSlot ev stamp bo k := by
  have folds : s.offerTimers ev stamp bo = (allFin 8).foldl (State.offerSlot ev stamp bo) s := if_pos gate
  obtain ⟨whole, slots⟩ := State.offerSlots_spec ev stamp bo s (allFin 8) nodup_allFin
  rw [← folds] at whole slots
  exact ⟨whole, fun k => (slots k).trans (if_pos (mem_allFin k))⟩

end

/-! ### One slot, state by state -/

section
variable {x : Slot} {r : Payload} {ev : Cond} {stamp : Nat} {bo disturbed : Bool}

theorem Slot.offered_waiting (h : x.state = .waiting) :
    x.offered r ev stamp bo disturbed =
      if Timer.start r = ev then x.started r stamp bo disturbed
      else if Timer.stop r = ev then { x with early := true } else x := by
  simp only [Slot.offered, h]

theorem Slot.offered_running (h : x.state = .running) :
    x.offered r ev stamp bo disturbed = if Timer.stop r = ev then x.stoppedBy stamp else x := by
  simp only [Slot.offered, h]

theorem Slot.offered_other (h : x.state = .disabled ∨ x.state = .stopped ∨ x.state = .expired) :
    x.offered r ev stamp bo disturbed = x := by
  rcases h with h | h | h <;> simp only [Slot.offered, h]

/-- R121: the three places of a stop's stamp. -/
theorem Slot.stoppedBy_cases {a e : Nat} (start : x.start = some a) (expiry : x.expiry = some e) :
    (stamp < a → x.stoppedBy stamp = { x with early := true })
      ∧ (a ≤ stamp → stamp < e → x.stoppedBy stamp = { x with state := .stopped, outcome := some .stopped })
      ∧ (a ≤ stamp → e ≤ stamp → x.stoppedBy stamp = x) := by
  simp only [Slot.stoppedBy, start, expiry, Option.getD_some]
  refine ⟨fun early => if_pos early, fun begun inTime => ?_, fun begun late => ?_⟩
  · rw [if_neg (Nat.not_lt.2 begun), if_pos inTime]
  · rw [if_neg (Nat.not_lt.2 begun), if_neg (Nat.not_lt.2 late)]

end

/-- Settles O24: what becomes of a slot by `State.offerTimers_of_open`, state by state, and its result by `State.stopRecord`. -/
theorem eventsAtTimers : Obligations.EventsAtTimers := by
  intro ev stamp bo s k x r probe t y
  cases gate : s.timers.gate with
  | false =>
    have same : t = s := State.offerTimers_of_closed ev stamp bo gate
    exact ⟨fun _ => same, by rw [same]; rfl, ⟨[], by rw [same, List.append_nil]⟩, nofun⟩
  | true =>
    obtain ⟨whole, slots⟩ := State.offerTimers_of_open ev stamp bo gate
    have made : t.rep.made = s.rep.made ++ (allFin 8).filterMap (s.stopRecord ev stamp bo) := congrArg (·.rep.made) whole
    have slot : y = x.offered r ev stamp bo s.frame.disturbed := slots k
    refine ⟨nofun, by rw [made]; exact whole, ⟨_, made⟩, fun _ => ⟨fun waiting starts => ?_,
      fun waiting other stops => ?_, fun waiting other idle => ?_, fun a e running start expiry stops => ?_,
      fun running idle => ?_, fun ended => ?_⟩⟩
    · rw [slot, Slot.offered_waiting waiting, if_pos starts, Slot.started, Timer.timeout_eq]
    · rw [slot, Slot.offered_waiting waiting, if_neg other, if_pos stops]
    · rw [slot, Slot.offered_waiting waiting, if_neg other, if_neg idle]
    · rw [slot, Slot.offered_running running, if_pos stops]
      obtain ⟨isEarly, isStopped, isLate⟩ := Slot.stoppedBy_cases (stamp := stamp) start expiry
      refine ⟨isEarly, fun begun inTime => ⟨isStopped begun inTime, ?_⟩, isLate⟩
      rw [made]
      refine List.mem_append_right _ (List.mem_filterMap.2 ⟨k, mem_allFin k, ?_⟩)
      have stopped : s.timers.slots[k].start.getD 0 = a ∧ s.timers.slots[k].expiry.getD 0 = e :=
        ⟨congrArg (·.getD 0) start, congrArg (·.getD 0) expiry⟩
      simp only [State.stopRecord, stopped]
      rw [if_pos ⟨running, stops, begun, inTime⟩]
      simp only [State.timerBody, stopped, micros_eq, State.probeGain_eq, Timer.probe_eq]
      rfl
    · rw [slot, Slot.offered_running running, if_neg idle]
    · rw [slot, Slot.offered_other ended]

end Sys2Proof.Machine
end

