-- ==== Sys2Proof/Proofs/TimerExpiry.lean ====
section
/-! SUPPORT. TIMEOUT_DUE and TIMER_EXPIRED at a settled boundary, and the check of the slots that the boundary makes by itself
(R122, R125, R127). -/

namespace Sys2Proof.Machine

/-! ### The hold (R122) -/

/-- R9: the codes of the stop conditions that are an input's levels or the breaker's states. -/
theorem Timer.stop_kind (p : Payload) :
    ((Timer.stop p).kind = .inputActive ∨ (Timer.stop p).kind = .inputInactive ↔ p[3] = 2 ∨ p[3] = 3)
      ∧ ((Timer.stop p).kind = .breakerOpen ∨ (Timer.stop p).kind = .breakerClosed ↔ p[3] = 4 ∨ p[3] = 5) := by
  have two : p[3] = 2 ↔ Payload.u8 p 3 = 2 := (Payload.u8_eq_ofNat_iff p 3 (by omega) 2 (by omega)).symm
  have three : p[3] = 3 ↔ Payload.u8 p 3 = 3 := (Payload.u8_eq_ofNat_iff p 3 (by omega) 3 (by omega)).symm
  have four : p[3] = 4 ↔ Payload.u8 p 3 = 4 := (Payload.u8_eq_ofNat_iff p 3 (by omega) 4 (by omega)).symm
  have five : p[3] = 5 ↔ Payload.u8 p 3 = 5 := (Payload.u8_eq_ofNat_iff p 3 (by omega) 5 (by omega)).symm
  rw [two, three, four, five]
  unfold Timer.stop condAt
  generalize Payload.u8 p 3 = kind
  by_cases h : kind < 10
  · interval_cases kind <;> simp [Kind.ofCode]
  · rw [Kind.ofCode_eq_none (by omega)]
    simp
    omega

/-- R122: the hold of slot `k`, from the bytes of its record. -/
def State.holdSpan (s : State) (k : Fin 8) : Nat :=
  let r := s.plan.timers[k]
  if r[3] = 2 ∨ r[3] = 3 then Globals.lat s.plan.globals + (s.plan.inputs[Fin.ofNat 8 r[4].toNat])[1].toNat
  else if r[3] = 4 ∨ r[3] = 5 then Globals.lat s.plan.globals else 0

theorem State.hold_eq (s : State) (k : Fin 8) : s.hold k = s.holdSpan k := by
  obtain ⟨input, breaker⟩ := Timer.stop_kind s.plan.timers[k]
  have arg : (Timer.stop s.plan.timers[k]).arg = (s.plan.timers[k])[4].toNat := Payload.u8_eq _ 4 (by omega)
  unfold State.hold State.holdSpan
  dsimp only
  simp only [← input, ← breaker, arg, Input.debounce, Payload.u8_eq _ 1 (by omega : 1 < 20), State.lat]
  cases (Timer.stop s.plan.timers[k]).kind <;> simp

/-! ### The commands at a settled boundary -/

section
variable {s : State} {k : Fin 8} (settled : s.frame.stage = .settled)
include settled

theorem exec_timeoutDue_of_settled :
    exec (.timeoutDue k) s = .next (if s.timeoutIsDue k = true then s.holdExpiry k else s) := by
  change Host.Outcome.next (s.boundaryStep (fun t => t.timeoutIsDue k) fun t => t.holdExpiry k) = _
  simp [State.boundaryStep, State.atBoundary_of_settled settled, settled]

theorem exec_timerExpired_of_settled :
    exec (.timerExpired k) s = .next (if s.expires k = true then s.expire k else s) := by
  change Host.Outcome.next (s.boundaryStep (fun t => t.expires k) fun t => t.expire k) = _
  simp [State.boundaryStep, State.atBoundary_of_settled settled, settled]

end

section
variable {s : State} {k : Fin 8}

theorem State.timeoutIsDue_iff {e : Nat} (expiry : s.timers.slots[k].expiry = some e) :
    s.timeoutIsDue k = true ↔ s.timers.gate = true ∧ s.timers.slots[k].state = .running
      ∧ s.timers.slots[k].held = false ∧ e ≤ 16 * s.seq.testFrame := by
  have due : s.timers.slots[k].expiry.getD 0 = e := congrArg (·.getD 0) expiry
  unfold State.timeoutIsDue
  dsimp only
  rw [due]
  simp [and_assoc]

theorem State.expires_iff {e : Nat} (expiry : s.timers.slots[k].expiry = some e) :
    s.expires k = true ↔ s.timers.gate = true ∧ s.timers.slots[k].state = .running
      ∧ e + s.holdSpan k ≤ 16 * s.seq.testFrame := by
  have due : s.timers.slots[k].expiry.getD 0 = e := congrArg (·.getD 0) expiry
  unfold State.expires
  dsimp only
  rw [due, State.hold_eq]
  simp [and_assoc]

/-- R122: no slot but a RUNNING one, with the gate OPEN, has anything due. -/
theorem State.nothing_due (idle : s.timers.gate = false ∨ s.timers.slots[k].state ≠ .running) :
    s.timeoutIsDue k = false ∧ s.expires k = false ∧ s.checkedSlot k = s.timers.slots[k] := by
  rcases idle with idle | idle <;> simp_all [State.timeoutIsDue, State.expires, State.checkedSlot]

end

/-! ### The boundary by itself -/

/-- R85: of the frame-taken event, service marks itself alone. -/
theorem State.serve_served (s : State) : s.serve.frame = { s.frame with served := s.serve.frame.served } := by
  unfold State.serve
  split <;> simp

theorem State.completeFailover_served (s : State) :
    s.completeFailover.frame = { s.frame with served := s.completeFailover.frame.served } := by
  unfold State.completeFailover
  split
  · split
    · rw [State.serve_served]
      simp
    · rfl
  all_goals rfl

/-- R85 to R87: of the frame-taken event, the failover engine marks at the boundary the service of a request alone. -/
theorem State.boundaryApart_served (s : State) :
    ∃ b : Bool, s.completeFailover.switchOver.serve.frame = { s.frame with served := b }
      ∧ s.boundaryApart.frame = { s.frame with served := b } := by
  have switched : s.completeFailover.switchOver.frame = s.completeFailover.frame := by simp
  have acted : s.boundaryApart.frame = s.completeFailover.switchOver.serve.frame := by simp [State.boundaryApart]
  rw [acted, State.serve_served, switched, State.completeFailover_served]
  exact ⟨_, rfl, rfl⟩

/-- R122: at the boundary the check finds slots, plan and times as they were, and its results stand. -/
theorem State.boundaryApart_checks (s : State) (k : Fin 8) :
    s.boundaryApart.timers.gate = s.timers.gate ∧ s.boundaryApart.timers.slots[k] = s.checkedSlot k
      ∧ ∀ m : Made, s.expiryRecord k = some m → m ∈ s.boundaryApart.rep.made := by
  let v := s.completeFailover.switchOver.serve
  obtain ⟨gate, slots, checked⟩ := v.checkSlots_spec
  obtain ⟨-, -, windows⟩ := v.checkSlots.windowSteps_spec s.clock.scanFrame
  have timers : v.timers = s.timers := by simp [v]
  have plan : v.plan = s.plan := by simp [v]
  have recv : v.recv = s.recv := by simp [v]
  have seq : v.seq.testFrame = s.seq.testFrame ∧ v.seq.testNumber = s.seq.testNumber := by
    have switched : s.completeFailover.switchOver.seq = s.completeFailover.seq := by simp
    rw [State.serve_seq, switched, State.completeFailover_seq]
    exact ⟨rfl, rfl⟩
  have gain (c : Fin 12) : v.probeGain c = s.probeGain c := by
    obtain ⟨b, frame, -⟩ := s.boundaryApart_served
    have eng : v.eng = s.eng := by simp [v]
    simp only [State.probeGain, v, frame, eng]
  have hold : v.hold k = s.hold k := by simp only [State.hold, State.lat, plan]
  have whole : s.boundaryApart = v.checkSlots.windowSteps s.clock.scanFrame := rfl
  have acted : s.boundaryApart.timers = v.checkSlots.timers := by rw [whole]; simp
  have slot : v.checkedSlot k = s.checkedSlot k := by simp only [State.checkedSlot, timers, seq, hold]
  have record : v.expiryRecord k = s.expiryRecord k := by
    simp only [State.expiryRecord, State.timerBody, timers, seq, hold, plan, recv, gain]
  refine ⟨by rw [acted, gate, timers], by rw [acted, slots k, slot], fun m hm => ?_⟩
  have made : m ∈ v.checkSlots.rep.made := by
    rw [checked]
    exact List.mem_append_right _ (List.mem_filterMap.2 ⟨k, mem_allFin k, record.trans hm⟩)
  rw [whole, windows]
  exact List.mem_append_left _ made

/-- R122: what the check makes of a RUNNING slot with the gate OPEN. -/
theorem State.checkedSlot_running {s : State} {k : Fin 8} {e : Nat} (gate : s.timers.gate = true)
    (running : s.timers.slots[k].state = .running) (expiry : s.timers.slots[k].expiry = some e) :
    s.checkedSlot k =
      if e + s.holdSpan k ≤ 16 * s.seq.testFrame then
        { s.timers.slots[k] with state := .expired, held := true, outcome := some .timeout }
      else { s.timers.slots[k] with held := s.timers.slots[k].held || decide (e ≤ 16 * s.seq.testFrame) } := by
  have due : s.timers.slots[k].expiry.getD 0 = e := congrArg (·.getD 0) expiry
  unfold State.checkedSlot
  dsimp only
  rw [if_pos ⟨gate, running⟩, due, State.hold_eq]

/-- R122, R125, R127: the result of a slot that expires at time `e`. -/
def State.timeoutResult (s : State) (k : Fin 8) (e : Nat) : Made :=
  let x := s.timers.slots[k]
  let r := s.plan.timers[k]
  let elapsed := 16 * (256 * r[5].toNat + r[6].toNat)
  let probe := Fin.ofNat 12 r[7].toNat
  ⟨s.seq.testNumber, e, .timerResult k .timeout (x.start.getD 0) elapsed (elapsedMicros elapsed s.recv.cadenceNow)
    x.early x.disturbed x.startBo false probe (s.frameGain probe) 0, true⟩

theorem State.timerBody_timeout (s : State) (k : Fin 8) (e : Nat) :
    (⟨s.seq.testNumber, e, s.timerBody k .timeout (16 * Timer.timeout s.plan.timers[k]) false 0, true⟩ : Made)
      = s.timeoutResult k e := by
  simp [State.timerBody, State.timeoutResult, micros_eq, State.probeGain_eq, Timer.probe_eq, Timer.timeout_eq]

theorem State.expiryRecord_running {s : State} {k : Fin 8} {e : Nat} (gate : s.timers.gate = true)
    (running : s.timers.slots[k].state = .running) (expiry : s.timers.slots[k].expiry = some e)
    (ended : e + s.holdSpan k ≤ 16 * s.seq.testFrame) : s.expiryRecord k = some (s.timeoutResult k e) := by
  have due : s.timers.slots[k].expiry.getD 0 = e := congrArg (·.getD 0) expiry
  unfold State.expiryRecord
  dsimp only
  rw [due, if_pos ⟨gate, running, by rwa [State.hold_eq]⟩, State.timerBody_timeout]

theorem State.expire_eq {s : State} {k : Fin 8} {e : Nat} (expiry : s.timers.slots[k].expiry = some e) :
    s.expire k = (s.setSlot k { s.timers.slots[k] with state := .expired, held := true, outcome := some .timeout }).plusMade
      [s.timeoutResult k e] := by
  have due : s.timers.slots[k].expiry.getD 0 = e := congrArg (·.getD 0) expiry
  unfold State.expire
  dsimp only
  rw [due, ← State.timerBody_timeout]
  rfl

/-- Settles O23: the commands by what is due (`State.timeoutIsDue_iff`, `State.expires_iff`), the boundary by
`State.boundaryApart_checks`. -/
theorem timerDueAndExpired : Obligations.TimerDueAndExpired := by
  intro k s settled x r hold put elapsed probe expired result
  have slots : s.ready.timers = s.boundaryApart.timers := by simp [State.ready, settled, State.toStage]
  obtain ⟨gateStands, checked, made⟩ := s.boundaryApart_checks k
  rw [slots, gateStands, checked, exec_timeoutDue_of_settled settled, exec_timerExpired_of_settled settled]
  refine ⟨fun e gate running expiry => ?_, fun idle => ?_, rfl⟩
  · rw [State.checkedSlot_running gate running expiry]
    have due := State.timeoutIsDue_iff expiry
    have expires := State.expires_iff expiry
    refine ⟨fun reached unheld => ?_, fun before => ?_, fun held => ?_, fun ended => ⟨?_, ?_, ?_⟩,
      fun before => ⟨?_, ?_⟩⟩
    · rw [if_pos (due.2 ⟨gate, running, unheld, reached⟩)]
      rfl
    · rw [if_neg fun h => absurd (due.1 h).2.2.2 (Nat.not_le.2 before)]
    · rw [if_neg fun h => Bool.false_ne_true ((due.1 h).2.2.1.symm.trans held)]
    · rw [if_pos (expires.2 ⟨gate, running, ended⟩), State.expire_eq expiry]
      rfl
    · exact if_pos ended
    · exact made _ (State.expiryRecord_running gate running expiry ended)
    · rw [if_neg fun h => absurd (expires.1 h).2.2 (Nat.not_le.2 before)]
    · exact if_neg (Nat.not_le.2 before)
  · obtain ⟨notDue, notExpired, same⟩ := State.nothing_due idle
    rw [if_neg (by simp [notDue]), if_neg (by simp [notExpired]), same]
    exact ⟨rfl, rfl, rfl⟩

end Sys2Proof.Machine
end

