-- ==== Sys2Proof/Proofs/FaultDisturbance.lean ====
section
/-! SUPPORT. A readback fault that is set disturbs the frame and, in a test, every RUNNING slot; nothing else that follows the
boundary does (R70, R82, R124). -/

namespace Sys2Proof.Machine

/-! ### The flags (R124) -/

theorem State.disturb_slot (s : State) (k : Fin 8) :
    s.disturb.timers.slots[k] =
      if s.seq.phase.inTest = true ∧ s.timers.slots[k].state = .running then { s.timers.slots[k] with disturbed := true }
      else s.timers.slots[k] := by
  unfold State.disturb
  cases test : s.seq.phase.inTest <;> simp

theorem State.disturb_timers_congr {s t : State} (phase : t.seq.phase = s.seq.phase) (timers : t.timers = s.timers) :
    t.disturb.timers = s.disturb.timers := by
  unfold State.disturb
  rw [phase, timers]
  split
  · rfl
  · exact timers

/-- R124: from `s` to `t` the slots set DISTURBED if `p` holds, and the timers stand if it does not. -/
def State.DisturbsIf (p : Prop) (s t : State) : Prop :=
  (p → t.timers = s.disturb.timers) ∧ (¬ p → t.timers = s.timers)

theorem State.DisturbsIf.congr {p : Prop} {s t s' t' : State} (h : State.DisturbsIf p s t)
    (phase : s'.seq.phase = s.seq.phase) (before : s'.timers = s.timers) (after : t'.timers = t.timers) :
    State.DisturbsIf p s' t' := by
  obtain ⟨set, stand⟩ := h
  refine ⟨fun hp => ?_, fun hp => ?_⟩
  · rw [after, set hp, State.disturb_timers_congr phase before]
  · rw [after, stand hp, before]

/-- R118, R124: the gate stands, and slot by slot what `State.DisturbsIf` says. -/
theorem State.DisturbsIf.slots {p : Prop} {s t : State} (h : State.DisturbsIf p s t) :
    let inTest := s.seq.phase = .running ∨ s.seq.phase = .ending
    t.timers.gate = s.timers.gate ∧ ∀ k : Fin 8,
      let x := s.timers.slots[k]
      (inTest → p → x.state = .running → t.timers.slots[k] = { x with disturbed := true })
      ∧ ((¬ inTest ∨ ¬ p ∨ x.state ≠ .running) → t.timers.slots[k] = x) := by
  intro inTest
  obtain ⟨set, stand⟩ := h
  have test : s.seq.phase.inTest = true ↔ inTest := Phase.inTest_iff _
  by_cases hp : p
  · have slot (k : Fin 8) := s.disturb_slot k
    rw [set hp]
    refine ⟨s.disturb_only.2.1, fun k => ⟨fun ht _ hx => ?_, fun h => ?_⟩⟩
    · rw [slot, if_pos ⟨test.2 ht, hx⟩]
    · have unset : ¬ (s.seq.phase.inTest = true ∧ s.timers.slots[k].state = .running) := fun ⟨ht, hx⟩ =>
        h.elim (fun outside => outside (test.1 ht)) fun h => h.elim (fun np => np hp) fun idle => idle hx
      rw [slot, if_neg unset]
  · rw [stand hp]
    exact ⟨rfl, fun k => ⟨fun _ h => absurd h hp, fun _ => rfl⟩⟩

/-! ### The readback fault set (R82) -/

/-- R82: from `s` to `t` the readback fault is set. -/
def State.SetsFault (s t : State) : Prop := s.sup.fault = none ∧ t.sup.fault ≠ none

/-- R124: from `s` to `t` the frame is disturbed, and the slots set DISTURBED, where the readback fault is set, and only there. -/
def State.DisturbsByFault (s t : State) : Prop :=
  (s.SetsFault t → t.frame = { s.frame with disturbed := true }) ∧ (¬ s.SetsFault t → t.frame = s.frame)
    ∧ State.DisturbsIf (s.SetsFault t) s t

theorem State.DisturbsByFault.of_unset {s t : State} (unset : ¬ s.SetsFault t) (frame : t.frame = s.frame)
    (timers : t.timers = s.timers) : s.DisturbsByFault t :=
  ⟨fun h => absurd h unset, fun _ => frame, fun h => absurd h unset, fun _ => timers⟩

theorem State.DisturbsByFault.congr {s t s' t' : State} (h : s.DisturbsByFault t) (phase : s'.seq.phase = s.seq.phase)
    (before : s'.sup.fault = s.sup.fault ∧ s'.frame = s.frame ∧ s'.timers = s.timers)
    (after : t'.sup.fault = t.sup.fault ∧ t'.frame = t.frame ∧ t'.timers = t.timers) : s'.DisturbsByFault t' := by
  obtain ⟨fault, frame, timers⟩ := before
  obtain ⟨fault', frame', timers'⟩ := after
  have sets : s'.SetsFault t' ↔ s.SetsFault t := by rw [State.SetsFault, State.SetsFault, fault, fault']
  obtain ⟨set, stand, slots⟩ := h
  unfold State.DisturbsByFault
  rw [sets, frame, frame']
  exact ⟨set, stand, slots.congr phase timers timers'⟩

theorem State.setFault_disturbs (s : State) (c : FaultCause) (clear : s.sup.fault = none) : s.DisturbsByFault (s.setFault c) := by
  have sets : s.SetsFault (s.setFault c) := ⟨clear, by rw [State.setFault_sup]; simp⟩
  refine ⟨fun _ => by simp [State.setFault], fun h => absurd sets h, fun _ => ?_, fun h => absurd sets h⟩
  let v := (s.withSup { s.sup with fault := some c }).withFrame { s.frame with disturbed := true }
  have timers : (s.setFault c).timers = v.disturb.timers := rfl
  exact timers.trans (State.disturb_timers_congr rfl rfl)

/-- R81, R82, R124: an outcome is counted. -/
theorem State.countOutcome_disturbs (s : State) (outcome : Option Nat) : s.DisturbsByFault (s.countOutcome outcome) := by
  unfold State.countOutcome
  split
  · exact .of_unset (fun h => h.2 h.1) rfl rfl
  · extract_lets t
    have fault : t.sup.fault = s.sup.fault := (s.sup.count_settles outcome).1
    split
    · next clear =>
      split
      · exact (t.setFault_disturbs _ clear).congr rfl ⟨fault.symm, rfl, rfl⟩ ⟨rfl, rfl, rfl⟩
      · exact .of_unset (fun h => h.2 clear) rfl rfl
    · next c set =>
      have stands : s.sup.fault ≠ none := by rw [← fault, set]; exact Option.some_ne_none c
      split <;> exact .of_unset (fun h => stands h.1) rfl rfl

/-- R81: a missing or bad outcome gives no cause where no run comes to its mark. -/
theorem Supervisor.faultCause_count_none (p : Supervisor) :
    (p.count none).faultCause false = none ↔ ¬ (16 ≤ p.linkRun + 1 ∨ p.confirm ≤ p.refRun) := by
  have link : 16 ≤ (p.count none).linkRun ↔ 16 ≤ p.linkRun + 1 := by
    rw [show (p.count none).linkRun = min 16 (p.linkRun + 1) from rfl]
    omega
  have reference : (p.count none).confirm ≤ (p.count none).refRun ↔ p.confirm ≤ p.refRun := .rfl
  simp only [Supervisor.faultCause, link, reference]
  by_cases full : 16 ≤ p.linkRun + 1 <;> simp [full]

/-- R81, R82: a missing or bad outcome sets the fault exactly where a run comes to its mark. -/
theorem State.countOutcome_none_sets (s : State) :
    s.SetsFault (s.countOutcome none) ↔ s.sup.fault = none ∧ s.sup.latency ≠ 0
      ∧ (16 ≤ s.sup.linkRun + 1 ∨ s.sup.confirm ≤ s.sup.refRun) := by
  by_cases clear : s.sup.fault = none
  · by_cases dormant : s.sup.latency = 0
    · simp [State.SetsFault, State.countOutcome_dormant s none dormant, dormant, clear]
    · have awake : s.sup.dormant = false := by simp [Supervisor.dormant, dormant]
      have counted : (s.countOutcome none).sup.fault = (s.sup.count none).faultCause false := by
        cases h : (s.sup.count none).faultCause false <;> simp [State.countOutcome, awake, clear, h, State.setFault_sup]
      rw [State.SetsFault, counted, Ne, Supervisor.faultCause_count_none, not_not]
      exact ⟨fun h => ⟨h.1, dormant, h.2⟩, fun h => ⟨h.1, h.2.2⟩⟩
  · simp [State.SetsFault, clear]

/-! ### The drive frame closes the judgment (R70) -/

theorem State.closeJudgment_disturbs (s : State) : s.DisturbsByFault s.closeJudgment := by
  by_cases settled : s.out.judgment = .settled
  · rw [State.closeJudgment_of_settled settled]
    exact .of_unset (fun h => h.2 h.1) rfl rfl
  · obtain ⟨o, closed⟩ := State.closeJudgment_of_open settled
    rw [closed]
    exact ((s.withOut o).countOutcome_disturbs none).congr rfl ⟨rfl, rfl, rfl⟩ ⟨rfl, rfl, rfl⟩

theorem State.driveFrame_disturbs (s : State) : s.DisturbsByFault s.driveFrame :=
  (State.closeJudgment_disturbs (s.withOut { s.out with delivered := s.deliveredOutputs })).congr rfl ⟨rfl, rfl, rfl⟩
    ⟨rfl, rfl, rfl⟩

/-- R70, R81, R82: the drive frame sets the fault exactly where it closes an open judgment and a run comes to its mark. -/
theorem State.driveFrame_sets (s : State) :
    s.SetsFault s.driveFrame ↔ s.sup.fault = none ∧ s.sup.latency ≠ 0 ∧ s.out.judgment ≠ .settled
      ∧ (16 ≤ s.sup.linkRun + 1 ∨ s.sup.confirm ≤ s.sup.refRun) := by
  obtain ⟨settles, counts⟩ := s.driveFrame_closes
  by_cases settled : s.out.judgment = .settled
  · rw [State.SetsFault, settles settled]
    exact ⟨fun h => absurd h.1 h.2, fun h => absurd settled h.2.2.1⟩
  · obtain ⟨w, sup, counted, -⟩ := counts settled
    have sets := w.countOutcome_none_sets
    rw [State.SetsFault, sup, ← counted] at sets
    rw [State.SetsFault, sets]
    exact ⟨fun h => ⟨h.1, h.2.1, settled, h.2.2⟩, fun h => ⟨h.1, h.2.1, h.2.2.2⟩⟩

/-! ### The end of the frame-taken event (R49, R66) -/

theorem State.outputs_disturbed (s : State) : s.outputs.frame.disturbed = s.frame.disturbed := by
  unfold State.outputs State.computeOutputs
  split <;> simp

theorem State.outputs_gate (s : State) : s.outputs.timers.gate = s.timers.gate := by
  unfold State.outputs
  split
  · simp [State.computeOutputs_gate]
  · rfl

/-- R66, R158: what follows the drive frame leaves fault, timers and frame alone, but for the stage. -/
theorem State.finish_frameEvent {s : State} (h : s.frame.stage = .stepped) :
    s.finish.timers = s.outputs.driveFrame.timers
      ∧ s.finish.frame = { s.outputs.driveFrame.frame with stage := .closed } := by
  rw [State.finish_of_stepped h]
  simp [State.outputStep, State.toStage]

/-- R70, R82, R124: what the drive frame of a frame disturbs. -/
theorem State.finish_disturbs {s : State} (h : s.frame.stage = .stepped) :
    (s.finish.frame.disturbed = true ↔ s.frame.disturbed = true ∨ s.SetsFault s.finish)
      ∧ (s.SetsFault s.finish ↔ s.sup.fault = none ∧ s.sup.latency ≠ 0 ∧ s.out.judgment ≠ .settled
        ∧ (16 ≤ s.sup.linkRun + 1 ∨ s.sup.confirm ≤ s.sup.refRun))
      ∧ s.finish.timers.gate = s.timers.gate ∧ State.DisturbsIf (s.SetsFault s.finish) s.outputs s.finish := by
  obtain ⟨timers, frame⟩ := State.finish_frameEvent h
  obtain ⟨-, -, sup, -⟩ := State.finish_drive h
  obtain ⟨latency, confirm, refRun, linkRun, -, fault⟩ := Supervisor.runs_eq_iff.1 s.outputs_runs
  have out : s.outputs.out = s.out := by simp
  have sets : s.SetsFault s.finish ↔ s.outputs.SetsFault s.outputs.driveFrame := by
    rw [State.SetsFault, State.SetsFault, sup, fault]
  have marks := s.outputs.driveFrame_sets
  rw [latency, confirm, refRun, linkRun, fault, out] at marks
  obtain ⟨set, stand, slots⟩ := s.outputs.driveFrame_disturbs
  have ends : State.DisturbsIf (s.SetsFault s.finish) s.outputs s.finish := by
    rw [sets]
    exact slots.congr rfl rfl timers
  refine ⟨?_, sets.trans marks, ends.slots.1.trans s.outputs_gate, ends⟩
  rw [frame, sets]
  dsimp only
  by_cases hs : s.outputs.SetsFault s.outputs.driveFrame
  · simp [set hs, hs]
  · simp [stand hs, hs, State.outputs_disturbed]

/-! ### A readback (R69, R81, R82) -/

/-- R71, R82, R124: a valid readback. -/
theorem State.readback_valid_disturbs (s : State) (f : Vector Byte 40) :
    s.DisturbsByFault ((s.judgedValid.takeReadback (s.readbackIn f)).latchRisen s).flush := by
  obtain ⟨chan, requests, later, attention, taken, -⟩ := s.takeReadback_touches f
  have counted := s.judgedValid.countOutcome_disturbs (some (readbackReference f))
  have before : s.sup.fault = s.judgedValid.sup.fault ∧ s.frame = s.judgedValid.frame ∧ s.timers = s.judgedValid.timers := by
    simp [State.judgedValid]
  refine counted.congr (by simp) before ?_
  rw [taken]
  simp [State.withCompared, State.countedValid]

/-- R82, R124: whatever readback frame is received. -/
theorem exec_readback_disturbs {f : Vector Byte 40} {s t : State} (closed : s.frame.stage = .closed)
    (ht : exec (.readbackFrameReceived f) s = .next t) : s.DisturbsByFault t := by
  obtain ⟨judged, ignored⟩ := exec_readbackFrameReceived (f := f) closed
  by_cases sync : f[0] = 0x4C ∧ f[1] = 0x2D
  · have unjudged {o : OutputStage} (h : s.leaks.judgeReadback f.toList = s.leaks.withOut o) : s.DisturbsByFault t := by
      obtain ⟨timers, frame, sup, -⟩ := State.readback_unjudged h
      obtain rfl := Host.Outcome.next.inj ((judged sync).symm.trans ht)
      exact .of_unset (fun h => h.2 (by rw [sup]; simpa using h.1)) frame timers
    have out : s.leaks.out = s.out := by simp
    have word : at2 f.toList 2 = readbackEcho f := at2_toList f 2 (by omega)
    cases good : goodReadback f.toList with
    | false => exact unjudged (State.judgeReadback_of_bad good)
    | true =>
      by_cases echo : s.leaks.out.lastSeq = some (at2 f.toList 2)
      · by_cases settled : s.leaks.out.judgment = .settled
        · exact unjudged (State.judgeReadback_of_settled good echo settled)
        · have valid := State.exec_valid closed ((goodReadback_iff f).2 ⟨sync.1, sync.2, good⟩)
            (by rwa [out, word] at echo) (by rwa [out] at settled)
          obtain rfl := Host.Outcome.next.inj (valid.symm.trans ht)
          exact s.readback_valid_disturbs f
      · exact unjudged (State.judgeReadback_of_otherEcho good echo)
  · obtain rfl := Host.Outcome.next.inj ((ignored sync).symm.trans ht)
    exact .of_unset (fun h => h.2 h.1) rfl rfl

end Sys2Proof.Machine
end

