-- ==== Sys2Proof/Proofs/FrameDisturbance.lean ====
section
/-! SUPPORT. What disturbs a frame as it is taken: a gap, a readback fault that stands, and the failover that will be SWITCHING
once the boundary has been settled (R86, R87, R124). -/

namespace Sys2Proof.Machine

/-! ### The failover of the frame before (R86, R87) -/

theorem State.zeroFound_congr {s t : State} (cycle : t.recv.cycle = s.recv.cycle) (y : ∀ c : Fin 12, t.eng[c].y = s.eng[c].y)
    (x : FailoverCtx) : t.zeroFound x = s.zeroFound x := by
  unfold State.zeroFound
  rw [cycle, y]

theorem State.switchesNext_congr {s t : State} (sup : t.sup = s.sup) (cycle : t.recv.cycle = s.recv.cycle)
    (y : ∀ c : Fin 12, t.eng[c].y = s.eng[c].y) : t.switchesNext = s.switchesNext := by
  unfold State.switchesNext
  rw [sup]
  split
  · rfl
  · exact State.zeroFound_congr cycle y _
  · rfl

theorem State.switchesNext_of_quiet {s : State} (quiet : s.sup.engine = .quiet) : s.switchesNext = false := by
  rw [State.switchesNext, quiet]

/-! ### The frame is taken (R124) -/

/-- R124: the frame taken next will be disturbed. -/
def State.disturbsNext (s : State) : Bool :=
  s.recv.held.isNone || s.sup.fault.isSome || (s.switchesNext && s.seq.phase == .running && !s.decisionEnds s.decision)

theorem State.openEvent_disturbs (s : State) (d : Decision) (gap : Bool) (slot : Option ControlSlot) :
    let b := gap || s.sup.fault.isSome || (s.switchesNext && s.seq.phase == .running && !s.decisionEnds d)
    (s.openEvent d gap slot).frame.disturbed = b ∧ State.DisturbsIf (b = true) s (s.openEvent d gap slot) := by
  intro b
  let v := (s.withOut { s.out with limitPrev := s.out.limit }).withFrame ⟨.taken, gap, slot, d, b, false, false⟩
  have opened : s.openEvent d gap slot = if b = true then v.disturb else v := rfl
  by_cases hb : b = true
  · rw [opened, if_pos hb]
    exact ⟨by simp [v], fun _ => State.disturb_timers_congr rfl rfl, fun h => absurd hb h⟩
  · rw [opened, if_neg hb]
    exact ⟨rfl, fun h => absurd h hb, fun _ => rfl⟩

theorem State.decisionEnds_congr {s t : State} (seq : t.seq = s.seq) (plan : t.plan = s.plan) (d : Decision) :
    t.decisionEnds d = s.decisionEnds d := by
  cases d <;> simp [State.decisionEnds, State.exitTarget, State.part0, seq, plan]

/-- R124: what the taking of the frame disturbs. -/
theorem State.take_disturbs (s : State) :
    s.take.frame.disturbed = s.disturbsNext ∧ State.DisturbsIf (s.disturbsNext = true) s s.take := by
  have opened (u : State) (gap : Bool) (slot : Option ControlSlot) (sup : u.sup = s.sup) (seq : u.seq = s.seq)
      (plan : u.plan = s.plan) (timers : u.timers = s.timers) (cycle : u.recv.cycle = s.recv.cycle)
      (y : ∀ c : Fin 12, u.eng[c].y = s.eng[c].y) (hgap : gap = s.recv.held.isNone) :
      (u.openEvent s.decision gap slot).frame.disturbed = s.disturbsNext
        ∧ State.DisturbsIf (s.disturbsNext = true) s (u.openEvent s.decision gap slot) := by
    subst hgap
    have h := u.openEvent_disturbs s.decision s.recv.held.isNone slot
    rw [sup, seq, State.decisionEnds_congr seq plan, State.switchesNext_congr sup cycle y] at h
    exact ⟨h.1, h.2.congr (by rw [seq]) timers.symm rfl⟩
  unfold State.take
  cases held : s.recv.held with
  | none => exact opened _ true none (by simp) (by simp) (by simp) (by simp) rfl (by simp [State.fillRings]) (by rw [held]; rfl)
  | some h =>
    exact opened _ false (some h.slot) (by simp) (by simp) (by simp) (by simp) (by simp [Receiver.takeHeld])
      (by simp [State.writeRings]) (by rw [held]; rfl)

/-- R86: the taking of a frame leaves what the failover engine reads. -/
theorem State.take_switchesNext (s : State) : s.take.switchesNext = s.switchesNext := by
  refine State.switchesNext_congr (by simp) ?_ fun c => ?_
  all_goals
    unfold State.take
    split <;> simp [Receiver.takeHeld, Receiver.takeGap, State.writeRings, State.fillRings]

/-! ### The boundary is settled -/

theorem State.settle_quiet {s : State} (quiet : s.sup.engine = .quiet) (d : Decision) : (s.settle d).sup.engine = .quiet := by
  have entered {u : State} (quiet : u.sup.engine = .quiet) (st : Fin 32) (prev exit : Nat) :
      (u.enterState st prev exit).sup.engine = .quiet := by
    rcases u.enterState_cases st prev exit with ⟨sup, -, -⟩ | ⟨v, last, -, -, e⟩
    · rw [sup, quiet]
    · rw [e]
      exact (State.beginEnding_supervised _ _ _ _).2
  cases d with
  | start r =>
    dsimp only [State.settle, State.startTest]
    exact entered (by simp [State.supervisorStart, quiet]) _ _ _
  | stop r => exact (State.beginEnding_supervised _ _ _ _).2
  | duration => exact (State.beginEnding_supervised _ _ _ _).2
  | exit k => exact entered (u := s.nextFrame) quiet _ _ _
  | complete => simp [State.settle, quiet]
  | cancel => exact quiet
  | stay =>
    dsimp only [State.settle]
    split <;> exact quiet
  | change p =>
    rw [State.settle_change]
    exact quiet

/-- R33, R34, R88: where the decision ends RUNNING, ENDING begins and no failover is in flight any more. -/
theorem State.settle_ends {s : State} {d : Decision} (ends : s.decisionEnds d = true) (goesOn : d ≠ .complete) :
    (s.settle d).sup.engine = .quiet := by
  cases d with
  | stop r | duration => exact (State.beginEnding_supervised _ _ _ _).2
  | exit k =>
    have final : Part0.final s.plan.part0[s.exitTarget k] = true := ends
    rw [State.settle_exit rfl, if_pos final]
    exact (State.beginEnding_supervised _ _ _ _).2
  | complete => exact absurd rfl goesOn
  | stay | change p | cancel | start r => exact absurd ends Bool.false_ne_true

/-- R26, R27: an exit to a state that is not FINAL leaves what the failover engine reads. -/
theorem State.settle_exit_switchesNext {s : State} {k : Fin 4} (goesOn : Part0.final s.plan.part0[s.exitTarget k] = false) :
    (s.settle (.exit k)).switchesNext = s.switchesNext := by
  rw [State.settle_exit rfl, if_neg (Bool.eq_false_iff.1 goesOn)]
  refine State.switchesNext_congr ?_ ?_ fun c => ?_
  · simp [State.entered, State.loaded, State.leaving]
  · simp [State.entered, State.loaded, State.leaving]
  · obtain ⟨-, loads, -⟩ := (s.leaving k).entered_spec (s.exitTarget k) s.seq.stateInForce k
    obtain ⟨-, -, -, y, -⟩ := s.eng[c].enter_kept s.plan.channels[s.exitTarget k][c] (s.seq.stateInForce.val == 255)
    rw [loads, State.engineEnter_eng]
    exact y

/-- R33, R34, R87: at the settled boundary the failover will be SWITCHING where it would have been, in RUNNING that goes on. -/
theorem State.settle_switchesNext {s : State} (runs : s.EngineRuns) (taken : s.frame.stage = .taken) (fits : s.DecisionFits) :
    (s.settle s.frame.decision).switchesNext
      = (s.switchesNext && s.seq.phase == .running && !s.decisionEnds s.frame.decision) := by
  by_cases running : s.seq.phase = .running
  · have decided := fits taken running
    cases ends : s.decisionEnds s.frame.decision with
    | true =>
      rw [State.switchesNext_of_quiet (State.settle_ends ends fun h => by rw [h] at decided; exact decided)]
      simp
    | false =>
      have goesOn : (s.settle s.frame.decision).switchesNext = s.switchesNext := by
        cases hd : s.frame.decision with
        | stay =>
          rw [State.settle_stay_inTest ((Phase.inTest_iff _).2 (.inl running))]
          exact State.switchesNext_congr rfl rfl fun _ => rfl
        | exit k =>
          rw [hd] at ends
          exact State.settle_exit_switchesNext ends
        | stop r | duration =>
          rw [hd] at ends
          exact absurd ends.symm Bool.false_ne_true
        | change p | cancel | start r | complete =>
          rw [hd] at decided
          exact decided.elim
      rw [goesOn, running]
      simp
  · have quiet := runs.quiet running
    rw [State.switchesNext_of_quiet (State.settle_quiet quiet _), State.switchesNext_of_quiet quiet]
    rfl

/-! ### The other blocks act at the boundary (R85 to R87) -/

/-- R85: service puts the failover engine into AWAIT_ZERO with no frame waited, or leaves it. -/
theorem State.serve_engine (s : State) :
    s.serve.sup.engine = s.sup.engine ∨ ∃ x : FailoverCtx, x.wait = 0 ∧ s.serve.sup.engine = .awaitZero x := by
  unfold State.serve State.serveChannel
  split
  · split
    · exact .inr ⟨_, rfl, rfl⟩
    · split
      · exact .inl (by simp)
      · exact .inl (by simp)
  · exact .inl rfl

theorem State.serve_not_switching {s : State} (h : ∀ x : FailoverCtx, s.sup.engine ≠ .switching x) (x : FailoverCtx) :
    s.serve.sup.engine ≠ .switching x := by
  rcases s.serve_engine with e | ⟨y, -, e⟩
  · rw [e]
    exact h x
  · rw [e]
    exact nofun

theorem State.switchOver_not_switching {s : State} (h : ∀ x : FailoverCtx, s.sup.engine ≠ .switching x)
    (unfound : s.zeroIsFound = false) (x : FailoverCtx) : s.switchOver.sup.engine ≠ .switching x := by
  have stays : s.switchOver = s := by
    unfold State.switchOver
    unfold State.zeroIsFound at unfound
    split
    · next y hy =>
      rw [hy] at unfound
      exact if_neg (by simp [unfound])
    all_goals rfl
  rw [stays]
  exact h x

theorem State.completeFailover_stays {s : State} (h : s.switchIsOver = false) : s.completeFailover = s := by
  unfold State.completeFailover
  split
  · exact if_neg (by simp [h])
  all_goals rfl

/-- R85, R87: once a failover is complete, none is SWITCHING at this boundary. -/
theorem State.completeFailover_over {s : State} {x : FailoverCtx} (he : s.sup.engine = .switching x)
    (ended : s.switchIsOver = true) :
    (∀ y : FailoverCtx, s.completeFailover.sup.engine ≠ .switching y) ∧ s.completeFailover.zeroIsFound = false := by
  have completes : ∃ u : State, u.sup.engine = .quiet ∧ s.completeFailover = u.serve := by
    refine ⟨((s.moveMap x).makeFailover x.logical .done (some x.src) (some x.dst) x.wait x.switch).setEngine .quiet, rfl, ?_⟩
    rw [State.completeFailover, he]
    exact if_pos ended
  obtain ⟨u, quiet, e⟩ := completes
  rw [e]
  refine ⟨State.serve_not_switching (by simp [quiet]), ?_⟩
  unfold State.zeroIsFound
  rcases u.serve_engine with e | ⟨y, wait, e⟩
  · rw [e, quiet]
  · rw [e]
    simp [State.zeroFound, wait]

/-- R86, R87, R124: the frame is a SWITCHING frame of a failover where the engine said so before the boundary. -/
theorem State.boundaryApart_switching {s : State} (runs : s.EngineRuns) :
    (∃ x : FailoverCtx, s.boundaryApart.sup.engine = .switching x) ↔ s.switchesNext = true := by
  have acted : s.boundaryApart.sup = s.completeFailover.switchOver.serve.sup := by simp [State.boundaryApart]
  have isNot (h : ∀ x : FailoverCtx, s.completeFailover.switchOver.sup.engine ≠ .switching x) :
      ¬ ∃ x : FailoverCtx, s.boundaryApart.sup.engine = .switching x := fun ⟨x, hx⟩ =>
    State.serve_not_switching h x (acted ▸ hx)
  have stays {x : FailoverCtx} (h : s.completeFailover.switchOver.sup.engine = .switching x) :
      s.boundaryApart.sup.engine = .switching x := by
    rw [acted, State.serve_of_cannot (State.canServe_false (.inr (.inl (by simp [h])))), h]
  cases he : s.sup.engine with
  | quiet =>
    have same := State.completeFailover_stays (s := s) (State.switchIsOver_false (by simp [he]))
    have unfound : s.zeroIsFound = false := State.zeroIsFound_false (by simp [he])
    rw [State.switchesNext_of_quiet he]
    refine iff_of_false (isNot ?_) Bool.false_ne_true
    rw [same]
    exact State.switchOver_not_switching (by simp [he]) unfound
  | awaitZero x =>
    have same := State.completeFailover_stays (s := s) (State.switchIsOver_false (by simp [he]))
    have next : s.switchesNext = s.zeroFound x := by rw [State.switchesNext, he]
    rw [next]
    cases found : s.zeroFound x with
    | true =>
      refine iff_of_true ⟨{ x with switch := 0 }, stays ?_⟩ rfl
      rw [same, State.switchOver, he]
      simp [found]
    | false =>
      refine iff_of_false (isNot ?_) Bool.false_ne_true
      rw [same]
      exact State.switchOver_not_switching (by simp [he]) ((State.zeroIsFound_awaitZero he).trans found)
  | switching x =>
    have running : s.seq.phase = .running := by
      by_contra h
      have quiet := runs.quiet h
      simp [he] at quiet
    have next : s.switchesNext = true ↔ x.switch < max 1 s.sup.operate := by simp [State.switchesNext, he]
    have marks := State.switchIsOver_switching he
    rw [next]
    by_cases ends : s.switchIsOver = true
    · obtain ⟨begun, operated, -⟩ := marks.1 ends
      obtain ⟨notSwitching, unfound⟩ := State.completeFailover_over he ends
      exact iff_of_false (isNot (State.switchOver_not_switching notSwitching unfound)) (by omega)
    · have same := State.completeFailover_stays (s := s) (Bool.eq_false_iff.2 ends)
      refine iff_of_true ⟨x, stays ?_⟩ ?_
      · rw [same, State.switchOver, he]
        exact he
      · by_contra h
        exact ends (marks.2 ⟨by omega, by omega, running⟩)

theorem State.ready_sup {s : State} (settled : s.frame.stage = .settled) : s.ready.sup = s.boundaryApart.sup := by
  simp [State.ready, settled, State.toStage]

/-! ### The flag of the frame -/

theorem State.settleSeq_disturbed (s : State) : s.settleSeq.frame.disturbed = s.frame.disturbed := by
  unfold State.settleSeq
  split <;> simp [State.toStage]

theorem State.ready_disturbed (s : State) : s.ready.frame.disturbed = s.frame.disturbed := by
  obtain ⟨b, -, frame⟩ := s.boundaryApart_served
  unfold State.ready
  split
  · simp [State.toStage, frame]
  · rfl

/-- R124: the three things that disturb a frame as it is taken, the failover said from the settled boundary. -/
theorem State.disturbsNext_iff {s : State} (h : s.MapInv) :
    s.disturbsNext = true ↔ s.recv.held = none ∨ s.sup.fault ≠ none
      ∨ ∃ x : FailoverCtx, s.take.settleSeq.ready.sup.engine = .switching x := by
  have taken : s.take.MapInv := h.take
  have stage := s.take_stage
  have settled := State.MapInv.kept.settleSeq taken
  have decided := s.take_event.1
  have boundary := State.boundaryApart_switching settled.engineRuns
  rw [← State.ready_sup (State.settleSeq_stage _ stage)] at boundary
  have settles : s.take.settleSeq.switchesNext
      = (s.switchesNext && s.seq.phase == .running && !s.decisionEnds s.decision) := by
    have carried : s.take.settleSeq = (s.take.settle s.decision).toStage .settled := State.settleSeq_of_taken stage decided
    have phase : s.take.seq = s.seq := by simp
    have going := State.settle_switchesNext taken.engineRuns stage taken.decision
    rw [decided, State.take_switchesNext, phase, State.decisionEnds_congr phase (by simp)] at going
    rw [carried, ← going]
    rfl
  rw [boundary, settles, State.disturbsNext, Bool.or_eq_true, Bool.or_eq_true, or_assoc, Option.isNone_iff_eq_none,
    Option.isSome_iff_ne_none]

/-- Settles O25: the frame taken by `State.take_disturbs` and `State.disturbsNext_iff`, its drive frame by
`State.finish_disturbs`, a readback by `exec_readback_disturbs`. -/
theorem disturbed : Obligations.Disturbed := by
  refine ⟨fun s mapInv closed locked due => ?_, fun s t closed locked due ht => ?_, fun f s t closed ht => ?_⟩
  · have cause := State.disturbsNext_iff (State.MapInv.kept.finishSlot mapInv)
    have held : s.finishSlot.recv.held = s.recv.held := by simp
    have phase : s.finishSlot.seq.phase = s.seq.phase := by simp
    obtain ⟨flag, slots⟩ := s.finishSlot.take_disturbs
    rw [held] at cause
    rw [State.openFrame_of_due closed locked due]
    dsimp only
    rw [State.ready_disturbed, State.settleSeq_disturbed, flag, ← phase, ← cause]
    exact ⟨.rfl, .rfl, slots.slots⟩
  · intro w
    obtain ⟨closes, stepped⟩ := exec_arrivalWindowClose_of_due closed locked due
    have outputsNext : s.beforeOutputs = w := rfl
    rw [outputsNext] at closes stepped
    obtain rfl := Host.Outcome.next.inj (closes.symm.trans ht)
    obtain ⟨flag, sets, gate, slots⟩ := State.finish_disturbs stepped
    have phase : w.outputs.seq.phase = w.seq.phase := by simp
    have each := slots.slots.2
    rw [phase] at each
    exact ⟨flag, sets, gate, each⟩
  · obtain ⟨set, stand, slots⟩ := exec_readback_disturbs closed ht
    exact ⟨set, stand, slots.slots⟩

end Sys2Proof.Machine
end

