-- ==== Sys2Proof/Proofs/QueueAndStore.lean ====
section
/-! SUPPORT. What the operations make of the event queue, by offering records to it, and of the capture buffers that record (R131,
R135 to R138, R144). -/

namespace Sys2Proof.Machine

/-! ### Records offered to the queue -/

/-- Event queue, discard count and capture gate are alike. -/
def Report.SameQueue (r q : Report) : Prop := q.queue = r.queue ∧ q.discard = r.discard ∧ q.gateOpen = r.gateOpen

theorem Report.SameQueue.refl (r : Report) : r.SameQueue r := ⟨rfl, rfl, rfl⟩

theorem Report.SameQueue.trans {r q p : Report} (h : r.SameQueue q) (h' : q.SameQueue p) : r.SameQueue p := by
  obtain ⟨queue, discard, gate⟩ := h
  obtain ⟨queue', discard', gate'⟩ := h'
  exact ⟨queue'.trans queue, discard'.trans discard, gate'.trans gate⟩

theorem Report.GoesOn.sameQueue {r q : Report} (h : r.GoesOn q) : r.SameQueue q := by
  obtain ⟨queue, discard, -, -, gate⟩ := h
  exact ⟨queue, discard, gate⟩

/-- R131, R144: below the bound of its type a record joins the newest end. -/
theorem Report.admitOne_joins {r : Report} {m : Made} (h : r.queue.length < if m.body.reserved then 128 else 104) :
    r.admitOne m = { r with
      queue := r.queue ++ [⟨r.discard, m.testNo, m.time, m.body⟩]
      discard := 0
      gateOpen := gateAfterAdmission r.gateOpen (r.queue.length + 1) } := if_pos h

/-- R131: from the bound of its type on, a record is discarded. -/
theorem Report.admitOne_discards {r : Report} {m : Made} (h : ¬ r.queue.length < if m.body.reserved then 128 else 104) :
    r.admitOne m = { r with discard := satInc 255 r.discard }.raise .reportDiscard := if_neg h

/-- R131, R144: an admission or a discard reads queue, discard count and gate alone. -/
theorem Report.SameQueue.admitOne {r q : Report} (h : r.SameQueue q) (m : Made) :
    (r.admitOne m).SameQueue (q.admitOne m) := by
  obtain ⟨queue, discard, gate⟩ := h
  by_cases room : r.queue.length < (if m.body.reserved then 128 else 104)
  · rw [Report.admitOne_joins room, Report.admitOne_joins (queue.symm ▸ room), queue, discard, gate]
    exact ⟨rfl, rfl, rfl⟩
  · rw [Report.admitOne_discards room, Report.admitOne_discards (queue.symm ▸ room), discard]
    exact ⟨queue, rfl, gate⟩

theorem Report.SameQueue.admitAll {r q : Report} (h : r.SameQueue q) (ms : List Made) :
    (r.admitAll ms).SameQueue (q.admitAll ms) := List.foldl_rel h fun m _ _ _ hq => hq.admitOne m

/-- From `r` to `q` records have been offered to the event queue; nothing else has come of queue, discard count and gate. -/
def Report.Offers (r q : Report) : Prop := ∃ ms : List Made, (r.admitAll ms).SameQueue q

theorem Report.Offers.of_same {r q : Report} (h : r.SameQueue q) : r.Offers q := ⟨[], h⟩

theorem Report.Offers.trans {r q p : Report} (h : r.Offers q) (h' : q.Offers p) : r.Offers p := by
  obtain ⟨a, ha⟩ := h
  obtain ⟨b, hb⟩ := h'
  refine ⟨a ++ b, ?_⟩
  have both : r.admitAll (a ++ b) = (r.admitAll a).admitAll b := List.foldl_append
  rw [both]
  exact (ha.admitAll b).trans hb

/-- R131: what waits in the queue keeps its place. -/
theorem Report.Offers.isPrefix {r q : Report} (h : r.Offers q) : r.queue <+: q.queue := by
  obtain ⟨ms, queue, -⟩ := h
  rw [queue]
  exact r.admitAll_prefix ms

/-- From `s` to `t` records have been offered to the event queue, and nothing else has come of it. -/
def State.Offers (s t : State) : Prop := s.rep.Offers t.rep

theorem State.Offers.trans {s t u : State} (h : s.Offers t) (h' : t.Offers u) : s.Offers u := Report.Offers.trans h h'

theorem State.Offers.of_goesOn {s t : State} (h : s.rep.GoesOn t.rep) : s.Offers t := .of_same h.sameQueue

theorem State.Offers.of_rep {s t : State} (h : t.rep = s.rep := by simp) : s.Offers t := by
  unfold State.Offers
  rw [h]
  exact .of_same (.refl _)

/-! ### No buffer begins to record -/

/-- From `s` to `t` records have been offered to the event queue, the capture activity stands, and no buffer has begun to
record. -/
structure State.Proceeds (s t : State) : Prop where
  offers : s.Offers t
  activity : t.rep.activity = s.rep.activity
  live : ∀ i : Fin 4, t.rep.buffers[i].Live → s.rep.buffers[i].Live

namespace State.Proceeds

theorem of_rep {s t : State} (h : t.rep = s.rep := by simp) : s.Proceeds t :=
  ⟨.of_rep h, by rw [h], fun i => by rw [h]; exact id⟩

theorem refl (s : State) : s.Proceeds s := of_rep rfl

/-- Only the Report Unit counts, of the state that is left. -/
theorem from_same {s t u : State} (h : u.Proceeds t) (rep : u.rep = s.rep := by simp) : s.Proceeds t := by
  obtain ⟨offers, activity, live⟩ := h
  unfold State.Offers at offers
  rw [rep] at offers activity live
  exact ⟨offers, activity, live⟩

/-- Only the Report Unit counts, of the state that is reached. -/
theorem to_same {s t u : State} (h : s.Proceeds u) (rep : t.rep = u.rep := by simp) : s.Proceeds t := by
  obtain ⟨offers, activity, live⟩ := h
  unfold State.Offers at offers
  rw [← rep] at offers activity live
  exact ⟨offers, activity, live⟩

theorem trans {s t u : State} (h : s.Proceeds t) (h' : t.Proceeds u) : s.Proceeds u :=
  ⟨h.offers.trans h'.offers, h'.activity.trans h.activity, fun i hi => h.live i (h'.live i hi)⟩

/-- What leaves the capture buffers, and of the queue what `Report.SameQueue` names. -/
theorem of_same {s t : State} (queue : s.rep.SameQueue t.rep) (activity : t.rep.activity = s.rep.activity)
    (buffers : t.rep.buffers = s.rep.buffers) : s.Proceeds t :=
  ⟨.of_same queue, activity, fun i => by rw [buffers]; exact id⟩

theorem of_onlyMakes {s t : State} (h : s.OnlyMakes t) : s.Proceeds t := by
  obtain ⟨later, rep⟩ := h
  exact of_same (by rw [rep]; exact .refl _) (by rw [rep]) (by rw [rep])

theorem of_onlyApart {s t : State} (h : s.OnlyApart t) : s.Proceeds t := by
  obtain ⟨later, rep, -⟩ := h
  exact of_onlyMakes ⟨later, rep⟩

theorem foldl {α : Type} {f : State → α → State} (hf : ∀ (u : State) (x : α), u.Proceeds (f u x)) (l : List α)
    (s : State) : s.Proceeds (l.foldl f s) :=
  List.foldlRecOn (motive := s.Proceeds) l f (refl s) fun u hu x _ => hu.trans (hf u x)

/-- What is offered to the queue leaves the capture buffers. -/
theorem of_admitAll {s t : State} {made ms : List Made} (h : t.rep = ({ s.rep with made := made } : Report).admitAll ms) :
    s.Proceeds t := by
  have same : s.rep.SameQueue { s.rep with made := made } := ⟨rfl, rfl, rfl⟩
  refine ⟨⟨ms, ?_⟩, by simp [h], fun i => by simp [h]⟩
  rw [h]
  exact same.admitAll ms

end State.Proceeds

/-! ### Records -/

theorem State.make_proceeds (s : State) (n time : Nat) (b : Body) : s.Proceeds (s.make n time b) :=
  .of_onlyMakes (s.make_onlyMakes n time b)

/-- A record made in a state with the Report Unit of `s`. -/
theorem State.make_proceeds_of {s u : State} {n time : Nat} {b : Body} (rep : u.rep = s.rep) : s.Proceeds (u.make n time b) :=
  (u.make_proceeds n time b).from_same rep

theorem State.makeApart_proceeds (s : State) (n time : Nat) (b : Body) : s.Proceeds (s.makeApart n time b) :=
  .of_onlyApart ⟨[_], rfl, by simp⟩

theorem State.raise_proceeds (s : State) (a : Attn) : s.Proceeds (s.raise a) := .of_same ⟨rfl, rfl, rfl⟩ rfl rfl

theorem State.flush_proceeds (s : State) : s.Proceeds s.flush := .of_admitAll (made := []) rfl

theorem State.flushBoundary_proceeds (s : State) : s.Proceeds s.flushBoundary := by
  obtain ⟨before, after, rep, -⟩ := s.flushBoundary_spec.2
  exact .of_admitAll rep

theorem State.takeRecords_proceeds (s : State) (before : Receiver) (h : HeldFrame) (st : Nat × Nat) :
    s.Proceeds (s.takeRecords before h st) := .of_admitAll (made := s.rep.made) rfl

theorem State.latchRisen_proceeds (s before : State) : s.Proceeds (s.latchRisen before) := .of_rep

/-! ### Buffers replaced -/

/-- R148: of the store, only the buffers are replaced. -/
@[simp] theorem State.setBuffers_store (s : State) (b : Vector Buffer 4) :
    (s.setBuffers b).rep.buffers = b ∧ (s.setBuffers b).rep.activity = s.rep.activity
      ∧ (s.setBuffers b).rep.sendList = s.rep.sendList ∧ (s.setBuffers b).rep.made = s.rep.made := by
  rw [State.setBuffers_rep]
  exact ⟨rfl, rfl, rfl, rfl⟩

theorem upd_self {α : Type} {n : Nat} (v : Vector α n) (i : Fin n) (x : α) : (upd v i x)[i] = x := by simp

theorem upd_other {α : Type} {n : Nat} (v : Vector α n) {i j : Fin n} (h : j ≠ i) (x : α) : (upd v i x)[j] = v[j] := by
  have apart : (i : Nat) ≠ j := fun e => h (Fin.ext e.symm)
  simp [apart]

/-- Where buffer `i` is replaced by one that records only if it did, no buffer begins to record. -/
theorem live_upd {b : Vector Buffer 4} {i : Fin 4} {x : Buffer} (h : x.Live → b[i].Live) (j : Fin 4)
    (hj : (upd b i x)[j].Live) : b[j].Live := by
  by_cases e : j = i
  · subst e
    rw [upd_self] at hj
    exact h hj
  · rwa [upd_other b e] at hj

/-- Buffer `i` is replaced by one that records only if it did. -/
theorem State.setBuffer_proceeds {s : State} {i : Fin 4} {x : Buffer} (h : x.Live → s.rep.buffers[i].Live) :
    s.Proceeds (s.setBuffers (upd s.rep.buffers i x)) := by
  refine ⟨.of_goesOn (s.setBuffers_goesOn _), by simp, fun j live => live_upd h j ?_⟩
  simpa using live

/-! ### Events offered, and the breaker (R109, R110, R120, R136) -/

theorem State.offerTimers_proceeds (s : State) (ev : Cond) (stamp : Nat) (bo : Bool) :
    s.Proceeds (s.offerTimers ev stamp bo) := by
  obtain ⟨others, rep, -⟩ := s.offerTimers_others ev stamp bo
  exact .of_onlyMakes ⟨others, rep⟩

theorem State.offerCapture_proceeds (s : State) (ev : Cond) (stamp : Nat) : s.Proceeds (s.offerCapture ev stamp) := by
  unfold State.offerCapture
  dsimp only
  repeat' split
  case h_1.isTrue recording => exact State.setBuffer_proceeds fun _ => .inl recording
  all_goals exact .refl s

theorem State.offer_proceeds (s : State) (ev : Cond) (stamp : Nat) (bo : Bool) : s.Proceeds (s.offer ev stamp bo) :=
  (s.offerTimers_proceeds ev stamp bo).trans (State.offerCapture_proceeds _ ev stamp)

theorem State.breakerReached_proceeds (s : State) (opened tripFree : Bool) (input edgeStamp : Nat) (edgeBo : Bool)
    (operating : Nat) (t : Int) : s.Proceeds (s.breakerReached opened tripFree input edgeStamp edgeBo operating t) := by
  unfold State.breakerReached
  dsimp only
  refine .trans ?_ (State.offer_proceeds _ _ _ _)
  exact (State.make_proceeds _ _ _ _).from_same rfl

theorem State.completeOperation_proceeds (s : State) : s.Proceeds s.completeOperation := by
  unfold State.completeOperation
  split
  · exact s.breakerReached_proceeds ..
  · exact .refl s

theorem State.breakerEdge_proceeds (s : State) (i : Fin 8) (stamp : Nat) (bo : Bool) :
    s.Proceeds (s.breakerEdge i stamp bo) := by
  have tripFree : s.Proceeds (s.tripFree i stamp bo) := by
    unfold State.tripFree
    split
    · exact s.breakerReached_proceeds ..
    · exact .refl s
  unfold State.breakerEdge
  dsimp only
  repeat' split
  case h_4.isTrue => exact tripFree
  all_goals exact .of_rep

theorem State.deliver_proceeds (s : State) (i : Fin 8) (active : Bool) (start stamp : Nat) (bo : Bool) :
    s.Proceeds (s.deliver i active start stamp bo) := by
  by_cases test : s.seq.phase = .running ∨ s.seq.phase = .ending
  · rw [State.deliver_inTest i active start stamp bo test]
    split
    · exact (s.offer_proceeds _ _ _).trans (State.breakerEdge_proceeds _ i stamp bo)
    · exact s.offer_proceeds _ _ _
  · exact .of_rep (State.deliver_outside i active start stamp bo test).2

theorem State.joinEdgeRecord_proceeds (s : State) (before : List Made) (m : Option Made) :
    s.Proceeds (s.joinEdgeRecord before m) := by
  unfold State.joinEdgeRecord
  (repeat' split) <;> exact .of_same ⟨rfl, rfl, rfl⟩ rfl rfl

theorem State.acceptStep_proceeds (s : State) (i : Fin 8) : s.Proceeds (s.acceptStep i) := by
  cases cand : s.scan.inputs[i].cand with
  | none =>
    have nothing : s.acceptEdge i = s := by simp only [State.acceptEdge, cand]
    rw [State.acceptStep, nothing]
    exact s.flush_proceeds
  | some c =>
    have delivered : s.Proceeds (s.edgeDelivered i c) := (State.deliver_proceeds _ _ _ _ _ _).from_same
    have joined := delivered.trans (State.joinEdgeRecord_proceeds _ s.rep.made (s.recordOfEdge i c))
    rw [State.acceptStep_eq cand]
    exact (joined.trans (State.latchRisen_proceeds _ s)).trans (State.flush_proceeds _)

theorem State.operationStep_proceeds (s : State) : s.Proceeds s.operationStep :=
  (s.completeOperation_proceeds.trans (State.latchRisen_proceeds _ s)).trans (State.flush_proceeds _)

/-! ### Readbacks and drive frames (R66, R70, R76 to R82) -/

theorem State.setFault_proceeds (s : State) (c : FaultCause) : s.Proceeds (s.setFault c) := by
  refine .of_same ?_ ?_ ?_ <;> rw [State.setFault_rep]
  exact ⟨rfl, rfl, rfl⟩

theorem State.countOutcome_proceeds (s : State) (outcome : Option Nat) : s.Proceeds (s.countOutcome outcome) := by
  unfold State.countOutcome
  dsimp only
  repeat' split
  case h_1 => exact (State.setFault_proceeds _ _).from_same rfl
  case h_2.isTrue => exact .of_same ⟨rfl, rfl, rfl⟩ rfl rfl
  all_goals exact .of_rep

theorem State.compareOne_proceeds (rb : Readback) (s : State) (p : Fin 14) : s.Proceeds (State.compareOne rb s p) := by
  have failed (u : State) (mm ov th : Bool) (b : Nat) (me co : Int) : u.Proceeds (u.failChannel p mm ov th b me co) := by
    unfold State.failChannel
    dsimp only
    split <;> exact .of_same ⟨rfl, rfl, rfl⟩ rfl rfl
  unfold State.compareOne State.compare
  dsimp only
  repeat' split
  · exact (failed _ _ _ _ _ _ _).from_same rfl
  all_goals exact .of_rep

theorem State.judgeReadback_proceeds (s : State) (bs : List Byte) : s.Proceeds (s.judgeReadback bs) := by
  have taken (u : State) (rb : Readback) : u.Proceeds (u.takeReadback rb) := by
    unfold State.takeReadback
    dsimp only
    split
    · exact (u.countOutcome_proceeds _).trans (.foldl (State.compareOne_proceeds rb) _ _)
    · exact u.countOutcome_proceeds _
  unfold State.judgeReadback
  dsimp only
  repeat' split
  case isFalse.isTrue.isFalse => exact (taken _ _).from_same rfl
  all_goals exact .of_rep

theorem State.readback_proceeds (s : State) (bs : List Byte) : s.Proceeds (s.readback bs) := by
  have judged : s.Proceeds (s.leaks.judgeReadback bs) := (s.leaks.judgeReadback_proceeds bs).from_same
  exact (judged.trans (State.latchRisen_proceeds _ s)).trans (State.flush_proceeds _)

theorem State.sendDrive_proceeds (s : State) (samples : Vector Int 14) (route : Vector (Option (Fin 14)) 12) :
    s.Proceeds (s.sendDrive samples route) := by
  have closed : s.Proceeds s.closeJudgment := by
    unfold State.closeJudgment
    split
    · exact s.countOutcome_proceeds none
    · exact (State.countOutcome_proceeds _ none).from_same rfl
    · exact .refl s
  exact closed.to_same (by simp [State.sendDrive])

theorem State.driveFrame_proceeds (s : State) : s.Proceeds s.driveFrame :=
  State.Proceeds.from_same (State.sendDrive_proceeds _ _ _) rfl

theorem State.rampEvent_proceeds (s : State) (c : Fin 12) : s.Proceeds (s.rampEvent c) :=
  (State.offer_proceeds _ _ _ _).trans (State.make_proceeds _ _ _ _)

theorem State.outputs_proceeds (s : State) : s.Proceeds s.outputs := by
  unfold State.outputs
  split
  · rw [State.computeOutputs_eq]
    exact State.Proceeds.from_same (.foldl State.rampEvent_proceeds _ s.countFailoverFrame.advanced) (by simp [State.advanced])
  · exact .refl s

theorem State.outputStep_proceeds (s : State) : s.Proceeds s.outputStep :=
  ((s.outputs_proceeds.trans (State.driveFrame_proceeds _)).trans (State.latchRisen_proceeds _ s)).trans (State.flush_proceeds _)

/-! ### The boundary of a frame (R18, R85 to R87, R100, R102, R122) -/

theorem State.serve_proceeds (s : State) : s.Proceeds s.serve := .of_onlyApart s.serve_onlyApart

theorem State.completeFailover_proceeds (s : State) : s.Proceeds s.completeFailover :=
  .of_onlyApart s.completeFailover_onlyApart

theorem State.expire_proceeds (s : State) (k : Fin 8) : s.Proceeds (s.expire k) :=
  (State.makeApart_proceeds _ _ _ _).from_same rfl

theorem State.endChatter_proceeds (s : State) (i : Fin 8) : s.Proceeds (s.endChatter i) := by
  rw [State.endChatter_eq]
  exact .of_same ⟨rfl, rfl, rfl⟩ rfl rfl

theorem State.ready_proceeds (s : State) : s.Proceeds s.ready := by
  unfold State.ready
  split
  · have apart : s.Proceeds s.boundaryApart.latchZero := (State.Proceeds.of_onlyApart s.boundaryApart_onlyApart).to_same
    have flushed := apart.trans (State.flushBoundary_proceeds _)
    exact flushed.to_same
  · exact .refl s

theorem State.openPeriod_proceeds (s : State) : s.Proceeds s.openPeriod := by
  unfold State.openPeriod
  extract_lets c s1
  obtain ⟨-, -, rep⟩ := s1.windowSteps_spec s1.clock.scanFrame
  have steps : s1.Proceeds (s1.windowSteps s1.clock.scanFrame) := .of_onlyMakes ⟨_, rep⟩
  exact (steps.trans (State.flush_proceeds _)).from_same rfl

theorem State.take_proceeds (s : State) : s.Proceeds s.take := by
  unfold State.take
  extract_lets d
  split
  · next h held =>
    generalize taken : (s.withRecv (s.recv.takeHeld h)).withClock (s.slotClock (s.recv.takeHeld h)) = u
    have rep : u.rep = s.rep := by simp [← taken]
    have recorded : s.Proceeds (u.takeRecords s.recv h (u.takeStamp d)) := (State.takeRecords_proceeds ..).from_same rep
    subst taken
    exact recorded.to_same
  · exact .of_rep

theorem State.verify_proceeds (s : State) : s.Proceeds s.verify := by
  unfold State.verify State.verifyOutcome
  dsimp only
  (repeat' split) <;> exact .of_same ⟨rfl, rfl, rfl⟩ rfl rfl

/-! ### The Sequencer (R22, R27, R34 to R37) -/

theorem State.closeTest_proceeds (s : State) (r : EndReason) (last : Fin 32) (run : Nat) :
    s.Proceeds (s.closeTest r last run) := by
  rw [State.closeTest_eq]
  exact .of_same ⟨rfl, rfl, rfl⟩ rfl rfl

/-- R34: where ENDING begins, the blocks are closed, and the closing records made where F is 0. -/
theorem State.toEnding_proceeds (s : State) (r : EndReason) (own : Nat) (last : Fin 32) :
    (s.toEnding r).Proceeds (s.beginEnding r own last) := by
  by_cases fade : s.fade = 0
  · rw [State.beginEnding_of_no_fade fade]
    exact (State.closeTest_proceeds ((s.toEnding r).withSeq { s.seq.toEnding r with framesInState := own }) _ _ _).from_same
  · rw [State.beginEnding_of_fade fade]
    exact .refl _

/-- R27: a state is entered; where it is FINAL, ENDING begins. -/
theorem State.enterState_proceeds (s : State) (st : Fin 32) (prev exit : Nat) :
    ∃ u : State, s.Proceeds u ∧ u.seq.phase = s.seq.phase
      ∧ (s.enterState st prev exit = u ∨ ∃ last : Fin 32, s.enterState st prev exit = u.beginEnding .finalState 0 last) := by
  unfold State.enterState
  extract_lets n s1 count final q s2 s3
  have left : s.Proceeds s1 ∧ s1.seq = s.seq := by
    dsimp only [s1]
    split
    · exact ⟨.refl s, rfl⟩
    · exact ⟨State.make_proceeds _ _ _ _, rfl⟩
  obtain ⟨left, seq⟩ := left
  have entered : s1.Proceeds s2 := State.make_proceeds_of rfl
  have offered : s2.Proceeds s3 := (State.offer_proceeds _ _ _ _).from_same rfl
  refine ⟨s3, (left.trans entered).trans offered, by simp [s3, s2, q, seq], ?_⟩
  split
  · exact .inr ⟨_, rfl⟩
  · exact .inl rfl

/-! ### What the capture store leaves of the queue (R134, R135, R137, R138) -/

theorem State.bufferFull_goesOn (s : State) (i : Fin 4) (b : Buffer) : s.rep.GoesOn (s.bufferFull i b).rep := by
  have listed (bufs : Vector Buffer 4) : s.rep.GoesOn ((s.setBuffers bufs).listBuffer i).rep :=
    (s.setBuffers_goesOn bufs).trans (State.listBuffer_goesOn _ _)
  unfold State.bufferFull
  dsimp only
  split
  · exact (listed _).trans (State.make_goesOn _ _ _ _)
  · exact (((listed _).trans (State.make_goesOn _ _ _ _)).trans (State.setActivity_goesOn _ _)).trans (State.make_goesOn _ _ _ _)

theorem State.addRow_goesOn (s : State) (r : Row) : s.rep.GoesOn (s.addRow r).rep := by
  unfold State.addRow
  dsimp only
  repeat' split
  · exact s.setBuffers_goesOn _
  · exact s.bufferFull_goesOn _ _
  · exact s.setBuffers_goesOn _
  · exact .refl _

theorem State.formRow_goesOn (s : State) : s.rep.GoesOn s.formRow.rep := by
  unfold State.formRow
  split
  · exact s.addRow_goesOn _
  · exact .refl _

/-! ### What the Sequencer and the messages make of the queue -/

theorem State.advance_offers (s : State) : s.Offers s.advance := by
  unfold State.advance
  split
  · exact .of_rep
  · exact (State.Offers.of_goesOn s.formRow_goesOn).trans (State.flush_proceeds _).offers

theorem State.toEnding_goesOn (s : State) (r : EndReason) : s.rep.GoesOn (s.toEnding r).rep := by
  have same : (s.withSeq (s.seq.toEnding r)).rep = s.rep := State.withSeq_rep _ _
  have closed := (s.withSeq (s.seq.toEnding r)).closeBlocks_goesOn s.seq.testFrame
  rwa [same] at closed

theorem State.beginEnding_offers (s : State) (r : EndReason) (own : Nat) (last : Fin 32) :
    s.Offers (s.beginEnding r own last) :=
  (State.Offers.of_goesOn (s.toEnding_goesOn r)).trans (s.toEnding_proceeds r own last).offers

theorem State.enterState_offers (s : State) (st : Fin 32) (prev exit : Nat) : s.Offers (s.enterState st prev exit) := by
  obtain ⟨u, entered, -, e | ⟨last, e⟩⟩ := s.enterState_proceeds st prev exit <;> rw [e]
  · exact entered.offers
  · exact entered.offers.trans (u.beginEnding_offers _ _ _)

/-- R22, R135: a test starts, before state 0 is entered. -/
theorem State.startTest_cases (s : State) (r : StartRecord) :
    ∃ u v : State, s.Proceeds u ∧ u.captureStart.Proceeds v ∧ v.seq.phase = .running
      ∧ s.startTest r = v.enterState 0 255 255 := by
  unfold State.startTest
  extract_lets number q s1 sc s2
  have made : s.Proceeds s1 := State.make_proceeds_of rfl
  have begun : s.Proceeds (s1.timersStart.breakerStart) := made.to_same
  have offered := (State.offer_proceeds s2 ⟨.testStart, 0⟩ 0 false).from_same
    (s := s1.timersStart.breakerStart.captureStart) (by simp [s2])
  exact ⟨_, _, begun, offered, by simp [s2, s1, q], rfl⟩

theorem State.settle_offers (s : State) (d : Decision) : s.Offers (s.settle d) := by
  cases d with
  | stay =>
    dsimp only [State.settle]
    split <;> exact .of_rep rfl
  | change p =>
    rw [State.settle_change]
    exact .of_rep rfl
  | cancel => exact .of_rep rfl
  | start r =>
    obtain ⟨u, v, begun, offered, -, e⟩ := s.startTest_cases r
    rw [State.settle, e]
    exact ((begun.offers.trans (.of_goesOn u.captureStart_goesOn)).trans offered.offers).trans (v.enterState_offers _ _ _)
  | stop r => exact State.beginEnding_offers (s.withSeq s.seq.count) _ _ _
  | duration => exact State.beginEnding_offers (s.withSeq s.seq.count) _ _ _
  | exit k => exact State.enterState_offers s.nextFrame _ _ _
  | complete => exact (s.closeTest_proceeds _ _ _).offers

/-- R37: where a test runs, its blocks are closed; in a test its closing records are made. -/
theorem State.lossSequencer_cases (s : State) :
    (s.seq.phase = .running ∧ (s.closeBlocks (s.seq.testFrame + 1)).Proceeds s.lossSequencer)
      ∨ (s.seq.phase ≠ .running ∧ s.Proceeds s.lossSequencer) := by
  have ended (u : State) : u.Proceeds ((u.withSeq { s.seq with endReason := some .streamLost }).closeTest .streamLost
      s.seq.stateInForce (s.seq.testFrame + 1)) := (State.closeTest_proceeds _ _ _ _).from_same
  unfold State.lossSequencer
  extract_lets x
  split
  case h_1 running => exact .inl ⟨running, ended _⟩
  case h_2 ending => exact .inr ⟨by simp [ending], ended s⟩
  all_goals next outside => exact .inr ⟨by simp [outside], .of_rep⟩

/-- R154: the stream is lost: STREAM_GAP, the Sequencer, the loss drive frame. -/
theorem State.streamLoss_cases (s : State) :
    ∃ u : State, s.Proceeds u ∧ u.seq = s.seq ∧ u.frame = s.frame ∧ u.lossSequencer.Proceeds s.streamLoss := by
  unfold State.streamLoss
  extract_lets r s1
  have made : s.Proceeds ((s.make s.lossStamp.1 s.lossStamp.2 (.streamGap r.gapRun r.firstGap true)).withRecv
      { r with losses := satInc max32 r.losses }) :=
    (s.make_proceeds s.lossStamp.1 s.lossStamp.2 (.streamGap r.gapRun r.firstGap true)).to_same
  have lost : s.Proceeds s1.leaveLocked := (made.trans (State.raise_proceeds _ .streamLost)).to_same (by simp [s1, r])
  refine ⟨s1.leaveLocked, lost, by simp [s1], by simp [s1], ?_⟩
  exact (State.sendDrive_proceeds _ _ _).trans (State.flush_proceeds _)

theorem State.streamLoss_offers (s : State) : s.Offers s.streamLoss := by
  obtain ⟨u, lost, -, -, sent⟩ := s.streamLoss_cases
  refine (lost.offers.trans ?_).trans sent.offers
  rcases u.lossSequencer_cases with ⟨-, closed⟩ | ⟨-, resolved⟩
  · exact (State.Offers.of_goesOn (u.closeBlocks_goesOn _)).trans closed.offers
  · exact resolved.offers

theorem State.releaseBuffer_goesOn (s : State) (b : Fin 4) : s.rep.GoesOn (s.releaseBuffer b).rep := by
  unfold State.releaseBuffer
  split <;> exact s.setBuffers_goesOn _

/-- R140. -/
theorem release_cases (m : Msg) (s : State) : (release m s).state = s
    ∨ ∃ b : Fin 4, s.rep.buffers[b].state = .sent ∧ (release m s).state = s.releaseBuffer b := by
  unfold release
  cases indexA 4 m with
  | none => exact .inl rfl
  | some b =>
    unfold indexed valued
    dsimp only
    split
    · split
      · next sent => exact .inr ⟨b, sent, rfl⟩
      · exact .inl rfl
    · exact .inl rfl

/-- R143, R146: the messages about attention and pause. -/
theorem attentionMessages_proceed (m : Msg) (s : State) :
    s.Proceeds (ackAttention m s).state ∧ s.Proceeds (clearAttention m s).state ∧ s.Proceeds (pauseReports m s).state
      ∧ s.Proceeds (resumeReports m s).state := by
  unfold ackAttention clearAttention pauseReports resumeReports indexed valued
  refine ⟨?_, ?_, ?_, ?_⟩ <;> (repeat' split) <;> exact .of_same ⟨rfl, rfl, rfl⟩ rfl rfl

/-- R162: but for RELEASE and RESET_PART no message touches the capture buffers. -/
theorem handlerOf_proceeds {code : Byte} (released : code ≠ 0x11) (reset : code ≠ 0x19) (m : Msg) (s : State) :
    s.Proceeds (handlerOf code m s).state := by
  have other {c : Byte} (h : code ≠ c) : code.toNat ≠ c.toNat := fun e => h (BitVec.eq_of_toNat_eq e)
  obtain ⟨ack, clear, pause, resume⟩ := attentionMessages_proceed m s
  unfold handlerOf
  split
  case h_17 e => exact absurd e (other released)
  case h_18 => exact ack
  case h_19 => exact clear
  case h_20 => exact pause
  case h_21 => exact resume
  case h_25 e => exact absurd e (other reset)
  case h_26 => exact .refl s
  all_goals exact .of_rep

theorem handlerOf_offers {code : Byte} (reset : code ≠ 0x19) (m : Msg) (s : State) :
    s.Offers (handlerOf code m s).state := by
  by_cases released : code = 0x11
  · subst released
    rcases release_cases m s with e | ⟨b, -, e⟩
    · exact .of_rep (congrArg State.rep e)
    · exact .of_goesOn ((congrArg State.rep e) ▸ s.releaseBuffer_goesOn b)
  · exact (handlerOf_proceeds released reset m s).offers

/-! ### The return slot -/

/-- R142: the arbiter places a reply or nothing, a capture row, or a record. -/
theorem Report.arbiter_branches (r : Report) (reply : Option Reply) :
    (∃ item : List Byte, r.arbiter reply = (r, item)) ∨ (∃ i : Fin 4, r.arbiter reply = r.sendRow i)
      ∨ r.arbiter reply = r.sendRecord := by
  unfold Report.arbiter
  repeat' split
  · exact .inl ⟨_, rfl⟩
  · exact .inl ⟨_, rfl⟩
  · exact .inr (.inl ⟨_, rfl⟩)
  · exact .inr (.inr rfl)
  · exact .inr (.inr rfl)

/-- R133, R142: the arbiter takes from the queue nothing, or its oldest record, which it places in the return slot. -/
theorem Report.arbiter_cases (r : Report) (reply : Option Reply) :
    r.SameQueue (r.arbiter reply).1
      ∨ ∃ (e : Record) (rest : List Record), r.queue = e :: rest
        ∧ r.arbiter reply = ({ r with
            queue := rest, lastItem := .event, gateOpen := gateAfterRemoval r.gateOpen rest.length }, e.item) := by
  have record : r.SameQueue r.sendRecord.1 ∨ ∃ (e : Record) (rest : List Record), r.queue = e :: rest
      ∧ r.sendRecord = ({ r with
          queue := rest, lastItem := .event, gateOpen := gateAfterRemoval r.gateOpen rest.length }, e.item) := by
    unfold Report.sendRecord
    split
    · exact .inl (.refl r)
    · next e rest queue => exact .inr ⟨e, rest, queue, rfl⟩
  have row (i : Fin 4) : r.SameQueue (r.sendRow i).1 := by
    unfold Report.sendRow
    dsimp only
    rw [(Report.setBuffers_spec _ _).1]
    exact ⟨rfl, rfl, rfl⟩
  rcases r.arbiter_branches reply with ⟨item, e⟩ | ⟨i, e⟩ | e <;> rw [e]
  · exact .inl (.refl r)
  · exact .inl (row i)
  · exact record

end Sys2Proof.Machine
end

