-- ==== Sys2Proof/Proofs/QueueInvariant.lean ====
section
/-! SUPPORT. Every step keeps the event queue within its bounds and the capture gate as the depth requires (R131, R132, R144): what
a step does to the queue is to offer records and to send the oldest. -/

namespace Sys2Proof.Machine

/-! ### The queue in its bounds -/

/-- R131, R132, R144: depth and discard count lie in their bounds, and the gate stands as the depth requires. -/
def Report.QueueFits (r : Report) : Prop :=
  r.queue.length ≤ 128 ∧ r.discard ≤ 255 ∧ (64 ≤ r.queue.length → r.gateOpen = false)
    ∧ (r.gateOpen = false → 17 ≤ r.queue.length)

theorem State.queueInv_iff {s : State} : s.QueueInv ↔ s.rep.QueueFits := Iff.rfl

/-- R144: the gate after an admission. -/
theorem gateAfterAdmission_eq_false_iff (gate : Bool) (depth : Nat) :
    gateAfterAdmission gate depth = false ↔ gate = false ∨ 64 ≤ depth := by
  unfold gateAfterAdmission
  split <;> simp [*]

/-- R144: the gate after a removal. -/
theorem gateAfterRemoval_eq_false_iff (gate : Bool) (depth : Nat) :
    gateAfterRemoval gate depth = false ↔ gate = false ∧ 16 < depth := by
  unfold gateAfterRemoval
  split
  · simp [*]
  · next deep => simp [Nat.lt_of_not_le deep]

namespace Report.QueueFits

variable {r q : Report}

theorem of_same (h : r.QueueFits) (same : r.SameQueue q) : q.QueueFits := by
  obtain ⟨queue, discard, gate⟩ := same
  unfold Report.QueueFits
  rw [queue, discard, gate]
  exact h

/-- R131, R144: a record offered is admitted below the bound of its type, or counted up to 255. -/
theorem admitOne (h : r.QueueFits) (m : Made) : (r.admitOne m).QueueFits := by
  obtain ⟨depth, discard, closed, opened⟩ := h
  by_cases room : r.queue.length < (if m.body.reserved then 128 else 104)
  · have bound : (if m.body.reserved then 128 else 104) ≤ 128 := by split <;> omega
    rw [Report.admitOne_joins room]
    unfold Report.QueueFits
    simp only [List.length_append, List.length_cons, List.length_nil, gateAfterAdmission_eq_false_iff]
    refine ⟨by omega, by omega, .inr, fun shut => ?_⟩
    rcases shut with shut | deep
    · have := opened shut
      omega
    · omega
  · rw [Report.admitOne_discards room]
    exact ⟨depth, Nat.min_le_left _ _, closed, opened⟩

theorem admitAll (h : r.QueueFits) (ms : List Made) : (r.admitAll ms).QueueFits :=
  List.foldlRecOn (motive := Report.QueueFits) ms Report.admitOne h fun _ hu m _ => hu.admitOne m

theorem offers (h : r.QueueFits) (o : r.Offers q) : q.QueueFits := by
  obtain ⟨ms, same⟩ := o
  exact (h.admitAll ms).of_same same

/-- R144: the oldest record leaves the queue. -/
theorem arbiter (h : r.QueueFits) (reply : Option Reply) : (r.arbiter reply).1.QueueFits := by
  rcases r.arbiter_cases reply with same | ⟨e, rest, queue, sent⟩
  · exact h.of_same same
  · obtain ⟨depth, discard, closed, opened⟩ := h
    rw [sent]
    rw [queue, List.length_cons] at depth closed opened
    unfold Report.QueueFits
    dsimp only
    refine ⟨by omega, discard, fun deep => ?_, fun shut => ?_⟩ <;> rw [gateAfterRemoval_eq_false_iff] at *
    · exact ⟨closed (by omega), by omega⟩
    · omega

end Report.QueueFits

/-! ### The parts of a step -/

theorem State.answer_rep (s : State) (gap : Bool) : (s.answer gap).rep = (s.rep.arbiter s.reply).1 := rfl

theorem State.finish_rep {s : State} (h : s.frame.stage = .stepped) :
    s.finish.rep = (s.outputStep.rep.arbiter s.outputStep.reply).1 := by
  rw [State.finish_of_stepped h, ← State.answer_rep _ s.frame.gap]
  simp

theorem State.beginPeriod_rep (s : State) : s.beginPeriod.rep = (s.openPeriod.rep.arbiter s.openPeriod.reply).1 := by
  rw [← State.answer_rep _ false]
  simp [State.beginPeriod]

theorem State.resetBlocks_rep (s : State) : s.resetBlocks.rep = Report.reset := rfl

namespace State.QueueInv

variable {s t : State}

theorem offers (h : s.QueueInv) (o : s.Offers t) : t.QueueInv := Report.QueueFits.offers h o

theorem proceeds (h : s.QueueInv) (o : s.Proceeds t) : t.QueueInv := h.offers o.offers

/-- Part of a step leaves the Report Unit. -/
theorem of_rep (h : s.QueueInv) (rep : t.rep = s.rep := by simp) : t.QueueInv := h.offers (.of_rep rep)

theorem reset (h : t.rep = Report.reset) : t.QueueInv := by
  have fits : State.reset.rep.QueueFits := reset_queueInv
  rw [State.queueInv_iff, h]
  exact fits

/-- R162, R167: RESET_PART empties the queue; any other message leaves it. -/
theorem handlerOf (h : s.QueueInv) (code : Byte) (m : Msg) : (handlerOf code m s).state.QueueInv := by
  by_cases reset : code = 0x19
  · subst reset
    rcases resetPart_cases m s with e | e
    · exact .reset ((congrArg State.rep e).trans s.resetBlocks_rep)
    · exact h.of_rep (congrArg State.rep e)
  · exact h.offers (handlerOf_offers reset m s)

/-- Every part of a step keeps the invariant. -/
theorem kept : StepInvariant State.QueueInv where
  powerUp _ := .reset rfl
  setStream _ h := h.of_rep
  frameWhole _ _ _ h := h.of_rep
  checkTimeout h := h.of_rep
  leak _ _ h := h.of_rep
  endPulse _ h := h.of_rep
  acceptStep i h := h.proceeds (State.acceptStep_proceeds _ i)
  operationStep h := h.proceeds (State.operationStep_proceeds _)
  chose h := h.of_rep
  advance h := h.offers (State.advance_offers _)
  take _ _ h := h.proceeds (State.take_proceeds _)
  settle _ h := (h.offers (State.settle_offers _ _)).of_rep rfl
  ready _ h := h.proceeds (State.ready_proceeds _)
  silence _ h := h.of_rep
  message m code _ h := (h.handlerOf code m).of_rep rfl
  verify _ h := (h.proceeds (State.verify_proceeds _)).of_rep
  finish stage h := by
    rw [State.queueInv_iff, State.finish_rep stage]
    exact Report.QueueFits.arbiter (h.proceeds (State.outputStep_proceeds _)) _
  streamLoss _ _ h := h.offers (State.streamLoss_offers _)
  beginPeriod _ h := by
    rw [State.queueInv_iff, State.beginPeriod_rep]
    exact Report.QueueFits.arbiter (h.proceeds (State.openPeriod_proceeds _)) _
  scanZero h := h.of_rep
  serve _ h := h.proceeds (State.serve_proceeds _)
  switchOver _ h := h.of_rep
  completeFailover _ h := h.proceeds (State.completeFailover_proceeds _)
  holdExpiry _ _ h := h.of_rep
  expire k _ h := h.proceeds (State.expire_proceeds _ k)
  latchDwell _ h := h.of_rep
  endChatter i h := h.proceeds (State.endChatter_proceeds _ i)
  closeWindowOf _ h := h.of_rep
  flush h := h.proceeds (State.flush_proceeds _)
  lineChange _ _ _ h := h.of_rep
  readback bs _ h := h.proceeds (State.readback_proceeds _ bs)
  withPending _ h := h.of_rep

end State.QueueInv

/-- Settles O52, by `State.QueueInv.kept`: each part of a step keeps the invariant. -/
theorem stepKeepsQueueInv : Obligations.StepKeepsQueueInv := fun _ _ h ht => State.QueueInv.kept.step h ht

end Sys2Proof.Machine
end

