-- ==== Sys2Proof/Proofs/CaptureStore.lean ====
section
/-! SUPPORT. What each operation of the capture store does, case by case (R134 to R138), and which buffer it works on. -/

namespace Sys2Proof.Machine

/-! ### The buffer that records, and the one that can -/

theorem Buffer.live_iff (b : Buffer) : b.Live ↔ (b.state == .recording || b.state == .triggered) = true := by
  simp [Buffer.Live]

theorem liveBuffer_eq_some_iff {b : Vector Buffer 4} {i : Fin 4} :
    liveBuffer b = some i ↔ b[i].Live ∧ ∀ j : Fin 4, j < i → ¬ b[j].Live := by
  simp only [Buffer.live_iff, Bool.not_eq_true]
  exact find_allFin_eq_some

theorem liveBuffer_eq_none_iff {b : Vector Buffer 4} : liveBuffer b = none ↔ ∀ i : Fin 4, ¬ b[i].Live := by
  simp only [Buffer.live_iff, Bool.not_eq_true]
  exact find_allFin_eq_none

theorem freeBuffer_eq_some_iff {b : Vector Buffer 4} {i : Fin 4} :
    freeBuffer b = some i ↔ b[i].state = .free ∧ ∀ j : Fin 4, j < i → b[j].state ≠ .free := by
  unfold freeBuffer
  rw [find_allFin_eq_some]
  simp

theorem freeBuffer_eq_none_iff {b : Vector Buffer 4} : freeBuffer b = none ↔ ∀ i : Fin 4, b[i].state ≠ .free := by
  unfold freeBuffer
  rw [find_allFin_eq_none]
  simp

theorem sentBuffers_eq (b : Vector Buffer 4) : sentBuffers b = (allFin 4).countP fun i => b[i].state = .sent := by
  unfold sentBuffers
  rw [← List.countP_eq_length_filter]
  exact List.countP_congr fun i _ => by simp

/-- Where buffer `i` is replaced, a state that it has neither before nor after is had by the same buffers. -/
theorem state_upd {b : Vector Buffer 4} {i : Fin 4} {x : Buffer} {z : BufState} (old : b[i].state ≠ z) (new : x.state ≠ z)
    (j : Fin 4) : ((upd b i x)[j].state == z) = (b[j].state == z) := by
  by_cases e : j = i
  · subst e
    rw [upd_self, beq_eq_false_iff_ne.2 old, beq_eq_false_iff_ne.2 new]
  · rw [upd_other b e]

theorem Buffer.Live.ne_free {b : Buffer} (h : b.Live) : b.state ≠ .free := by
  rcases h with h | h <;> simp [h]

theorem Buffer.Live.ne_sent {b : Buffer} (h : b.Live) : b.state ≠ .sent := by
  rcases h with h | h <;> simp [h]

theorem freeBuffer_upd {b : Vector Buffer 4} {i : Fin 4} {x : Buffer} (old : b[i].state ≠ .free) (new : x.state ≠ .free) :
    freeBuffer (upd b i x) = freeBuffer b := by
  simp only [freeBuffer, state_upd old new]

theorem sentBuffers_upd {b : Vector Buffer 4} {i : Fin 4} {x : Buffer} (old : b[i].state ≠ .sent) (new : x.state ≠ .sent) :
    sentBuffers (upd b i x) = sentBuffers b := by
  simp only [sentBuffers, state_upd old new]

/-! ### What a part of an operation leaves of the store -/

@[simp] theorem State.make_store (s : State) (n time : Nat) (b : Body) :
    (s.make n time b).rep.buffers = s.rep.buffers ∧ (s.make n time b).rep.activity = s.rep.activity
      ∧ (s.make n time b).rep.sendList = s.rep.sendList
      ∧ (s.make n time b).rep.made = s.rep.made ++ [⟨n, time, b, false⟩] := ⟨rfl, rfl, rfl, rfl⟩

@[simp] theorem State.setActivity_store (s : State) (a : Activity) :
    (s.setActivity a).rep.buffers = s.rep.buffers ∧ (s.setActivity a).rep.activity = a
      ∧ (s.setActivity a).rep.sendList = s.rep.sendList ∧ (s.setActivity a).rep.made = s.rep.made := ⟨rfl, rfl, rfl, rfl⟩

@[simp] theorem State.listBuffer_store (s : State) (i : Fin 4) :
    (s.listBuffer i).rep.buffers = s.rep.buffers ∧ (s.listBuffer i).rep.activity = s.rep.activity
      ∧ (s.listBuffer i).rep.sendList = s.rep.sendList ++ [i] ∧ (s.listBuffer i).rep.made = s.rep.made :=
  ⟨rfl, rfl, rfl, rfl⟩

/-! ### The start of a test (R135) -/

section
variable {s : State}

theorem State.captureStart_of_disabled (h : Capture.enable s.plan.capture = false) : s.captureStart = s.setActivity .off := by
  rw [State.captureStart, h]
  rfl

theorem State.captureStart_of_free (h : Capture.enable s.plan.capture = true) {i : Fin 4}
    (free : freeBuffer s.rep.buffers = some i) :
    s.captureStart = (s.setBuffers (upd s.rep.buffers i (Buffer.recording s.seq.testNumber))).setActivity .on := by
  rw [State.captureStart, if_pos h, free]

theorem State.captureStart_of_none (h : Capture.enable s.plan.capture = true) (free : freeBuffer s.rep.buffers = none) :
    s.captureStart = (s.setActivity .waiting).make s.seq.testNumber (16 * s.seq.testFrame)
      (.captureUnavailable none (sentBuffers s.rep.buffers) s.rep.sendList.length) := by
  rw [State.captureStart, if_pos h, free]

/-! ### Events and rows (R134, R136, R137) -/

theorem State.offerCapture_of_apart {ev : Cond} (h : ¬ (s.rep.activity = .on ∧ Capture.trigger s.plan.capture = ev))
    (stamp : Nat) : s.offerCapture ev stamp = s := by
  rw [State.offerCapture, if_neg (by simpa using h)]

theorem State.offerCapture_of_recording {ev : Cond} (on : s.rep.activity = .on) (matched : Capture.trigger s.plan.capture = ev)
    {i : Fin 4} (live : liveBuffer s.rep.buffers = some i) (recording : s.rep.buffers[i].state = .recording) (stamp : Nat) :
    s.offerCapture ev stamp = s.setBuffers (upd s.rep.buffers i { s.rep.buffers[i] with
      state := .triggered, trigRow := s.rep.buffers[i].rows.length, trigFrame := s.seq.testFrame, trigTime := stamp }) := by
  rw [State.offerCapture, if_pos (by simp [on, matched]), live]
  exact if_pos recording

theorem State.offerCapture_of_no_recording (h : ∀ j : Fin 4, s.rep.buffers[j].state ≠ .recording) (ev : Cond) (stamp : Nat) :
    s.offerCapture ev stamp = s := by
  unfold State.offerCapture
  cases live : liveBuffer s.rep.buffers with
  | none => exact ite_self s
  | some i =>
    dsimp only
    rw [if_neg (h i)]
    exact ite_self s

variable {r : Row}

theorem State.addRow_of_none (live : liveBuffer s.rep.buffers = none) : s.addRow r = s := by
  rw [State.addRow, live]

theorem State.addRow_of_recording {i : Fin 4} (live : liveBuffer s.rep.buffers = some i)
    (recording : s.rep.buffers[i].state = .recording) :
    s.addRow r = s.setBuffers (upd s.rep.buffers i { s.rep.buffers[i] with
      rows := (s.rep.buffers[i].rows ++ [r]).drop ((s.rep.buffers[i].rows ++ [r]).length - Capture.pre s.plan.capture) }) := by
  rw [State.addRow, live]
  exact if_pos recording

/-- Buffer `b` with one row more. -/
def Buffer.plusRow (b : Buffer) (r : Row) : Buffer := { b with rows := b.rows ++ [r] }

theorem State.addRow_of_triggered {i : Fin 4} (live : liveBuffer s.rep.buffers = some i)
    (triggered : s.rep.buffers[i].state = .triggered) :
    s.addRow r =
      if (s.rep.buffers[i].rows ++ [r]).length = s.rep.buffers[i].trigRow + 1024 - Capture.pre s.plan.capture then
        s.bufferFull i (s.rep.buffers[i].plusRow r)
      else s.setBuffers (upd s.rep.buffers i (s.rep.buffers[i].plusRow r)) := by
  rw [State.addRow, live]
  exact if_neg (by rw [triggered]; decide)

variable {i : Fin 4} {b : Buffer}

theorem State.bufferFull_of_free {j : Fin 4} (free : freeBuffer (upd s.rep.buffers i { b with state := .full }) = some j) :
    s.bufferFull i b =
      ((s.setBuffers (upd (upd s.rep.buffers i { b with state := .full }) j (Buffer.recording s.seq.testNumber))).listBuffer i
        ).make s.seq.testNumber (16 * s.seq.testFrame) (readyBody i { b with state := .full }) := by
  rw [State.bufferFull, free]

theorem State.bufferFull_of_none (free : freeBuffer (upd s.rep.buffers i { b with state := .full }) = none) :
    s.bufferFull i b =
      ((((s.setBuffers (upd s.rep.buffers i { b with state := .full })).listBuffer i).make s.seq.testNumber
        (16 * s.seq.testFrame) (readyBody i { b with state := .full })).setActivity .waiting).make s.seq.testNumber
        (16 * s.seq.testFrame)
        (.captureUnavailable (some i) (sentBuffers (upd s.rep.buffers i { b with state := .full }))
          (s.rep.sendList.length + 1)) := by
  rw [State.bufferFull, free]

/-! ### The entry to ENDING (R138) -/

variable {e : Nat}

theorem State.captureClose_of_none (live : liveBuffer s.rep.buffers = none) : s.captureClose e = s.setActivity .off := by
  rw [State.captureClose, live]

theorem State.captureClose_of_recording (live : liveBuffer s.rep.buffers = some i)
    (recording : s.rep.buffers[i].state = .recording) :
    s.captureClose e = (s.setBuffers (upd s.rep.buffers i Buffer.reset)).setActivity .off := by
  rw [State.captureClose, live]
  exact congrArg (State.setActivity · .off) (if_pos recording)

/-- The buffer as the close of the test leaves it, where it has a row. -/
def Buffer.cut (b : Buffer) : Buffer := { b with state := .full, truncated := true }

theorem State.captureClose_of_empty (live : liveBuffer s.rep.buffers = some i)
    (triggered : s.rep.buffers[i].state = .triggered) (rows : s.rep.buffers[i].rows = []) :
    s.captureClose e = ((s.setBuffers (upd s.rep.buffers i Buffer.reset)).make s.seq.testNumber (16 * e)
      (readyBody i s.rep.buffers[i].cut)).setActivity .off := by
  simp only [State.captureClose, live, triggered, rows, reduceCtorEq, if_false, List.isEmpty_nil, if_true, Buffer.cut]

theorem State.captureClose_of_rows (live : liveBuffer s.rep.buffers = some i)
    (triggered : s.rep.buffers[i].state = .triggered) (rows : s.rep.buffers[i].rows ≠ []) :
    s.captureClose e = (((s.setBuffers (upd s.rep.buffers i s.rep.buffers[i].cut)).listBuffer i).make s.seq.testNumber (16 * e)
      (readyBody i s.rep.buffers[i].cut)).setActivity .off := by
  have some : s.rep.buffers[i].rows.isEmpty = false := by simpa using rows
  simp only [State.captureClose, live, triggered, some, reduceCtorEq, if_false, Bool.false_eq_true, Buffer.cut]

end

end Sys2Proof.Machine
end

