-- ==== Sys2Proof/Proofs/CaptureInvariant.lean ====
section
/-! SUPPORT. Every step keeps at most one buffer RECORDING or TRIGGERED, and none unless the capture activity is ON (R135, R138). A
buffer begins to record at three places: at a test start, where a buffer is FULL, and at a RELEASE while the activity is WAITING. -/

namespace Sys2Proof.Machine

/-! ### The capture store -/

/-- Only buffer `i` can record. -/
def OnlyLive (b : Vector Buffer 4) (i : Fin 4) : Prop := ∀ j : Fin 4, b[j].Live → j = i

/-- No buffer records. -/
def NoneLive (b : Vector Buffer 4) : Prop := ∀ j : Fin 4, ¬ b[j].Live

theorem NoneLive.onlyLive_upd {b : Vector Buffer 4} (h : NoneLive b) (i : Fin 4) (x : Buffer) : OnlyLive (upd b i x) i := by
  intro j hj
  by_contra other
  rw [upd_other b other] at hj
  exact h j hj

theorem OnlyLive.noneLive_upd {b : Vector Buffer 4} {i : Fin 4} (h : OnlyLive b i) {x : Buffer} (hx : ¬ x.Live) :
    NoneLive (upd b i x) := by
  intro j hj
  by_cases e : j = i
  · subst e
    rw [upd_self] at hj
    exact hx hj
  · rw [upd_other b e] at hj
    exact e (h j hj)

theorem Buffer.not_live {b : Buffer} (recording : b.state ≠ .recording) (triggered : b.state ≠ .triggered) : ¬ b.Live :=
  not_or.2 ⟨recording, triggered⟩

/-- R135: at most one buffer records, and none unless the activity is ON. -/
def Report.CaptureFits (r : Report) : Prop :=
  (∀ i j : Fin 4, r.buffers[i].Live → r.buffers[j].Live → i = j) ∧ (r.activity ≠ .on → NoneLive r.buffers)

/-- R138: no buffer records, and the activity is OFF. -/
def Report.CaptureOff (r : Report) : Prop := r.activity = .off ∧ NoneLive r.buffers

namespace Report.CaptureFits

variable {r : Report}

theorem of_none (h : NoneLive r.buffers) : r.CaptureFits := ⟨fun i _ hi _ => absurd hi (h i), fun _ => h⟩

theorem of_only {i : Fin 4} (h : OnlyLive r.buffers i) (on : r.activity = .on) : r.CaptureFits :=
  ⟨fun j k hj hk => (h j hj).trans (h k hk).symm, fun off => absurd on off⟩

theorem off (h : r.CaptureFits) (off : r.activity = .off) : r.CaptureOff := ⟨off, h.2 (by simp [off])⟩

theorem onlyLive (h : r.CaptureFits) {i : Fin 4} (live : liveBuffer r.buffers = some i) : OnlyLive r.buffers i :=
  fun j hj => h.1 j i hj (liveBuffer_eq_some_iff.1 live).1

/-- R135: where a buffer records the activity is ON. -/
theorem on (h : r.CaptureFits) {i : Fin 4} (live : liveBuffer r.buffers = some i) : r.activity = .on := by
  by_contra off
  exact h.2 off i (liveBuffer_eq_some_iff.1 live).1

end Report.CaptureFits

/-! ### What the operations of the capture store keep -/

section
variable {s t : State}

theorem State.Proceeds.fits (h : s.Proceeds t) (fits : s.rep.CaptureFits) : t.rep.CaptureFits := by
  obtain ⟨-, activity, live⟩ := h
  obtain ⟨unique, off⟩ := fits
  refine ⟨fun i j hi hj => unique i j (live i hi) (live j hj), fun notOn i hi => ?_⟩
  rw [activity] at notOn
  exact off notOn i (live i hi)

theorem State.Proceeds.off (h : s.Proceeds t) (off : s.rep.CaptureOff) : t.rep.CaptureOff :=
  ⟨h.activity.trans off.1, fun i hi => off.2 i (h.live i hi)⟩

/-- R135. -/
theorem State.captureStart_fits (h : NoneLive s.rep.buffers) : s.captureStart.rep.CaptureFits := by
  cases enabled : Capture.enable s.plan.capture with
  | false =>
    rw [State.captureStart_of_disabled enabled]
    exact .of_none h
  | true =>
    cases free : freeBuffer s.rep.buffers with
    | none =>
      rw [State.captureStart_of_none enabled free]
      exact .of_none h
    | some i =>
      rw [State.captureStart_of_free enabled free]
      exact .of_only (i := i) (by simpa using h.onlyLive_upd i _) rfl

/-- R137: buffer `i` is FULL, and the next FREE one records. -/
theorem State.bufferFull_fits {i : Fin 4} (only : OnlyLive s.rep.buffers i) (on : s.rep.activity = .on) (b : Buffer) :
    (s.bufferFull i b).rep.CaptureFits := by
  have none : NoneLive (upd s.rep.buffers i { b with state := .full }) :=
    only.noneLive_upd (Buffer.not_live (by simp) (by simp))
  cases free : freeBuffer (upd s.rep.buffers i { b with state := .full }) with
  | none =>
    rw [State.bufferFull_of_none free]
    exact .of_none (by simpa using none)
  | some j =>
    rw [State.bufferFull_of_free free]
    exact .of_only (i := j) (by simpa using none.onlyLive_upd j _) (by simpa using on)

/-- R134, R137. -/
theorem State.addRow_fits (h : s.rep.CaptureFits) (r : Row) : (s.addRow r).rep.CaptureFits := by
  cases live : liveBuffer s.rep.buffers with
  | none =>
    rw [State.addRow_of_none live]
    exact h
  | some i =>
    have records : s.rep.buffers[i].Live := (liveBuffer_eq_some_iff.1 live).1
    rcases records with recording | triggered
    · rw [State.addRow_of_recording live recording]
      exact (State.setBuffer_proceeds fun _ => .inl recording).fits h
    · rw [State.addRow_of_triggered live triggered]
      split
      · exact State.bufferFull_fits (h.onlyLive live) (h.on live) _
      · exact (State.setBuffer_proceeds fun _ => .inr triggered).fits h

theorem State.formRow_fits (h : s.rep.CaptureFits) : s.formRow.rep.CaptureFits := by
  unfold State.formRow
  split
  · exact State.addRow_fits h _
  · exact h

/-- R134: where no buffer records, a row goes nowhere. -/
theorem State.formRow_of_off (h : s.rep.CaptureOff) : s.formRow = s := by
  unfold State.formRow
  split
  · exact State.addRow_of_none (liveBuffer_eq_none_iff.2 h.2)
  · rfl

/-- R138. -/
theorem State.captureClose_off (h : s.rep.CaptureFits) (e : Nat) : (s.captureClose e).rep.CaptureOff := by
  refine ⟨rfl, ?_⟩
  cases live : liveBuffer s.rep.buffers with
  | none =>
    rw [State.captureClose_of_none live]
    exact liveBuffer_eq_none_iff.1 live
  | some i =>
    have only := h.onlyLive live
    have freed : NoneLive (upd s.rep.buffers i Buffer.reset) := only.noneLive_upd (Buffer.not_live (by decide) (by decide))
    have records : s.rep.buffers[i].Live := (liveBuffer_eq_some_iff.1 live).1
    rcases records with recording | triggered
    · rw [State.captureClose_of_recording live recording]
      simpa using freed
    · by_cases rows : s.rep.buffers[i].rows = []
      · rw [State.captureClose_of_empty live triggered rows]
        simpa using freed
      · rw [State.captureClose_of_rows live triggered rows]
        have cut := only.noneLive_upd (x := s.rep.buffers[i].cut) (Buffer.not_live (by simp [Buffer.cut]) (by simp [Buffer.cut]))
        simpa using cut

/-- R34, R138: the blocks are closed. -/
theorem State.closeBlocks_off (h : s.rep.CaptureFits) (e : Nat) : (s.closeBlocks e).rep.CaptureOff := by
  have slot (u : State) (k : Fin 8) : u.Proceeds (State.finaliseSlot e u k) := by
    rw [State.finaliseSlot_eq]
    split
    · exact State.make_proceeds_of rfl
    · exact .refl u
  have finalised : s.Proceeds (s.finaliseTimers e) :=
    (State.Proceeds.foldl slot (allFin 8) s).to_same (by simp [State.finaliseTimers])
  exact (State.Proceeds.of_onlyMakes (State.closeFailover_onlyMakes _ e)).off
    (State.captureClose_off (finalised.fits h) e)

/-- R34. -/
theorem State.beginEnding_off (h : s.rep.CaptureFits) (r : EndReason) (own : Nat) (last : Fin 32) :
    (s.beginEnding r own last).rep.CaptureOff := by
  have closed : (s.toEnding r).rep.CaptureOff := State.closeBlocks_off (s := s.withSeq (s.seq.toEnding r)) h _
  exact (s.toEnding_proceeds r own last).off closed

/-- R140. -/
theorem State.releaseBuffer_fits (h : s.rep.CaptureFits) (b : Fin 4) : (s.releaseBuffer b).rep.CaptureFits := by
  unfold State.releaseBuffer
  split
  · next waiting =>
    have none : NoneLive s.rep.buffers := h.2 (by simp [waiting])
    exact .of_only (i := b) (by simpa using none.onlyLive_upd b _) rfl
  · have freed : ¬ Buffer.reset.Live := Buffer.not_live (by decide) (by decide)
    exact (State.setBuffer_proceeds fun live => absurd live freed).fits h

end

/-! ### The return slot -/

/-- R139: no buffer begins to record where a row is sent. -/
theorem Report.arbiter_capture (r : Report) (reply : Option Reply) :
    (r.arbiter reply).1.activity = r.activity
      ∧ ∀ i : Fin 4, (r.arbiter reply).1.buffers[i].Live → r.buffers[i].Live := by
  have row (i : Fin 4) : (r.sendRow i).1.activity = r.activity
      ∧ ∀ j : Fin 4, (r.sendRow i).1.buffers[j].Live → r.buffers[j].Live := by
    unfold Report.sendRow
    extract_lets b last x b' r'
    rw [(Report.setBuffers_spec _ _).1]
    refine ⟨rfl, live_upd fun live => absurd live ?_⟩
    exact Buffer.not_live (by dsimp only [b']; split <;> simp) (by dsimp only [b']; split <;> simp)
  rcases r.arbiter_branches reply with ⟨item, e⟩ | ⟨i, e⟩ | e <;> rw [e]
  · exact ⟨rfl, fun _ => id⟩
  · exact row i
  · cases queue : r.queue <;> simp [Report.sendRecord, queue]

/-- R158: an answer frame is sent after `s`. -/
theorem State.Proceeds.of_answer {s t u : State} (h : s.Proceeds u) (rep : t.rep = (u.rep.arbiter u.reply).1) :
    (s.rep.CaptureFits → t.rep.CaptureFits) ∧ t.rep.activity = s.rep.activity := by
  obtain ⟨activity, live⟩ := u.rep.arbiter_capture u.reply
  refine ⟨fun fits => ?_, ?_⟩
  · obtain ⟨unique, off⟩ := h.fits fits
    rw [rep]
    exact ⟨fun i j hi hj => unique i j (live i hi) (live j hj), fun notOn i hi => off (activity ▸ notOn) i (live i hi)⟩
  · rw [rep, activity, h.activity]

/-! ### Phase and decision -/

/-- R162: only RESET_PART changes the phase. -/
theorem handlerOf_phase {code : Byte} (reset : code ≠ 0x19) (m : Msg) (s : State) :
    (handlerOf code m s).state.seq.phase = s.seq.phase := by
  have other : code.toNat ≠ 25 := fun e => reset (BitVec.eq_of_toNat_eq e)
  obtain ⟨⟨arm, -⟩, ⟨start, -⟩, abort, -⟩ := testMessages_countdown m s
  unfold handlerOf
  split
  case h_14 => exact arm
  case h_15 => exact start
  case h_16 => exact abort
  case h_25 e => exact absurd e other
  case h_26 => rfl
  all_goals simp

theorem State.DecisionFits.of_kept {s t : State} (h : s.DecisionFits) (phase : t.seq.phase = s.seq.phase)
    (frame : t.frame.stage = .taken → s.frame.stage = .taken ∧ t.frame.decision = s.frame.decision) : t.DecisionFits := by
  intro taken running
  obtain ⟨taken', decision⟩ := frame taken
  rw [decision]
  exact h taken' (phase ▸ running)

/-- R33: the decision of a RUNNING frame is one that RUNNING carries out. -/
theorem State.take_decisionFits (s : State) : s.take.DecisionFits := by
  intro _ running
  rw [s.take_event.1, State.decision_running (by simpa using running)]
  by_cases stopped : ∃ r : EndReason, s.seq.request = .stop r
  · obtain ⟨r, stop⟩ := stopped
    rw [State.decideRunning_of_stop stop]
    trivial
  · rw [State.decideRunning_of_no_stop (not_exists.1 stopped)]
    split_ifs
    · trivial
    · cases s.seq.latched <;> trivial

theorem Report.reset_off : Report.reset.CaptureOff := ⟨rfl, fun j => by simp [Report.reset, Buffer.Live, Buffer.reset]⟩

/-! ### The parts of a step -/

/-- R135, R138: the buffers fit the activity, which is OFF outside RUNNING. -/
def State.CaptureRuns (s : State) : Prop := s.rep.CaptureFits ∧ (s.seq.phase ≠ .running → s.rep.activity = .off)

theorem State.captureInv_iff {s : State} : s.CaptureInv ↔ s.CaptureRuns ∧ s.DecisionFits := by
  unfold State.CaptureInv State.CaptureRuns Report.CaptureFits
  tauto

namespace State.CaptureRuns

variable {s t : State}

theorem of_off (h : s.rep.CaptureOff) : s.CaptureRuns := ⟨.of_none h.2, fun _ => h.1⟩

theorem of_running (h : s.rep.CaptureFits) (running : s.seq.phase = .running) : s.CaptureRuns :=
  ⟨h, fun outside => absurd running outside⟩

theorem off (h : s.CaptureRuns) (outside : s.seq.phase ≠ .running) : s.rep.CaptureOff := h.1.off (h.2 outside)

theorem proceeds (h : s.CaptureRuns) (o : s.Proceeds t) (phase : t.seq.phase = s.seq.phase := by simp) : t.CaptureRuns :=
  ⟨o.fits h.1, fun outside => o.activity.trans (h.2 (phase ▸ outside))⟩

/-- R27: a state is entered; where it is FINAL, ENDING begins. -/
theorem enterState (h : s.CaptureRuns) (st : Fin 32) (prev exit : Nat) : (s.enterState st prev exit).CaptureRuns := by
  obtain ⟨u, entered, phase, e | ⟨last, e⟩⟩ := s.enterState_proceeds st prev exit <;> rw [e]
  · exact h.proceeds entered phase
  · exact .of_off (State.beginEnding_off (entered.fits h.1) _ _ _)

/-- R18: the boundary is settled as it was decided. -/
theorem settle (h : s.CaptureRuns) (taken : s.frame.stage = .taken) (fits : s.DecisionFits) :
    (s.settle s.frame.decision).CaptureRuns := by
  have fits := fits taken
  cases decided : s.frame.decision with
  | stay =>
    dsimp only [State.settle]
    split <;> exact h
  | stop r => exact .of_off (State.beginEnding_off (s := s.withSeq s.seq.count) h.1 _ _ _)
  | duration => exact .of_off (State.beginEnding_off (s := s.withSeq s.seq.count) h.1 _ _ _)
  | exit k => exact enterState (s := s.nextFrame) h _ _ _
  | change p =>
    rw [decided] at fits
    rw [State.settle_change]
    exact .of_off (h.off fits)
  | cancel =>
    rw [decided] at fits
    exact .of_off (h.off fits)
  | complete =>
    rw [decided] at fits
    exact .of_off ((s.closeTest_proceeds _ _ _).off (h.off fits))
  | start r =>
    rw [decided] at fits
    obtain ⟨u, v, begun, offered, running, e⟩ := s.startTest_cases r
    have started := State.captureStart_fits (begun.off (h.off fits)).2
    rw [State.settle, e]
    exact enterState (.of_running (offered.fits started) running) _ _ _

/-- R37, R154. -/
theorem streamLoss (h : s.CaptureRuns) : s.streamLoss.CaptureRuns := by
  obtain ⟨u, lost, seq, -, sent⟩ := s.streamLoss_cases
  refine .of_off (sent.off ?_)
  rcases u.lossSequencer_cases with ⟨-, closed⟩ | ⟨outside, resolved⟩
  · exact closed.off (State.closeBlocks_off (lost.fits h.1) _)
  · exact resolved.off (lost.off (h.off (seq ▸ outside)))

theorem advance (h : s.CaptureRuns) : s.advance.CaptureRuns := by
  by_cases running : s.seq.phase = .running
  · refine .of_running ?_ (by simpa using running)
    unfold State.advance
    split
    · exact h.1
    · exact ((State.flush_proceeds _).to_same rfl).fits (State.formRow_fits h.1)
  · refine .of_off ?_
    unfold State.advance
    split
    · exact h.off running
    · rw [State.formRow_of_off (h.off running)]
      exact ((State.flush_proceeds _).to_same rfl).off (h.off running)

/-- R140: only RELEASE makes a buffer record. -/
theorem release (h : s.CaptureRuns) (m : Msg) : (release m s).state.CaptureRuns := by
  rcases release_cases m s with e | ⟨b, -, e⟩ <;> rw [e]
  · exact h
  · refine ⟨State.releaseBuffer_fits h.1 b, fun outside => ?_⟩
    have off : s.rep.activity = .off := h.2 (by simpa using outside)
    unfold State.releaseBuffer
    rw [if_neg (by simp [off])]
    simpa using off

/-- R162. -/
theorem handlerOf (h : s.CaptureRuns) (code : Byte) (m : Msg) : (handlerOf code m s).state.CaptureRuns := by
  by_cases reset : code = 0x19
  · subst reset
    rcases resetPart_cases m s with e | e
    · exact (congrArg State.CaptureRuns e).mpr (.of_off (s.resetBlocks_rep ▸ Report.reset_off))
    · exact (congrArg State.CaptureRuns e).mpr h
  · by_cases released : code = 0x11
    · subst released
      exact h.release m
    · exact h.proceeds (handlerOf_proceeds released reset m s) (handlerOf_phase reset m s)

end State.CaptureRuns

namespace State.CaptureInv

variable {s t : State}

theorem runs (h : s.CaptureInv) : s.CaptureRuns := (State.captureInv_iff.1 h).1

theorem decision (h : s.CaptureInv) : s.DecisionFits := (State.captureInv_iff.1 h).2

theorem of_runs (h : s.CaptureInv) (runs : t.CaptureRuns) (phase : t.seq.phase = s.seq.phase := by simp)
    (frame : t.frame.stage = .taken → s.frame.stage = .taken ∧ t.frame.decision = s.frame.decision := by simp) :
    t.CaptureInv :=
  State.captureInv_iff.2 ⟨runs, h.decision.of_kept phase frame⟩

theorem proceeds (h : s.CaptureInv) (o : s.Proceeds t) (phase : t.seq.phase = s.seq.phase := by simp)
    (frame : t.frame.stage = .taken → s.frame.stage = .taken ∧ t.frame.decision = s.frame.decision := by simp) :
    t.CaptureInv := h.of_runs (h.runs.proceeds o phase) phase frame

/-- Part of a step leaves the Report Unit. -/
theorem of_rep (h : s.CaptureInv) (rep : t.rep = s.rep := by simp) (phase : t.seq.phase = s.seq.phase := by simp)
    (frame : t.frame.stage = .taken → s.frame.stage = .taken ∧ t.frame.decision = s.frame.decision := by simp) :
    t.CaptureInv := h.proceeds (.of_rep rep) phase frame

/-- R158: an answer frame is sent. -/
theorem answer {u : State} (h : s.CaptureInv) (o : s.Proceeds u) (rep : t.rep = (u.rep.arbiter u.reply).1)
    (phase : t.seq.phase = s.seq.phase := by simp)
    (frame : t.frame.stage = .taken → s.frame.stage = .taken ∧ t.frame.decision = s.frame.decision := by simp) :
    t.CaptureInv := by
  obtain ⟨fits, activity⟩ := o.of_answer rep
  exact h.of_runs ⟨fits h.runs.1, fun outside => activity.trans (h.runs.2 (phase ▸ outside))⟩ phase frame

/-- Every part of a step keeps the invariant. -/
theorem kept : StepInvariant State.CaptureInv where
  powerUp _ := reset_captureInv
  setStream _ h := h.of_rep
  frameWhole _ _ _ h := h.of_rep
  checkTimeout h := h.of_rep
  leak _ _ h := h.of_rep
  endPulse _ h := h.of_rep
  acceptStep i h := h.proceeds (State.acceptStep_proceeds _ i)
  operationStep h := h.proceeds (State.operationStep_proceeds _)
  chose h := h.of_rep
  advance h := h.of_runs h.runs.advance
  take _ _ h := State.captureInv_iff.2 ⟨h.runs.proceeds (State.take_proceeds _), State.take_decisionFits _⟩
  settle taken h := State.captureInv_iff.2 ⟨h.runs.settle taken h.decision, .of_stage (by simp [State.toStage])⟩
  ready settled h := h.proceeds (State.ready_proceeds _) (frame := by simp [State.ready, settled, State.toStage])
  silence ready h := h.of_rep (frame := by simp [State.toStage])
  message m code _ h :=
    State.captureInv_iff.2 ⟨h.runs.handlerOf code m, .of_stage (by simp [State.takeMessage, State.toStage])⟩
  verify _ h := (h.proceeds (State.verify_proceeds _)).of_rep (frame := by simp [State.toStage])
  finish stepped h := h.answer (State.outputStep_proceeds _) (State.finish_rep stepped)
    (frame := by simp [State.finish_stage _ stepped])
  streamLoss closed _ h := State.captureInv_iff.2 ⟨h.runs.streamLoss, .of_stage (by simp [State.streamLoss, closed])⟩
  beginPeriod _ h := h.answer (State.openPeriod_proceeds _) (State.beginPeriod_rep _)
  scanZero h := h.of_rep
  serve _ h := h.proceeds (State.serve_proceeds _)
  switchOver _ h := h.of_rep
  completeFailover _ h := h.proceeds (State.completeFailover_proceeds _)
  holdExpiry _ _ h := h.of_rep
  expire k _ h := h.proceeds (State.expire_proceeds _ k)
  latchDwell _ h := h.of_rep
  endChatter i h := h.proceeds (State.endChatter_proceeds _ i)
  closeWindowOf _ h := h.of_rep
  flush h := h.proceeds (State.flush_proceeds _)
  lineChange _ _ _ h := h.of_rep
  readback bs closed h := h.proceeds (State.readback_proceeds _ bs) (State.readback_phase _ bs)
    (frame := fun taken => absurd (closed.symm.trans (State.readback_stage _ bs ▸ taken)) (by decide))
  withPending _ h := h.of_rep

end State.CaptureInv

/-- Settles O56, by `State.CaptureInv.kept`: each part of a step keeps the invariant. -/
theorem stepKeepsCaptureInv : Obligations.StepKeepsCaptureInv := fun _ _ h ht => State.CaptureInv.kept.step h ht

end Sys2Proof.Machine
end

