-- ==== Sys2Proof/Proofs/RecordsLeave.lean ====
section
/-! SUPPORT. A record leaves the event queue by being sent (R132, R133): before the answer frame and after it a step only offers
records, and it sends one answer frame at most. -/

namespace Sys2Proof.Machine

/-! ### The item in the answer frame (R161) -/

theorem answerBytes_item (echo attention status : Nat) {item : List Byte} (h : item.length = 32) :
    ((answerBytes echo attention status item).drop 6).take 32 = item := by
  simp [answerBytes, sealFrame, byte1, byte2, ← h]

/-- R132: the queue stands at the head of the queue of `t`, or does so without its oldest record, which the return slot
carries. -/
def State.OnlySends (s t : State) : Prop :=
  s.rep.queue <+: t.rep.queue
    ∨ ∃ (r : Record) (rest : List Record), s.rep.queue = r :: rest ∧ rest <+: t.rep.queue
        ∧ (t.answerOut.drop 6).take 32 = r.item

namespace State.OnlySends

variable {s t u : State}

theorem of_offers (h : s.Offers t) : s.OnlySends t := .inl (Report.Offers.isPrefix h)

theorem of_rep (h : t.rep = s.rep := by simp) : s.OnlySends t := .of_offers (.of_rep h)

/-- Records may be offered before the answer frame. -/
theorem after (h : u.OnlySends t) (before : s.Offers u) : s.OnlySends t := by
  obtain ⟨later, waits⟩ := Report.Offers.isPrefix before
  rcases h with stays | ⟨r, rest, queue, stays, sent⟩
  · exact .inl (.trans ⟨later, waits⟩ stays)
  · cases first : s.rep.queue with
    | nil => exact .inl (first ▸ List.nil_prefix)
    | cons e waiting =>
      rw [first, queue, List.cons_append] at waits
      obtain ⟨rfl, rfl⟩ := List.cons.inj waits
      exact .inr ⟨e, waiting, first, (List.prefix_append _ _).trans stays, sent⟩

/-- Records may be offered after the answer frame. -/
theorem andThen (h : s.OnlySends u) (later : u.Offers t) (answer : t.answerOut = u.answerOut) : s.OnlySends t := by
  have stays := Report.Offers.isPrefix later
  rcases h with waits | ⟨r, rest, queue, waits, sent⟩
  · exact .inl (waits.trans stays)
  · exact .inr ⟨r, rest, queue, waits.trans stays, answer ▸ sent⟩

/-- R133, R158: the return slot of the answer frame carries the record that leaves. -/
theorem of_answersFrom {gap : Bool} (h : AnswersFrom s t gap) : s.OnlySends t := by
  obtain ⟨answer, rep, -⟩ := h
  rcases s.rep.arbiter_cases s.reply with ⟨queue, -, -⟩ | ⟨e, rest, queue, sent⟩
  · exact .inl (by rw [rep, queue])
  · refine .inr ⟨e, rest, queue, by rw [rep, sent], ?_⟩
    rw [answer, answerBytes_item _ _ _ (s.rep.arbiter_length s.reply), sent]

end State.OnlySends

/-! ### The slot in progress (R94) -/

theorem State.slotStep_offers (s : State) : s.Offers s.slotStep := by
  have performed (u : State) (e : SubtickEvent) : u.Offers (u.perform e) := by
    cases e with
    | edge i => exact (u.acceptStep_proceeds i).offers
    | deadline => exact u.operationStep_proceeds.offers
  have one (es : List SubtickEvent) : s.Offers (s.performOne es) := by
    unfold State.performOne
    split
    · exact .of_rep
    · exact performed _ _
    · exact (State.Offers.of_rep (t := s.chose)).trans (performed _ _)
  unfold State.slotStep State.dueStep
  split
  · exact .of_rep
  · split
    · exact .of_rep
    · split
      · exact s.advance_offers
      · exact one _

theorem State.dueStep_offers {s t : State} (h : s.dueStep = some t) : s.Offers t := by
  have step : s.slotStep = t := by rw [State.slotStep, h, Option.getD_some]
  exact step ▸ s.slotStep_offers

theorem State.finishSlot_offers (s : State) : s.Offers s.finishSlot := by
  have slot (fuel : Nat) (u : State) : u.Offers (State.runSlot fuel u) := by
    induction fuel generalizing u with
    | zero => exact .of_rep rfl
    | succ n ih =>
      unfold State.runSlot
      split
      · exact .of_rep
      · exact u.slotStep_offers.trans (ih _)
  have leaks : (State.runSlot 256 s).Offers s.finishSlot := .of_rep (by simp [State.finishSlot])
  exact (slot 256 s).trans leaks

/-! ### The frame-taken event (R162) -/

theorem State.openFrame_offers (s : State) : s.Offers s.openFrame := by
  unfold State.openFrame
  split
  · exact s.finishSlot_offers.trans (State.take_proceeds _).offers
  · exact .of_rep

theorem State.settleSeq_offers (s : State) : s.Offers s.settleSeq := by
  unfold State.settleSeq
  split
  · exact (s.settle_offers _).trans (.of_rep rfl)
  · exact .of_rep

theorem State.atBoundary_offers (s : State) : s.Offers s.atBoundary := s.openFrame_offers.trans (State.settleSeq_offers _)

theorem State.atMessage_offers (s : State) : s.Offers s.atMessage := s.atBoundary_offers.trans (State.ready_proceeds _).offers

theorem State.beforeMessage_offers (s : State) : s.Offers s.beforeMessage := by
  have scanned : s.atMessage.Offers s.beforeMessage := .of_rep (by simp [State.beforeMessage])
  exact s.atMessage_offers.trans scanned

theorem State.verifyStep_offers (s : State) : s.Offers s.verifyStep := by
  unfold State.verifyStep
  split
  · exact s.verify_proceeds.offers.trans (.of_rep rfl)
  · exact .of_rep

/-- R162: the frame in progress does not carry RESET_PART. -/
def State.SlotWithoutReset (s : State) : Prop := ∀ c : ControlSlot, s.frame.slot = some c → c.code ≠ 0x19

/-- R162: the held frame does not carry RESET_PART. -/
def State.HeldWithoutReset (s : State) : Prop := ∀ h : HeldFrame, s.recv.held = some h → h.slot.code ≠ 0x19

theorem State.openFrame_slotWithoutReset {s : State} (slot : s.SlotWithoutReset) (held : s.HeldWithoutReset) :
    s.openFrame.SlotWithoutReset := by
  unfold State.openFrame
  split
  · intro c hc
    rw [(State.take_event _).2] at hc
    obtain ⟨h, held', rfl⟩ := Option.map_eq_some_iff.1 hc
    exact held h (by simpa using held')
  · exact slot

theorem State.ready_slotWithoutReset {s : State} (h : s.SlotWithoutReset) : s.settleSeq.ready.SlotWithoutReset := by
  intro c hc
  rw [State.ready_slot, State.settleSeq_slot] at hc
  exact h c hc

theorem State.takeMessage_offers {code : Byte} (h : code ≠ 0x19) (m : Msg) (s : State) :
    s.Offers (s.takeMessage m code (handlerOf code)) := (handlerOf_offers h m s).trans (.of_rep rfl)

theorem State.handleSlot_offers {s : State} (h : s.SlotWithoutReset) : s.Offers s.handleSlot := by
  unfold State.handleSlot
  split
  · split
    · next c slot =>
      split
      · exact .of_rep
      · exact State.takeMessage_offers (h c slot) _ _
    · exact .of_rep
  · exact .of_rep

/-- R158: the event ends with its answer frame. -/
theorem State.finish_onlySends (s : State) : s.OnlySends s.finish := by
  by_cases stepped : s.frame.stage = .stepped
  · exact (State.OnlySends.of_answersFrom (State.finish_answersFrom stepped).1).after s.outputStep_proceeds.offers
  · rw [State.finish_of_stage stepped]
    exact .of_rep

theorem State.complete_onlySends {s : State} (h : s.SlotWithoutReset) : s.OnlySends s.complete := by
  have boundary : s.Offers s.settleSeq.ready := s.settleSeq_offers.trans (State.ready_proceeds _).offers
  have message := boundary.trans (State.handleSlot_offers (State.ready_slotWithoutReset h))
  exact (State.finish_onlySends _).after (message.trans (State.verifyStep_offers _))

theorem State.closeEvent_onlySends {s : State} (h : s.SlotWithoutReset) : s.OnlySends s.closeEvent := by
  unfold State.closeEvent
  split
  · exact .of_rep
  · exact State.complete_onlySends h

theorem State.windowClose_onlySends {s : State} (slot : s.SlotWithoutReset) (held : s.HeldWithoutReset) :
    s.OnlySends s.windowClose := by
  unfold State.windowClose
  split
  · split
    · exact (State.complete_onlySends (State.openFrame_slotWithoutReset slot held)).after s.openFrame_offers
    · exact .of_offers (s.finishSlot_offers.trans (State.streamLoss_offers _))
  · exact State.complete_onlySends slot

/-! ### The links and the clocks -/

/-- R157, R158: a period begins with its answer frame. -/
theorem State.answerPeriod_onlySends (s : State) : s.OnlySends s.answerPeriod := by
  unfold State.answerPeriod
  split
  · exact .of_rep
  · have sent : s.finishSlot.openPeriod.OnlySends (s.finishSlot.openPeriod.answer false) :=
      .of_answersFrom (State.answersFrom_answer _ _)
    have begun := sent.andThen (t := s.finishSlot.beginPeriod) (.of_rep (by simp [State.beginPeriod])) (by simp [State.beginPeriod])
    exact begun.after (s.finishSlot_offers.trans (State.openPeriod_proceeds _).offers)

/-- With no event in progress, bytes that arrive leave the Report Unit and the answer frame. -/
theorem State.receiveBytes_onlySends (bytes : List LinkByte) {s : State} (h : s.SlotWithoutReset) :
    s.OnlySends (s.receiveBytes bytes) := by
  have closed (xs : List LinkByte) (u : State) (hu : u.frame.stage = .closed) :
      (u.receiveBytes xs).rep = u.rep ∧ (u.receiveBytes xs).answerOut = u.answerOut := by
    induction xs generalizing u with
    | nil => exact ⟨rfl, rfl⟩
    | cons x xs ih =>
      have one : (u.receiveByte x).rep = u.rep ∧ (u.receiveByte x).answerOut = u.answerOut
          ∧ (u.receiveByte x).frame = u.frame := by
        unfold State.receiveByte
        rw [State.closeEvent_of_closed hu]
        (repeat' split) <;> simp
      obtain ⟨rep, answer, frame⟩ := one
      rw [State.receiveBytes_cons, ← rep, ← answer]
      exact ih _ (frame ▸ hu)
  induction bytes generalizing s with
  | nil => exact .of_rep rfl
  | cons x xs ih =>
    rw [State.receiveBytes_cons]
    unfold State.receiveByte
    split
    · exact (ih (s := s.setStream []) h).after .of_rep
    · next first rest _ =>
      split
      · obtain ⟨rep, answer⟩ := closed xs (s.closeEvent.frameWhole first rest) (by simp [State.closeEvent_stage])
        exact (State.closeEvent_onlySends h).andThen (.of_rep (by simp [rep])) (by simp [answer])
      · exact (ih (s := s.setStream (first :: rest)) h).after .of_rep

/-- Log 2: the part's own clock. -/
theorem State.tick_onlySends {s : State} (slot : s.SlotWithoutReset) (held : s.HeldWithoutReset) : s.OnlySends s.tick := by
  unfold State.tick
  split
  · split
    · next due => exact .of_offers (State.dueStep_offers due)
    · repeat' split
      · exact .of_rep
      · exact State.windowClose_onlySends slot held
      · exact s.answerPeriod_onlySends
      · exact .of_offers s.advance_offers
  · exact State.complete_onlySends slot

/-! ### Commands -/

section
variable {s : State} (slot : s.SlotWithoutReset)

theorem State.boundaryStep_onlySends {act : State → State} (h : ∀ u : State, u.Offers (act u)) (due : State → Bool) :
    s.OnlySends (s.boundaryStep due act) := by
  rcases s.boundaryStep_cases due act with ⟨-, -, e⟩ | e <;> rw [e]
  · exact .of_offers (s.atBoundary_offers.trans (h _))
  · exact .of_rep

theorem State.sequencerStep_onlySends (due : Decision → Bool) : s.OnlySends (s.sequencerStep due) := by
  rcases s.sequencerStep_cases due with ⟨-, -, e⟩ | e <;> rw [e]
  · exact .of_offers s.atBoundary_offers
  · exact .of_rep

theorem State.windowCommand_onlySends {act : State → State} (h : ∀ u : State, u.Offers (act u))
    (ends : State → Nat → Bool) : s.OnlySends (s.windowCommand ends act) := by
  unfold State.windowCommand
  repeat' split
  · exact State.boundaryStep_onlySends h _
  · exact .of_offers ((s.finishSlot_offers.trans (h _)).trans (State.flush_proceeds _).offers)
  · exact .of_rep

theorem State.messageStep_onlySends {code : Byte} (h : code ≠ 0x19) (m : Msg) :
    s.OnlySends (s.messageStep m code (handlerOf code)) := by
  rcases s.messageStep_cases m code (handlerOf code) with ⟨-, e⟩ | ⟨-, e⟩ <;> rw [e]
  · exact .of_offers (s.atMessage_offers.trans (State.takeMessage_offers h _ _))
  · exact .of_rep

include slot

theorem State.subtickCommand_onlySends {act : State → State} (h : ∀ u : State, u.Offers (act u))
    (answer : ∀ u : State, (act u).answerOut = u.answerOut) (due : State → Bool) : s.OnlySends (s.subtickCommand due act) := by
  rcases s.subtickCommand_cases due act with ⟨-, -, e⟩ | ⟨-, e⟩ | e <;> rw [e]
  · exact .of_offers (s.beforeMessage_offers.trans (h _))
  · exact (State.closeEvent_onlySends slot).andThen (h _) (answer _)
  · exact .of_rep

end

/-- R132: only the message RESET_PART has its code. -/
theorem messageOf_reset {c : Instr} {m : Msg} (h : messageOf c = some (0x19, m)) : c = .resetPart m := by
  cases c with
  | resetPart m' =>
    obtain ⟨-, rfl⟩ := Prod.mk.inj (Option.some.inj h)
    rfl
  | unknownMessage code m' =>
    by_cases unknown : code = 0 ∨ 0x19 < code.toNat
    · rw [messageOf, if_pos unknown] at h
      obtain ⟨rfl, -⟩ := Prod.mk.inj (Option.some.inj h)
      exact absurd unknown (by decide)
    · rw [messageOf, if_neg unknown] at h
      cases h
  | _ => cases h

/-- R132, command by command. -/
theorem exec_onlySends {c : Instr} {s : State} (powered : c ≠ .powerUpReset) (reset : ∀ m : Msg, c ≠ .resetPart m)
    (slot : s.SlotWithoutReset) (held : s.HeldWithoutReset) : ∃ t : State, exec c s = .next t ∧ s.OnlySends t := by
  rcases hm : messageOf c with _ | ⟨code, m⟩
  case some =>
    have other : code ≠ 0x19 := fun e => reset m (messageOf_reset (e ▸ hm))
    exact ⟨_, exec_message hm s, State.messageStep_onlySends other m⟩
  cases c with
  | powerUpReset => exact absurd rfl powered
  | sampleFrameArrival first rest => exact ⟨_, rfl, State.receiveBytes_onlySends _ slot⟩
  | checkTimeout => exact ⟨_, rfl, .of_rep⟩
  | arrivalWindowClose => exact ⟨_, rfl, State.windowClose_onlySends slot held⟩
  | answerFrameClockPeriod => exact ⟨_, rfl, s.answerPeriod_onlySends⟩
  | readbackFrameReceived frame =>
    refine ⟨_, rfl, ?_⟩
    split
    · exact (State.closeEvent_onlySends slot).andThen (State.readback_proceeds _ _).offers (by simp [State.readback])
    · exact .of_rep
  | leakStep p => exact ⟨_, rfl, .of_rep⟩
  | failoverService => exact ⟨_, rfl, State.boundaryStep_onlySends (fun u => u.serve_proceeds.offers) _⟩
  | zeroFound => exact ⟨_, rfl, State.boundaryStep_onlySends (fun _ => .of_rep) _⟩
  | failoverComplete => exact ⟨_, rfl, State.boundaryStep_onlySends (fun u => u.completeFailover_proceeds.offers) _⟩
  | inputLineChange i high => exact ⟨_, rfl, (State.closeEvent_onlySends slot).andThen .of_rep (by simp)⟩
  | acceptedEdge i =>
    exact ⟨_, rfl, State.subtickCommand_onlySends slot (fun u => (u.acceptStep_proceeds i).offers) (by simp) _⟩
  | chatterEnd i => exact ⟨_, rfl, State.windowCommand_onlySends (fun u => (u.endChatter_proceeds i).offers) _⟩
  | chatterWindowClose i => exact ⟨_, rfl, State.windowCommand_onlySends (fun _ => .of_rep) _⟩
  | breakerOperationComplete =>
    exact ⟨_, rfl, State.subtickCommand_onlySends slot (fun u => u.operationStep_proceeds.offers) (by simp) _⟩
  | pulsePeriodEnd k => exact ⟨_, rfl, State.subtickCommand_onlySends slot (fun _ => .of_rep) (by simp) _⟩
  | timeoutDue k => exact ⟨_, rfl, State.boundaryStep_onlySends (fun _ => .of_rep) _⟩
  | timerExpired k => exact ⟨_, rfl, State.boundaryStep_onlySends (fun u => (u.expire_proceeds k).offers) _⟩
  | verificationOutcome =>
    have message : s.Offers s.atVerification := s.atMessage_offers.trans
      (State.handleSlot_offers (State.ready_slotWithoutReset (State.openFrame_slotWithoutReset slot held)))
    refine ⟨_, rfl, ?_⟩
    split
    · exact .of_offers (message.trans (State.verifyStep_offers _))
    · exact .of_rep
  | dwellDone => exact ⟨_, rfl, State.boundaryStep_onlySends (fun _ => .of_rep) _⟩
  | armCancel | testStart | stateExit | durationLimit | endRequest | testComplete =>
    exact ⟨_, rfl, State.sequencerStep_onlySends _⟩
  | unknownMessage code m =>
    by_cases unknown : code = 0 ∨ 0x19 < code.toNat
    · rw [messageOf, if_pos unknown] at hm
      cases hm
    · exact ⟨s, congrArg Host.Outcome.next (if_neg (mt (unknownCode_iff code).1 unknown)), .of_rep⟩
  | _ => cases hm

/-- Settles O58: a step sends one answer frame at most, with the oldest record in its return slot (`State.finish_onlySends`,
`State.answerPeriod_onlySends`), and else only offers records. -/
theorem recordsLeaveByBeingSent : Obligations.RecordsLeaveByBeingSent := by
  intro s t stepped noReset
  obtain ⟨command, frames⟩ := not_or.1 noReset
  obtain ⟨heldFrame, slotFrame⟩ := not_or.1 frames
  have held : s.HeldWithoutReset := fun h isHeld reset => heldFrame ⟨h, isHeld, reset⟩
  have slot : s.SlotWithoutReset := fun c inSlot reset => slotFrame ⟨c, inSlot, reset⟩
  unfold step at stepped
  split at stepped
  · obtain rfl := Host.Outcome.next.inj stepped
    exact State.tick_onlySends slot held
  · next c rest pending =>
    have first : s.pending.head? = some c := by rw [pending]; rfl
    obtain ⟨u, hu, sends⟩ := exec_onlySends (c := c) (s := s.withPending rest) (fun e => command ⟨c, first, .inl e⟩)
      (fun m e => command ⟨c, first, .inr ⟨m, e⟩⟩) slot held
    obtain rfl := Host.Outcome.next.inj (hu.symm.trans stepped)
    exact sends

end Sys2Proof.Machine
end

