-- ==== Sys2Proof/Proofs/ReportMessages.lean ====
section
/-! SUPPORT. The messages about reports and attention: what is refused, in order, and what each does (R140, R143, R146, R148). -/

namespace Sys2Proof.Machine

/-! ### RELEASE (R140, R148) -/

/-- R140: the checks of RELEASE, in order. -/
theorem release_eq (m : Msg) (s : State) :
    release m s =
      let b : Fin 4 := Fin.ofNat 4 m.indexA.toNat
      if 3 < m.indexA.toNat ∨ m.indexB ≠ 0 then refuse s .noEntry
      else if ¬ UnusedZero m 0 then refuse s .badValue
      else if s.rep.buffers[b].state ≠ .sent then refuse s .wrongState
      else done (s.releaseBuffer b) := by
  rw [release, indexed_indexA_eq]
  simp only [valued_eq, noPayload_iff, ite_not]
  rfl

/-- R140: a release acts on the Report Unit alone. -/
theorem State.releaseBuffer_eq (s : State) (b : Fin 4) : s.releaseBuffer b = s.withRep (s.releaseBuffer b).rep := by
  unfold State.releaseBuffer
  split <;> rfl

/-- R140: what becomes of buffer `b`, and of the activity. -/
theorem State.releaseBuffer_store (s : State) (b : Fin 4) :
    (s.rep.activity ≠ .waiting → (s.releaseBuffer b).rep.activity = s.rep.activity
        ∧ (s.releaseBuffer b).rep.buffers = s.rep.buffers.set b Buffer.reset)
      ∧ (s.rep.activity = .waiting → (s.releaseBuffer b).rep.activity = .on
        ∧ (s.releaseBuffer b).rep.buffers = s.rep.buffers.set b (Buffer.recording s.seq.testNumber)) := by
  unfold State.releaseBuffer
  refine ⟨fun working => ?_, fun waiting => ?_⟩
  · rw [if_neg working]
    simp [upd_eq_set]
  · rw [if_pos waiting]
    simp [upd_eq_set]

/-- R148: CAPTURE_WAITING follows its level where the buffers are replaced. -/
theorem Report.AttentionFollows.release {r q : Report} (h : r.AttentionFollows q) :
    (∀ a : Fin 6, a ≠ 5 → q.attention[a] = r.attention[a])
      ∧ (waitingLevel r.buffers = true → waitingLevel q.buffers = false → q.attention[5] = false)
      ∧ (waitingLevel r.buffers = waitingLevel q.buffers → q.attention[5] = r.attention[5]) := by
  obtain ⟨others, -, ends, stays⟩ := h
  simp only [← Report.waitingLevel_iff] at ends stays
  exact ⟨others, fun before after => ends before (by simp [after]), fun same => stays (by simp [same])⟩

/-- R140, R148: a release leaves everything else, and the attention set follows the buffers. -/
theorem State.releaseBuffer_rep (s : State) (b : Fin 4) :
    s.rep.AttentionFollows (s.releaseBuffer b).rep ∧ s.rep.GoesOn (s.releaseBuffer b).rep
      ∧ (s.releaseBuffer b).rep.sendList = s.rep.sendList ∧ (s.releaseBuffer b).rep.made = s.rep.made := by
  refine ⟨?_, s.releaseBuffer_goesOn b, ?_⟩
  · unfold State.releaseBuffer
    split <;> exact (Report.setBuffers_spec _ _).2
  · unfold State.releaseBuffer
    split <;> simp

/-! ### Attention and pause (R143, R146) -/

/-- R146: the search for a pending condition by its code. -/
theorem find_pending (pending : Vector Bool 6) (a : Fin 6) :
    ((allFin 6).find? fun x => x.val + 1 == a.val + 1 && pending[x]) = if pending[a] = false then none else some a := by
  cases set : pending[a] with
  | false =>
    refine find_allFin_eq_none.2 fun x => ?_
    by_cases e : x = a
    · subst e
      simp [set]
    · simp [Fin.val_ne_of_ne e]
  | true =>
    refine find_allFin_eq_some.2 ⟨by simp [set], fun x below => ?_⟩
    simp [Nat.ne_of_lt (Fin.lt_def.1 below)]

/-- R146: the checks of ACK_ATTENTION where the code is that of condition `a`. -/
theorem ackAttention_of_code {m : Msg} {a : Fin 6} (code : m.indexA.toNat = a.val + 1) (indexB : m.indexB = 0) (s : State) :
    ackAttention m s =
      if s.rep.attention[a] = false then refuse s .noEntry
      else if ¬ UnusedZero m 0 then refuse s .badValue
      else done (s.withRep { s.rep with attention := s.rep.attention.set a false }) := by
  have known : within 1 6 (a.val + 1) = true := by simp
  rw [ackAttention, if_pos indexB, indexed_some, code, known, valued_true, find_pending]
  by_cases pending : s.rep.attention[a] = false
  · rw [if_pos pending, if_pos pending]
    rfl
  · rw [if_neg pending, if_neg pending, indexed_some, valued_eq]
    simp only [noPayload_iff, ite_not]
    rfl

theorem ackAttention_of_indexB {m : Msg} (h : m.indexB ≠ 0) (s : State) : ackAttention m s = refuse s .noEntry := by
  rw [ackAttention, if_neg h, indexed_none]

theorem ackAttention_of_unknown {m : Msg} (indexB : m.indexB = 0) (h : m.indexA = 0 ∨ 6 < m.indexA.toNat) (s : State) :
    ackAttention m s = refuse s .badValue := by
  have unknown : within 1 6 m.indexA.toNat = false := by
    rw [← Bool.not_eq_true, within_iff]
    rcases h with h | h
    · simp [h]
    · omega
  rw [ackAttention, if_pos indexB, indexed_some, unknown, valued_false]

/-- R143, R146: the checks of a message with neither index nor payload that acts on the Report Unit. -/
theorem plain_eq (m : Msg) (s : State) (r : Report) :
    (indexed s (bothZero m) fun _ => valued (noPayload m) s (done (s.withRep r))) =
      if ¬ (m.indexA = 0 ∧ m.indexB = 0) then refuse s .noEntry
      else if ¬ UnusedZero m 0 then refuse s .badValue
      else done (s.withRep r) := by
  rw [indexed_bothZero_eq]
  simp only [valued_eq, noPayload_iff, ite_not, not_and_or, ne_eq]

theorem exec_plain {m : Msg} {s : State} (h : s.Hears m) {c : Instr} {code : Byte} (message : messageOf c = some (code, m))
    {r : Report} (handler : handlerOf code m s = indexed s (bothZero m) fun _ => valued (noPayload m) s (done (s.withRep r))) :
    exec c s = .next (
      if ¬ (m.indexA = 0 ∧ m.indexB = 0) then s.answered m code .noEntry zeros28
      else if ¬ UnusedZero m 0 then s.answered m code .badValue zeros28
      else (s.withRep r).answered m code .done zeros28) := by
  rw [exec_of_hears h message, handler, plain_eq]
  simp only [ite_answered, refuse_answered, done_answered]

/-- Settles O42: the checks by `release_eq`, `ackAttention_of_code` and `plain_eq`, the effect of RELEASE by
`State.releaseBuffer_store` and `State.releaseBuffer_rep`. -/
theorem releaseAttentionAndPause : Obligations.ReleaseAttentionAndPause := by
  refine ⟨fun m s h => ?_, fun m s h => ?_⟩
  · rw [exec_of_hears h (c := .release m) rfl, show handlerOf 0x11 m s = _ from release_eq m s]
    simp only [ite_answered, refuse_answered, done_answered]
    refine ⟨fun refused => ?_, fun indexA indexB payload => ?_, fun indexA indexB payload state => ?_,
      fun indexA indexB payload sent => ?_⟩
    · rw [if_pos refused]
    · rw [if_neg (by simp [indexB, indexA]), if_pos payload]
    · rw [if_neg (by simp [indexB, indexA]), if_neg (not_not.2 payload), if_pos state]
    · rw [if_neg (by simp [indexB, indexA]), if_neg (not_not.2 payload), if_neg (not_not.2 sent)]
      obtain ⟨follows, ⟨queue, discard, pause, lastItem, gate⟩, sendList, made⟩ :=
        s.releaseBuffer_rep (Fin.ofNat 4 m.indexA.toNat)
      obtain ⟨freed, records⟩ := s.releaseBuffer_store (Fin.ofNat 4 m.indexA.toNat)
      exact ⟨_, by rw [← State.releaseBuffer_eq], freed, records, queue, discard, sendList, gate, lastItem, pause, made,
        follows.release⟩
  · have acknowledged (k : Handled) (e : ackAttention m s = k) :
        exec (.ackAttention m) s = .next (k.answered m 0x12) := by
      rw [exec_of_hears h (c := .ackAttention m) rfl, show handlerOf 0x12 m s = _ from e]
    refine ⟨fun a code indexB => ?_, fun indexB => ?_, fun indexB unknown => ?_, exec_plain h rfl rfl, exec_plain h rfl rfl,
      exec_plain h rfl rfl⟩
    · rw [acknowledged _ (ackAttention_of_code code indexB s)]
      simp only [ite_answered, refuse_answered, done_answered]
    · rw [acknowledged _ (ackAttention_of_indexB indexB s), refuse_answered]
    · rw [acknowledged _ (ackAttention_of_unknown indexB unknown s), refuse_answered]

end Sys2Proof.Machine
end

