-- ==== Sys2Proof/Proofs/QueueAndSlot.lean ====
section
/-! SUPPORT. What the event queue makes of a record offered, what is offered to it with a frame, and what the arbiter places in the
return slot (R131, R133, R139, R142, R144, R147, R148, R168). -/

namespace Sys2Proof.Machine

/-! ### Admission and discard (R131, R144) -/

/-- R131: the types for which the last places of the queue are reserved. -/
theorem Body.reserved_iff (b : Body) :
    b.reserved = true ↔ (∃ k o st el us e d sb pb pr g lag, b = .timerResult k o st el us e d sb pb pr g lag)
      ∨ (∃ p c mm ov th bk me co d, b = .channelFailed p c mm ov th bk me co d)
      ∨ (∃ er st run n, b = .testEnd er st run n) := by
  cases b <;> simp [Body.reserved]

/-- R131: there is room for a record below the bound of its type. -/
theorem Body.room_iff (b : Body) (depth : Nat) :
    (depth < if b.reserved then 128 else 104)
      ↔ (b.reserved = true ∧ depth < 128) ∨ (¬ b.reserved = true ∧ depth < 104) := by
  cases b.reserved <;> simp

/-! ### The records of the drive frame (R66, R168) -/

theorem State.countOutcome_made (s : State) (outcome : Option Nat) :
    ∃ later : List Made, (s.countOutcome outcome).rep.made = s.rep.made ++ later := by
  unfold State.countOutcome
  dsimp only
  repeat' split
  case h_1 =>
    rw [State.setFault_rep]
    exact ⟨[_], rfl⟩
  case h_2.isTrue => exact ⟨[_], rfl⟩
  all_goals exact ⟨[], by simp⟩

theorem State.driveFrame_made (s : State) : ∃ later : List Made, s.driveFrame.rep.made = s.rep.made ++ later := by
  have closed (u : State) : ∃ later : List Made, u.closeJudgment.rep.made = u.rep.made ++ later := by
    unfold State.closeJudgment
    split
    · exact u.countOutcome_made none
    · exact State.countOutcome_made _ none
    · exact ⟨[], by simp⟩
  obtain ⟨later, made⟩ := closed (s.withOut { s.out with delivered := s.deliveredOutputs })
  exact ⟨later, made⟩

theorem State.outputs_made (s : State) : ∃ later : List Made, s.outputs.rep.made = s.rep.made ++ later := by
  unfold State.outputs
  split
  · obtain ⟨later, made, -⟩ := State.rampEvents_made s.countFailoverFrame.firstClamps s.countFailoverFrame.advanced
    exact ⟨later, by rw [State.computeOutputs_eq, made]; simp [State.advanced]⟩
  · exact ⟨[], by simp⟩

/-! ### The return slot (R133, R139, R142) -/

theorem Report.arbiter_of_paused {r : Report} (h : r.pause = true) : r.arbiter none = (r, emptyItem) := by
  simp [Report.arbiter, h]

/-- R142: a capture row may take the return slot. -/
def Report.RowsGo (r : Report) (i : Fin 4) (rest : List (Fin 4)) : Prop :=
  r.sendList = i :: rest ∧ r.gateOpen = true ∧ (r.queue = [] ∨ r.lastItem = .event)

theorem Report.arbiter_of_rows {r : Report} {i : Fin 4} {rest : List (Fin 4)} (h : r.pause = false) (rows : r.RowsGo i rest) :
    r.arbiter none = r.sendRow i := by
  obtain ⟨list, gate, turn⟩ := rows
  simp [Report.arbiter, h, list, gate, turn]

theorem Report.arbiter_of_no_rows {r : Report} (h : r.pause = false)
    (rows : ∀ (i : Fin 4) (rest : List (Fin 4)), ¬ r.RowsGo i rest) : r.arbiter none = r.sendRecord := by
  cases list : r.sendList with
  | nil => simp [Report.arbiter, h, list]
  | cons i rest =>
    have blocked : ¬ (r.gateOpen = true ∧ (r.queue = [] ∨ r.lastItem = .event)) := fun go => rows i rest ⟨list, go⟩
    simp [Report.arbiter, h, list, blocked]

/-- Buffer `b` once its next row has been sent, `last` telling whether it was its last. -/
def Buffer.rowSent (b : Buffer) (last : Prop) [Decidable last] : Buffer :=
  { b with state := if last then .sent else .sending, sentRows := b.sentRows + 1 }

/-- R139: the row that is sent is the next one of the buffer at the head of the send list. -/
theorem Report.sendRow_eq {r : Report} {i : Fin 4} {rest : List (Fin 4)} {row : Row} (list : r.sendList = i :: rest)
    (next : r.buffers[i].rows[r.buffers[i].sentRows]? = some row) :
    r.sendRow i =
      let last := r.buffers[i].sentRows + 1 = r.buffers[i].rows.length
      (Report.setBuffers { r with lastItem := .row, sendList := if last then rest else r.sendList }
        (r.buffers.set i (r.buffers[i].rowSent last)),
        row.item i r.buffers[i].testNumber r.buffers[i].sentRows (decide last)) := by
  obtain ⟨below, -⟩ := List.getElem?_eq_some_iff.1 next
  have final : (r.buffers[i].rows.length ≤ r.buffers[i].sentRows + 1)
      ↔ r.buffers[i].sentRows + 1 = r.buffers[i].rows.length := by omega
  unfold Report.sendRow
  simp only [final, List.getD_eq_getElem?_getD, next, Option.getD_some, list, List.drop_one, List.tail_cons,
    decide_eq_true_eq, upd_eq_set, Buffer.rowSent]

/-- R139, R148: what becomes of the buffer whose row is sent, and of the attention set. -/
theorem Report.sendRow_spec {r : Report} {i : Fin 4} {rest : List (Fin 4)} {row : Row} (list : r.sendList = i :: rest)
    (next : r.buffers[i].rows[r.buffers[i].sentRows]? = some row) :
    let b := r.buffers[i]
    let last := b.sentRows + 1 = b.rows.length
    let q := r.sendRow i
    q.2 = row.item i b.testNumber b.sentRows (decide last)
      ∧ q.1 = { r with
          lastItem := .row, sendList := if last then rest else r.sendList, attention := q.1.attention
          buffers := r.buffers.set i { b with state := if last then .sent else .sending, sentRows := b.sentRows + 1 } }
      ∧ r.AttentionFollows q.1 := by
  dsimp only
  rw [Report.sendRow_eq list next]
  exact ⟨rfl, Report.setBuffers_spec _ _⟩

/-! ### The boundary (R168) -/

theorem Body.isFailover_eq (b : Body) : b.isFailover = decide (recordType b = 11) := by
  cases b <;> rfl

/-- R168: what is offered at the settled boundary is what has been made there. -/
theorem State.ready_rep {s : State} (settled : s.frame.stage = .settled) :
    s.ready.rep = s.boundaryApart.latchZero.flushBoundary.rep ∧ s.boundaryApart.latchZero.rep = s.boundaryApart.rep := by
  refine ⟨?_, by simp⟩
  rw [State.ready, if_pos settled, State.toStage, State.withFrame_rep]

/-- Settles O49, by the rules of admission (`Report.admitOne_joins`, `Report.admitOne_discards`), the flush of the boundary
(`State.flushBoundary_spec`), and the cases of the arbiter. -/
theorem queueAndReturnSlot : Obligations.QueueAndReturnSlot := by
  refine ⟨⟨fun r m => ?_, fun s => ⟨rfl, rfl⟩⟩, fun s => rfl, fun s settled => ?_, fun s => ⟨?_, ?_⟩, fun r => ?_⟩
  · dsimp only
    rw [← Body.reserved_iff, ← Body.room_iff]
    exact ⟨Report.admitOne_joins, Report.admitOne_discards⟩
  · obtain ⟨later, made, apart⟩ := s.boundaryApart_onlyApart
    obtain ⟨ready, same⟩ := State.ready_rep settled
    obtain ⟨plain, before, after, offered, perm, order⟩ := s.boundaryApart.latchZero.flushBoundary_spec
    rw [← ready, same] at offered
    rw [same] at plain perm order
    refine ⟨⟨later, by rw [made], apart⟩, fun none => ?_, before, after, offered, perm, ?_⟩
    · rw [ready, plain none, State.flush, State.withRep_rep, same]
      rfl
    · simpa only [Body.isFailover_eq, madeApart] using order
  · have same : (s.outputs.driveFrame.latchRisen s).rep = s.outputs.driveFrame.rep := by simp
    rw [State.outputStep, State.flush, same]
    rfl
  · obtain ⟨ramps, made⟩ := s.outputs_made
    obtain ⟨closed, sent⟩ := s.outputs.driveFrame_made
    exact ⟨ramps ++ closed, by rw [sent, made, List.append_assoc]⟩
  · refine ⟨fun rp => rfl, Report.arbiter_of_paused, fun goes rows empty => ?_, fun e rest goes rows queue => ?_,
      fun i rest row goes rows next => ?_⟩
    · rw [Report.arbiter_of_no_rows goes rows, Report.sendRecord, empty]
      rfl
    · rw [Report.arbiter_of_no_rows goes rows, Report.sendRecord, queue]
      rfl
    · rw [Report.arbiter_of_rows goes rows]
      exact Report.sendRow_spec rows.1 next

end Sys2Proof.Machine
end

