-- ==== Sys2Proof/Proofs/CaptureSteps.lean ====
section
/-! SUPPORT. What the capture store makes of the start of a test, of an event, of the row of a frame and of the entry to ENDING
(R134 to R138, R141, R148). -/

namespace Sys2Proof.Machine

/-! ### The capture record of the test (R7) -/

theorem Capture.enable_iff (p : Payload) : Capture.enable p = true ↔ p[0] = 1 := by
  rw [Capture.enable, beq_iff_eq]
  exact Payload.u8_eq_ofNat_iff p 0 (by omega) 1 (by omega)

theorem Capture.trigger_eq (p : Payload) :
    Capture.trigger p = ⟨Kind.ofCode p[1].toNat |>.getD .none, p[2].toNat⟩ := by
  simp [Capture.trigger, condAt, Payload.u8_eq]

theorem Capture.pre_eq (p : Payload) : Capture.pre p = 256 * p[3].toNat + p[4].toNat := Payload.u16_eq p 3 (by omega)

/-! ### CAPTURE_WAITING (R148) -/

theorem Report.AttentionFollows.of_same {r q : Report} (buffers : q.buffers = r.buffers) (attention : q.attention = r.attention) :
    r.AttentionFollows q := by
  have level : q.WaitingNow ↔ r.WaitingNow := by rw [Report.WaitingNow, buffers, Report.WaitingNow]
  exact ⟨fun _ _ => by rw [attention], fun now before => absurd (level.1 now) before,
    fun before now => absurd (level.2 before) now, fun _ => by rw [attention]⟩

/-- From `s` to `t` the capture store has worked: nothing that it does not own has changed, and the attention set follows the
buffers. -/
structure State.StoreWorks (s t : State) : Prop where
  state : t = s.withRep { s.rep with
    buffers := t.rep.buffers, made := t.rep.made, activity := t.rep.activity, sendList := t.rep.sendList
    attention := t.rep.attention }
  follows : s.rep.AttentionFollows t.rep

namespace State.StoreWorks

variable {s t : State}

theorem refl (s : State) : s.StoreWorks s := ⟨rfl, .of_same rfl rfl⟩

/-- What leaves buffers and attention set may follow. -/
theorem andThen {u : State} (h : s.StoreWorks t)
    (same : u = t.withRep { t.rep with made := u.rep.made, activity := u.rep.activity, sendList := u.rep.sendList }) :
    s.StoreWorks u := by
  obtain ⟨state, follows⟩ := h
  rw [same]
  refine ⟨?_, follows⟩
  conv_lhs => rw [state]
  rfl

theorem make (h : s.StoreWorks t) (n time : Nat) (b : Body) : s.StoreWorks (t.make n time b) := h.andThen rfl

theorem setActivity (h : s.StoreWorks t) (a : Activity) : s.StoreWorks (t.setActivity a) := h.andThen rfl

theorem listBuffer (h : s.StoreWorks t) (i : Fin 4) : s.StoreWorks (t.listBuffer i) := h.andThen rfl

end State.StoreWorks

theorem State.setBuffers_works (s : State) (b : Vector Buffer 4) : s.StoreWorks (s.setBuffers b) := by
  obtain ⟨rep, follows⟩ := Report.setBuffers_spec s.rep b
  refine ⟨?_, follows⟩
  rw [State.setBuffers, State.withRep_rep, rep]

/-- R148: where the level stays, so does the attention set. -/
theorem Report.setBuffers_of_level {r : Report} {b : Vector Buffer 4} (h : waitingLevel b = waitingLevel r.buffers) :
    r.setBuffers b = { r with buffers := b } := by
  unfold Report.setBuffers
  rw [h]
  cases waitingLevel r.buffers <;> rfl

theorem waitingLevel_upd {b : Vector Buffer 4} {i : Fin 4} {x : Buffer} (sent : b[i].state ≠ .sent) (sent' : x.state ≠ .sent)
    (free : b[i].state ≠ .free) (free' : x.state ≠ .free) : waitingLevel (upd b i x) = waitingLevel b := by
  simp only [waitingLevel, bne, state_upd sent sent', state_upd free free']

/-! ### The start of a test and an event (R135, R136) -/

theorem State.captureStart_records {s : State} (enabled : s.plan.capture[0] = 1) {i : Fin 4}
    (free : freeBuffer s.rep.buffers = some i) :
    s.captureStart.rep = { s.rep with
        activity := .on, buffers := s.rep.buffers.set i (Buffer.recording s.seq.testNumber)
        attention := s.captureStart.rep.attention }
      ∧ s.rep.AttentionFollows s.captureStart.rep := by
  obtain ⟨rep, follows⟩ := Report.setBuffers_spec s.rep (upd s.rep.buffers i (Buffer.recording s.seq.testNumber))
  rw [State.captureStart_of_free ((Capture.enable_iff _).2 enabled) free]
  refine ⟨?_, follows⟩
  rw [State.setActivity, State.withRep_rep, State.setBuffers, State.withRep_rep, rep, upd_eq_set]

/-- R136: the level of CAPTURE_WAITING does not tell RECORDING from TRIGGERED. -/
theorem State.offerCapture_triggers {s : State} {ev : Cond} (stamp : Nat) (on : s.rep.activity = .on)
    (matched : Capture.trigger s.plan.capture = ev) {i : Fin 4} (live : liveBuffer s.rep.buffers = some i)
    (recording : s.rep.buffers[i].state = .recording) :
    (s.offerCapture ev stamp).rep = { s.rep with
      buffers := s.rep.buffers.set i { s.rep.buffers[i] with
        state := .triggered, trigRow := s.rep.buffers[i].rows.length, trigFrame := s.seq.testFrame, trigTime := stamp } } := by
  have records : s.rep.buffers[i].Live := .inl recording
  have level := waitingLevel_upd (x := { s.rep.buffers[i] with
    state := .triggered, trigRow := s.rep.buffers[i].rows.length, trigFrame := s.seq.testFrame, trigTime := stamp })
    records.ne_sent (by simp) records.ne_free (by simp)
  rw [State.offerCapture_of_recording on matched live recording, State.setBuffers, State.withRep_rep,
    Report.setBuffers_of_level level, upd_eq_set]

/-! ### The row of a frame (R134, R137, R141) -/

theorem State.bufferFull_works (s : State) (i : Fin 4) (b : Buffer) : s.StoreWorks (s.bufferFull i b) := by
  cases free : freeBuffer (upd s.rep.buffers i { b with state := .full }) with
  | none =>
    rw [State.bufferFull_of_none free]
    exact ((((s.setBuffers_works _).listBuffer _).make _ _ _).setActivity _).make _ _ _
  | some j =>
    rw [State.bufferFull_of_free free]
    exact ((s.setBuffers_works _).listBuffer _).make _ _ _

theorem State.addRow_works (s : State) (r : Row) : s.StoreWorks (s.addRow r) := by
  cases live : liveBuffer s.rep.buffers with
  | none =>
    rw [State.addRow_of_none live]
    exact .refl s
  | some i =>
    have records : s.rep.buffers[i].Live := (liveBuffer_eq_some_iff.1 live).1
    rcases records with recording | triggered
    · rw [State.addRow_of_recording live recording]
      exact s.setBuffers_works _
    · rw [State.addRow_of_triggered live triggered]
      split
      · exact s.bufferFull_works _ _
      · exact s.setBuffers_works _

/-- R137, R141: the buffer is FULL, and CAPTURE_READY is made. -/
theorem State.bufferFull_store {s : State} {i : Fin 4} (triggered : s.rep.buffers[i].state = .triggered) (b : Buffer) :
    let t := s.bufferFull i b
    let full := s.rep.buffers.set i { b with state := .full }
    let ready : Made := ⟨s.seq.testNumber, 16 * s.seq.testFrame, readyBody i b, false⟩
    t.rep.sendList = s.rep.sendList ++ [i]
      ∧ (∀ k : Fin 4, freeBuffer s.rep.buffers = some k →
          t.rep.buffers = full.set k (Buffer.recording s.seq.testNumber)
          ∧ t.rep.made = s.rep.made ++ [ready] ∧ t.rep.activity = s.rep.activity)
      ∧ (freeBuffer s.rep.buffers = none → t.rep.buffers = full ∧ t.rep.activity = .waiting
          ∧ t.rep.made = s.rep.made ++ [ready, ⟨s.seq.testNumber, 16 * s.seq.testFrame, .captureUnavailable (some i)
              (sentBuffers s.rep.buffers) (s.rep.sendList.length + 1), false⟩]) := by
  have free' : freeBuffer (upd s.rep.buffers i { b with state := .full }) = freeBuffer s.rep.buffers :=
    freeBuffer_upd (by rw [triggered]; decide) (by simp)
  have sent' : sentBuffers (upd s.rep.buffers i { b with state := .full }) = sentBuffers s.rep.buffers :=
    sentBuffers_upd (by rw [triggered]; decide) (by simp)
  cases free : freeBuffer s.rep.buffers with
  | none =>
    rw [State.bufferFull_of_none (free'.trans free), sent']
    simp [upd_eq_set, readyBody]
  | some j =>
    rw [State.bufferFull_of_free (free'.trans free)]
    simp [upd_eq_set, readyBody]

/-! ### The own clock forms the row (R134, log 2) -/

theorem State.lineLevels_eq (s : State) : s.lineLevels = Vector.ofFn fun l => decide (s.LineHigh l) := by
  rw [State.lineLevels, tab_eq_ofFn]
  simp only [State.lineLevel_eq]

theorem State.formRow_eq (s : State) :
    s.formRow = if s.seq.phase = .running ∨ s.seq.phase = .ending then
        s.addRow ⟨s.frame.gap, s.out.delivered, Vector.ofFn fun i => s.scan.inputs[i].settled,
          Vector.ofFn fun l => decide (s.LineHigh l)⟩
      else s := by
  unfold State.formRow
  rw [State.lineLevels_eq, tab_eq_ofFn]
  simp only [Phase.inTest_iff]

/-- Log 2: after sub-tick 15, with nothing else due, the own clock forms the row and ends the slot. -/
theorem State.tick_of_lastSubtick {s : State} (closed : s.frame.stage = .closed) (due : s.dueStep = none)
    (check : s.checkIsLate = false) (slot : s.clock.slotDone = false) (last : s.clock.subtick = 15) :
    s.tick = s.formRow.flush.withClock { s.clock with slotDone := true } := by
  have clock : s.formRow.flush.clock = s.clock := by simp
  rw [State.tick, if_pos closed, due]
  simp only [check, slot, State.advance, last, Bool.false_eq_true, if_false, Nat.lt_irrefl, clock]

/-! ### The entry to ENDING (R138, R141) -/

theorem State.captureClose_works (s : State) (e : Nat) : s.StoreWorks (s.captureClose e) := by
  cases live : liveBuffer s.rep.buffers with
  | none =>
    rw [State.captureClose_of_none live]
    exact (State.StoreWorks.refl s).setActivity _
  | some i =>
    have records : s.rep.buffers[i].Live := (liveBuffer_eq_some_iff.1 live).1
    rcases records with recording | triggered
    · rw [State.captureClose_of_recording live recording]
      exact (s.setBuffers_works _).setActivity _
    · by_cases rows : s.rep.buffers[i].rows = []
      · rw [State.captureClose_of_empty live triggered rows]
        exact ((s.setBuffers_works _).make _ _ _).setActivity _
      · rw [State.captureClose_of_rows live triggered rows]
        exact (((s.setBuffers_works _).listBuffer _).make _ _ _).setActivity _

/-- R138, R141: what becomes of the buffer that records. -/
theorem State.captureClose_store {s : State} {i : Fin 4} (live : liveBuffer s.rep.buffers = some i) (e : Nat) :
    let t := s.captureClose e
    let b := s.rep.buffers[i]
    let freed := s.rep.buffers.set i Buffer.reset
    let ready : Made := ⟨s.seq.testNumber, 16 * e, readyBody i b.cut, false⟩
    (b.state = .recording → t.rep.buffers = freed ∧ t.rep.made = s.rep.made ∧ t.rep.sendList = s.rep.sendList)
      ∧ (b.state = .triggered → b.rows = [] →
          t.rep.buffers = freed ∧ t.rep.made = s.rep.made ++ [ready] ∧ t.rep.sendList = s.rep.sendList)
      ∧ (b.state = .triggered → b.rows ≠ [] → t.rep.buffers = s.rep.buffers.set i b.cut
          ∧ t.rep.made = s.rep.made ++ [ready] ∧ t.rep.sendList = s.rep.sendList ++ [i]) := by
  refine ⟨fun recording => ?_, fun triggered rows => ?_, fun triggered rows => ?_⟩
  · rw [State.captureClose_of_recording live recording]
    simp [upd_eq_set]
  · rw [State.captureClose_of_empty live triggered rows]
    simp [upd_eq_set]
  · rw [State.captureClose_of_rows live triggered rows]
    simp [upd_eq_set]

/-! ### The obligation -/

/-- R136: an event that does not match, or comes where no buffer is RECORDING, does nothing. -/
theorem State.offerCapture_same {s : State} {ev : Cond} (stamp : Nat)
    (h : s.rep.activity ≠ .on ∨ Capture.trigger s.plan.capture ≠ ev
      ∨ ∀ j : Fin 4, s.rep.buffers[j].state ≠ .recording) :
    s.offerCapture ev stamp = s := by
  rcases h with off | other | none
  · exact State.offerCapture_of_apart (fun both => off both.1) stamp
  · exact State.offerCapture_of_apart (fun both => other both.2) stamp
  · exact State.offerCapture_of_no_recording none ev stamp

/-- Settles O50, case by case: the start by `State.captureStart_records`, an event by `State.offerCapture_triggers`, a row by
`State.addRow_works` and `State.bufferFull_store`, the own clock by `State.tick_of_lastSubtick`, the entry to ENDING by
`State.captureClose_works` and `State.captureClose_store`. -/
theorem captureRows : Obligations.CaptureRows := by
  refine ⟨fun s => ?_, fun ev stamp s i => ?_, fun r s i => ?_, fun s pending closed due check slot last => ?_, fun s e i => ?_⟩
  · refine ⟨fun disabled => ?_, fun enabled i free below => ?_, fun enabled none => ?_⟩
    · exact State.captureStart_of_disabled (Bool.not_eq_true _ ▸ mt (Capture.enable_iff _).1 disabled)
    · exact State.captureStart_records enabled (freeBuffer_eq_some_iff.2 ⟨free, below⟩)
    · dsimp only
      rw [State.captureStart_of_none ((Capture.enable_iff _).2 enabled) (freeBuffer_eq_none_iff.2 none), sentBuffers_eq]
      rfl
  · dsimp only
    rw [← Capture.trigger_eq]
    exact ⟨fun on matched recording below =>
      State.offerCapture_triggers stamp on matched (liveBuffer_eq_some_iff.2 ⟨.inl recording, below⟩) recording,
      State.offerCapture_same stamp⟩
  · dsimp only
    rw [← Capture.pre_eq, ← sentBuffers_eq]
    have works := s.addRow_works r
    refine ⟨works.state, works.follows, fun none => State.addRow_of_none (liveBuffer_eq_none_iff.2 none), fun records below => ?_⟩
    have live : liveBuffer s.rep.buffers = some i := liveBuffer_eq_some_iff.2 ⟨records, below⟩
    refine ⟨fun recording => ?_, fun triggered more => ?_, fun triggered full => ?_⟩
    · rw [State.addRow_of_recording live recording]
      simp [upd_eq_set]
    · rw [State.addRow_of_triggered live triggered, if_neg more]
      simp [upd_eq_set, Buffer.plusRow]
    · rw [State.addRow_of_triggered live triggered, if_pos full]
      obtain ⟨list, next, waits⟩ := State.bufferFull_store triggered (s.rep.buffers[i].plusRow r)
      exact ⟨list, fun k free first => next k (freeBuffer_eq_some_iff.2 ⟨free, first⟩),
        fun none => waits (freeBuffer_eq_none_iff.2 none)⟩
  · dsimp only
    rw [← State.formRow_eq, ← State.tick_of_lastSubtick closed due check slot last, step, pending]
  · have works := s.captureClose_works e
    refine ⟨?_, works.follows, fun none => State.captureClose_of_none (liveBuffer_eq_none_iff.2 none), fun records below =>
      State.captureClose_store (liveBuffer_eq_some_iff.2 ⟨records, below⟩) e⟩
    have off : (s.captureClose e).rep.activity = .off := rfl
    rw [← off]
    exact works.state

end Sys2Proof.Machine
end
